-- ==== Sys2Proof/Word.lean ====
section
/-! DEFINITION. Word.lean: the words of the E4 (R6 to R9 of spec/00_scope.md). -/

namespace Sys2Proof

/-- A byte of memory. -/
abbrev Byte := BitVec 8

/-- A lane of a vector register, and a word of an instruction. -/
abbrev Word := BitVec 32

/-- An address, a pair read as one value, a control register. -/
abbrev DWord := BitVec 64

/-- One bit per lane of a group: bit l belongs to lane l (R5: 64 lanes per group). -/
abbrev Mask := BitVec 64

/-- An instruction word: three little-endian 32-bit words (R66). -/
abbrev IWord := BitVec 96

/-- How a table is held: keys rising, no key twice, so that equal tables are equal lists. -/
abbrev Table (α : Type) := List (Nat × α)

end Sys2Proof
end

