-- ==== Sys2Proof/Config.lean ====
section
/-! DEFINITION. Config.lean: what a part fixes, and the free values (notes/assumptions/4.md). Nothing here has a
value that Lean can evaluate: a statement holds whatever these are. -/

namespace Sys2Proof.Config

/-- The n-th free value a step draws: an unstated result, an order, an amount of time (log entry 4). -/
opaque freeValue : Nat → BitVec 64

/-- The part revision, which the device hash of R41 covers and an image's PARTREV names (R435). -/
opaque partRevision : BitVec 32

/-- The boot ROM's revision and the SHAKE256-64 of its public key, which the mailbox reports (R440). -/
opaque romRevision : BitVec 32
opaque romKeyId : BitVec 64

/-- From where on the command processor keeps the argument buffers of a context's launches (R38): the manual names no address
(Queues.lean). -/
opaque argPlace : Nat → BitVec 64

/-- Where the 256 MiB that the firmware sets aside for translations lie (R42): the manual names no address. -/
opaque textPlace : BitVec 64

/-- Where the 529 MiB of spill areas lie (R331, R434): the manual names no address. -/
opaque spillPlace : BitVec 64

/-- Bytes of HBM by address, as a failure leaves them (R437): their contents are not promised. -/
opaque lostBytes : Nat → List (Nat × Byte)

/-- The progress text of the diagnostic mailbox (R440): the manual does not say what it reads. -/
opaque progressText : Nat → List Byte

/-- Whether the signature of a boot image verifies under the key held in ROM (R435): a function of the bytes
covered and of the signature. -/
opaque signatureVerifies : List Byte → List Byte → Bool

end Sys2Proof.Config
end

