-- ==== Sys2Proof/Syntax.lean ====
section
/-! DEFINITION. Syntax.lean: the instructions and events of the E4, one constructor per row of
spec/opcode_table.json. A native instruction carries the fields of its 96-bit word that its mnemonic leaves
free (R67), the FN variants under the names the manual gives them. An event carries what the outside, or the
agent that makes it, decides. -/

namespace Sys2Proof

/-! ## Fields shared by every native instruction -/

/-- Guard and hints (R67, R75, R79, R81). -/
structure Ctl where
  gp : Fin 8
  gn : Bool
  stall : Fin 8
  yl : Bool
deriving DecidableEq, Repr

/-- What NUM and SPEC of a source select (R68, R69). -/
inductive Sel where
  | reg (n : Fin 128)
  | pred (k : Fin 8)
  | zero
  | imm
  | fimm
  | lane
deriving DecidableEq, Repr

/-- A source field (R68). The all-zero field is register 0 with neither mark. -/
structure Src where
  sel : Sel
  neg : Bool
  lu : Bool
deriving DecidableEq, Repr

/-- A destination field (R73). -/
inductive Dst where
  | vec (n : Fin 128)
  | pred (k : Fin 8)
  | none
deriving DecidableEq, Repr

/-- Type codes 0 to 25 (R74). -/
inductive Ty where
  | none
  | b8 | b16 | b32 | b64
  | i8 | i16 | i32 | i64
  | f16 | bf16 | f32
  | f16x2 | bf16x2
  | i16x2 | b16x2
  | i8x4 | b8x4
  | e4m3 | e5m2
  | kf4
  | mxf8 | mxi8
  | l8 | l4
  | t3
deriving DecidableEq, Repr

/-- The fields of a word other than OPC and FN (R67). -/
structure Op where
  ctl : Ctl
  ty : Ty
  dst : Dst
  a : Src
  b : Src
  c : Src
  imm : Word
deriving DecidableEq, Repr

/-! ## Variants that FN carries -/

/-- FUNNEL (R143). -/
inductive FunnelDir where | l | r | lw | rw
deriving DecidableEq, Repr

/-- ICMP and SWAIT conditions (R149, R206). -/
inductive Cond where | eq | ne | lt | le | gt | ge
deriving DecidableEq, Repr

/-- FCMP conditions (R165). -/
inductive FCond where | eq | ne | lt | le | gt | ge | nan | num
deriving DecidableEq, Repr

/-- How a comparison combines with C (R149). -/
inductive Comb where | none | and | or
deriving DecidableEq, Repr

/-- PLOP functions (R153). -/
inductive Logic where | and | or | xor
deriving DecidableEq, Repr

/-- Which float sources read as magnitudes (R162). -/
structure Abs where
  a : Bool
  b : Bool
  c : Bool
deriving DecidableEq, Repr

/-- Rounding directions (R167). -/
inductive Rnd where | rn | rz | rm | rp | ra
deriving DecidableEq, Repr

/-- Float source formats of F2I (0 to 2) and F2F (0 to 4) (R172, R174). -/
inductive FSrc where | f16 | bf16 | f32 | e4m3 | e5m2
deriving DecidableEq, Repr

/-- FPACK formats (R175). -/
inductive PackFmt where | f16x2 | bf16x2 | e4m3x2 | e5m2x2
deriving DecidableEq, Repr

/-- LXCH modes (R179). -/
inductive LxMode where | pick | rot | edge | flip
deriving DecidableEq, Repr

/-- POLL forms (R181). -/
inductive PollMode where | some | every | same | mask | first
deriving DecidableEq, Repr

/-- RED and SCAN operations (R182). -/
inductive RedOp where | add | min | max | and | or | xor | fadd | fmin | fmax
deriving DecidableEq, Repr

/-- Barrier forms (R176). -/
inductive BarMode where | sync | arrive | wait
deriving DecidableEq, Repr

/-- Access widths of LD and ST (R209); LDR and STC take two of them (R216). -/
inductive MemW where | w8 | w16 | w32 | w64 | w128
deriving DecidableEq, Repr

/-- Request types (R11, R209). -/
inductive ReqTy where | own | wt | si | uc
deriving DecidableEq, Repr

/-- Prefetch levels (R220). -/
inductive Lvl where | l1 | dc | l2
deriving DecidableEq, Repr

/-- Atomic operations (R223). -/
inductive AtomOp where | add | fadd | min | max | and | or | xor | xchg | cas | inc | dec
deriving DecidableEq, Repr

/-- Atomic orderings (R222). -/
inductive AtomOrd where | rlx | acq | rel | ar
deriving DecidableEq, Repr

/-- Fence orderings (R227). -/
inductive FenceOrd where | acq | rel | sc
deriving DecidableEq, Repr

/-- Scopes (R10, R222). -/
inductive Scope where | grp | blk | cls | die | dev | sys
deriving DecidableEq, Repr

/-- CPY dimensions (R240). -/
inductive CpyDim where | d1 | d2 | d3
deriving DecidableEq, Repr

/-- MLD roles (R258). -/
inductive Role where | stream | station | accum | scale
deriving DecidableEq, Repr

/-- MLD memory formats (R258). -/
inductive MldSrc where | same | xf32 | xbf16 | xf16
deriving DecidableEq, Repr

/-- MMOV forms (R261). -/
inductive MmovForm where | to | from | toa | tob
deriving DecidableEq, Repr

/-- Streaming formats of MMA and MMAS (R262). -/
inductive MmaFmt where
  | f32 | bf16 | f16 | e4m3 | e5m2 | mxf8e4 | mxf8e5 | mxi8 | kf4 | l8 | l4 | i8
deriving DecidableEq, Repr

/-! ## What events carry -/

/-- An access that comes from outside the compute dies: a host or a peer (R430, R431). -/
inductive ExtReq where
  | read (n : Nat)
  | write (bytes : List Byte)
  /-- in a type; tagged: ATOMT (R226) -/
  | atom (op : AtomOp) (ty : Ty) (tagged : Bool) (b c : DWord)
deriving DecidableEq, Repr

/-- Which memory a host access names: package HBM, or its own memory behind a Gondola (R359, R430). -/
inductive HostSpace where | hbm | host0 | host1
deriving DecidableEq, Repr

/-- Where an uncorrectable error lies (R443). -/
inductive UeWhere where
  | word (key : Nat)
  | register (g r : Nat)
  /-- a byte of a tile slot: (partition x 16 + slot) x 16384 + offset -/
  | tile (key : Nat)
  /-- a line of package HBM that its own code cannot correct (R444) -/
  | hbmLine (line : Nat)
  /-- the same for the image of register r in the spill area of a group slot (R330, R331) -/
  | spill (g r : Nat)
  | icache (core line : Nat)
  | dieControl (d : Nat)
  | lodgeControl
deriving DecidableEq, Repr

/-- What a UCIe packet asks for when it is taken (R417). -/
inductive UciePayload where
  | request (port : Nat)
  | reply (id : Nat)
  | other
deriving DecidableEq, Repr

/-! ## The rows of the opcode table -/

inductive Instr where
  -- integer, logic, predicates, shapes (spec/07_isa_integer.md)
  | iadd (sat : Bool) (o : Op)
  | isub (sat : Bool) (o : Op)
  | imul (o : Op)
  | imulh (o : Op)
  | imad (sat : Bool) (o : Op)
  | imadw (o : Op)
  | imin (o : Op)
  | imax (o : Op)
  | iabs (o : Op)
  | ineg (o : Op)
  | and (o : Op)
  | or (o : Op)
  | xor (o : Op)
  | andn (o : Op)
  | not (o : Op)
  | bool3 (o : Op)
  | shl (o : Op)
  | shr (o : Op)
  | sar (o : Op)
  | funnel (dir : FunnelDir) (o : Op)
  | rot (right : Bool) (o : Op)
  | clz (o : Op)
  | popc (o : Op)
  | brev (o : Op)
  | bfe (o : Op)
  | bfi (o : Op)
  | isel (o : Op)
  | icmp (cond : Cond) (comb : Comb) (o : Op)
  | lea (t : Fin 8) (o : Op)
  | mov (o : Op)
  | movi (o : Op)
  | icvt (sat : Bool) (src : Ty) (o : Op)
  | plop (op1 : Logic) (op2 : Option Logic) (o : Op)
  | pcnt (o : Op)
  | shapeq (o : Op)
  | forceu (o : Op)
  | mkaff (o : Op)
  | mkgen (o : Op)
  | vkill (o : Op)
  -- floats, SFU, conversions (spec/08_isa_float.md)
  | fadd (abs : Abs) (o : Op)
  | fsub (abs : Abs) (o : Op)
  | fmul (abs : Abs) (o : Op)
  | ffma (abs : Abs) (o : Op)
  | fmin (nan : Bool) (o : Op)
  | fmax (nan : Bool) (o : Op)
  | fcmp (cond : FCond) (comb : Comb) (o : Op)
  | fclass (o : Op)
  | frnd (rnd : Rnd) (o : Op)
  | fdiv (o : Op)
  | fdot2 (half : Bool) (o : Op)
  | frcp (o : Op)
  | frsq (o : Op)
  | fsqrt (o : Op)
  | fex2 (o : Op)
  | flg2 (o : Op)
  | fsinpi (o : Op)
  | fcospi (o : Op)
  | f2i (src : FSrc) (sat : Bool) (rnd : Rnd) (o : Op)
  | i2f (src : Ty) (o : Op)
  | f2f (sat sr : Bool) (src : FSrc) (o : Op)
  | fpack (sat sr hi : Bool) (fmt : PackFmt) (o : Op)
  -- lanes, control flow, barriers, system (spec/09_isa_lanes_control.md)
  | lxch (mode : LxMode) (o : Op)
  | poll (mode : PollMode) (o : Op)
  | red (op : RedOp) (o : Op)
  | scan (op : RedOp) (excl : Bool) (o : Op)
  | bcast (o : Op)
  | bra (o : Op)
  | brx (o : Op)
  | call (o : Op)
  | ret (o : Op)
  | exit (o : Op)
  | yield (o : Op)
  | nop (o : Op)
  | sleep (o : Op)
  | bar (mode : BarMode) (o : Op)
  | cbar (mode : BarMode) (o : Op)
  | dbar (mode : BarMode) (o : Op)
  | swait (cond : Cond) (o : Op)
  | sreg (o : Op)
  | sset (o : Op)
  | trap (o : Op)
  | tret (o : Op)
  | launch (o : Op)
  | signal (st : Bool) (o : Op)
  -- loads, stores, atomics, fences, freeze (spec/10_isa_memory.md)
  | ld (loc : Bool) (w : MemW) (req : ReqTy) (o : Op)
  | st (loc : Bool) (w : MemW) (req : ReqTy) (o : Op)
  | ldr (wide : Bool) (o : Op)
  | stc (wide : Bool) (o : Op)
  | prf (ex : Bool) (lvl : Lvl) (o : Op)
  | wbl (o : Op)
  | atom (op : AtomOp) (ord : AtomOrd) (o : Op)
  | atomt (op : AtomOp) (ord : AtomOrd) (o : Op)
  | fence (scope : Scope) (ord : FenceOrd) (o : Op)
  | frz (sys : Bool) (o : Op)
  | thaw (o : Op)
  | fwait (o : Op)
  | fqry (o : Op)
  -- Lift copies, byte barriers, pinning, matrix (spec/11_isa_async_matrix.md)
  | cpy (tb cv : Bool) (dim : CpyDim) (o : Op)
  | cpyg (tb cv : Bool) (o : Op)
  | cbatch (o : Op)
  | cwait (o : Op)
  | tbinit (o : Op)
  | tbexp (o : Op)
  | tbarr (o : Op)
  | tbwait (strict : Bool) (o : Op)
  | ipf (o : Op)
  | ipin (o : Op)
  | iunpin (o : Op)
  | mclaim (o : Op)
  | mrel (o : Op)
  | mzero (o : Op)
  | mld (src : MldSrc) (role : Role) (o : Op)
  | mst (sat : Bool) (o : Op)
  | mmov (form : MmovForm) (o : Op)
  | mma (fmt : MmaFmt) (o : Op)
  | mmas (fmt : MmaFmt) (o : Op)
  | mwait (o : Op)
  | mxv (o : Op)
  | mcntRd (o : Op)
  | mcntRr (o : Op)
  -- events of a core
  | illegalEncoding (w : IWord)
  | runCountRotation (g : Nat)
  | aging (g : Nat)
  | shadowModeEntry (p : Nat)
  | shadowModeEnd (p : Nat)
  | sleepExpiry (g lane : Nat)
  | swaitSatisfied (g lane : Nat)
  | swaitTimeout (g lane : Nat)
  | loadResultArrival (id : Nat)
  | storeAcknowledge (id : Nat) (scope : Scope)
  | refillComplete (g r : Nat)
  | copyBytesDelivered (id k : Nat)
  | copyComplete (id : Nat)
  | matrixOpComplete (p : Nat)
  | groupEnd (g : Nat)
  | instructionFetchFault (g lane : Nat)
  -- queues, packets, contexts (spec/02_launch_contract.md, spec/18_traps_preemption.md)
  | notifyWrite (q off size : Nat) (v : DWord)
  | headerRecheck (q : Nat)
  | launchPacket (q : Nat)
  | barrierAnd (q : Nat)
  | copyPacket (q : Nat)
  | signalPacket (q : Nat)
  | nopPacket (q : Nat)
  | packetComplete (id : Nat)
  | qenable (v : DWord)
  | qdisable (v : DWord)
  | teardown (v : DWord)
  | contextFree (ctx : Nat)
  | launchRecord (ix : Nat)
  | gridBind (grid : Nat)
  | translationComplete (id pick : Nat)
  -- dispatch, save and restore (spec/15_scheduling.md, spec/18_traps_preemption.md)
  | blockDispatch
  | admissionStarvation (grid : Nat)
  | bindRecord (core entry : Nat)
  | preemptionSave (blk : Nat)
  | restore (core entry : Nat)
  -- homes, translation, freezing (spec/20_memory_hierarchy.md, spec/22_freeze.md)
  | homeRequest (port : Nat)
  | forwardedWrite (die : Nat)
  | recallComplete (line : Nat)
  | regionMerge (base log2 : Nat)
  | pageWalk (port : Nat)
  | mmpRepair (ctx page : Nat) (entries : Option (List DWord))
  | ptfence (ctx base len : Nat)
  | pageMigration (ctx va frame : Nat)
  | frzInstall (die : Nat)
  | collectRequest (die entry : Nat)
  | collectionComplete (entry : Nat)
  -- dies, links, events, Gondolas, the pod (spec/26_package_fabric.md)
  | warmreset (v : DWord)
  | absent (v : DWord)
  | present (v : DWord)
  | drain (die : Nat) (bad : List Nat)
  | readmission (die : Nat) (ok : Bool)
  | holderReset (port : Nat)
  | uciePacketReceive (sender inc : Nat) (pk : UciePayload)
  | linkStepChange (link step : Nat)
  | retrainingWindowEnd (link : Nat)
  | flitReplay (link : Nat) (ok : Bool)
  | eventRecordAccept (source : Nat)
  | overflow (gondola : Nat)
  | evqbaseWrite (gondola : Nat) (v : DWord)
  | evqctlWrite (gondola : Nat) (v : DWord)
  | evqridxWrite (gondola : Nat) (v : DWord)
  | dmaCopy (id k : Nat)
  | hostAccess (space : HostSpace) (gondola addr : Nat) (r : ExtReq)
  | peerRequest (peer inc : Nat) (addr : Nat) (r : ExtReq)
  | peerLost (peer : Nat)
  | peerTimeout (peer : Nat)
  | peerJoined (peer inc : Nat)
  | ethernetTransfer (gondola ctx : Nat) (addr : DWord) (r : ExtReq)
  -- bring-up, power, errors (spec/27_bringup_reliability.md)
  | powerOnReset (sramOk linkOk : Bool)
  | load (v : DWord) (fetchOk hbmOk : Bool) (hbmStacks dieOk linkOk : BitVec 8)
  | throttle (power temp : Nat)
  | clockRaise (power temp : Nat)
  | thermalTrip (temp : Nat)
  | sramCorrectedError (key : Nat)
  | uncorrectableError (w : UeWhere)
  | hbmScrub (line : Nat)
  | errorRegisterWrite (off : Nat) (v : DWord)
  | registerWrite (gondola off : Nat) (v : DWord)
  | peerCollectRequest (peer inc : Nat) (collect : Bool) (base len : Nat)
  | powerDown
deriving DecidableEq, Repr

end Sys2Proof
end

