-- ==== Sys2Proof/WellFormed.lean ====
section
/-! DEFINITION. WellFormed.lean: step 4 of R77 as far as it depends on the word alone: the field tables of R135,
R161, R176, R207 and R238, and R68 to R74. What depends on the state (SREG names marked H, DBAR without DSPAN, the MMA
forms of a class) is checked when the instruction issues. -/

namespace Sys2Proof

/-! ## Types -/

/-- Width in bits of one operand of the type (R74, R130). -/
def Ty.bits : Ty → Nat
  | .b8 | .i8 | .e4m3 | .e5m2 => 8
  | .b16 | .i16 | .f16 | .bf16 => 16
  | .b64 | .i64 => 64
  | _ => 32

/-- The types that name register pairs (R72). -/
def Ty.wide (t : Ty) : Bool := t == .b64 || t == .i64

/-- Integer and bit types, codes 1 to 8 (R130's I). -/
def Ty.isInt : Ty → Bool
  | .b8 | .b16 | .b32 | .b64 | .i8 | .i16 | .i32 | .i64 => true
  | _ => false

/-- Raw bit types, codes 1 to 4 (R130's B). -/
def Ty.isBits : Ty → Bool
  | .b8 | .b16 | .b32 | .b64 => true
  | _ => false

/-- Packed integer types, codes 14 to 17 (R130's P). -/
def Ty.isPackedInt : Ty → Bool
  | .i16x2 | .b16x2 | .i8x4 | .b8x4 => true
  | _ => false

/-- Signed types: codes 5 to 8, 14 and 16. -/
def Ty.signed : Ty → Bool
  | .i8 | .i16 | .i32 | .i64 | .i16x2 | .i8x4 => true
  | _ => false

/-- Scalar floats, codes 9 to 11 (R158's F). -/
def Ty.isFloat : Ty → Bool
  | .f16 | .bf16 | .f32 => true
  | _ => false

/-- Packed floats, codes 12 and 13 (R158's FP). -/
def Ty.isPackedFloat : Ty → Bool
  | .f16x2 | .bf16x2 => true
  | _ => false

/-! ## Sources and destinations -/

/-- The kinds of source field of the field tables. -/
inductive SrcKind where
  /-- the instruction does not use the field: all zero (R68) -/
  | unused
  /-- "val": a register, or a special source that R69 allows at the type -/
  | val (t : Ty)
  /-- "pred": a special source with code 0 to 7 -/
  | pred
  /-- "reg": a vector register of the type -/
  | reg (t : Ty)
  /-- "b64" and "addr": an even pair, no NEG, no special source (R176) -/
  | pair
  /-- a register group of n registers (1, 2 or 4), or ZERO: "data" of R207 and "val" of R207 and R238 -/
  | data (n : Nat)
  /-- the same, or IMM: SA of CWAIT (R237) and SB of SIGNAL and SWAIT (R205, R206) -/
  | dataOrImm (n : Nat)
deriving DecidableEq, Repr

/-- R69: the special sources that the type allows. -/
def Sel.allowedAt (t : Ty) : Sel → Bool
  | .reg _ => true
  | .pred _ => t.isInt || t.isFloat
  | .zero => true
  | .imm => t.isInt || t.isFloat || t.isPackedInt || t.isPackedFloat
  | .fimm => t.isFloat || t.isPackedFloat
  | .lane => t.isInt

/-- R71: LU stands only on a field that names a register. -/
def Src.luOk (s : Src) : Bool :=
  match s.sel with
  | .reg _ => true
  | _ => !s.lu

/-- R72: a register, or the first of an aligned group of n registers. -/
def alignedTo (n : Nat) (r : Fin 128) : Bool := r.val % n == 0

def Ty.regs (t : Ty) : Nat := if t.wide then 2 else 1

/-- A source field against its kind. NEG is legal only where the table lists it (R70). -/
def Src.ok (k : SrcKind) (neg : Bool) (s : Src) : Bool :=
  s.luOk && (neg || !s.neg) &&
  match k, s.sel with
  | .unused, .reg n => n == 0 && !s.neg && !s.lu
  | .unused, _ => false
  | .val t, .reg n => alignedTo t.regs n
  | .val t, x => x.allowedAt t
  | .pred, .pred _ => true
  | .pred, _ => false
  | .reg t, .reg n => alignedTo t.regs n
  | .reg _, _ => false
  | .pair, .reg n => alignedTo 2 n && !s.neg
  | .pair, _ => false
  | .data m, .reg n => alignedTo m n
  | .data _, .zero => true
  | .data _, _ => false
  | .dataOrImm m, .reg n => alignedTo m n
  | .dataOrImm _, .zero => true
  | .dataOrImm _, .imm => true
  | .dataOrImm _, _ => false

/-- The kinds of destination of the field tables. -/
inductive DstKind where
  | none
  /-- an aligned group of n vector registers -/
  | vec (n : Nat)
  | vecOrNone (n : Nat)
  | pred
  | predOrNone
  | vecOrPred
deriving DecidableEq, Repr

def Dst.ok : DstKind → Dst → Bool
  | .none, .none => true
  | .vec m, .vec n => alignedTo m n
  | .vecOrNone m, .vec n => alignedTo m n
  | .vecOrNone _, .none => true
  | .pred, .pred _ => true
  | .predOrNone, .pred _ => true
  | .predOrNone, .none => true
  | .vecOrPred, .vec _ => true
  | .vecOrPred, .pred _ => true
  | _, _ => false

/-- What IMM holds. -/
inductive ImmKind where
  /-- the instruction has no use for IMM: zero (R77) -/
  | zero
  /-- "src": non-zero only where a source selects IMM or FIMM (R135) -/
  | src
  /-- the instruction's own value; no source selects it (R69); ok says which values are not reserved -/
  | own (ok : Bool)
deriving DecidableEq, Repr

def Src.usesImm (s : Src) : Bool := s.sel == .imm || s.sel == .fimm

/-- Which fields an instruction uses, and how. -/
structure Fields where
  ty : Bool
  dst : DstKind := .none
  a : SrcKind := .unused
  b : SrcKind := .unused
  c : SrcKind := .unused
  negA : Bool := false
  negB : Bool := false
  negC : Bool := false
  imm : ImmKind := .zero
  /-- what else the description requires -/
  extra : Bool := true
deriving DecidableEq, Repr

/-- Step 4 of R77 for one word, given how its instruction uses the fields. -/
def Op.ok (f : Fields) (o : Op) : Bool :=
  f.ty && o.dst.ok f.dst && o.a.ok f.a f.negA && o.b.ok f.b f.negB && o.c.ok f.c f.negC && f.extra &&
  match f.imm with
  | .zero => o.imm == 0 && !(o.a.usesImm || o.b.usesImm || o.c.usesImm)
  | .src => o.imm == 0 || o.a.usesImm || o.b.usesImm || o.c.usesImm
  | .own ok => ok && !(o.a.usesImm || o.b.usesImm || o.c.usesImm)

/-! ## The field tables -/

def Ty.oneOf (l : List Ty) (t : Ty) : Bool := l.contains t

/-- Two-source integer forms (R135). -/
def fieldsInt2 (tys : Bool) (o : Op) : Fields :=
  { ty := tys, dst := .vec o.ty.regs, a := .val o.ty, b := .val o.ty, negA := true, negB := true, imm := .src }

def fieldsInt1 (tys : Bool) (o : Op) : Fields :=
  { ty := tys, dst := .vec o.ty.regs, a := .val o.ty, negA := true, imm := .src }

def fieldsInt3 (tys : Bool) (o : Op) : Fields :=
  { ty := tys, dst := .vec o.ty.regs, a := .val o.ty, b := .val o.ty, c := .val o.ty,
    negA := true, negB := true, negC := true, imm := .src }

/-- Shifts and rotations: the count is read as b32 (R131). -/
def fieldsShift (tys : Bool) (o : Op) : Fields :=
  { ty := tys, dst := .vec o.ty.regs, a := .val o.ty, b := .val .b32, negA := true, negB := true, imm := .src }

def tyIP (t : Ty) : Bool := t.isInt || t.isPackedInt
def ty32or64 (t : Ty) : Bool := t.oneOf [.b32, .b64, .i32, .i64]
def tyF (t : Ty) : Bool := t.isFloat || t.isPackedFloat

/-- Two-source float forms (R161). -/
def fieldsFloat2 (tys : Bool) (o : Op) : Fields :=
  { ty := tys, dst := .vec 1, a := .val o.ty, b := .val o.ty, negA := true, negB := true, imm := .src }

/-- The SFU functions (R161, R170). -/
def fieldsSfu (o : Op) : Fields :=
  { ty := o.ty == .f32, dst := .vec 1, a := .val .f32, negA := true, imm := .src }

/-- No type, no destination, no source. -/
def fieldsBare (imm : ImmKind) (o : Op) : Fields := { ty := o.ty == .none, imm := imm }

def FSrc.ty : FSrc → Ty
  | .f16 => .f16 | .bf16 => .bf16 | .f32 => .f32 | .e4m3 => .e4m3 | .e5m2 => .e5m2

/-- R182: the types an operation of RED or SCAN takes. -/
def RedOp.types : RedOp → List Ty
  | .fadd | .fmin | .fmax => [.f32]
  | _ => [.b32, .b64, .i32, .i64]

/-- Registers that an access width takes (R207). -/
def MemW.regs : MemW → Nat
  | .w64 => 2 | .w128 => 4 | _ => 1

def MemW.bytes : MemW → Nat
  | .w8 => 1 | .w16 => 2 | .w32 => 4 | .w64 => 8 | .w128 => 16

/-- R210: the types of LD by width. -/
def MemW.loadTypes : MemW → List Ty
  | .w8 => [.none, .i8]
  | .w16 => [.none, .i16]
  | _ => [.none]

/-- R223: the types of an atomic operation. -/
def AtomOp.types : AtomOp → List Ty
  | .add | .min | .max => [.b32, .b64, .i32, .i64]
  | .fadd => [.f32]
  | .and | .or | .xor | .xchg | .cas => [.b32, .b64]
  | .inc | .dec => [.b32]

/-- The names of R196 and their widths: some true for 64 bits. -/
def sregWide (code : Nat) : Option Bool :=
  if code ≤ 20 then some false
  else if code ≤ 23 then some true
  else if code ≤ 27 then some false
  else if code ≤ 30 then some true
  else none

/-- R258: the operand formats of a tile. -/
def tileTypes : List Ty := [.f32, .bf16, .f16, .e4m3, .e5m2, .i8, .kf4, .mxf8, .mxi8, .l8, .l4, .t3]

/-- R256: the formats that have a scale region. -/
def Ty.scaled (t : Ty) : Bool := t.oneOf [.mxf8, .mxi8, .kf4, .l8, .l4, .t3]

def MldSrc.ty : MldSrc → Ty
  | .same => .none | .xf32 => .f32 | .xbf16 => .bf16 | .xf16 => .f16

/-- R258: the combinations of MLD that are not reserved. -/
def mldOk (src : MldSrc) (role : Role) (o : Op) : Bool :=
  let i := o.imm.toNat
  let slot := i % 16; let sslot := i / 16 % 16; let soff := i / 256 % 1024
  let sat := i / 2 ^ 18 % 2; let mxe := i / 2 ^ 19 % 2
  i < 2 ^ 20 && (mxe == 0 || o.ty == .mxf8) && (sat == 0 || src != .same) &&
  (src == .same || (o.ty.oneOf [.f32, .bf16, .f16, .e4m3, .e5m2] && src.ty != o.ty)) &&
  match role with
  | .stream | .station =>
    o.ty.oneOf tileTypes && (if o.ty.scaled then sslot != slot else sslot == 0 && soff == 0)
  | .accum => o.ty == .f32 && sslot == 0 && soff == 0
  | .scale => o.ty == .none && sslot == 0

/-- R262: the slot numbers of MMA and MMAS. -/
def mmaOk (i : Nat) : Bool :=
  let d := i % 16; let a := i / 16 % 16; let b := i / 256 % 16; let c := i / 4096 % 16
  let cz := i / 2 ^ 16 % 2 == 1
  i < 2 ^ 17 && d % 4 == 0 && c % 4 == 0 && (!cz || c == 0) &&
  a / 4 != d / 4 && b / 4 != d / 4 && (cz || (a / 4 != c / 4 && b / 4 != c / 4))

def dispOk (w : Word) : Bool := w.toNat % 4 == 0

def fieldsAtom (op : AtomOp) (dst : DstKind) (o : Op) : Fields :=
  { ty := op.types.contains o.ty, dst := dst, a := .pair, b := .data o.ty.regs,
    c := if op == .cas then .data o.ty.regs else .unused,
    imm := .own (o.imm.toNat / 2 ^ 27 == 0 && o.imm.toNat / 2 ^ 24 % 8 ≤ 5) }

/-- "addr" with an offset, a b32 val in SB (R238). -/
def fieldsTb (dst : DstKind) (o : Op) : Fields :=
  { ty := o.ty == .b32, dst := dst, a := .pair, b := .data 1, imm := .own true }

/-- The native instructions: which fields each uses (R135, R161, R176, R207, R238); none for an event. FCLASS with a vector destination may
have IMM or FIMM in A while IMM is 0, and A is 0.0 then; with another IMM it is RSVD (DEDUCED, notes/assumptions/24.md). -/
def Instr.fields : Instr → Option (Op × Fields)
  | .iadd _ o | .isub _ o => some (o, fieldsInt2 (tyIP o.ty) o)
  | .imul o | .imin o | .imax o => some (o, fieldsInt2 (tyIP o.ty) o)
  | .imulh o => some (o, fieldsInt2 (ty32or64 o.ty) o)
  | .imad _ o => some (o, fieldsInt3 (tyIP o.ty) o)
  | .imadw o => some (o,
      { ty := o.ty == .b32 || o.ty == .i32, dst := .vec 2, a := .val o.ty, b := .val o.ty,
        c := .val (if o.ty == .i32 then .i64 else .b64), negA := true, negB := true, negC := true, imm := .src })
  | .iabs o | .ineg o => some (o, fieldsInt1 (o.ty.oneOf [.i8, .i16, .i32, .i64, .i16x2, .i8x4]) o)
  | .and o | .or o | .xor o | .andn o => some (o, fieldsInt2 (tyIP o.ty) o)
  | .not o => some (o, fieldsInt1 (tyIP o.ty) o)
  | .bool3 o => some (o, { fieldsInt3 o.ty.isBits o with imm := .own (o.imm.toNat < 256) })
  | .shl o | .shr o => some (o, fieldsShift (o.ty.isBits || o.ty == .b16x2 || o.ty == .b8x4) o)
  | .sar o => some (o, fieldsShift (o.ty.oneOf [.i8, .i16, .i32, .i64, .i16x2, .i8x4]) o)
  | .funnel _ o => some (o, fieldsInt3 (o.ty == .b32) o)
  | .rot _ o => some (o, fieldsShift o.ty.isBits o)
  | .clz o | .popc o => some (o, { fieldsInt1 o.ty.isBits o with dst := .vec 1 })
  | .brev o => some (o, fieldsInt1 o.ty.isBits o)
  | .bfe o => some (o, fieldsShift (ty32or64 o.ty) o)
  | .bfi o => some (o, { fieldsInt3 (o.ty == .b32 || o.ty == .b64) o with c := .val .b32 })
  | .isel o => some (o, { fieldsInt3 (tyIP o.ty) o with c := .val .b32 })
  | .icmp _ comb o => some (o,
      { ty := o.ty.isInt, dst := .pred, a := .val o.ty, b := .val o.ty,
        c := if comb == .none then .unused else .pred, negA := true, negB := true, negC := comb != .none, imm := .src })
  | .lea _ o => some (o,
      { fieldsShift (o.ty.oneOf [.b32, .b64, .i64]) o with imm := .own true })
  | .mov o => some (o, fieldsInt1 (o.ty == .b32 || o.ty == .b64) o)
  | .movi o => some (o, { ty := ty32or64 o.ty, dst := .vec o.ty.regs, imm := .own true })
  | .icvt _ src o => some (o,
      { ty := o.ty.isInt, dst := .vec o.ty.regs, a := .val src, negA := true, imm := .src, extra := src.isInt })
  | .plop _ op2 o => some (o,
      { ty := o.ty == .b32, dst := .pred, a := .pred, b := .pred, c := if op2.isSome then .pred else .unused,
        negA := true, negB := true, negC := op2.isSome })
  | .pcnt o => some (o, { ty := o.ty == .b32, dst := .vec 1, a := .pred, negA := true })
  | .shapeq o => some (o, { ty := o.ty == .none, dst := .vec 1, a := .reg .b32 })
  | .forceu o | .mkgen o => some (o, { fieldsInt1 (o.ty == .b32 || o.ty == .b64) o with negA := false })
  | .mkaff o => some (o, { fieldsInt2 (o.ty == .b32) o with negA := false, negB := false })
  | .vkill o => some (o, { ty := o.ty == .none || o.ty == .b64, a := .reg o.ty, extra := o.a.lu })
  | .fadd abs o | .fsub abs o | .fmul abs o => some (o, { fieldsFloat2 (tyF o.ty) o with extra := !abs.c })
  | .ffma _ o => some (o, { fieldsFloat2 (tyF o.ty) o with c := .val o.ty, negC := true })
  | .fmin _ o | .fmax _ o => some (o, fieldsFloat2 (tyF o.ty) o)
  | .fcmp _ comb o => some (o,
      { fieldsFloat2 o.ty.isFloat o with
        dst := .pred, c := if comb == .none then .unused else .pred, negC := comb != .none })
  | .fclass o => some (o,
      { ty := o.ty.isFloat, dst := .vecOrPred, a := .val o.ty, negA := true,
        imm := match o.dst with | .pred _ => .own (o.imm.toNat < 2 ^ 10) | _ => .src,
        extra := match o.dst with | .pred _ => true | _ => o.imm == 0 })
  | .frnd _ o => some (o, { ty := tyF o.ty, dst := .vec 1, a := .val o.ty, negA := true, imm := .src })
  | .fdiv o => some (o, fieldsFloat2 o.ty.isFloat o)
  | .fdot2 half o => some (o,
      { fieldsFloat2 o.ty.isPackedFloat o with
        c := .val (if half then (if o.ty == .f16x2 then .f16 else .bf16) else .f32), negC := true })
  | .frcp o | .frsq o | .fsqrt o | .fex2 o | .flg2 o | .fsinpi o | .fcospi o => some (o, fieldsSfu o)
  | .f2i src _ _ o => some (o,
      { ty := o.ty.isInt, dst := .vec o.ty.regs, a := .val src.ty, negA := true, imm := .src, extra := src.ty.isFloat })
  | .i2f src o => some (o,
      { ty := o.ty.isFloat, dst := .vec 1, a := .val src, negA := true, imm := .src, extra := src.isInt })
  | .f2f _ sr src o => some (o,
      { ty := o.ty.oneOf [.f16, .bf16, .f32, .e4m3, .e5m2], dst := .vec 1, a := .val src.ty, negA := true,
        imm := if sr then .own (o.ty != .f32) else .src })
  | .fpack _ sr hi fmt o => some (o,
      { ty := o.ty == .f32, dst := .vec 1, a := .val .f32, b := .val .f32,
        c := match fmt with | .f16x2 | .bf16x2 => .unused | _ => .val .b32,
        negA := true, negB := true, imm := if sr then .own true else .src,
        extra := match fmt with | .f16x2 | .bf16x2 => !hi | _ => o.c.sel != .lane })
  | .lxch mode o => some (o,
      { ty := o.ty == .b32 || o.ty == .b64, dst := .vec o.ty.regs, a := .val o.ty, b := .val .b32,
        c := if mode == .edge then .val o.ty else .unused,
        negA := true, negB := true, negC := mode == .edge, imm := .src })
  | .poll mode o => some (o,
      { ty := o.ty == (match mode with | .mask => .b64 | .first => .b32 | _ => .none),
        dst := match mode with | .mask => .vec 2 | .first => .vec 1 | _ => .pred,
        a := .pred, negA := true })
  | .red op o | .scan op _ o => some (o, fieldsInt1 (op.types.contains o.ty) o)
  | .bcast o => some (o, fieldsShift (o.ty == .b32 || o.ty == .b64) o)
  | .bra o => some (o, fieldsBare (.own (dispOk o.imm)) o)
  | .brx o => some (o, { ty := o.ty == .b32, a := .val .b32, negA := true, imm := .own (dispOk o.imm) })
  | .call o => some (o, { ty := o.ty == .b64, dst := .vec 2, imm := .own (dispOk o.imm) })
  | .ret o => some (o, { ty := o.ty == .b64, a := .pair })
  | .exit o | .yield o | .nop o | .tret o => some (o, fieldsBare .zero o)
  | .sleep o => some (o, fieldsBare (.own true) o)
  | .bar _ o | .cbar _ o | .dbar _ o => some (o, fieldsBare (.own (o.imm.toNat < 16)) o)
  | .swait _ o => some (o,
      { ty := o.ty == .i64, dst := .predOrNone, a := .pair, b := .dataOrImm 2, negB := true,
        imm := if o.b.sel == .imm then .src else .own (o.imm == 0 || o.dst != .none) })
  | .sreg o => some (o,
      match sregWide o.imm.toNat with
      | some true => { ty := o.ty == .b64, dst := .vec 2, imm := .own true }
      | some false => { ty := o.ty == .b32, dst := .vec 1, imm := .own true }
      | none => { ty := false })
  | .sset o => some (o,
      { ty := if o.imm == 25 then o.ty == .b32 else o.ty == .b64, a := .val o.ty, negA := true,
        imm := .own (o.imm == 25 || o.imm == 29 || o.imm == 30) })
  | .trap o => some (o, fieldsBare (.own (o.imm.toNat < 256)) o)
  | .launch o => some (o, { ty := o.ty == .none, a := .pair, b := .pair })
  | .signal _ o => some (o,
      { ty := o.ty == .b64, dst := .vecOrNone 2, a := .pair, b := .dataOrImm 2, negB := true, imm := .src })
  | .ld _ w _ o => some (o, { ty := w.loadTypes.contains o.ty, dst := .vec w.regs, a := .pair, imm := .own true })
  | .st _ w _ o => some (o, { ty := o.ty == .none, a := .pair, b := .data w.regs, imm := .own true })
  | .ldr wide o => some (o, { ty := o.ty == .none, dst := .vec (if wide then 2 else 1), a := .pair, imm := .own true })
  | .stc wide o => some (o,
      { ty := o.ty == .none, dst := .pred, a := .pair, b := .data (if wide then 2 else 1), imm := .own true })
  | .prf ex lvl o => some (o, { ty := o.ty == .none, a := .pair, imm := .own true, extra := !(ex && lvl == .l2) })
  | .wbl o => some (o, { ty := o.ty == .none, a := .pair, b := .data 1, imm := .own true })
  | .atom op _ o => some (o, fieldsAtom op (.vecOrNone o.ty.regs) o)
  | .atomt op _ o => some (o, fieldsAtom op (.vec (2 * o.ty.regs)) o)
  | .fence _ _ o => some (o, fieldsBare .zero o)
  | .frz _ o | .thaw o => some (o,
      { ty := o.ty == .none, dst := .pred, a := .pair, b := .pair, imm := .own (o.imm.toNat < 128) })
  | .fwait o => some (o, { ty := o.ty == .none, a := .data 1 })
  | .fqry o => some (o, { ty := o.ty == .none, dst := .vec 1, a := .pair, imm := .own true })
  | .cpy _ _ _ o => some (o, { ty := o.ty == .none, a := .pair })
  | .cpyg _ _ o => some (o, { ty := o.ty == .none, a := .pair, b := .data 1 })
  | .cbatch o => some (o, { ty := o.ty == .b32, dst := .vec 1 })
  | .cwait o => some (o, { ty := o.ty == .b32, dst := .predOrNone, a := .dataOrImm 1, imm := .src })
  | .tbinit o | .tbexp o => some (o, fieldsTb .none o)
  | .tbarr o => some (o, fieldsTb (.vecOrNone 1) o)
  | .tbwait _ o => some (o, fieldsTb .none o)
  | .ipf o | .iunpin o => some (o, { fieldsTb .none o with ty := o.ty == .none })
  | .ipin o => some (o, { fieldsTb .pred o with ty := o.ty == .none })
  | .mclaim o => some (o, { ty := o.ty == .none, dst := .predOrNone, imm := .own (o.imm.toNat < 2 ^ 16) })
  | .mrel o | .mzero o => some (o, fieldsBare (.own (o.imm.toNat < 2 ^ 16)) o)
  | .mld src role o => some (o, { ty := true, a := .pair, b := .data 1, imm := .own (mldOk src role o) })
  | .mst _ o => some (o,
      { ty := true, a := .pair, b := .data 1, imm := .own (o.imm.toNat < 16) })
  | .mmov form o => some (o,
      { ty := match form with
          | .to | .from => o.ty == .b32
          | .toa | .tob => o.ty.oneOf [.f32, .bf16, .f16, .e4m3, .e5m2, .i8],
        dst := if form == .from then .vec 1 else .none,
        a := if form == .from then .unused else .data 1,
        imm := .own (o.imm.toNat < 2 ^ 10) })
  | .mma _ o | .mmas _ o => some (o, fieldsBare (.own (mmaOk o.imm.toNat)) o)
  | .mwait o => some (o, fieldsBare (.own (o.imm.toNat < 2 ^ 16)) o)
  | .mxv o => some (o, { ty := o.ty == .bf16, a := .data 1, imm := .own (o.imm.toNat < 16) })
  | .mcntRd o | .mcntRr o => some (o, { ty := o.ty == .b32, dst := .vec 1, imm := .own (o.imm.toNat < 5) })
  | _ => none

/-- The bits of CMD in CPCMD and what an event's parameters may be; true where every value can occur. -/
def Instr.eventOk : Instr → Bool
  | .runCountRotation g | .aging g | .groupEnd g => g < 16384
  | .shadowModeEntry p | .shadowModeEnd p | .matrixOpComplete p => p < 1024
  | .sleepExpiry g l | .swaitSatisfied g l | .swaitTimeout g l | .instructionFetchFault g l => g < 16384 && l < 64
  | .refillComplete g r => g < 16384 && r < 128
  | .notifyWrite q off _ _ => q < 4096 && off < 4096
  | .headerRecheck q | .launchPacket q | .barrierAnd q | .copyPacket q | .signalPacket q | .nopPacket q => q < 4096
  | .contextFree c => c < 256
  | .bindRecord c e | .restore c e => c < 256 && e < 64
  | .homeRequest p => p < 11
  | .forwardedWrite d | .frzInstall d | .drain d _ | .readmission d _ => d < 8
  | .collectRequest d e => d < 8 && e < 256
  | .collectionComplete e => e < 256
  | .holderReset p => p < 11
  | .linkStepChange l k => l < 10 && k < 4
  | .retrainingWindowEnd l | .flitReplay l _ => l < 10
  | .overflow g | .evqbaseWrite g _ | .evqctlWrite g _ | .evqridxWrite g _ => g < 2
  | .registerWrite g _ _ => g < 2
  | .peerRequest p i _ _ => p < 1024 && i < 256
  | .peerLost p | .peerTimeout p => p < 1024
  | .peerJoined p i => p < 1024 && i < 256
  | .peerCollectRequest p i _ _ _ => p < 1024 && i < 256
  | _ => true

/-- Whether an instruction keeps every rule that depends on its word alone. -/
def Instr.wf (i : Instr) : Bool :=
  match i.fields with
  | some (o, f) => o.ok f
  | none => i.eventOk

end Sys2Proof
end

