-- ==== Sys2Proof/Decode.lean ====
section
/-! DEFINITION. Decode.lean: from a 96-bit word to an instruction or the reason of R77, and back. -/

namespace Sys2Proof

/-! ## Bytes and fields -/

/-- A little-endian number out of bytes (R6, R66). -/
def leNat : List Byte → Nat
  | [] => 0
  | b :: bs => b.toNat + 256 * leNat bs

/-- The n low bytes of a number, low byte first. -/
def leBytes : Nat → Nat → List Byte
  | 0, _ => []
  | n + 1, v => BitVec.ofNat 8 v :: leBytes n (v / 256)

/-- The twelve bytes at PC as one word: bit n is bit n mod 32 of word n / 32 (R66). -/
def wordOfBytes (bs : List Byte) : IWord := BitVec.ofNat 96 (leNat bs)

/-- The fields of R67, undecoded. -/
structure RawWord where
  opc : BitVec 7
  fn : BitVec 6
  gp : BitVec 3
  gn : BitVec 1
  dst : BitVec 8
  ty : BitVec 5
  sa : BitVec 10
  sb : BitVec 10
  sc : BitVec 10
  stall : BitVec 3
  yl : BitVec 1
  imm : BitVec 32
deriving DecidableEq, Repr

/-- R67: where each field stands. -/
def unpack (w : IWord) : RawWord where
  opc := w.extractLsb' 0 7
  fn := w.extractLsb' 7 6
  gp := w.extractLsb' 13 3
  gn := w.extractLsb' 16 1
  dst := w.extractLsb' 17 8
  ty := w.extractLsb' 25 5
  sa := w.extractLsb' 30 10
  sb := w.extractLsb' 40 10
  sc := w.extractLsb' 50 10
  stall := w.extractLsb' 60 3
  yl := w.extractLsb' 63 1
  imm := w.extractLsb' 64 32

def pack (r : RawWord) : IWord :=
  r.imm ++ r.yl ++ r.stall ++ r.sc ++ r.sb ++ r.sa ++ r.ty ++ r.dst ++ r.gn ++ r.gp ++ r.fn ++ r.opc

/-! ## Codes -/

/-- Type codes (R74). -/
def Ty.code : Ty → Nat
  | .none => 0
  | .b8 => 1
  | .b16 => 2
  | .b32 => 3
  | .b64 => 4
  | .i8 => 5
  | .i16 => 6
  | .i32 => 7
  | .i64 => 8
  | .f16 => 9
  | .bf16 => 10
  | .f32 => 11
  | .f16x2 => 12
  | .bf16x2 => 13
  | .i16x2 => 14
  | .b16x2 => 15
  | .i8x4 => 16
  | .b8x4 => 17
  | .e4m3 => 18
  | .e5m2 => 19
  | .kf4 => 20
  | .mxf8 => 21
  | .mxi8 => 22
  | .l8 => 23
  | .l4 => 24
  | .t3 => 25

def Ty.ofCode : Nat → Option Ty
  | 0 => Option.some .none
  | 1 => Option.some .b8
  | 2 => Option.some .b16
  | 3 => Option.some .b32
  | 4 => Option.some .b64
  | 5 => Option.some .i8
  | 6 => Option.some .i16
  | 7 => Option.some .i32
  | 8 => Option.some .i64
  | 9 => Option.some .f16
  | 10 => Option.some .bf16
  | 11 => Option.some .f32
  | 12 => Option.some .f16x2
  | 13 => Option.some .bf16x2
  | 14 => Option.some .i16x2
  | 15 => Option.some .b16x2
  | 16 => Option.some .i8x4
  | 17 => Option.some .b8x4
  | 18 => Option.some .e4m3
  | 19 => Option.some .e5m2
  | 20 => Option.some .kf4
  | 21 => Option.some .mxf8
  | 22 => Option.some .mxi8
  | 23 => Option.some .l8
  | 24 => Option.some .l4
  | 25 => Option.some .t3
  | _ => Option.none

/-- R143. -/
def FunnelDir.code : FunnelDir → Nat
  | .l => 0
  | .r => 1
  | .lw => 2
  | .rw => 3

def FunnelDir.ofCode : Nat → Option FunnelDir
  | 0 => Option.some .l
  | 1 => Option.some .r
  | 2 => Option.some .lw
  | 3 => Option.some .rw
  | _ => Option.none

/-- R149. -/
def Cond.code : Cond → Nat
  | .eq => 0
  | .ne => 1
  | .lt => 2
  | .le => 3
  | .gt => 4
  | .ge => 5

def Cond.ofCode : Nat → Option Cond
  | 0 => Option.some .eq
  | 1 => Option.some .ne
  | 2 => Option.some .lt
  | 3 => Option.some .le
  | 4 => Option.some .gt
  | 5 => Option.some .ge
  | _ => Option.none

/-- R165. -/
def FCond.code : FCond → Nat
  | .eq => 0
  | .ne => 1
  | .lt => 2
  | .le => 3
  | .gt => 4
  | .ge => 5
  | .nan => 6
  | .num => 7

def FCond.ofCode : Nat → Option FCond
  | 0 => Option.some .eq
  | 1 => Option.some .ne
  | 2 => Option.some .lt
  | 3 => Option.some .le
  | 4 => Option.some .gt
  | 5 => Option.some .ge
  | 6 => Option.some .nan
  | 7 => Option.some .num
  | _ => Option.none

/-- R149. -/
def Comb.code : Comb → Nat
  | .none => 0
  | .and => 1
  | .or => 2

def Comb.ofCode : Nat → Option Comb
  | 0 => Option.some .none
  | 1 => Option.some .and
  | 2 => Option.some .or
  | _ => Option.none

/-- R153. -/
def Logic.code : Logic → Nat
  | .and => 0
  | .or => 1
  | .xor => 2

def Logic.ofCode : Nat → Option Logic
  | 0 => Option.some .and
  | 1 => Option.some .or
  | 2 => Option.some .xor
  | _ => Option.none

/-- R167. -/
def Rnd.code : Rnd → Nat
  | .rn => 0
  | .rz => 1
  | .rm => 2
  | .rp => 3
  | .ra => 4

def Rnd.ofCode : Nat → Option Rnd
  | 0 => Option.some .rn
  | 1 => Option.some .rz
  | 2 => Option.some .rm
  | 3 => Option.some .rp
  | 4 => Option.some .ra
  | _ => Option.none

/-- R172 (codes 0 to 2) and R174. -/
def FSrc.code : FSrc → Nat
  | .f16 => 0
  | .bf16 => 1
  | .f32 => 2
  | .e4m3 => 3
  | .e5m2 => 4

def FSrc.ofCode : Nat → Option FSrc
  | 0 => Option.some .f16
  | 1 => Option.some .bf16
  | 2 => Option.some .f32
  | 3 => Option.some .e4m3
  | 4 => Option.some .e5m2
  | _ => Option.none

/-- R175. -/
def PackFmt.code : PackFmt → Nat
  | .f16x2 => 0
  | .bf16x2 => 1
  | .e4m3x2 => 2
  | .e5m2x2 => 3

def PackFmt.ofCode : Nat → Option PackFmt
  | 0 => Option.some .f16x2
  | 1 => Option.some .bf16x2
  | 2 => Option.some .e4m3x2
  | 3 => Option.some .e5m2x2
  | _ => Option.none

/-- R176. -/
def LxMode.code : LxMode → Nat
  | .pick => 0
  | .rot => 1
  | .edge => 2
  | .flip => 3

def LxMode.ofCode : Nat → Option LxMode
  | 0 => Option.some .pick
  | 1 => Option.some .rot
  | 2 => Option.some .edge
  | 3 => Option.some .flip
  | _ => Option.none

/-- R176. -/
def PollMode.code : PollMode → Nat
  | .some => 0
  | .every => 1
  | .same => 2
  | .mask => 3
  | .first => 4

def PollMode.ofCode : Nat → Option PollMode
  | 0 => Option.some .some
  | 1 => Option.some .every
  | 2 => Option.some .same
  | 3 => Option.some .mask
  | 4 => Option.some .first
  | _ => Option.none

/-- R182. -/
def RedOp.code : RedOp → Nat
  | .add => 0
  | .min => 1
  | .max => 2
  | .and => 3
  | .or => 4
  | .xor => 5
  | .fadd => 6
  | .fmin => 7
  | .fmax => 8

def RedOp.ofCode : Nat → Option RedOp
  | 0 => Option.some .add
  | 1 => Option.some .min
  | 2 => Option.some .max
  | 3 => Option.some .and
  | 4 => Option.some .or
  | 5 => Option.some .xor
  | 6 => Option.some .fadd
  | 7 => Option.some .fmin
  | 8 => Option.some .fmax
  | _ => Option.none

/-- R176. -/
def BarMode.code : BarMode → Nat
  | .sync => 0
  | .arrive => 1
  | .wait => 2

def BarMode.ofCode : Nat → Option BarMode
  | 0 => Option.some .sync
  | 1 => Option.some .arrive
  | 2 => Option.some .wait
  | _ => Option.none

/-- R209. -/
def MemW.code : MemW → Nat
  | .w8 => 0
  | .w16 => 1
  | .w32 => 2
  | .w64 => 3
  | .w128 => 4

def MemW.ofCode : Nat → Option MemW
  | 0 => Option.some .w8
  | 1 => Option.some .w16
  | 2 => Option.some .w32
  | 3 => Option.some .w64
  | 4 => Option.some .w128
  | _ => Option.none

/-- R209. -/
def ReqTy.code : ReqTy → Nat
  | .own => 0
  | .wt => 1
  | .si => 2
  | .uc => 3

def ReqTy.ofCode : Nat → Option ReqTy
  | 0 => Option.some .own
  | 1 => Option.some .wt
  | 2 => Option.some .si
  | 3 => Option.some .uc
  | _ => Option.none

/-- R220. -/
def Lvl.code : Lvl → Nat
  | .l1 => 0
  | .dc => 1
  | .l2 => 2

def Lvl.ofCode : Nat → Option Lvl
  | 0 => Option.some .l1
  | 1 => Option.some .dc
  | 2 => Option.some .l2
  | _ => Option.none

/-- R223. -/
def AtomOp.code : AtomOp → Nat
  | .add => 0
  | .fadd => 1
  | .min => 2
  | .max => 3
  | .and => 4
  | .or => 5
  | .xor => 6
  | .xchg => 7
  | .cas => 8
  | .inc => 9
  | .dec => 10

def AtomOp.ofCode : Nat → Option AtomOp
  | 0 => Option.some .add
  | 1 => Option.some .fadd
  | 2 => Option.some .min
  | 3 => Option.some .max
  | 4 => Option.some .and
  | 5 => Option.some .or
  | 6 => Option.some .xor
  | 7 => Option.some .xchg
  | 8 => Option.some .cas
  | 9 => Option.some .inc
  | 10 => Option.some .dec
  | _ => Option.none

/-- R222. -/
def AtomOrd.code : AtomOrd → Nat
  | .rlx => 0
  | .acq => 1
  | .rel => 2
  | .ar => 3

def AtomOrd.ofCode : Nat → Option AtomOrd
  | 0 => Option.some .rlx
  | 1 => Option.some .acq
  | 2 => Option.some .rel
  | 3 => Option.some .ar
  | _ => Option.none

/-- R227. -/
def FenceOrd.code : FenceOrd → Nat
  | .acq => 0
  | .rel => 1
  | .sc => 2

def FenceOrd.ofCode : Nat → Option FenceOrd
  | 0 => Option.some .acq
  | 1 => Option.some .rel
  | 2 => Option.some .sc
  | _ => Option.none

/-- R222. -/
def Scope.code : Scope → Nat
  | .grp => 0
  | .blk => 1
  | .cls => 2
  | .die => 3
  | .dev => 4
  | .sys => 5

def Scope.ofCode : Nat → Option Scope
  | 0 => Option.some .grp
  | 1 => Option.some .blk
  | 2 => Option.some .cls
  | 3 => Option.some .die
  | 4 => Option.some .dev
  | 5 => Option.some .sys
  | _ => Option.none

/-- R240. -/
def CpyDim.code : CpyDim → Nat
  | .d1 => 0
  | .d2 => 1
  | .d3 => 2

def CpyDim.ofCode : Nat → Option CpyDim
  | 0 => Option.some .d1
  | 1 => Option.some .d2
  | 2 => Option.some .d3
  | _ => Option.none

/-- R258. -/
def Role.code : Role → Nat
  | .stream => 0
  | .station => 1
  | .accum => 2
  | .scale => 3

def Role.ofCode : Nat → Option Role
  | 0 => Option.some .stream
  | 1 => Option.some .station
  | 2 => Option.some .accum
  | 3 => Option.some .scale
  | _ => Option.none

/-- R258. -/
def MldSrc.code : MldSrc → Nat
  | .same => 0
  | .xf32 => 1
  | .xbf16 => 2
  | .xf16 => 3

def MldSrc.ofCode : Nat → Option MldSrc
  | 0 => Option.some .same
  | 1 => Option.some .xf32
  | 2 => Option.some .xbf16
  | 3 => Option.some .xf16
  | _ => Option.none

/-- R261. -/
def MmovForm.code : MmovForm → Nat
  | .to => 0
  | .from => 1
  | .toa => 2
  | .tob => 3

def MmovForm.ofCode : Nat → Option MmovForm
  | 0 => Option.some .to
  | 1 => Option.some .from
  | 2 => Option.some .toa
  | 3 => Option.some .tob
  | _ => Option.none

/-- R262. -/
def MmaFmt.code : MmaFmt → Nat
  | .f32 => 0
  | .bf16 => 1
  | .f16 => 2
  | .e4m3 => 3
  | .e5m2 => 4
  | .mxf8e4 => 5
  | .mxf8e5 => 6
  | .mxi8 => 7
  | .kf4 => 8
  | .l8 => 9
  | .l4 => 10
  | .i8 => 11

def MmaFmt.ofCode : Nat → Option MmaFmt
  | 0 => Option.some .f32
  | 1 => Option.some .bf16
  | 2 => Option.some .f16
  | 3 => Option.some .e4m3
  | 4 => Option.some .e5m2
  | 5 => Option.some .mxf8e4
  | 6 => Option.some .mxf8e5
  | 7 => Option.some .mxi8
  | 8 => Option.some .kf4
  | 9 => Option.some .l8
  | 10 => Option.some .l4
  | 11 => Option.some .i8
  | _ => Option.none

/-! ## Sources, destinations, the shared fields -/

/-- NUM and SPEC (R68, R69). -/
def Sel.code : Sel → Nat
  | .reg n => n
  | .pred k => 128 + k
  | .zero => 136
  | .imm => 137
  | .fimm => 138
  | .lane => 139

def Sel.ofCode (n : Nat) : Option Sel :=
  if h : n < 128 then some (.reg ⟨n, h⟩)
  else if h : n - 128 < 8 then some (.pred ⟨n - 128, h⟩)
  else if n = 136 then some .zero
  else if n = 137 then some .imm
  else if n = 138 then some .fimm
  else if n = 139 then some .lane
  else none

def bitOf (b : Bool) : Nat := if b then 1 else 0

/-- R68: NEG, LU, SPEC, NUM. -/
def Src.code (s : Src) : Nat := s.sel.code + 256 * bitOf s.lu + 512 * bitOf s.neg

def Src.ofCode (n : Nat) : Option Src :=
  (Sel.ofCode (n % 256)).map fun sel => { sel := sel, lu := n / 256 % 2 == 1, neg := n / 512 % 2 == 1 }

/-- R73. -/
def Dst.code : Dst → Nat
  | .vec n => n
  | .pred k => 128 + k
  | .none => 255

def Dst.ofCode (n : Nat) : Option Dst :=
  if h : n < 128 then some (.vec ⟨n, h⟩)
  else if h : n - 128 < 8 then some (.pred ⟨n - 128, h⟩)
  else if n = 255 then some .none
  else none

/-- The fields other than OPC and FN, where none of them holds a reserved code. -/
def RawWord.op (r : RawWord) : Option Op := do
  let ty ← Ty.ofCode r.ty.toNat
  let dst ← Dst.ofCode r.dst.toNat
  let a ← Src.ofCode r.sa.toNat
  let b ← Src.ofCode r.sb.toNat
  let c ← Src.ofCode r.sc.toNat
  return {
    ctl := { gp := r.gp.toFin, gn := r.gn == 1, stall := r.stall.toFin, yl := r.yl == 1 }
    ty := ty, dst := dst, a := a, b := b, c := c, imm := r.imm }

/-- The word with the given OPC, FN and fields. -/
def Op.raw (opc fn : Nat) (o : Op) : RawWord where
  opc := BitVec.ofNat 7 opc
  fn := BitVec.ofNat 6 fn
  gp := BitVec.ofFin o.ctl.gp
  gn := BitVec.ofBool o.ctl.gn
  dst := BitVec.ofNat 8 o.dst.code
  ty := BitVec.ofNat 5 o.ty.code
  sa := BitVec.ofNat 10 o.a.code
  sb := BitVec.ofNat 10 o.b.code
  sc := BitVec.ofNat 10 o.c.code
  stall := BitVec.ofFin o.ctl.stall
  yl := BitVec.ofBool o.ctl.yl
  imm := o.imm

/-- R162. -/
def Abs.code (x : Abs) : Nat := bitOf x.a + 2 * bitOf x.b + 4 * bitOf x.c

def Abs.ofCode (n : Nat) : Option Abs :=
  if n < 8 then some { a := n % 2 == 1, b := n / 2 % 2 == 1, c := n / 4 == 1 } else none

/-! ## The opcode map -/

/-- The OPCs of the opcode map that read UNDEF, and 0x7E (R77 step 1, R88). -/
def opcUndef (opc : Nat) : Bool :=
  opc == 0x1F || (0x2B ≤ opc && opc ≤ 0x2F) || (0x35 ≤ opc && opc ≤ 0x37) || (0x3D ≤ opc && opc ≤ 0x3F) ||
  (0x4C ≤ opc && opc ≤ 0x4F) || (0x56 ≤ opc && opc ≤ 0x5F) || opc == 0x67 || opc == 0x7E

/-- The instruction of an OPC and FN (R86, R87); none where FN is reserved. -/
def ofOpcode (opc fn : Nat) (o : Op) : Option Instr :=
  match opc with
  | 0x00 => if fn < 2 then some (.iadd (fn == 1) o) else none
  | 0x01 => if fn < 2 then some (.isub (fn == 1) o) else none
  | 0x02 => if fn = 0 then some (.imul o) else none
  | 0x03 => if fn = 0 then some (.imulh o) else none
  | 0x04 => if fn < 2 then some (.imad (fn == 1) o) else none
  | 0x05 => if fn = 0 then some (.imadw o) else none
  | 0x06 => if fn = 0 then some (.imin o) else none
  | 0x07 => if fn = 0 then some (.imax o) else none
  | 0x08 => match fn with | 0 => some (.iabs o) | 1 => some (.ineg o) | _ => none
  | 0x09 => match fn with | 0 => some (.and o) | 1 => some (.or o) | 2 => some (.xor o) | 3 => some (.andn o) | _ => none
  | 0x0A => if fn = 0 then some (.not o) else none
  | 0x0B => if fn = 0 then some (.bool3 o) else none
  | 0x0C => match fn with | 0 => some (.shl o) | 1 => some (.shr o) | 2 => some (.sar o) | _ => none
  | 0x0D => (FunnelDir.ofCode fn).map (.funnel · o)
  | 0x0E => if fn < 2 then some (.rot (fn == 1) o) else none
  | 0x0F => match fn with | 0 => some (.clz o) | 1 => some (.popc o) | 2 => some (.brev o) | _ => none
  | 0x10 => if fn = 0 then some (.bfe o) else none
  | 0x11 => if fn = 0 then some (.bfi o) else none
  | 0x12 => if fn = 0 then some (.isel o) else none
  | 0x13 => (Comb.ofCode (fn / 8)).bind fun comb => (Cond.ofCode (fn % 8)).map (.icmp · comb o)
  | 0x14 => if h : fn < 8 then some (.lea ⟨fn, h⟩ o) else none
  | 0x15 => if fn = 0 then some (.mov o) else none
  | 0x16 => if fn = 0 then some (.movi o) else none
  | 0x17 => if fn < 32 then (Ty.ofCode (fn % 16)).map (.icvt (fn / 16 == 1) · o) else none
  | 0x18 => if fn < 16 then (Logic.ofCode (fn % 4)).bind fun op1 =>
      if fn / 4 = 3 then some (.plop op1 none o) else (Logic.ofCode (fn / 4)).map fun op2 => .plop op1 (some op2) o
    else none
  | 0x19 => if fn = 0 then some (.pcnt o) else none
  | 0x1A => if fn = 0 then some (.shapeq o) else none
  | 0x1B => if fn = 0 then some (.forceu o) else none
  | 0x1C => if fn = 0 then some (.mkaff o) else none
  | 0x1D => if fn = 0 then some (.mkgen o) else none
  | 0x1E => if fn = 0 then some (.vkill o) else none
  | 0x20 => (Abs.ofCode fn).map (.fadd · o)
  | 0x21 => (Abs.ofCode fn).map (.fsub · o)
  | 0x22 => (Abs.ofCode fn).map (.fmul · o)
  | 0x23 => (Abs.ofCode fn).map (.ffma · o)
  | 0x24 => if fn < 2 then some (.fmin (fn == 1) o) else none
  | 0x25 => if fn < 2 then some (.fmax (fn == 1) o) else none
  | 0x26 => (Comb.ofCode (fn / 8)).bind fun comb => (FCond.ofCode (fn % 8)).map (.fcmp · comb o)
  | 0x27 => if fn = 0 then some (.fclass o) else none
  | 0x28 => (Rnd.ofCode fn).map (.frnd · o)
  | 0x29 => if fn = 0 then some (.fdiv o) else none
  | 0x2A => if fn < 2 then some (.fdot2 (fn == 1) o) else none
  | 0x30 => match fn with | 0 => some (.frcp o) | 1 => some (.frsq o) | 2 => some (.fsqrt o) | 3 => some (.fex2 o) | 4 => some (.flg2 o) | 5 => some (.fsinpi o) | 6 => some (.fcospi o) | _ => none
  | 0x31 => (FSrc.ofCode (fn / 16)).bind fun src => (Rnd.ofCode (fn % 8)).map (.f2i src (fn / 8 % 2 == 1) · o)
  | 0x32 => if fn < 16 then (Ty.ofCode fn).map (.i2f · o) else none
  | 0x33 => if fn / 8 % 4 < 2 then (FSrc.ofCode (fn % 8)).map (.f2f (fn / 32 == 1) (fn / 8 % 2 == 1) · o) else none
  | 0x34 => if fn < 32 then (PackFmt.ofCode (fn % 4)).map (.fpack (fn / 16 == 1) (fn / 8 % 2 == 1) (fn / 4 % 2 == 1) · o) else none
  | 0x38 => (LxMode.ofCode fn).map (.lxch · o)
  | 0x39 => (PollMode.ofCode fn).map (.poll · o)
  | 0x3A => (RedOp.ofCode fn).map (.red · o)
  | 0x3B => if fn < 32 then (RedOp.ofCode (fn % 16)).map (.scan · (fn / 16 == 1) o) else none
  | 0x3C => if fn = 0 then some (.bcast o) else none
  | 0x40 => if fn = 0 then some (.bra o) else none
  | 0x41 => if fn = 0 then some (.brx o) else none
  | 0x42 => if fn = 0 then some (.call o) else none
  | 0x43 => if fn = 0 then some (.ret o) else none
  | 0x44 => if fn = 0 then some (.exit o) else none
  | 0x45 => if fn = 0 then some (.yield o) else none
  | 0x46 => if fn = 0 then some (.nop o) else none
  | 0x47 => if fn = 0 then some (.sleep o) else none
  | 0x48 => (BarMode.ofCode fn).map (.bar · o)
  | 0x49 => (BarMode.ofCode fn).map (.cbar · o)
  | 0x4A => (BarMode.ofCode fn).map (.dbar · o)
  | 0x4B => (Cond.ofCode fn).map (.swait · o)
  | 0x50 => (MemW.ofCode (fn / 4 % 8)).bind fun w => (ReqTy.ofCode (fn % 4)).map (.ld (fn / 32 == 1) w · o)
  | 0x51 => (MemW.ofCode (fn / 4 % 8)).bind fun w => (ReqTy.ofCode (fn % 4)).map (.st (fn / 32 == 1) w · o)
  | 0x52 => match fn with | 2 => some (.ldr false o) | 3 => some (.ldr true o) | _ => none
  | 0x53 => match fn with | 2 => some (.stc false o) | 3 => some (.stc true o) | _ => none
  | 0x54 => if fn < 8 then (Lvl.ofCode (fn % 4)).map (.prf (fn / 4 == 1) · o) else none
  | 0x55 => if fn = 0 then some (.wbl o) else none
  | 0x60 => (AtomOp.ofCode (fn % 16)).bind fun op => (AtomOrd.ofCode (fn / 16)).map (.atom op · o)
  | 0x61 => (AtomOp.ofCode (fn % 16)).bind fun op => (AtomOrd.ofCode (fn / 16)).map (.atomt op · o)
  | 0x62 => (Scope.ofCode (fn / 4)).bind fun scope => (FenceOrd.ofCode (fn % 4)).map (.fence scope · o)
  | 0x63 => match fn with | 4 => some (.frz false o) | 5 => some (.frz true o) | _ => none
  | 0x64 => if fn = 0 then some (.thaw o) else none
  | 0x65 => if fn = 0 then some (.fwait o) else none
  | 0x66 => if fn = 0 then some (.fqry o) else none
  | 0x68 => if fn < 16 then (CpyDim.ofCode (fn % 4)).map (.cpy (fn / 8 == 1) (fn / 4 % 2 == 1) · o) else none
  | 0x69 => if fn < 16 ∧ fn % 4 = 0 then some (.cpyg (fn / 8 == 1) (fn / 4 % 2 == 1) o) else none
  | 0x6A => if fn = 0 then some (.cbatch o) else none
  | 0x6B => if fn = 0 then some (.cwait o) else none
  | 0x6C => match fn with | 0 => some (.tbinit o) | 1 => some (.tbexp o) | _ => none
  | 0x6D => if fn = 0 then some (.tbarr o) else none
  | 0x6E => if fn < 2 then some (.tbwait (fn == 1) o) else none
  | 0x6F => match fn with | 0 => some (.ipf o) | 1 => some (.ipin o) | 2 => some (.iunpin o) | _ => none
  | 0x70 => match fn with | 0 => some (.mclaim o) | 1 => some (.mrel o) | 2 => some (.mzero o) | _ => none
  | 0x71 => (MldSrc.ofCode (fn / 4)).bind fun src => (Role.ofCode (fn % 4)).map (.mld src · o)
  | 0x72 => if fn < 2 then some (.mst (fn == 1) o) else none
  | 0x73 => (MmovForm.ofCode fn).map (.mmov · o)
  | 0x74 => (MmaFmt.ofCode fn).map (.mma · o)
  | 0x75 => (MmaFmt.ofCode fn).map (.mmas · o)
  | 0x76 => if fn = 0 then some (.mwait o) else none
  | 0x77 => match fn with | 0 => some (.mxv o) | 1 => some (.mcntRd o) | 2 => some (.mcntRr o) | _ => none
  | 0x78 => if fn = 0 then some (.sreg o) else none
  | 0x79 => if fn = 0 then some (.sset o) else none
  | 0x7A => if fn = 0 then some (.trap o) else none
  | 0x7B => if fn = 0 then some (.tret o) else none
  | 0x7C => if fn = 0 then some (.launch o) else none
  | 0x7D => if fn < 2 then some (.signal (fn == 1) o) else none
  | _ => none

/-- OPC, FN and the other fields of a native instruction; none for an event. -/
def Instr.form : Instr → Option (Nat × Nat × Op)
  | .iadd sat o => some (0x00, bitOf sat, o)
  | .isub sat o => some (0x01, bitOf sat, o)
  | .imul o => some (0x02, 0, o)
  | .imulh o => some (0x03, 0, o)
  | .imad sat o => some (0x04, bitOf sat, o)
  | .imadw o => some (0x05, 0, o)
  | .imin o => some (0x06, 0, o)
  | .imax o => some (0x07, 0, o)
  | .iabs o => some (0x08, 0, o)
  | .ineg o => some (0x08, 1, o)
  | .and o => some (0x09, 0, o)
  | .or o => some (0x09, 1, o)
  | .xor o => some (0x09, 2, o)
  | .andn o => some (0x09, 3, o)
  | .not o => some (0x0A, 0, o)
  | .bool3 o => some (0x0B, 0, o)
  | .shl o => some (0x0C, 0, o)
  | .shr o => some (0x0C, 1, o)
  | .sar o => some (0x0C, 2, o)
  | .funnel dir o => some (0x0D, dir.code, o)
  | .rot sat o => some (0x0E, bitOf sat, o)
  | .clz o => some (0x0F, 0, o)
  | .popc o => some (0x0F, 1, o)
  | .brev o => some (0x0F, 2, o)
  | .bfe o => some (0x10, 0, o)
  | .bfi o => some (0x11, 0, o)
  | .isel o => some (0x12, 0, o)
  | .icmp cond comb o => some (0x13, cond.code + 8 * comb.code, o)
  | .lea t o => some (0x14, t, o)
  | .mov o => some (0x15, 0, o)
  | .movi o => some (0x16, 0, o)
  | .icvt sat src o => some (0x17, src.code + 16 * bitOf sat, o)
  | .plop op1 op2 o => some (0x18, op1.code + 4 * (match op2 with | some x => x.code | none => 3), o)
  | .pcnt o => some (0x19, 0, o)
  | .shapeq o => some (0x1A, 0, o)
  | .forceu o => some (0x1B, 0, o)
  | .mkaff o => some (0x1C, 0, o)
  | .mkgen o => some (0x1D, 0, o)
  | .vkill o => some (0x1E, 0, o)
  | .fadd abs o => some (0x20, abs.code, o)
  | .fsub abs o => some (0x21, abs.code, o)
  | .fmul abs o => some (0x22, abs.code, o)
  | .ffma abs o => some (0x23, abs.code, o)
  | .fmin sat o => some (0x24, bitOf sat, o)
  | .fmax sat o => some (0x25, bitOf sat, o)
  | .fcmp cond comb o => some (0x26, cond.code + 8 * comb.code, o)
  | .fclass o => some (0x27, 0, o)
  | .frnd rnd o => some (0x28, rnd.code, o)
  | .fdiv o => some (0x29, 0, o)
  | .fdot2 sat o => some (0x2A, bitOf sat, o)
  | .frcp o => some (0x30, 0, o)
  | .frsq o => some (0x30, 1, o)
  | .fsqrt o => some (0x30, 2, o)
  | .fex2 o => some (0x30, 3, o)
  | .flg2 o => some (0x30, 4, o)
  | .fsinpi o => some (0x30, 5, o)
  | .fcospi o => some (0x30, 6, o)
  | .f2i src sat rnd o => some (0x31, rnd.code + 8 * bitOf sat + 16 * src.code, o)
  | .i2f src o => some (0x32, src.code, o)
  | .f2f sat sr src o => some (0x33, src.code + 8 * bitOf sr + 32 * bitOf sat, o)
  | .fpack sat sr hi fmt o => some (0x34, fmt.code + 4 * bitOf hi + 8 * bitOf sr + 16 * bitOf sat, o)
  | .lxch mode o => some (0x38, mode.code, o)
  | .poll mode o => some (0x39, mode.code, o)
  | .red op o => some (0x3A, op.code, o)
  | .scan op excl o => some (0x3B, op.code + 16 * bitOf excl, o)
  | .bcast o => some (0x3C, 0, o)
  | .bra o => some (0x40, 0, o)
  | .brx o => some (0x41, 0, o)
  | .call o => some (0x42, 0, o)
  | .ret o => some (0x43, 0, o)
  | .exit o => some (0x44, 0, o)
  | .yield o => some (0x45, 0, o)
  | .nop o => some (0x46, 0, o)
  | .sleep o => some (0x47, 0, o)
  | .bar mode o => some (0x48, mode.code, o)
  | .cbar mode o => some (0x49, mode.code, o)
  | .dbar mode o => some (0x4A, mode.code, o)
  | .swait cond o => some (0x4B, cond.code, o)
  | .ld loc w req o => some (0x50, req.code + 4 * w.code + 32 * bitOf loc, o)
  | .st loc w req o => some (0x51, req.code + 4 * w.code + 32 * bitOf loc, o)
  | .ldr wide o => some (0x52, 2 + bitOf wide, o)
  | .stc wide o => some (0x53, 2 + bitOf wide, o)
  | .prf ex lvl o => some (0x54, lvl.code + 4 * bitOf ex, o)
  | .wbl o => some (0x55, 0, o)
  | .atom op ord o => some (0x60, op.code + 16 * ord.code, o)
  | .atomt op ord o => some (0x61, op.code + 16 * ord.code, o)
  | .fence scope ord o => some (0x62, ord.code + 4 * scope.code, o)
  | .frz sys o => some (0x63, 4 + bitOf sys, o)
  | .thaw o => some (0x64, 0, o)
  | .fwait o => some (0x65, 0, o)
  | .fqry o => some (0x66, 0, o)
  | .cpy tb cv dim o => some (0x68, dim.code + 4 * bitOf cv + 8 * bitOf tb, o)
  | .cpyg tb cv o => some (0x69, 4 * bitOf cv + 8 * bitOf tb, o)
  | .cbatch o => some (0x6A, 0, o)
  | .cwait o => some (0x6B, 0, o)
  | .tbinit o => some (0x6C, 0, o)
  | .tbexp o => some (0x6C, 1, o)
  | .tbarr o => some (0x6D, 0, o)
  | .tbwait sat o => some (0x6E, bitOf sat, o)
  | .ipf o => some (0x6F, 0, o)
  | .ipin o => some (0x6F, 1, o)
  | .iunpin o => some (0x6F, 2, o)
  | .mclaim o => some (0x70, 0, o)
  | .mrel o => some (0x70, 1, o)
  | .mzero o => some (0x70, 2, o)
  | .mld src role o => some (0x71, role.code + 4 * src.code, o)
  | .mst sat o => some (0x72, bitOf sat, o)
  | .mmov form o => some (0x73, form.code, o)
  | .mma fmt o => some (0x74, fmt.code, o)
  | .mmas fmt o => some (0x75, fmt.code, o)
  | .mwait o => some (0x76, 0, o)
  | .mxv o => some (0x77, 0, o)
  | .mcntRd o => some (0x77, 1, o)
  | .mcntRr o => some (0x77, 2, o)
  | .sreg o => some (0x78, 0, o)
  | .sset o => some (0x79, 0, o)
  | .trap o => some (0x7A, 0, o)
  | .tret o => some (0x7B, 0, o)
  | .launch o => some (0x7C, 0, o)
  | .signal sat o => some (0x7D, bitOf sat, o)
  | _ => none

/-- Why a word is no instruction (R46's reasons 1 to 3 of ILLEGAL; reason 4, PRIV, depends on the mode). -/
inductive Illegal where | undef | rsvd | apf
deriving DecidableEq, Repr

/-- R77 as far as it depends on the word alone. -/
def decodeWord (w : IWord) : Except Illegal Instr :=
  let r := unpack w
  if opcUndef r.opc.toNat then .error .undef
  else if r.opc.toNat = 0x7F then .error .apf
  else match r.op.bind (ofOpcode r.opc.toNat r.fn.toNat) with
    | some i => if i.wf then .ok i else .error .rsvd
    | none => .error .rsvd

/-- Decoding the bytes at PC: total, and every refusal carries its reason. -/
def decode (bs : List Byte) : Except Illegal Instr := decodeWord (wordOfBytes bs)

/-- The word of a native instruction (R67); none for an event. -/
def encode (i : Instr) : Option IWord := i.form.map fun (opc, fn, o) => pack (o.raw opc fn)

/-- The bytes of an instruction in memory (R66). -/
def bytesOfWord (w : IWord) : List Byte := leBytes 12 w.toNat

/-- What the decoder reads from a word of the opcode table, given with nbits bits and zeros above them. -/
def decodeTableWord (nbits w : Nat) : Option Instr :=
  match decode (leBytes 12 (w % 2 ^ nbits)) with
  | .ok i => some i
  | .error _ => none

/-- Step 3 of R77: the privileged instructions (R89). -/
def Instr.privileged : Instr → Bool
  | .sset _ | .tret _ => true
  | _ => false

/-- R77 step 3 for a word that step 4 refuses: SSET and TRET raise PRIV first outside a handler. -/
def wordPrivileged (w : IWord) : Bool :=
  (unpack w).opc.toNat == 0x79 || (unpack w).opc.toNat == 0x7B

end Sys2Proof
end

