-- ==== Sys2Proof/Machine/Table.lean ====
section
/-! DEFINITION. Table.lean: finite tables and memory, held as lists in one canonical form: keys rising, no key twice;
in memory no byte that equals what an unlisted address reads as (notes/assumptions/1.md). -/

namespace Sys2Proof.Machine

/-! ## Tables -/

def tget {α : Type} : Table α → Nat → Option α
  | [], _ => none
  | (j, a) :: r, k => if j = k then some a else tget r k

def tset {α : Type} : Table α → Nat → α → Table α
  | [], k, a => [(k, a)]
  | (j, b) :: r, k, a =>
    if k < j then (k, a) :: (j, b) :: r
    else if k = j then (k, a) :: r
    else (j, b) :: tset r k a

def tdel {α : Type} (t : Table α) (k : Nat) : Table α := t.filter fun e => e.1 != k

/-- Put a value, or take the key out. -/
def tput {α : Type} (t : Table α) (k : Nat) : Option α → Table α
  | some a => tset t k a
  | none => tdel t k

/-- Change the value under a key, if it is there. -/
def tmod {α : Type} (t : Table α) (k : Nat) (f : α → α) : Table α :=
  match tget t k with
  | some a => tset t k (f a)
  | none => t

/-! ## Memory -/

/-- Bytes by key; what an unlisted byte reads as is memDefault. -/
abbrev Memory := List Host.Cell

/-- What a byte that nothing has written reads as (notes/assumptions/1.md). -/
def memDefault : Byte := 0

def memByte (m : Memory) (k : Nat) : Byte :=
  match m with
  | [] => memDefault
  | (j, b) :: r => if j = k then b else if k < j then memDefault else memByte r k

def memPut : Memory → Nat → Byte → Memory
  | [], k, b => if b = memDefault then [] else [(k, b)]
  | (j, c) :: r, k, b =>
    if k < j then (if b = memDefault then (j, c) :: r else (k, b) :: (j, c) :: r)
    else if k = j then (if b = memDefault then r else (k, b) :: r)
    else (j, c) :: memPut r k b

/-- Keys rise strictly from a bound on, and no byte is the default. -/
def memWfFrom : Nat → Memory → Bool
  | _, [] => true
  | lo, (k, b) :: r => decide (lo ≤ k) && b != memDefault && memWfFrom (k + 1) r

/-- The canonical form of memory. -/
def Memory.wf (m : Memory) : Bool := memWfFrom 0 m

/-- n bytes from a key on, low byte first. -/
def memRead (m : Memory) (k : Nat) : Nat → List Byte
  | 0 => []
  | n + 1 => memByte m k :: memRead m (k + 1) n

def memWrite (m : Memory) (k : Nat) : List Byte → Memory
  | [] => m
  | b :: bs => memWrite (memPut m k b) (k + 1) bs

/-- Set n bytes from a key on to the default: what a cleared allocation reads (R279, R285). -/
def memClear (m : Memory) (lo n : Nat) : Memory := m.filter fun c => c.1 < lo || lo + n ≤ c.1

end Sys2Proof.Machine
end

