-- ==== Sys2Proof/Machine/Bits.lean ====
section
/-! DEFINITION. Bits.lean: lane masks, lane vectors, and elements of a lane's value at a type (R74, R130). -/

namespace Sys2Proof.Machine

/-- The 64 lanes of a register. -/
abbrev Lanes := Vector (BitVec 32) 64

/-- One value of up to 64 bits per lane: a register, or a pair read as one value (R72). -/
abbrev Wide := Vector (BitVec 64) 64

/-- All 64 lanes. -/
def fullMask : Mask := BitVec.allOnes 64

def lanesOf (f : Nat → Word) : Lanes := Vector.ofFn fun l => f l.val

/-- Lane l of a vector; lanes at or beyond 64 do not exist. -/
def lane (v : Lanes) (l : Nat) : Word := (v[l]?).getD 0

/-- The mask of the lanes for which f holds. -/
def maskOf (f : Nat → Bool) : Mask :=
  (List.range 64).foldl (fun m l => if f l then m ||| (1#64 <<< l) else m) 0

/-- The lanes of a mask in increasing order. -/
def maskLanes (m : Mask) : List Nat := (List.range 64).filter fun l => m.getLsbD l

/-- The lowest lane of a mask. -/
def lowestLane (m : Mask) : Option Nat := (List.range 64).find? fun l => m.getLsbD l

/-- How many lanes a mask holds. -/
def maskCount (m : Mask) : Nat := (maskLanes m).length

/-! ## Elements -/

/-- Width of one element of a type, and how many a value holds (R130). -/
def elemBits : Ty → Nat
  | .i16x2 | .b16x2 | .f16x2 | .bf16x2 => 16
  | .i8x4 | .b8x4 => 8
  | t => t.bits

def elemCount : Ty → Nat
  | .i16x2 | .b16x2 | .f16x2 | .bf16x2 => 2
  | .i8x4 | .b8x4 => 4
  | _ => 1

/-- Element k of a value. -/
def elem (w k : Nat) (x : DWord) : Nat := x.toNat / 2 ^ (w * k) % 2 ^ w

/-- A w-bit number read as signed. -/
def toSigned (w x : Nat) : Int := if x < 2 ^ (w - 1) then x else (x : Int) - 2 ^ w

/-- A w-bit number read exactly: signed for an i type, unsigned for a b type. -/
def readInt (signed : Bool) (w x : Nat) : Int := if signed then toSigned w x else x

/-- An exact integer modulo 2^w. -/
def wrap (w : Nat) (x : Int) : Nat := (x % 2 ^ w).toNat

/-- Bounds of a w-bit type (R130). -/
def loOf (signed : Bool) (w : Nat) : Int := if signed then -(2 ^ (w - 1) : Nat) else 0
def hiOf (signed : Bool) (w : Nat) : Int := if signed then (2 ^ (w - 1) : Nat) - 1 else (2 ^ w : Nat) - 1

/-- Sat(x, lo, hi) (R85). -/
def sat (x lo hi : Int) : Int := if x < lo then lo else if hi < x then hi else x

/-- Narrow an exact result: saturate or wrap (R130). -/
def narrow (satur signed : Bool) (w : Nat) (x : Int) : Nat :=
  if satur then wrap w (sat x (loOf signed w) (hiOf signed w)) else wrap w x

/-- A value out of its elements, element 0 lowest. -/
def joinElems (w : Nat) : List Nat → Nat
  | [] => 0
  | x :: xs => x % 2 ^ w + 2 ^ w * joinElems w xs

/-- An operation on each element, at the element's width (R130). -/
def onElems1 (t : Ty) (f : Nat → Nat) (a : DWord) : DWord :=
  let w := elemBits t
  BitVec.ofNat 64 (joinElems w ((List.range (elemCount t)).map fun k => f (elem w k a)))

def onElems2 (t : Ty) (f : Nat → Nat → Nat) (a b : DWord) : DWord :=
  let w := elemBits t
  BitVec.ofNat 64 (joinElems w ((List.range (elemCount t)).map fun k => f (elem w k a) (elem w k b)))

def onElems3 (t : Ty) (f : Nat → Nat → Nat → Nat) (a b c : DWord) : DWord :=
  let w := elemBits t
  BitVec.ofNat 64 (joinElems w ((List.range (elemCount t)).map fun k => f (elem w k a) (elem w k b) (elem w k c)))

/-- The width rule of R74: an 8- or 16-bit value fills the lane with its sign for i types, with zeros otherwise. -/
def fillLane (t : Ty) (x : DWord) : DWord :=
  match t with
  | .i8 => ((x.extractLsb' 0 8).signExtend 32).setWidth 64
  | .i16 => ((x.extractLsb' 0 16).signExtend 32).setWidth 64
  | .b8 | .e4m3 | .e5m2 => (x.extractLsb' 0 8).setWidth 64
  | .b16 | .f16 | .bf16 => (x.extractLsb' 0 16).setWidth 64
  | .b64 | .i64 => x
  | _ => (x.extractLsb' 0 32).setWidth 64

end Sys2Proof.Machine
end

