-- ==== Sys2Proof/Machine/Numbers.lean ====
section
/-! DEFINITION. Numbers.lean: exact numbers, and the rounding of R97 to R99 on them. -/

namespace Sys2Proof.Machine

/-! ## Exact numbers -/

/-- An exact rational num / den, den at least 1. -/
structure Q where
  num : Int
  den : Nat
deriving DecidableEq, Repr

namespace Rational

def ofInt (x : Int) : Q := ⟨x, 1⟩

/-- x * 2^e. -/
def dyadic (x e : Int) : Q := if 0 ≤ e then ⟨x * 2 ^ e.toNat, 1⟩ else ⟨x, 2 ^ (-e).toNat⟩

/-- The sum. One denominator dividing the other keeps powers of two small. -/
def add (a b : Q) : Q :=
  if b.den % a.den = 0 then ⟨a.num * (b.den / a.den : Nat) + b.num, b.den⟩
  else if a.den % b.den = 0 then ⟨a.num + b.num * (a.den / b.den : Nat), a.den⟩
  else ⟨a.num * b.den + b.num * a.den, a.den * b.den⟩

def mul (a b : Q) : Q := ⟨a.num * b.num, a.den * b.den⟩

def neg (a : Q) : Q := ⟨-a.num, a.den⟩

/-- a / b for b > 0. -/
def div (a b : Q) : Q := ⟨a.num * b.den, a.den * b.num.toNat⟩

def lt (a b : Q) : Bool := decide (a.num * b.den < b.num * a.den)

def le (a b : Q) : Bool := decide (a.num * b.den ≤ b.num * a.den)

def eq (a b : Q) : Bool := decide (a.num * b.den = b.num * a.den)

def abs (a : Q) : Q := ⟨a.num.natAbs, a.den⟩

end Rational

/-- 2^k as a fraction of naturals. -/
def pow2 (k : Int) : Nat × Nat := if 0 ≤ k then (2 ^ k.toNat, 1) else (1, 2 ^ (-k).toNat)

/-- The floor of the binary logarithm of n / d, both positive. -/
def floorLog2 (n d : Nat) : Int :=
  let k : Int := (Nat.log2 n : Int) - Nat.log2 d
  let (a, b) := pow2 k
  if a * d ≤ n * b then k else k - 1

/-- The ceiling of the binary logarithm of n / d, both positive. -/
def ceilLog2 (n d : Nat) : Int :=
  let k := floorLog2 n d
  let (a, b) := pow2 k
  if a * d = n * b then k else k + 1

/-- The integer nearest n / d, ties to even (step 2 of R97). -/
def nearestEven (n d : Nat) : Nat :=
  let q := n / d
  let r := n % d
  if 2 * r < d then q else if d < 2 * r then q + 1 else if q % 2 = 0 then q else q + 1

/-- Integer square root by bits: the largest r with r * r ≤ n, for n < 4^fuel. -/
def isqrtBits : Nat → Nat → Nat → Nat
  | 0, _, r => r
  | k + 1, n, r =>
    let t := r + 2 ^ k
    isqrtBits k n (if t * t ≤ n then t else r)

def isqrt (n : Nat) : Nat := isqrtBits (Nat.log2 n / 2 + 1) n 0

/-! ## Binary floating formats -/

/-- The binary floating formats that arithmetic and conversions write (R93, R94). -/
inductive FloatFmt where | f32 | f16 | bf16 | e5m2 | e4m3
deriving DecidableEq, Repr

namespace FloatFmt

/-- Significand bits, the implicit bit included (R94). -/
def prec : FloatFmt → Nat
  | f32 => 24 | f16 => 11 | bf16 => 8 | e5m2 => 3 | e4m3 => 4

/-- Exponent of the smallest normal value (R94). -/
def emin : FloatFmt → Int
  | f32 => -126 | f16 => -14 | bf16 => -126 | e5m2 => -14 | e4m3 => -6

/-- Bits of a code. -/
def bits : FloatFmt → Nat
  | f32 => 32 | f16 => 16 | bf16 => 16 | e5m2 => 8 | e4m3 => 8

/-- The code of the sign bit. -/
def signBit (f : FloatFmt) : Nat := 2 ^ (f.bits - 1)

/-- The code of the largest finite magnitude (R94). -/
def maxCode : FloatFmt → Nat
  | f32 => 0x7F7FFFFF | f16 => 0x7BFF | bf16 => 0x7F7F | e5m2 => 0x7B | e4m3 => 0x7E

/-- The canonical NaN (R93, R95). -/
def nan : FloatFmt → Nat
  | f32 => 0x7FC00000 | f16 => 0x7E00 | bf16 => 0x7FC0 | e5m2 => 0x7E | e4m3 => 0x7F

/-- What an overflow writes without saturation, for a magnitude of the given sign (R94): infinity, and the
canonical NaN whatever the sign for E4M3. -/
def overflow (f : FloatFmt) (neg : Bool) : Nat :=
  match f with
  | e4m3 => 0x7F
  | _ => f.maxCode + 1 + (if neg then f.signBit else 0)

end FloatFmt

/-- What a float code, or a product, stands for. -/
inductive FVal where
  | nan
  | inf (neg : Bool)
  /-- the magnitude n / d with a sign, zero included -/
  | fin (neg : Bool) (n d : Nat)
deriving DecidableEq, Repr

namespace FVal

def isNan : FVal → Bool
  | nan => true
  | _ => false

def isZero : FVal → Bool
  | fin _ n _ => n == 0
  | _ => false

def isInf : FVal → Bool
  | inf _ => true
  | _ => false

/-- The sign; a NaN counts as positive. -/
def sign : FVal → Bool
  | nan => false
  | inf s => s
  | fin s _ _ => s

def neg : FVal → FVal
  | nan => nan
  | inf s => inf (!s)
  | fin s n d => fin (!s) n d

/-- The exact value of a finite number. -/
def q : FVal → Q
  | fin s n d => ⟨if s then -(n : Int) else n, d⟩
  | _ => ⟨0, 1⟩

/-- The product of R163: the sign is the XOR of the signs, infinity times zero is NaN. -/
def mul : FVal → FVal → FVal
  | nan, _ => nan
  | _, nan => nan
  | inf s, inf t => inf (s != t)
  | inf s, fin t n _ => if n = 0 then nan else inf (s != t)
  | fin s n _, inf t => if n = 0 then nan else inf (s != t)
  | fin s n d, fin t m e => fin (s != t) (n * m) (d * e)

/-- A real number with a sign for zero. -/
def ofQ (zeroNeg : Bool) (x : Q) : FVal :=
  if x.num = 0 then fin zeroNeg 0 1 else fin (decide (x.num < 0)) x.num.natAbs x.den

end FVal

/-- Exact(x) of R85 for a code of the format (R93). Every subnormal is read at its value (R96). -/
def FloatFmt.decode (f : FloatFmt) (code : Nat) : FVal :=
  let s := decide (f.signBit ≤ code % (2 * f.signBit))
  let m := code % f.signBit
  let special := match f with
    | .e4m3 => decide (m = 0x7F)
    | _ => decide (f.maxCode < m)
  if special then (if f != .e4m3 && m == f.maxCode + 1 then .inf s else .nan)
  else
    let p := 2 ^ (f.prec - 1)
    let e := m / p
    let sig := if e = 0 then m % p else p + m % p
    let ex : Int := (if e = 0 then 0 else (e : Int) - 1) + f.emin - (f.prec - 1 : Nat)
    let (a, b) := pow2 ex
    .fin s (sig * a) b

/-! ## Rounding -/

/-- How a conversion rounds (R97, R99), and whether it saturates (R98). -/
inductive RoundMode where
  | rne
  /-- stochastic, with the 8 random bits -/
  | sr (bits : Nat)
deriving DecidableEq, Repr

/-- A rounded code, and whether the result overflowed: what SATE counts (R102, R128). -/
structure Rounded where
  code : Nat
  overflowed : Bool
deriving DecidableEq, Repr

/-- RoundRNE and RoundSR of the magnitude n / d > 0 into the format (R97, R99): e and q, then the multiple of q.
The code of n * q is (e - emin) * 2^(p-1) + n, for a subnormal, a normal and a carry into the next exponent alike. -/
def FloatFmt.roundMag (f : FloatFmt) (mode : RoundMode) (n d : Nat) : Nat :=
  let e := max (floorLog2 n d) f.emin
  let (a, b) := pow2 (e - (f.prec - 1 : Nat))
  let num := n * b
  let den := d * a
  let k := match mode with
    | .rne => nearestEven num den
    | .sr r => num / den + (if r * den < 256 * (num % den) then 1 else 0)
  (e - f.emin).toNat * 2 ^ (f.prec - 1) + k

/-- Whether the magnitude n / d is beyond the largest finite value (step 1 of R99). -/
def FloatFmt.beyond (f : FloatFmt) (n d : Nat) : Bool :=
  match f.decode f.maxCode with
  | .fin _ m e => decide (m * d < n * e)
  | _ => false

/-- A finite value into the format (R97 to R99). -/
def FloatFmt.roundFin (f : FloatFmt) (mode : RoundMode) (sat neg : Bool) (n d : Nat) : Rounded :=
  let s := if neg then f.signBit else 0
  let overflow : Rounded := { code := if sat then f.maxCode + s else f.overflow neg, overflowed := true }
  if n = 0 then { code := s, overflowed := false }
  else match mode with
    | .rne =>
      let c := f.roundMag .rne n d
      if f.maxCode < c then overflow else { code := c + s, overflowed := false }
    | .sr r =>
      if f.beyond n d then overflow else { code := f.roundMag (.sr r) n d + s, overflowed := false }

/-- A value into the format: R97 to R99, and R102 for the special inputs; an infinity saturates into its own format too (DEDUCED,
notes/assumptions/29.md). -/
def FloatFmt.round (f : FloatFmt) (mode : RoundMode) (sat : Bool) : FVal → Rounded
  | .nan => { code := f.nan, overflowed := false }
  | .inf s =>
    if sat then { code := f.maxCode + (if s then f.signBit else 0), overflowed := true }
    else { code := f.overflow s, overflowed := f == .e4m3 }
  | .fin s n d => f.roundFin mode sat s n d

/-- RoundRNE(x, fmt) without saturation (R85). -/
def FloatFmt.rne (f : FloatFmt) (x : FVal) : Nat := (f.round .rne false x).code

/-! ## Exact sums -/

/-- Steps 1 to 4 of R124 and R163 on the terms of a sum; the exact sum of finite terms, with the zero sign of R160
and R125. -/
def sumTerms (ts : List FVal) : FVal :=
  if ts.any FVal.isNan then .nan
  else if ts.any (fun t => t == .inf false) && ts.any (fun t => t == .inf true) then .nan
  else if ts.any FVal.isInf then .inf (ts.any (fun t => t == .inf true))
  else FVal.ofQ (ts.all fun t => t.isZero && t.sign) (ts.foldl (fun acc t => Rational.add acc t.q) ⟨0, 1⟩)

/-! ## Directed rounding to integers -/

/-- Round(x, RND) of R167 on an exact value. -/
def roundInt (r : Rnd) (neg : Bool) (n d : Nat) : Int :=
  let q := n / d
  let inexact := n % d != 0
  let m : Nat := match r with
    | .rn => nearestEven n d
    | .rz => q
    | .rm => if neg && inexact then q + 1 else q
    | .rp => if !neg && inexact then q + 1 else q
    | .ra => if d ≤ 2 * (n % d) then q + 1 else q
  if neg then -(m : Int) else m

/-! ## Arithmetic with one rounding (R158, R163) -/

/-- One rounding of the exact sum of terms (R158, R160, R163). -/
def roundSum (f : FloatFmt) (ts : List FVal) : Nat := f.rne (sumTerms ts)

def fadd (f : FloatFmt) (a b : Nat) : Nat := roundSum f [f.decode a, f.decode b]

def fsub (f : FloatFmt) (a b : Nat) : Nat := roundSum f [f.decode a, (f.decode b).neg]

def fmul (f : FloatFmt) (a b : Nat) : Nat := roundSum f [(f.decode a).mul (f.decode b)]

def ffma (f : FloatFmt) (a b c : Nat) : Nat := roundSum f [(f.decode a).mul (f.decode b), f.decode c]

/-! ## Stochastic bits -/

/-- The 8 random bits of R100. -/
def srBits (seed index : Word) : Nat :=
  let h := seed ^^^ (index * 0x9E3779B1#32)
  let h := h ^^^ (h >>> 15)
  let h := h * 0x85EBCA6B#32
  let h := h ^^^ (h >>> 13)
  let h := h * 0xC2B2AE35#32
  let h := h ^^^ (h >>> 16)
  (h >>> 24).toNat

end Sys2Proof.Machine
end

