-- ==== Sys2Proof/Machine/State.lean ====
section
/-! DEFINITION. State.lean: everything the manual gives the machine, as plain data. Each field names its rule. INVENTORY.md
lists the reset values; notes/assumptions/1.md to 4.md say which of them the model names. -/

namespace Sys2Proof.Machine

/-! ## Registers of a group -/

/-- A stored shape with its lanes (R315). -/
inductive RegVal where
  | uniform (x : Word)
  | affine (base stride : Word)
  | general (v : Vector (BitVec 32) 64)
deriving DecidableEq, Repr

/-- A mapped register (R318): an unmapped one has no entry. -/
structure Reg where
  val : RegVal
  /-- release-pending (R321) -/
  pend : Bool := false
  /-- spilled: the value stands in the register's image in the spill area (R318, R326, R331) -/
  away : Bool := false
  /-- shares a cell with the other register of its pair (R315) -/
  joined : Bool := false
  /-- its spill image is poisoned (R330) -/
  poison : Bool := false
  /-- a failed load wrote it and the fault is still held (R344) -/
  failed : Bool := false
deriving DecidableEq, Repr

/-! ## Splits -/

/-- A fixed-latency producer that STALLCHECK still counts from (R80): the register (128 + k for pk), its latency, and
the declared distance so far. -/
structure Producer where
  reg : Nat
  latency : Nat
  distance : Nat
deriving DecidableEq, Repr

/-- Why a split is WAITING (R287), or waits for its text page (R346). -/
inductive Wait where
  /-- at a barrier instruction, before its arrival (R192) -/
  | barrier
  /-- in the Wait part of a barrier instruction, at entry bar of Group.barPend for the lanes that waited, with the instruction's
  STALL + 1 (R192) -/
  | phase (bar : Nat) (lanes : Mask) (spacing : Nat)
  /-- SLEEP until this count of the die's clock (R190) -/
  | sleep (till : Nat)
  /-- SWAIT: the Lodge clock of its deadline, the lanes satisfied, the lanes whose read failed (R206) -/
  | swait (deadline : Option Nat) (sat failed : Mask)
  | fwait
  | cwait
  | tbwait
  /-- MCLAIM, MREL, MZERO (R287) -/
  | slot
  | launch
  /-- the MMP repairs this page of its text, of this context (R346) -/
  | text (ctx page : Nat)
  /-- translated text: at the end of its region or segment, until the block's other lanes have come to theirs (R50, R57) -/
  | piece
deriving DecidableEq, Repr

/-- An active split or a parked entry (R286). -/
structure Split where
  pc : DWord
  mask : Mask
  age : Nat := 0
  wait : Option Wait := none
  deferred : Bool := false
  run : Nat := 0
  /-- the earliest die clock at which its next instruction issues (R79) -/
  notBefore : Nat := 0
  producers : List Producer := []
  /-- the deadline of a restored SWAIT that has still to issue again (R351, R353) -/
  deadline : Option Nat := none
  /-- the issue stamp of the SWAIT or TBWAIT at which it waits: that of every read of it (R344) -/
  stamp : Nat := 0
  /-- a trap suspended it at its SWAIT: one read is due after TRET, even past the deadline (R353) -/
  reread : Bool := false
  /-- its next instruction was held by a THAWING entry or at the slot scoreboard (R71) -/
  stalled : Bool := false
  /-- context and page on which its instruction waits for the MMP (R364) -/
  page : Option (Nat × Nat) := none
  /-- the MMP found no mapping for that page (R364) -/
  denied : Bool := false
  /-- how often its instruction has met an invalid entry for its own accesses (R366) -/
  faults : Nat := 0
deriving DecidableEq, Repr

/-! ## Groups -/

/-- The instruction of a group whose refills are under way or done: its split by a lane, the registers that it names and that
stay held until it issues, and the storage taken for its destination (R328). -/
structure Holder where
  lane : Nat
  named : List Nat
  slabs : Nat
  cells : Nat
deriving DecidableEq, Repr

/-- A held MEMFAULT or ARITH (R344, R350). seq orders faults by issue, lane within one instruction. -/
structure HeldFault where
  seq : Nat
  lane : Nat
  cause : Nat
  reason : Nat
  pc : DWord
  addr : DWord
  fromHandler : Bool
  /-- for a failed MLD or MST, the slots whose MWAIT delivers it (R259) -/
  slots : BitVec 16 := 0
deriving DecidableEq, Repr

/-- A failed copy (R246): its batch once closed (R247). -/
structure CopyFail where
  seq : Nat
  /-- the CPY or CPYG -/
  pc : DWord := 0
  /-- issued in trap handler mode (R345) -/
  handler : Bool := false
  batch : Option (BitVec 16)
  reason : Nat
  addr : DWord
deriving DecidableEq, Repr

/-- A trap whose event record the die's outbound buffer has no room for (R426), or that found no handler. -/
structure TrapEvent where
  code : Nat
  detail : DWord
deriving DecidableEq, Repr

/-- Kinds of an APF register (R53). -/
inductive ApfKind where | pred | r32 | r64 | r128
deriving DecidableEq, Repr

/-- A virtual group of a loop that translated text runs (R56): the iterations that take part in it still, and the values of their
private registers, a predicate's in bit 0 (R54). -/
structure ApfTurn where
  live : Mask
  regs : Table (Vector (BitVec 128) 64) := []
deriving DecidableEq, Repr

/-- How far a block has come in its translated kernel: the structure record that opened the present region or segment, the group
number and lane that a region runs on, and the registers that regions have written (R48, R50, R54). -/
structure ApfRun where
  piece : Nat := 0
  lead : Nat × Nat := (0, 0)
  regs : Table (BitVec 128) := []
deriving DecidableEq, Repr

/-- What one occupied group slot holds. -/
structure Group where
  blk : Nat
  /-- sr.group (R275) -/
  idx : Nat
  regs : Table Reg := []
  /-- v124 to v127 of the handler (R336) -/
  hregs : Table Reg := []
  /-- p0 to p7; p0 reads true whatever stands here (R69, R75) -/
  preds : Vector (BitVec 64) 8
  ended : Mask := 0
  active : List Split := []
  parked : List Split := []
  nextAge : Nat := 0
  /-- lanes pending at BAR 0-15, CBAR 0-15, DBAR 0-15 (R192, R350) -/
  barPend : Vector (BitVec 64) 48
  /-- sr.mode (R335) -/
  handler : Bool := false
  m0 : Mask := 0
  suspActive : List Split := []
  suspParked : List Split := []
  hscr0 : DWord := 0
  hscr1 : DWord := 0
  /-- sr.dead (R198) -/
  dead : Word := 0
  held : List HeldFault := []
  copyFails : List CopyFail := []
  batch : BitVec 16 := 0
  /-- tile slots claimed (R257) -/
  claims : BitVec 16 := 0
  /-- destinations of results under way: registers as they are numbered, 128 + k for pk, 256 + n for a handler's vn (R329) -/
  flight : List Nat := []
  /-- registers with a slab whose image is still being read back, in the order in which they obtained it (R328, R330) -/
  refills : List Nat := []
  holder : Option Holder := none
  /-- its spill area: bytes by offset, register r's image at 256 r (R331) -/
  spill : List Host.Cell := []
  /-- translated text: the virtual group that it runs now, and its virtual groups of the present loop (R56, R57) -/
  turn : Nat := 0
  turns : Table ApfTurn := []
  /-- virtual registers whose results are under way, each with the native register, or 128 + k for pk, that takes it -/
  staged : List (Nat × Nat) := []
  /-- virtual registers that a failed load wrote while its fault is held (R344) -/
  tainted : List Nat := []
  /-- slabs that its emulated matrix operations hold (R408) -/
  borrowed : Nat := 0
  /-- place in its level's round-robin order: the smaller issues first (R306) -/
  rr : Nat := 0
  /-- the die clock since which it was passed over (R293) -/
  passedSince : Option Nat := none
  aged : Bool := false
  /-- counters it is armed for (R412) -/
  armed : List Nat := []
  /-- every lane has ended; it waits for its writes, copies and matrix operations (R189) -/
  ending : Bool := false
  /-- the group ends when this record is accepted (R335, R338, R426) -/
  trapEvent : Option TrapEvent := none
deriving DecidableEq, Repr

/-! ## Blocks, clusters, die spans, grids -/

/-- A numbered barrier (R192). -/
structure Barrier where
  phase : Word := 0
  count : Word := 0
deriving DecidableEq, Repr

/-- Numeric classes (R3). -/
inductive Class where | m | f | l | t
deriving DecidableEq, Repr

/-- Where a resident block stands. -/
inductive Phase where
  | running
  /-- issue has stopped; it drains for a save (R347) -/
  | draining
  /-- a fetch fault: saved as for pre-emption once drained (R346) -/
  | fetchDraining
  /-- the save pool had no room: it waits in place for its page (R346) -/
  | waitingInPlace
  /-- it is restored, and blocks of its cluster or die span have still to come back (R194, R281, R284) -/
  | arriving
deriving DecidableEq, Repr

/-- A resident block: its bind record's fields (R301, R302). -/
structure Block where
  grid : Nat
  lin : Nat
  x : Nat
  y : Nat
  z : Nat
  core : Nat
  entry : Nat
  baseP : Nat
  /-- group slot keys, group 0 first -/
  slots : List Nat
  text : DWord
  scrBase : Nat
  scrSize : Nat
  /-- the cluster's key, own member number, and cluster size (R280, CMAP) -/
  cluster : Nat
  member : Nat
  clusterSize : Nat
  /-- the die span's key with DSPAN (R284) -/
  span : Option Nat
  ctx : Nat
  prio : Nat
  flags : Word
  emu : Bool
  /-- TEXT was translated from APF: STALLCHECK raises nothing there (R80) -/
  translated : Bool
  /-- lanes of the block (sr.lanes) -/
  lanes : Nat
  regsHint : Nat
  bars : Vector Barrier 16
  /-- text lines pinned for the block, as line numbers (R253) -/
  pins : List Nat := []
  phase : Phase := .running
  /-- the Lodge clock of the dispatch that started or restored it (R304: the latest-started) -/
  started : Nat := 0
  /-- how far its translated kernel has run (R48 to R50) -/
  apf : ApfRun := {}
  /-- the class whose native text it runs, where a restore has brought it to another one (R407, R409) -/
  textCls : Option Class := none
  /-- its save found no room in the save pool: R304 chooses others until the pool changes (R348) -/
  unsavable : Bool := false
deriving DecidableEq, Repr

/-- A cluster: the keys of its blocks by member, which of them have ended, and CBAR (R281, R191). -/
structure Cluster where
  grid : Nat
  /-- core and scratchpad of each member (base, size), kept until the cluster ends (R282) -/
  members : List (Nat × Nat × Nat)
  blocksLeft : Nat
  bars : Vector Barrier 16
  /-- the Lodge clock of its dispatch (R304) -/
  since : Nat := 0
  /-- while it is saved: the scratchpads of members that have ended, by member: bytes by offset, and poisoned words (R279, R282; no
  field of a save area holds them, R349) -/
  kept : List (Nat × List Host.Cell × List Nat) := []
deriving DecidableEq, Repr

/-- A DSPAN die span: its number, die and window (R284, R285), and DBAR. -/
structure Span where
  grid : Nat
  num : Nat
  die : Nat
  window : Nat
  /-- blocks of the span that have not ended -/
  blocksLeft : Nat
  bars : Vector Barrier 16
deriving DecidableEq, Repr

/-- Where a launch came from (R202, R295). -/
inductive LaunchFrom where
  | packet (work : Nat)
  | device (status : DWord)
deriving DecidableEq, Repr

/-- How far a grid's text is (R41 to R43). -/
inductive TextState where
  | unbound
  /-- waiting for the translation with this key -/
  | translating (key : Nat)
  | ready (text : DWord) (emu translated : Bool)
deriving DecidableEq, Repr

/-- A grid: launch record and kernel table fields (R35, R36, R40), its place in the pending order (R295). -/
structure Grid where
  ctx : Nat
  prio : Nat
  flags : Word
  origin : LaunchFrom
  /-- acceptance stamp: Lodge clock, then queue or core number (R295) -/
  stamp : Nat
  stampMinor : Nat
  codeobj : DWord
  /-- bytes of the code object (R40) -/
  codeSize : Nat := 0
  kindex : Nat
  contract : Nat
  gx : Nat
  gy : Nat
  gz : Nat
  bx : Nat
  byy : Nat
  bz : Nat
  cluster : Nat
  scratch : Nat
  regsHint : Nat
  args : DWord
  kdata : DWord
  signal : DWord
  cls : Option Class
  /-- by class number 1 to 4: a block dispatched again may run on another class (R409) -/
  texts : Table TextState
  /-- blocks started so far, in linear order (R276) -/
  next : Nat
  ended : Nat
  /-- linear indices that a warm reset makes the command processor start again (R420) -/
  redo : List Nat
  /-- linear indices of units whose bind records the hardware refused: they start again on the bound class (R303) -/
  retry : List Nat := []
  /-- the span size of R284, fixed when the grid is bound -/
  spanSize : Nat
  /-- the Lodge clock since which it stands first of its class without admitting a block (R296) -/
  firstSince : Option Nat
  /-- the 100 us of R296 have passed: no grid ranked below it starts a block on its class -/
  starved : Bool
deriving DecidableEq, Repr

/-- A saved or swapped-out block (R348, R349). Its state stands in its save area; here is what no field of the area
holds: the block's grid and places, and its groups' held faults beyond the first, marks and arming. -/
structure Saved where
  blk : Block
  groups : List Group
  area : DWord
  size : Nat
  /-- it waits for the MMP's signal that this text page is present, with its context (R346) -/
  waitPage : Option (Nat × Nat)
deriving DecidableEq, Repr

/-- A bind record as its 64 bytes lay it out (R301, R302). -/
structure BindRec where
  ctrl : DWord := 0
  gslots : DWord := 0
  text : DWord := 0
  grid : DWord := 0
  bidx : DWord := 0
  save : DWord := 0
  cmap : DWord := 0
  scr : Word := 0
  dsw : Word := 0
deriving DecidableEq, Repr

/-! ## Memory requests -/

/-- One lane's part of a memory instruction. -/
structure Access where
  lane : Nat
  /-- 1 for the upper half of a 128-bit access, which is an access of its own (R212) -/
  part : Nat := 0
  addr : DWord
  data : DWord := 0
  cmp : DWord := 0
  /-- walks of it that met an invalid entry; every one but the first is a refault (R366) -/
  faults : Nat := 0
  /-- it waits for the MMP's decision on this page of this context (R364) -/
  waiting : Option (Nat × Nat) := none
  /-- its place among the accesses that met an invalid entry (R364) -/
  arrived : Nat := 0
  /-- the MMP replays it, and it has not met its translation yet: the context and page (R364) -/
  replay : Option (Nat × Nat) := none
  /-- its place in the queue for its line, once its slice has served it and it has to wait (R377) -/
  queued : Option Nat := none
  /-- the Lodge clock at which it left for its peer, which has not answered it yet (R432) -/
  sent : Option Nat := none
  /-- the line stood in a FROZEN entry of the die's copy when the access was issued: true, or false once the line has been collected
  since (R397, R399) -/
  frozen : Option Bool := none
  /-- an LDR whose address is uniform: its one access sets every lane's reservation (R213, R217) -/
  every : Bool := false
deriving DecidableEq, Repr

/-- What the accesses of one instruction do. -/
inductive MemKind where
  | load
  | ldr
  | store
  | stc
  | atom (op : AtomOp) (ty : Ty) (tagged : Bool)
  | signal (st : Bool)
  | prf (ex : Bool) (lvl : Lvl)
  | wbl
deriving DecidableEq, Repr

/-- A memory instruction between its issue and its completion (R213, R224, R227). -/
structure MemOp where
  id : Nat
  grp : Nat
  seq : Nat
  pc : DWord
  handler : Bool
  ctx : Nat
  /-- 0-7 for a die, 8 and 9 for the Gondolas, 10 for the Lodge (R360) -/
  port : Nat
  kind : MemKind
  size : Nat
  /-- sign-extend a narrow load (R210) -/
  signed : Bool
  req : ReqTy
  /-- `.loc`: the die cache keeps its lines at its highest replacement priority (R209) -/
  loc : Bool := false
  /-- the scope of an acquire: later accesses of the lanes wait for it (R224) -/
  acq : Option Scope := none
  /-- lanes for which an acquire fence behind it made it one, and whether a fence of .cls or wider did (R227, R383) -/
  fenced : Mask := 0
  fencedWide : Bool := false
  mask : Mask
  dst : Dst
  /-- the load is uniform (R213) -/
  uniform : Bool
  todo : List Access
  /-- values returned: lane, part, value, and for ATOMT the tag word -/
  got : List (Nat × Nat × DWord × Word) := []
  /-- lanes whose access failed: lane, reason, address (R344) -/
  bad : List (Nat × Nat × DWord) := []
  /-- its writes are acknowledged at .dev (false) or at .sys (true) (R375) -/
  acked : Option Bool := none
  /-- places of lines that later stores of its lanes have written already, though it is not performed, each with those lanes: a read of
  one of them by another lane comes to know of it (R384) -/
  watch : List (Nat × Mask) := []
  /-- groups and lanes that have come to know of what some lanes of it did: group, those lanes, and the lanes of this one; their releases
  wait for it (R384) -/
  seen : List (Nat × Mask × Mask) := []
deriving DecidableEq, Repr

/-- A lane's reservation (R217). -/
structure Resv where
  grp : Nat
  lane : Nat
  addr : DWord
  size : Nat
  /-- the reserved 128-byte line, as a memory key -/
  line : Nat
deriving DecidableEq, Repr

/-- A line of a core's L1 (R369, R397). -/
structure L1Line where
  core : Nat
  ctx : Nat
  /-- the line's virtual address / 128, owner included -/
  vline : Nat
  bytes : List Byte
  replica : Bool
deriving DecidableEq, Repr

/-- A line in a die cache (R369): its bytes stand in mem, where the coherent value is held. -/
structure DcLine where
  die : Nat
  ctx : Nat
  vline : Nat
  /-- memory key of its first byte -/
  key : Nat
  dirty : Bool
  replica : Bool
  /-- its translation allows writes (R359, R362) -/
  w : Bool := true
  /-- `.loc` has used it: highest replacement priority (R209) -/
  loc : Bool := false
deriving DecidableEq, Repr

/-- A region of the directory (R372): memory keys base to base + size - 1; NONE regions that no conflict split are
not listed. -/
structure Region where
  base : Nat
  size : Nat
  holder : Option Nat
  /-- Lodge clock of its last conflict -/
  conflict : Nat
deriving DecidableEq, Repr

/-- A translation (R360 to R362): which TLB it stands in (0-10 ingress ports, 11 shared, 12 and 13 the Gondolas' for
host addresses), context, virtual page base and size, frame key, and its rights. -/
structure TlbEntry where
  tlb : Nat
  ctx : Nat
  base : Nat
  size : Nat
  frame : Nat
  remote : Bool
  w : Bool
  x : Bool
deriving DecidableEq, Repr

/-- A write forwarded to a holder and not yet merged there (R374). -/
structure Forwarded where
  /-- the memory instruction it belongs to, and the core that issued it -/
  op : Nat
  core : Nat
  /-- the lane that wrote, in the instruction -/
  lane : Nat := 0
  die : Nat
  ctx : Nat
  addr : DWord
  key : Nat
  bytes : List Byte
  /-- it came in from outside, through the pod context (R431) -/
  pod : Bool := false
deriving DecidableEq, Repr

/-- A recall in progress (R378). -/
structure Recall where
  die : Nat
  base : Nat
  size : Nat
  /-- who holds the range afterwards -/
  heir : Option Nat
deriving DecidableEq, Repr

/-! ## Copies and matrix work -/

/-- The page on which an agent that is no lane waits for the MMP, and how often its access has met an invalid entry there (R364, R366). -/
structure Stall where
  page : Option (Nat × Nat) := none
  faults : Nat := 0
  /-- its place among the accesses that met an invalid entry (R364) -/
  arrived : Nat := 0
deriving DecidableEq, Repr

/-- How a line that no lane asks for is reached: as owner 00 at the agent's own port, through a Gondola and the pod context, since the address
names this package as a peer (R362, R431), or as host memory under its own name (R367). -/
inductive Way where | own | pod | host
deriving DecidableEq, Repr

/-- A Lift copy under way (R239 to R248). -/
structure Copy where
  id : Nat
  grp : Nat
  seq : Nat
  pc : DWord
  handler : Bool
  ctx : Nat
  batch : Option (BitVec 16)
  desc : DWord
  /-- the descriptor's 128 bytes as read at issue -/
  bytes : List Byte
  cv : Bool
  tb : Bool
  dim : Option CpyDim
  /-- the rows of CPYG: lane and index (R244) -/
  rows : List (Nat × Nat)
  /-- pieces of the source still to be read: place of the row, and first element; none until the copy has begun (R410) -/
  units : Option (List (Nat × Nat)) := none
  /-- pieces that a first read has still to look at, for the dynamic band scales (R112, R411) -/
  scan : List (Nat × Nat) := []
  /-- the largest magnitude that they have found: band, numerator and denominator -/
  maxes : List (Nat × Nat × Nat) := []
  /-- band scales: band and BF16 code -/
  scales : List (Nat × Nat) := []
  /-- source bytes, by address, of aligned words that are read and that pieces still to be read use too (R380) -/
  buf : List Host.Cell := []
  /-- destination bytes, by address, of aligned words that pieces still to be read write too (R380) -/
  part : List Host.Cell := []
  /-- bytes still to land: memory key and value -/
  cells : List Host.Cell := []
  /-- how their lines are reached, where it is not as owner 00 at the die's port: line and way (R367, R431) -/
  ways : List (Nat × Way) := []
  /-- the piece that is read next: one that met an invalid entry, until the MMP has decided (R364) -/
  piece : Option (Nat × Nat) := none
  stall : Stall := {}
deriving DecidableEq, Repr

/-- An operation of a matrix unit (R264). -/
inductive MatWork where
  | mld (src : MldSrc) (role : Role) (ty : Ty) (imm : Word) (addr : DWord) (stride : Nat)
  | mst (sat : Bool) (ty : Ty) (slot : Nat) (addr : DWord) (stride : Nat)
  | mma (scaled : Bool) (fmt : MmaFmt) (imm : Word)
deriving DecidableEq, Repr

structure MatOp where
  id : Nat
  grp : Nat
  seq : Nat
  pc : DWord
  handler : Bool
  ctx : Nat
  /-- core x 4 + partition -/
  part : Nat
  /-- the slots it names or reads -/
  slots : BitVec 16
  work : MatWork
  /-- translated text runs it on the group's own lanes; the partition's unit stays free (R408) -/
  emulated : Bool := false
  /-- the slabs that it takes from the pool meanwhile (R408) -/
  extra : Nat := 0
  stall : Stall := {}
deriving DecidableEq, Repr

/-! ## Freezing -/

/-- STATE of a table entry (R394). -/
inductive FrState where | live | frozen | thawing
deriving DecidableEq, Repr

/-- An entry of the frozen-region table (R394). -/
structure FrtEntry where
  state : FrState := .live
  count : Nat := 0
  sys : Bool := false
  ctx : Nat := 0
  base : Nat := 0
  len : Nat := 0
  issued : BitVec 23 := 0
  done : BitVec 23 := 0
  peers : List Nat := []
deriving DecidableEq, Repr

/-- A die's copy of an entry (R394). -/
structure FrtCopy where
  state : FrState := .live
  sys : Bool := false
  ctx : Nat := 0
  base : Nat := 0
  len : Nat := 0
deriving DecidableEq, Repr

/-- What an operation on the table does once the Lodge has applied it (R232, R233). -/
inductive FrzStage where
  /-- what the dies enter in their copies (R232); dies that have still to install it, peers that have still to acknowledge -/
  | install (copy : FrtCopy) (dies peers : List Nat)
  /-- ranges of its context that other entries held FROZEN when it became THAWING (R398), as BASE and LEN; dies and peers that have
  still to acknowledge the collection -/
  | collect (spared : List (Nat × Nat)) (dies peers : List Nat)
  /-- complete as soon as the entry's earlier operations are -/
  | counted
deriving DecidableEq, Repr

/-- An FRZ or THAW between its application and its completion, in the order of SEQ (R230). -/
structure FrzOp where
  entry : Nat
  /-- its SEQ; none for the thaw that a teardown starts (R402) -/
  seq : Option (BitVec 23)
  stage : FrzStage
deriving DecidableEq, Repr

/-- An FRZ or THAW whose results have not come back (R231, R233). -/
structure FrzReq where
  id : Nat
  grp : Nat
  handler : Bool
  mask : Mask
  thaw : Bool
  sys : Bool
  base : DWord
  len : DWord
  pd : Fin 8
  vt : Nat
  ctx : Nat
  die : Nat
  /-- what it answers, once applied: pd and the ticket, and the entry the die's copy must show -/
  result : Option (Bool × Word × Nat)
deriving DecidableEq, Repr

/-! ## Queues and the command processor -/

/-- A queue in service or with a kept notify value (R21 to R29). -/
structure Queue where
  /-- the context it is enabled for -/
  ctx : Option Nat := none
  ring : DWord := 0
  ctrl : DWord := 0
  log2n : Nat := 0
  maxPrio : Nat := 0
  notify : DWord := 0
  read : DWord := 0
  halted : Bool := false
  /-- a header with VALID 0 was read: held until a re-read finds VALID 1 (R16) -/
  heldHeader : Bool := false
  /-- the Lodge clock of that read (R16) -/
  headerAt : Nat := 0
deriving DecidableEq, Repr

/-- What a started packet still has to do (R30 to R33). -/
inductive WorkKind where
  | launch (grid : Nat)
  | barrierAnd (deps : List DWord)
  /-- want: the packet's ENGINE; gondola: whose engine runs it, none while it waits for one (R428); src: the next byte to be read; dst:
  the next one to be written; left: how many those are; carry: source bytes that are read and not yet written -/
  | copy (want : Nat) (gondola : Option Nat) (src dst : DWord) (left : Nat) (carry : List Byte)
  | signal (target value : DWord) (store : Bool)
  | finished
deriving DecidableEq, Repr

/-- A packet between its start and its completion (R33). -/
structure Work where
  id : Nat
  queue : Nat
  index : DWord
  ctx : Nat
  signal : DWord
  kind : WorkKind
deriving DecidableEq, Repr

/-- A queued device-side launch (R202). -/
structure DevLaunch where
  ctx : Nat
  core : Nat
  grp : Nat
  prio : Nat
  record : DWord
  status : DWord
  /-- its context was torn down first: what is left of it is the write of its status word (R204, R401) -/
  dead : Bool := false
deriving DecidableEq, Repr

/-- A kernel as the translator has read it: its records, the kinds of its registers, the targets of its branch tables by BRX record,
and for each loop how many virtual groups one group runs, in turns, with the bytes that an iteration keeps across its barriers (R53, R57,
R59, R62). -/
structure ApfProg where
  recs : List Nat := []
  kinds : List (Nat × ApfKind) := []
  tables : List (Nat × List Nat) := []
  maps : List (Nat × Nat) := []
deriving DecidableEq, Repr

/-- An entry of the translation cache (R42, R64). -/
inductive TcState where
  | running
  | text (addr : DWord) (bytes : Nat) (prog : ApfProg)
  /-- the kernel is malformed or cannot fit -/
  | failed
deriving DecidableEq, Repr

structure TcEntry where
  id : Nat
  hash : DWord
  kindex : Nat
  devHash : DWord
  state : TcState
  used : Nat
  /-- the grid that missed first: its APF has been checked against its HASH (R42) -/
  starter : Nat := 0
  /-- the translation is done and waits for room (R43) -/
  noRoom : Bool := false
deriving DecidableEq, Repr

/-! ## Dies, links, events, the pod -/

/-- DIESTAT STATE (R423). -/
inductive DieState where | run | resetting | readmitting | absent | held
deriving DecidableEq, Repr

/-- A compute die (R417, R423). -/
structure Die where
  state : DieState := .held
  inc : BitVec 8 := 0
  /-- clk since it last left reset (sr.clock) -/
  clk : Nat := 0
  /-- step 2 of a warm reset is done: requests that meet its regions are answered HOLDER_RESET (R419) -/
  drained : Bool := false
  /-- lines whose contents a drain could not save (R418) -/
  poisoned : Nat := 0
  /-- a warm reset waits for the link's retraining window to close (R422) -/
  resetPending : Bool := false
  /-- the reset ends in absence, not in readmission (R421) -/
  toAbsent : Bool := false
  /-- step 4 runs: how many blocks are to be dispatched again (R418, R420) -/
  redone : Option Nat := none
deriving DecidableEq, Repr

/-- A die's or Gondola's link (R422). -/
structure Link where
  step : BitVec 2 := 0
  retraining : Bool := false
  /-- the Lodge clock of the last change of step (R422) -/
  changed : Option Nat := none
  replays : Nat := 0
deriving DecidableEq, Repr

/-- An event record in an outbound buffer (R424 to R426). -/
structure Event where
  code : Nat
  src : Nat
  ctx : Nat
  time : Nat
  detail : DWord
  detail2 : DWord
deriving DecidableEq, Repr

/-- A source's outbound buffer and its overflow count (R426). -/
structure Outbox where
  recs : List Event := []
  lost : Nat := 0
  firstCode : Nat := 0
  lastCode : Nat := 0
deriving DecidableEq, Repr

/-- A Gondola (R417, R424 to R428). -/
structure Gondola where
  inc : BitVec 8 := 0
  evqbase : DWord := 0
  evqctl : DWord := 6
  evqridx : DWord := 0
  evqwidx : DWord := 0
  /-- MSI-X messages sent, by vector -/
  msix : Table Nat := []
deriving DecidableEq, Repr

/-- A peer package (R431, R432). -/
structure Peer where
  joined : Bool := false
  inc : BitVec 8 := 0
  /-- a request to it has not been answered, since this Lodge clock (R432) -/
  since : Option Nat := none
  lost : Bool := false
deriving DecidableEq, Repr

/-- BOOTSTAT STATE (R439). -/
inductive BootState where | safe | loading | failed | ready | booting
deriving DecidableEq, Repr

/-- Bring-up from a LOAD on: the step that comes next, what the outside decides about it, and the images once they are in Lodge SRAM: the
firmware's MCREV and the blob's payload (R434). -/
structure LoadRun where
  step : Nat
  fetchOk : Bool
  hbmOk : Bool
  hbmStacks : BitVec 8
  dieOk : BitVec 8
  linkOk : BitVec 8
  mcrev : Nat := 0
  blob : List Byte := []
deriving DecidableEq, Repr

/-- Bring-up, power and error registers, and the mailbox (R434 to R445). -/
structure Boot where
  step : Nat := 0
  code : Nat := 0
  state : BootState := .booting
  /-- CMD of the register at 0x200 (R439) -/
  cmd : DWord := 0
  /-- the LOAD under way -/
  loading : Option LoadRun := none
  fwaddr : DWord := 0
  fwlen : DWord := 0
  cfgaddr : DWord := 0
  cfglen : DWord := 0
  power : Nat := 0
  tmax : Nat := 0
  throttle : Bool := false
  cstep : BitVec 2 := 0
  errSram : DWord := 0
  errHbm : DWord := 0
  errLink : DWord := 0
  mbVersion : DWord := 0
  mbDieOk : BitVec 8 := 0
  mbHbmOk : BitVec 8 := 0
  mbLinkOk : BitVec 16 := 0
  mbRomRev : Word := 0
  mbKeyId : DWord := 0
  mbFwMeas : DWord := 0
  mbCfgMeas : DWord := 0
  mbLog : List Byte := []
  /-- microcode revision of the signed firmware (R41) -/
  mcrev : DWord := 0
  /-- settings of the configuration blob (R436) -/
  ctxTable : DWord := 0
  absentMask : BitVec 8 := 0
  policy : Word := 0
  podSize : Nat := 1
  peerNum : Nat := 0
  pkgInc : BitVec 8 := 0
  podCtx : Nat := 0
  peerTmo : Nat := 0
  powerCap : Nat := 0
  /-- port masks by peer number (R431, R436) -/
  routes : List DWord := []
deriving DecidableEq, Repr

/-! ## The machine -/

/-- The machine. -/
structure State where
  /-- bytes by memory key: every space of Ops.lean's key functions (R12, R285, R359) -/
  mem : List (Nat × BitVec 8)
  /-- poisoned aligned words, by key / 4 (R442) -/
  poison : List Nat
  /-- bytes of the tile slots (R254) -/
  tile : List (Nat × BitVec 8)
  tilePoison : List Nat
  groups : Table Group
  blocks : Table Block
  clusters : Table Cluster
  spans : Table Span
  grids : Table Grid
  saved : Table Saved
  binds : Table BindRec
  l1 : List L1Line
  /-- instruction-cache lines: core and line number (R253) -/
  ilines : List (Nat × Nat)
  /-- health counters: (core x 4 + partition) x 8 + code (R127) -/
  health : Table (BitVec 32)
  /-- tile slot headers: (core x 4 + partition) x 16 + slot (R255) -/
  hdrs : Table (BitVec 64)
  matq : List MatOp
  copies : List Copy
  /-- partitions in shadow mode with the group that runs ahead (R308) -/
  shadow : Table Nat
  resv : List Resv
  dies : Vector Die 8
  gondolas : Vector Gondola 2
  links : Vector Link 10
  dc : List DcLine
  /-- die x 256 + entry -/
  frtCopy : Table FrtCopy
  frt : Table FrtEntry
  frzOps : List FrzOp
  frzReqs : List FrzReq
  /-- the Lodge clock in which an FRZ or THAW was applied last, and its group (R236) -/
  frzLast : Option (Nat × Nat)
  regions : List Region
  /-- sequence tags by line: key / 128 (R376) -/
  tags : Table (BitVec 16)
  tlb : List TlbEntry
  reqs : List MemOp
  fwd : List Forwarded
  recalls : List Recall
  /-- contexts and pages the MMP works on (R364) -/
  mmp : List (Nat × Nat)
  /-- contexts and pages for which the MMP has found no mapping, as the agent that is served now is told; empty between steps (the
  model's own, R364) -/
  denied : List (Nat × Nat)
  /-- REPLAYSTORM errors that the MMP has received: the instruction, copy, operation or other agent, and the lane (R366) -/
  storms : List (Nat × Nat)
  /-- where agents of the Lodge and the Gondolas wait for the MMP, by agent (R366) -/
  stalls : Table Stall
  /-- by die: the core that its edge converter has served last (R410) -/
  converter : Table Nat
  /-- requests of the host, of peers and of the network that wait for the MMP, a frozen line or a link, oldest first, each with a name
  (R364, R401, R422) -/
  outer : List (Nat × Instr)
  /-- access counters of 64 KiB remote pieces (R367) -/
  remote : Table (BitVec 16)
  portq : Nat
  /-- home slices and the ports that each has served in this Lodge clock (R377) -/
  served : List (Nat × Nat)
  /-- Lodge clock (R424) -/
  lodge : Nat
  /-- 0-7 dies, 8 the Lodge, 9 and 10 the Gondolas' own -/
  outbox : Table Outbox
  cpcmd : BitVec 64
  diectl : BitVec 32
  queues : Table Queue
  works : List Work
  launches : List DevLaunch
  tcache : List TcEntry
  teardowns : List Nat
  /-- contexts and pages taken for argument buffers (R38, notes/assumptions/18.md) -/
  argPages : List (Nat × Nat)
  peers : Table Peer
  boot : Boot
  /-- inputs still to land, oldest first (the model's own) -/
  agenda : List Instr
  /-- what is under way met a home or a holder that cannot answer now: it is not made, and tried again later; false between steps (the
  model's own, R419, R422) -/
  blocked : Bool
  /-- the split that issues: group key and lowest lane; 16384 names none (the model's own) -/
  curGroup : Nat
  curLane : Nat
  /-- which side the next step serves (the model's own) -/
  turn : Bool
  /-- set by an instruction that issued, so that the step knows it was not held (the model's own) -/
  issued : Bool
  /-- steps until a step serves the next one in turn, and how many such steps have been (the model's own, R292,
  notes/assumptions/59.md) -/
  patience : Nat
  round : Nat
  /-- free values drawn (the model's own, notes/assumptions/4.md) -/
  free : Nat
  /-- the next name for a request, copy, grid, block or work, and the issue stamp (the model's own) -/
  nextId : Nat
deriving DecidableEq, Repr

/-- Why the machine stops with a fault. -/
inductive Fault where
  /-- exec was given a native instruction while State.curGroup and State.curLane name no split that could issue
  it. step never does so. Safe: no hardware run corresponds to it. -/
  | noIssuingSplit
deriving DecidableEq, Repr

/-- Why the machine refuses. -/
inductive Refusal where
  /-- An instruction without a meaning, raised by Dispatch.lean's arm alone. Safe. -/
  | notModelled (mnemonic : String)
deriving DecidableEq, Repr

/-- The machine right after power-up: every field at the value the manual gives, and at the value
notes/assumptions/1.md to 4.md name where it gives none. -/
def State.reset : State where
  mem := []
  poison := []
  tile := []
  tilePoison := []
  groups := []
  blocks := []
  clusters := []
  spans := []
  grids := []
  saved := []
  binds := []
  l1 := []
  ilines := []
  health := []
  hdrs := []
  matq := []
  copies := []
  shadow := []
  resv := []
  dies := Vector.replicate 8 {}
  gondolas := Vector.replicate 2 {}
  links := Vector.replicate 10 {}
  dc := []
  frtCopy := []
  frt := []
  frzOps := []
  frzReqs := []
  frzLast := none
  regions := []
  tags := []
  tlb := []
  reqs := []
  fwd := []
  recalls := []
  mmp := []
  denied := []
  storms := []
  stalls := []
  converter := []
  outer := []
  remote := []
  portq := 0
  served := []
  lodge := 0
  outbox := []
  cpcmd := 0
  diectl := 0
  queues := []
  works := []
  launches := []
  tcache := []
  teardowns := []
  argPages := []
  peers := []
  boot := {}
  agenda := []
  blocked := false
  curGroup := 16384
  curLane := 0
  turn := false
  issued := false
  patience := 0
  round := 0
  free := 0
  nextId := 0

end Sys2Proof.Machine
end

