-- ==== Sys2Proof/Machine/Operands.lean ====
section
/-! DEFINITION. Operands.lean: reading registers, predicates and sources (R68 to R72, R131, R177), and the shapes of
sources and results (R132, R133). -/

namespace Sys2Proof.Machine

/-! ## Registers -/

/-- Lane l of a stored value (R315). -/
def RegVal.lane : RegVal → Nat → Word
  | .uniform x, _ => x
  | .affine b s, l => b + s * BitVec.ofNat 32 l
  | .general v, l => Machine.lane v l

/-- Whether vn denotes a handler register (R336). -/
def isHandlerReg (g : Group) (n : Nat) : Bool := g.handler && decide (124 ≤ n ∧ n < 128)

/-- The register that the name vn denotes; none when it is unmapped (R318). -/
def regOf (g : Group) (n : Nat) : Option Reg := if isHandlerReg g n then tget g.hregs n else tget g.regs n

/-- Lane l of vn; an unmapped register reads as uniform zero (R323). -/
def readReg (g : Group) (n l : Nat) : Word :=
  match regOf g n with
  | some r => r.val.lane l
  | none => 0

/-- Lane l of the pair vn, vn+1, bits 31 to 0 in vn (R72). -/
def readPair (g : Group) (n l : Nat) : DWord := readReg g (n + 1) l ++ readReg g n l

/-- Lane l of the quad vn to vn+3 (R72). -/
def readQuad (g : Group) (n l : Nat) : BitVec 128 := readPair g (n + 2) l ++ readPair g n l

/-- Predicate k of lane l; p0 reads true (R69, R73). -/
def readPred (g : Group) (k : Fin 8) (l : Nat) : Bool := k == 0 || (g.preds[k]).getLsbD l

/-! ## Sources -/

/-- 0 or 1 at integer and bit types, 0.0 or 1.0 at float types (R69). -/
def predValue (t : Ty) (x : Bool) : DWord :=
  if x then (match t with | .f32 => 0x3F800000 | .f16 => 0x3C00 | .bf16 => 0x3F80 | _ => 1) else 0

/-- IMM as the special source IMM reads it (R69). -/
def immValue (t : Ty) (imm : Word) : DWord :=
  match t with
  | .i64 => imm.signExtend 64
  | _ => imm.setWidth 64

/-- IMM as an f32 value at a float type (R69). -/
def fimmValue (t : Ty) (imm : Word) : DWord :=
  let x := FloatFmt.f32.decode imm.toNat
  match t with
  | .f16 => BitVec.ofNat 64 (FloatFmt.f16.rne x)
  | .bf16 => BitVec.ofNat 64 (FloatFmt.bf16.rne x)
  | .f16x2 => BitVec.ofNat 64 (FloatFmt.f16.rne x * 65537)
  | .bf16x2 => BitVec.ofNat 64 (FloatFmt.bf16.rne x * 65537)
  | _ => imm.setWidth 64

/-- The bits of a value at its type's width. -/
def truncTo (t : Ty) (x : DWord) : DWord := BitVec.ofNat 64 (x.toNat % 2 ^ t.bits)

/-- NEG on a value of the type (R70). -/
def negValue (t : Ty) (x : DWord) : DWord :=
  match t with
  | .f32 => x ^^^ 0x80000000
  | .f16 | .bf16 => x ^^^ 0x8000
  | .f16x2 | .bf16x2 => x ^^^ 0x80008000
  | .e4m3 | .e5m2 => x ^^^ 0x80
  | _ => ~~~x

/-- Src(X, l) of R85: the special source or register of lane l at the type's width, after NEG. -/
def srcAt (g : Group) (t : Ty) (imm : Word) (s : Src) (l : Nat) : DWord :=
  match s.sel with
  | .pred k => predValue t (readPred g k l != s.neg)
  | .reg n =>
    let x := if t.wide then readPair g n l else (readReg g n l).setWidth 64
    truncTo t (if s.neg then negValue t x else x)
  | .zero => truncTo t (if s.neg then negValue t 0 else 0)
  | .imm => truncTo t (if s.neg then negValue t (immValue t imm) else immValue t imm)
  | .fimm => truncTo t (if s.neg then negValue t (fimmValue t imm) else fimmValue t imm)
  | .lane => truncTo t (if s.neg then negValue t (BitVec.ofNat 64 l) else BitVec.ofNat 64 l)

/-- A predicate source, inverted by NEG (R153, R181). -/
def srcPred (g : Group) (s : Src) (l : Nat) : Bool :=
  match s.sel with
  | .pred k => readPred g k l != s.neg
  | _ => false

/-- A source read as b32 (R131). -/
def srcB32 (g : Group) (imm : Word) (s : Src) (l : Nat) : Word := (srcAt g .b32 imm s l).setWidth 32

/-- A "data" source of n registers (1, 2 or 4), or ZERO (R207). -/
def srcData (g : Group) (n : Nat) (s : Src) (l : Nat) : BitVec 128 :=
  match s.sel with
  | .reg r =>
    if n = 4 then readQuad g r l
    else if n = 2 then (readPair g r l).setWidth 128
    else (readReg g r l).setWidth 128
  | _ => 0

/-- A "b64" source: an even pair (R176). -/
def srcPair (g : Group) (s : Src) (l : Nat) : DWord :=
  match s.sel with
  | .reg r => readPair g r l
  | _ => 0

/-- The address of lane l (R208). -/
def laneAddr (g : Group) (o : Op) (l : Nat) : DWord := srcPair g o.a l + o.imm.signExtend 64

/-! ## Shapes -/

/-- A nominal shape (R132). -/
inductive Nominal where
  | uniform
  | affine (base stride : Word)
  | general
deriving DecidableEq, Repr

/-- The shape of a register value. -/
def RegVal.nominal : RegVal → Nominal
  | .uniform _ => .uniform
  | .affine b s => .affine b s
  | .general _ => .general

/-- The shape of vn; an unmapped register reads as uniform zero. -/
def regNominal (g : Group) (n : Nat) : Nominal :=
  match regOf g n with
  | some r => r.val.nominal
  | none => .uniform

/-- Whether a source is uniform (R69, R132). -/
def srcUniform (g : Group) (t : Ty) (s : Src) : Bool :=
  match s.sel with
  | .reg n => regNominal g n == .uniform && (!t.wide || regNominal g (n + 1) == .uniform)
  | .pred k => k == 0
  | .lane => false
  | _ => true

/-- A 32-bit source as base and stride: affine, or uniform with stride 0 (R133). -/
def srcAffine (g : Group) (imm : Word) (s : Src) : Option (Word × Word) :=
  let u := some (srcB32 g imm s 0, (0 : Word))
  match s.sel with
  | .reg n =>
    match regNominal g n with
    | .uniform => u
    | .affine b st => if s.neg then some (~~~b, -st) else some (b, st)
    | .general => none
  | .pred k => if k == 0 then u else none
  | .lane => if s.neg then some (~~~0, -1) else some (0, 1)
  | _ => u

/-- Whether the source is affine in the narrow sense, or uniform: what R133's rows ask of an operand. -/
def Nominal.ofPair : Option (Word × Word) → Nominal
  | some (b, s) => .affine b s
  | none => .general

end Sys2Proof.Machine
end

