-- ==== Sys2Proof/Machine/Flags.lean ====
section
/-! DEFINITION. Flags.lean: every computation of a predicate or a flag: the conditions of ICMP, SWAIT and FCMP, how a
comparison combines, PLOP, POLL, the class bits of FCLASS, and sr.dead. -/

namespace Sys2Proof.Machine

/-- ICMP's and SWAIT's conditions on exact values (R149, R206). -/
def condHolds : Cond → Int → Int → Bool
  | .eq, a, b => decide (a = b)
  | .ne, a, b => decide (a ≠ b)
  | .lt, a, b => decide (a < b)
  | .le, a, b => decide (a ≤ b)
  | .gt, a, b => decide (b < a)
  | .ge, a, b => decide (b ≤ a)

/-- How a comparison combines with C (R149). -/
def combine : Comb → Bool → Bool → Bool
  | .none, x, _ => x
  | .and, x, c => x && c
  | .or, x, c => x || c

/-- One PLOP function (R153). -/
def logicOp : Logic → Bool → Bool → Bool
  | .and, a, b => a && b
  | .or, a, b => a || b
  | .xor, a, b => a != b

/-- a < b on floats that are not NaN; the zeros are equal. -/
def fLess : FVal → FVal → Bool
  | .nan, _ => false
  | _, .nan => false
  | .inf s, .inf t => s && !t
  | .inf s, .fin _ _ _ => s
  | .fin _ _ _, .inf t => !t
  | a@(.fin _ _ _), b@(.fin _ _ _) => Rational.lt a.q b.q

/-- FCMP's conditions (R165). -/
def fcondHolds (c : FCond) (a b : FVal) : Bool :=
  let un := a.isNan || b.isNan
  let eq := !un && !fLess a b && !fLess b a
  match c with
  | .eq => eq
  | .ne => !eq
  | .lt => !un && fLess a b
  | .le => !un && !fLess b a
  | .gt => !un && fLess b a
  | .ge => !un && !fLess a b
  | .nan => un
  | .num => !un

/-- The class bit of a code (R166). -/
def classBit (f : FloatFmt) (code : Nat) : Nat :=
  let m := code % f.signBit
  let neg := decide (f.signBit ≤ code % (2 * f.signBit))
  let p := 2 ^ (f.prec - 1)
  if f.maxCode + 1 < m then (if m % p < p / 2 then 8 else 9)
  else if m = f.maxCode + 1 then (if neg then 0 else 7)
  else if m = 0 then (if neg then 3 else 4)
  else if m < p then (if neg then 2 else 5)
  else (if neg then 1 else 6)

/-- POLL's results on the active lanes and those that read 1 (R181). -/
def pollBool (mode : PollMode) (act ones : Mask) : Bool :=
  match mode with
  | .some => ones != 0
  | .every => ones == act
  | _ => ones == 0 || ones == act

/-- sr.dead after an instruction made dead reads, the lowest of which is n (R198, R324). -/
def deadAfter (dead : Word) (n : Nat) : Word :=
  if dead.getLsbD 31 then dead else 0x80000000#32 ||| BitVec.ofNat 32 (n % 128)

end Sys2Proof.Machine
end

