-- ==== Sys2Proof/Machine/Pool.lean ====
section
/-! DEFINITION. Pool.lean: the renamed register pool: how many slabs and cells are held, what a mapping takes, the
snowplough rule, spill areas, writes and releases (R315 to R332). -/

namespace Sys2Proof.Machine

/-! ## Named updates -/

def State.group (s : State) (k : Nat) : Option Group := tget s.groups k

def State.setGroup (s : State) (k : Nat) (g : Group) : State := { s with groups := tset s.groups k g }

/-- Change group k, if its slot is occupied. -/
def State.modGroup (s : State) (k : Nat) (f : Group → Group) : State := { s with groups := tmod s.groups k f }

def coreOf (k : Nat) : Nat := k / 64
def partOf (k : Nat) : Nat := k / 16
def dieOf (k : Nat) : Nat := k / 2048

/-! ## Counting -/

def Reg.isSlab (r : Reg) : Bool :=
  match r.val with
  | .general _ => !r.away
  | _ => false

def Reg.isCell (r : Reg) : Bool :=
  match r.val with
  | .general _ => false
  | _ => true

/-- Slabs and cells already taken for the destination of an instruction that waits for its refills (R328). -/
def takenOf (g : Group) : Nat × Nat := (g.holder.map fun h => (h.slabs, h.cells)).getD (0, 0)

/-- S_g: slabs mapped (R325). An AWAY register holds none, until its refill has mapped one (R330). An emulated matrix operation of the group
holds some (R408). -/
def slabsOf (g : Group) : Nat :=
  ((g.regs ++ g.hregs).filter fun e => e.2.isSlab).length +
  (g.regs.filter fun e => e.2.away && g.refills.contains e.1).length + (takenOf g).1 + g.borrowed

/-- C_g: cells mapped, a joined pair counted once (R325). -/
def cellsOf (g : Group) : Nat :=
  ((g.regs ++ g.hregs).filter fun e => e.2.isCell && !(e.2.joined && e.1 % 2 == 1)).length + (takenOf g).2

/-- The occupied group slots of a core. -/
def coreGroups (s : State) (core : Nat) : Table Group := s.groups.filter fun e => coreOf e.1 == core

/-- FREE of R325 when group k needs ns slabs and nc cells more than it maps. -/
def freeWith (s : State) (k ns nc : Nat) : Int :=
  let gs := coreGroups s (coreOf k)
  let extra (j n : Nat) : Nat := if j = k then n else 0
  let slabs := gs.foldl (fun a e => a + max (slabsOf e.2 + extra e.1 ns) 6) 0
  let cells := gs.foldl (fun a e => a + max (cellsOf e.2 + extra e.1 nc) 16) 0
  2048 - (slabs : Int) - ((cells + 31) / 32 : Nat)

/-- FREE of R325, clamped at 0 (R332). -/
def freeSlabs (s : State) (k : Nat) : Nat := (freeWith s k 0 0).toNat

/-! ## The snowplough rule -/

/-- The keys of R327: the larger list ranks lower. -/
def rankKey (s : State) (k : Nat) (g : Group) : List Nat :=
  match tget s.blocks g.blk with
  | none => [12, 0, 0, k % 64]
  | some b =>
    let (a, c) := match tget s.grids b.grid with
      | some gr => (gr.stamp, gr.stampMinor)
      | none => (0, 0)
    [11 - b.prio, a, c, k % 64]

def lexLt : List Nat → List Nat → Bool
  | a :: as, b :: bs => if a < b then true else if b < a then false else lexLt as bs
  | _, _ => false

/-- The register a victim spills next: the highest general register that is neither held nor a handler register
(R326, R328). What a handler calls v124 to v127 is not the program's register of that number (R336). -/
def spillable (g : Group) (named : List Nat) : Option Nat :=
  let held := (named ++ (g.holder.map (·.named)).getD []).filter fun n => !isHandlerReg g n
  ((g.regs.filter fun e => e.2.isSlab && !(held.contains e.1)).getLast?).map (·.1)

/-- The victim: the lowest-ranked group of the core with more than 6 slabs and a spillable register (R326). -/
def victim (s : State) (k : Nat) (named : List Nat) : Option (Nat × Nat) :=
  let cands := (coreGroups s (coreOf k)).filterMap fun e =>
    if 6 < slabsOf e.2 then
      (spillable e.2 (if e.1 = k then named else [])).map fun r => (rankKey s e.1 e.2, e.1, r)
    else none
  (cands.foldl (fun best c => match best with
    | none => some c
    | some b => if lexLt b.1 c.1 then some c else some b) none).map (·.2)

/-- A register's 256 bytes in the slab layout of R315. -/
def imageBytes (v : RegVal) : List Byte := (List.range 64).flatMap fun l => leBytes 4 (v.lane l).toNat

/-- The value that an image of the spill area holds. -/
def imageVal (spill : List Host.Cell) (r : Nat) : RegVal :=
  .general (lanesOf fun l => BitVec.ofNat 32 (leNat (memRead spill (256 * r + 4 * l) 4)))

/-- Register r goes AWAY: its slab is written to slot r of the spill area (R326, R331). -/
def spillReg (g : Group) (r : Nat) : Group :=
  match tget g.regs r with
  | some x => { g with regs := tset g.regs r { x with away := true }, spill := memWrite g.spill (256 * r) (imageBytes x.val) }
  | none => g

/-- Spill until a request for ns slabs and nc cells leaves at least goal slabs free or nothing can be spilled (R326). Each
spill frees one slab. -/
def obtainLoop (k : Nat) (named : List Nat) (ns nc : Nat) (goal : Int) : Nat → State → State
  | 0, s => s
  | fuel + 1, s =>
    if goal ≤ freeWith s k ns nc then s
    else match victim s k named with
      | none => s
      | some (j, r) => obtainLoop k named ns nc goal fuel (s.modGroup j fun g => spillReg g r)

/-- One request of group k: what lies within its reserve takes nothing further from the pool (R325, R326). -/
def obtain (s : State) (k : Nat) (named : List Nat) (ns nc : Nat) : State :=
  let goal := min 0 (freeWith s k 0 0)
  obtainLoop k named ns nc goal (goal - freeWith s k ns nc).toNat s

/-- The reserves, and the registers that a restore maps, are taken from the pool of group k's core (R325, R326, R353). -/
def takeReserves (s : State) (k : Nat) : State := obtainLoop k [] 0 0 0 (-(freeWith s k 0 0)).toNat s

/-! ## Writing -/

/-- Put a register under its name, in the handler's file or the program's; the other half of a joined pair parts
(R315). -/
def putReg (g : Group) (n : Nat) (r : Option Reg) : Group :=
  let part (t : Table Reg) : Table Reg :=
    tput (tmod t (n + 1 - 2 * (n % 2)) fun x => { x with joined := false }) n r
  if isHandlerReg g n then { g with hregs := part g.hregs } else { g with regs := part g.regs }

/-- The value a write stores (R134): the nominal shape when all 64 lanes are active, otherwise a general register whose
inactive lanes keep their values, or read zero where the register was unmapped. -/
def storedVal (old : Option Reg) (act : Mask) (nom : Nominal) (new : Nat → Word) : RegVal :=
  if act = fullMask then
    match nom with
    | .uniform => .uniform (new 0)
    | .affine b st => .affine b st
    | .general => .general (lanesOf new)
  else
    .general (lanesOf fun l => if act.getLsbD l then new l else match old with | some r => r.val.lane l | none => 0)

/-- A group is diverged while it has more than one active split or any parked entry, suspended ones included (R318). -/
def diverged (g : Group) : Bool :=
  decide (1 < g.active.length + g.parked.length + g.suspActive.length + g.suspParked.length)

/-- What the storage of an instruction's results depends on: the registers it names, which no request of its own spills
(R328), those that it releases through LU, and the storage already taken for it while its sources were refilled. -/
structure Naming where
  regs : List Nat := []
  drops : List Nat := []
  slabs : Nat := 0
  cells : Nat := 0
deriving DecidableEq, Repr

/-- The register that a write of vn finds: a register that the same instruction releases is mapped again, so in a group that is
not diverged its other lanes are gone (R76, R317, R318). -/
def heldReg (g : Group) (nm : Naming) (n : Nat) : Option Reg :=
  if nm.drops.contains n && !diverged g then none else regOf g n

/-- Storage that a write of this value takes beyond what the register holds (R317). One half of a joined pair leaves its cell to
the other half. -/
def needOf (old : Option Reg) (new : RegVal) : Nat × Nat :=
  match new with
  | .general _ => if old.any Reg.isSlab then (0, 0) else (1, 0)
  | _ => if old.any fun r => r.isCell && !r.joined then (0, 0) else (0, 1)

/-- Storage that a uniform pair vn, vn+1 takes: one cell, unless one of the two holds a cell (R315, R317). -/
def needPair (g : Group) (n : Nat) : Nat :=
  if (regOf g n).any Reg.isCell || (regOf g (n + 1)).any Reg.isCell then 0 else 1

/-- The one request of an instruction's results (R328): what it needs beyond what was taken for it before. -/
def obtainFor (s : State) (k : Nat) (nm : Naming) (need : Nat × Nat) : State :=
  obtain s k nm.regs (need.1 - nm.slabs) (need.2 - nm.cells)

/-- What a write of vn in the active lanes leaves in the register (R75, R134). A partial write keeps the marks of a failed load and
of poison for the lanes it leaves; every other mark is cleared (R318). -/
def writtenReg (g : Group) (nm : Naming) (act : Mask) (nom : Nominal) (n : Nat) (new : Nat → Word) : Reg :=
  let old := heldReg g nm n
  { val := storedVal old act nom new
    failed := act != fullMask && old.any (·.failed)
    poison := act != fullMask && old.any (·.poison) }

/-- Write vn in the active lanes (R75, R134). -/
def writeReg (s : State) (k : Nat) (nm : Naming) (act : Mask) (nom : Nominal) (n : Nat) (new : Nat → Word) : State :=
  if act = 0 then s
  else match s.group k with
    | none => s
    | some g =>
      let r := writtenReg g nm act nom n new
      (obtainFor s k nm (needOf (regOf g n) r.val)).modGroup k fun g => putReg g n (some r)

/-- Mark vn, vn+1 as one joined pair where both are uniform (R315). -/
def joinPair (g : Group) (n : Nat) : Group :=
  match regOf g n, regOf g (n + 1) with
  | some a, some b =>
    if a.val.nominal == .uniform && b.val.nominal == .uniform then
      let set (t : Table Reg) : Table Reg :=
        tmod (tmod t n fun x => { x with joined := true }) (n + 1) fun x => { x with joined := true }
      if isHandlerReg g n then { g with hregs := set g.hregs } else { g with regs := set g.regs }
    else g
  | _, _ => g

/-- Slabs and cells that m registers from vn on take for their new values (R315, R317): a uniform pair one cell. -/
def needWide (g : Group) (joins : Bool) (m n : Nat) (rs : List Reg) : Nat × Nat :=
  if joins then (0, if m = 4 then needPair g n + needPair g (n + 2) else needPair g n)
  else ((List.range m).zip rs).foldl (fun a x =>
    let d := needOf (regOf g (n + x.1)) x.2.val
    (a.1 + d.1, a.2 + d.2)) (0, 0)

/-- Write m registers from vn on (1, 2 or 4), the 32-bit pieces of one value per lane (R72), with one request for all of them. A
general or uniform result; a uniform pair or quad is stored joined. -/
def writeWide (s : State) (k : Nat) (nm : Naming) (act : Mask) (uni : Bool) (m n : Nat) (new : Nat → BitVec 128) : State :=
  if act = 0 then s
  else match s.group k with
    | none => s
    | some g =>
      let nom := if uni then Nominal.uniform else .general
      let rs := (List.range m).map fun i => writtenReg g nm act nom (n + i) fun l => (new l >>> (32 * i)).setWidth 32
      let joins := uni && act == fullMask && decide (2 ≤ m)
      (obtainFor s k nm (needWide g joins m n rs)).modGroup k fun g =>
        let g := ((List.range m).zip rs).foldl (fun g x => putReg g (n + x.1) (some x.2)) g
        if joins then (if m = 4 then joinPair (joinPair g n) (n + 2) else joinPair g n) else g

/-! ## Releasing -/

/-- vn takes the pending mark: its storage stays as it is (R321). -/
def pendReg (g : Group) (n : Nat) : Group :=
  let mark (t : Table Reg) : Table Reg := tmod t n fun r => { r with pend := true }
  if isHandlerReg g n then { g with hregs := mark g.hregs } else { g with regs := mark g.regs }

/-- LU or VKILL on vn (R318, R321). -/
def releaseReg (g : Group) (n : Nat) : Group :=
  if (regOf g n).isNone then g
  else if diverged g then pendReg g n
  else putReg g n none

def releaseRegs (g : Group) (ns : List Nat) : Group := ns.foldl releaseReg g

/-- R322: a group with exactly one active split and no parked entry releases what is pending. -/
def releasePending (g : Group) : Group :=
  if g.active.length = 1 && !(diverged g) then
    let keep (t : Table Reg) : Table Reg :=
      (t.filter fun e => !e.2.pend).map fun e =>
        let partner := e.1 + 1 - 2 * (e.1 % 2)
        (e.1, { e.2 with joined := e.2.joined && (tget t partner).any fun p => !p.pend })
    { g with regs := keep g.regs, hregs := keep g.hregs }
  else g

end Sys2Proof.Machine
end

