-- ==== Sys2Proof/Machine/Splits.lean ====
section
/-! DEFINITION. Splits.lean: active splits and the frontier list (R286 to R291). -/

namespace Sys2Proof.Machine

def Split.ready (p : Split) : Bool := p.wait.isNone

/-- Slalom order: not deferred first, then lower PC, then lower lane (R288). -/
def slalomBefore (a b : Split) : Bool :=
  if a.deferred != b.deferred then !a.deferred
  else if a.pc != b.pc then decide (a.pc.toNat < b.pc.toNat)
  else decide ((lowestLane a.mask).getD 64 < (lowestLane b.mask).getD 64)

/-- Insertion into a list ordered by a relation. -/
def insertBy {α : Type} (before : α → α → Bool) (x : α) : List α → List α
  | [] => [x]
  | y :: ys => if before y x then y :: insertBy before x ys else x :: y :: ys

def sortBy {α : Type} (before : α → α → Bool) : List α → List α
  | [] => []
  | x :: xs => insertBy before x (sortBy before xs)

/-- The split or entry that holds a lane. -/
def splitAt (g : Group) (l : Nat) : Option Split :=
  match g.active.find? fun p => p.mask.getLsbD l with
  | some p => some p
  | none => g.parked.find? fun p => p.mask.getLsbD l

/-- Change the split or entry with the given mask. -/
def updSplit (g : Group) (m : Mask) (f : Split → Split) : Group :=
  { g with
    active := g.active.map fun p => if p.mask == m then f p else p
    parked := g.parked.map fun p => if p.mask == m then f p else p }

/-! ## R289 step 5: merging -/

/-- Two READY splits or entries at one PC join (R289 step 5). Restored SWAITs that still wait for different deadlines, or one of them and
lanes that come to it, keep apart until they have issued: an SWAIT keeps its deadline (R347, R353; DESIGN CHOICE,
notes/assumptions/33.md). -/
def Split.joins (a b : Split) : Bool := a.ready && b.ready && a.pc == b.pc && a.deadline == b.deadline

/-- One split out of two READY ones at one PC. Producers of either end (R80). -/
def joinSplits (aActive bActive : Bool) (a b : Split) : Split :=
  { pc := a.pc, mask := a.mask ||| b.mask, age := min a.age b.age,
    deferred := if aActive && bActive then a.deferred && b.deferred else if aActive then a.deferred else bActive && b.deferred,
    run := max a.run b.run, notBefore := max a.notBefore b.notBefore, deadline := a.deadline, stalled := a.stalled || b.stalled }

/-- Merge x into the first READY split or entry of a list at its PC; the flag says whether it is active. -/
def mergeInto (x : Bool × Split) : List (Bool × Split) → List (Bool × Split)
  | [] => [x]
  | y :: ys =>
    if y.2.joins x.2 then (x.1 || y.1, joinSplits y.1 x.1 y.2 x.2) :: ys
    else y :: mergeInto x ys

/-- All pairs joined (R289 step 5). -/
def mergeAll (g : Group) : Group :=
  let all := (g.active.map fun p => (true, p)) ++ (g.parked.map fun p => (false, p))
  let m := all.foldl (fun acc x => mergeInto x acc) []
  { g with
    active := (m.filter (·.1)).map (·.2)
    parked := (m.filter fun x => !x.1).map (·.2) }

/-! ## R289 step 4: the waits that a phase ends -/

/-- The Wait part of a barrier instruction is over: none of its lanes is pending (R192). -/
def waitOver (g : Group) (p : Split) : Option Nat :=
  match p.wait with
  | some (.phase bar lanes d) => if (g.barPend[bar]?.getD 0) &&& lanes = 0 then some d else none
  | _ => none

/-- Every earlier producer is d clocks further away; one that no later read can be early for is forgotten (R80). -/
def countOn (ps : List Producer) (d : Nat) : List Producer :=
  (ps.map fun p => { p with distance := p.distance + d }).filter fun p => p.distance < p.latency

/-- Splits and entries whose Wait is over go on behind their instruction (R289 step 4). -/
def endOver (g : Group) : Group :=
  let goOn (p : Split) : Split := match waitOver g p with
    | some d => { p with pc := p.pc + 12, wait := none, producers := countOn p.producers d }
    | none => p
  { g with active := g.active.map goOn, parked := g.parked.map goOn }

/-! ## R289 step 6: promotion -/

def oldest (l : List Split) : Option Split :=
  l.foldl (fun best p => match best with
    | none => some p
    | some b => if p.age < b.age then some p else some b) none

def youngest (l : List Split) : Option Split :=
  l.foldl (fun best p => match best with
    | none => some p
    | some b => if b.age < p.age then some p else some b) none

/-- Promote READY entries while a slot is free or holds a WAITING split (R289 step 6). Parking makes an entry of a new age and ends
the split's run (R286, R291). -/
def promote : Nat → Group → Group
  | 0, g => g
  | fuel + 1, g =>
    match oldest (g.parked.filter Split.ready) with
    | none => g
    | some p =>
      let parked := g.parked.filter fun q => q != p
      if g.active.length < 4 then
        promote fuel { g with active := g.active ++ [p], parked := parked }
      else match youngest (g.active.filter fun q => !q.ready) with
        | none => g
        | some w =>
          promote fuel { g with
            active := (g.active.filter fun q => q != w) ++ [p]
            parked := parked ++ [{ w with age := g.nextAge, run := 0 }]
            nextAge := g.nextAge + 1 }

/-- Steps 5 and 6 of R289, then R322. -/
def settle (g : Group) : Group := releasePending (promote 64 (mergeAll g))

/-- A split whose run count has reached 256: R289's step 3 rotates it before the steps that follow (R291). -/
def runOut (g : Group) : Bool := g.active.any fun p => 256 ≤ p.run

/-- Steps 4 to 6, unless step 3 comes first. -/
def settleDue (g : Group) : Group := if runOut g then g else settle (endOver g)

/-! ## Division and rotation -/

/-- The distinct PCs of a list of lane targets in increasing order, each with its lanes. -/
def partsOf (lanes : List (Nat × DWord)) : List (DWord × Mask) :=
  let add (ps : List (DWord × Mask)) (x : Nat × DWord) : List (DWord × Mask) :=
    if ps.any fun p => p.1 == x.2 then ps.map fun p => if p.1 == x.2 then (p.1, p.2 ||| (1#64 <<< x.1)) else p
    else insertBy (fun a b => decide (a.1.toNat < b.1.toNat)) (x.2, 1#64 <<< x.1) ps
  lanes.foldl add []

/-- The lanes of a split go to their targets: one part moves as a whole; several take the split's slot and the free
slots in increasing PC, and the rest are parked (R289 step 2). Each part begins a run count of its own, so that a split that divides
at its 256th instruction leaves nothing for step 3 to rotate (DESIGN CHOICE, notes/assumptions/21.md). Who comes here has taken a branch,
which ends the counts of R80; a BRX all of whose lanes have an index beyond its table is one too (DESIGN CHOICE, notes/assumptions/25.md). -/
def divide (g : Group) (sp : Split) (parts : List (DWord × Mask)) : Group :=
  match parts with
  | [] => g
  | [(pc, _)] => updSplit g sp.mask fun p => { p with pc := pc, producers := [] }
  | _ =>
    let others := g.active.filter fun p => p.mask != sp.mask
    let news := (List.range parts.length).zip parts |>.map fun (i, pc, m) =>
      { sp with pc := pc, mask := m, age := g.nextAge + i, producers := [], run := 0, deferred := false, page := none, denied := false, faults := 0 }
    let room := 4 - others.length
    { g with
      active := others ++ news.take room
      parked := (g.parked.filter fun p => p.mask != sp.mask) ++ news.drop room
      nextAge := g.nextAge + parts.length }

/-- R290: park the split if a READY entry is parked, else defer it. -/
def rotate (g : Group) (m : Mask) : Group :=
  if g.parked.any Split.ready then
    { g with
      active := g.active.filter fun q => q.mask != m
      parked := g.parked ++ (g.active.filter fun q => q.mask == m).map fun p => { p with age := g.nextAge, run := 0, producers := [] }
      nextAge := g.nextAge + 1 }
  else
    { g with active := g.active.map fun p => if p.mask == m then { p with deferred := true, run := 0, producers := [] } else p }

/-- R291: another active split or a parked entry of the group is READY. -/
def othersReady (g : Group) (m : Mask) : Bool :=
  (g.active ++ g.parked).any fun p => p.mask != m && p.ready

/-- Lanes leave their splits and entries; an empty one is gone (R289 step 1). -/
def dropLanes (g : Group) (m : Mask) : Group :=
  let cut (l : List Split) : List Split :=
    (l.map fun p => { p with mask := p.mask &&& ~~~m }).filter fun p => p.mask != 0
  { g with active := cut g.active, parked := cut g.parked, suspActive := cut g.suspActive, suspParked := cut g.suspParked }

end Sys2Proof.Machine
end

