-- ==== Sys2Proof/Machine/Ops.lean ====
section
/-! DEFINITION. Ops.lean: the named operations over the machine: memory by key, owners and translation, contexts,
events, health counters, barriers, the end of lanes, taking a trap and returning from one. -/

namespace Sys2Proof.Machine

/-! ## Free values (notes/assumptions/4.md) -/

/-- The next free value, and the state with one more drawn. -/
def State.draw (s : State) : BitVec 64 × State := (Config.freeValue s.free, { s with free := s.free + 1 })

/-- An element of a list that a free value picks. -/
def pickFree {α : Type} (s : State) (l : List α) : Option α × State :=
  match l with
  | [] => (none, s)
  | _ => let (w, s') := s.draw; (l[w.toNat % l.length]?, s')

/-- The lanes of a list in an order that free values pick; fuel is the list's length. -/
def shuffle : Nat → List Nat → State → List Nat × State
  | 0, xs, s => (xs, s)
  | _, [x], s => ([x], s)
  | n + 1, xs, s =>
    match pickFree s xs with
    | (some x, s) => let r := shuffle n (xs.filter (· != x)) s; (x :: r.1, r.2)
    | (none, s) => (xs, s)

def minOf : List Nat → Option Nat
  | [] => none
  | x :: xs => match minOf xs with
    | none => some x
    | some y => some (min x y)

/-- A fresh name, and the state that has given it. -/
def State.fresh (s : State) : Nat × State := (s.nextId, { s with nextId := s.nextId + 1 })

/-! ## Memory by key -/

/-- Keys: one range of 2^64 for each memory that the owner field names (R12), host memory by frame address. -/
def devKey (pa : Nat) : Nat := pa
def hostKey (gondola addr : Nat) : Nat := (1 + gondola) * 2 ^ 64 + addr
def scratchKey (core off : Nat) : Nat := 3 * 2 ^ 64 + core * 2 ^ 18 + off
def windowKey (die w off : Nat) : Nat := 5 * 2 ^ 64 + (die * 8 + w) * 2 ^ 20 + off
def peerKey (peer off : Nat) : Nat := 0x40 * 2 ^ 64 + peer * 2 ^ 52 + off
def tileKey (part slot off : Nat) : Nat := (part * 16 + slot) * 16384 + off

/-- The 128-byte line of a key (R370). -/
def lineOf (key : Nat) : Nat := key / 128

/-- n bytes at a key, little-endian. -/
def State.readMem (s : State) (key n : Nat) : Nat := leNat (memRead s.mem key n)

def State.readBytes (s : State) (key n : Nat) : List Byte := memRead s.mem key n

/-- Some word of the range is poisoned (R211 step 6, R443). -/
def State.poisoned (s : State) (key n : Nat) : Bool :=
  s.poison.any fun w => key < 4 * w + 4 && 4 * w < key + n

/-- A write performed at its place: the bytes, poison of the words it covers whole (R443), and every reservation on
its lines (R218). -/
def State.writeBytes (s : State) (key : Nat) (bs : List Byte) : State :=
  let n := bs.length
  if n = 0 then s
  else { s with
    mem := memWrite s.mem key bs
    poison := s.poison.filter fun w => !(key ≤ 4 * w && 4 * w + 4 ≤ key + n)
    resv := s.resv.filter fun r => !(lineOf key ≤ r.line && r.line ≤ lineOf (key + n - 1)) }

def State.writeMem (s : State) (key n v : Nat) : State := s.writeBytes key (leBytes n v)

/-- A range reads zero: its bytes and the poison of its words are gone (R279, R285). -/
def State.clearRange (s : State) (key n : Nat) : State :=
  { s with mem := memClear s.mem key n, poison := s.poison.filter fun w => !(key ≤ 4 * w && 4 * w + 4 ≤ key + n) }

/-! ## Contexts (R333) -/

/-- Field of the descriptor of a context. -/
def ctxField (s : State) (ctx off : Nat) : Nat := s.readMem (devKey (s.boot.ctxTable.toNat + 64 * ctx + off)) 8

def ctxRoot (s : State) (ctx : Nat) : Nat := ctxField s ctx 0
def ctxHandler (s : State) (ctx : Nat) : DWord := BitVec.ofNat 64 (ctxField s ctx 8)
def ctxTrapArea (s : State) (ctx : Nat) : DWord := BitVec.ofNat 64 (ctxField s ctx 16)
def ctxQtable (s : State) (ctx : Nat) : DWord := BitVec.ofNat 64 (ctxField s ctx 24)
def ctxSavePool (s : State) (ctx : Nat) : DWord := BitVec.ofNat 64 (ctxField s ctx 32)
def ctxSaveSize (s : State) (ctx : Nat) : Nat := ctxField s ctx 40
def ctxValid (s : State) (ctx : Nat) : Bool := s.readMem (devKey (s.boot.ctxTable.toNat + 64 * ctx + 48)) 4 % 2 == 1

/-! ## Translation (R359 to R363) -/

/-- A valid leaf: the page's base and size in the context's offsets, the memory key of its frame, and its rights. -/
structure Leaf where
  base : Nat
  size : Nat
  frame : Nat
  remote : Bool
  w : Bool
  x : Bool
deriving DecidableEq, Repr

/-- Size of the page that an entry of a level maps (R361). -/
def levelShift : Nat → Nat
  | 0 => 39 | 1 => 30 | 2 => 21 | _ => 16

/-- Bytes of HBM: eight stacks of 64 GiB (R5). -/
def hbmBytes : Nat := 2 ^ 39

/-- The spill areas that firmware sets aside: 529 MiB of HBM, 33,824 bytes for each group slot (R331, R434). The manual names no
address. -/
def spillBytes : Nat := 529 * 2 ^ 20
def spillArea : Nat := Config.spillPlace.toNat % (hbmBytes - spillBytes) / 256 * 256

/-- The area that firmware sets aside for translations: 256 MiB of HBM, apart from the spill areas (R42, R434). -/
def textArea : Nat :=
  let a := Config.textPlace.toNat % hbmBytes / 2 ^ 28 * 2 ^ 28
  if a + 2 ^ 28 ≤ spillArea ∨ spillArea + spillBytes ≤ a then a
  else if 2 ^ 28 ≤ spillArea then 0 else hbmBytes - 2 ^ 28

/-- Some byte of a range lies in an area that firmware sets aside, which no one but it reaches (R331, R430, R434). -/
def meetsSetAside (a n : Nat) : Bool :=
  decide (textArea < a + n ∧ a < textArea + 2 ^ 28) || decide (spillArea < a + n ∧ a < spillArea + spillBytes)

/-- R363: an entry of a level read as a pointer to a table, by its memory key, or a leaf; none: invalid. What lies beyond the
package's HBM does not exist (R5, notes/assumptions/56.md). -/
def readPte (s : State) (level off pte : Nat) : Option (Nat ⊕ Leaf) :=
  let bit (n : Nat) : Bool := pte / 2 ^ n % 2 == 1
  let addr := pte / 2 ^ 12 % 2 ^ 40 * 2 ^ 12
  let loc := pte / 2 ^ 52 % 4
  let peer := pte / 2 ^ 54
  let size := if bit 1 then 8 else 2 ^ levelShift level
  let frame := match loc with
    | 0 => devKey addr | 1 => hostKey 0 addr | 2 => hostKey 1 addr | _ => peerKey peer addr
  if !bit 0 || pte / 32 % 128 != 0 || bit 2 || (loc != 3 && peer != 0) || (loc == 3 && s.boot.podSize ≤ peer) ||
      (loc == 0 && hbmBytes < addr + size) then none
  else if bit 1 then (if level = 3 then none else some (.inl frame))
  else if level = 0 || addr % size != 0 then none
  else some (.inr { base := off / size * size, size := size, frame := frame, remote := loc != 0, w := bit 3, x := bit 4 })

/-- A key in a peer package: its number and the offset there. -/
def peerOfKey (key : Nat) : Option (Nat × Nat) :=
  if key < peerKey 0 0 then none else some ((key - peerKey 0 0) / 2 ^ 52, (key - peerKey 0 0) % 2 ^ 52)

def Leaf.key (l : Leaf) (off : Nat) : Nat := l.frame + (off - l.base)

/-- What a walk comes to. -/
inductive Walked where
  | leaf (l : Leaf)
  /-- an invalid entry: the context and the page that have no mapping -/
  | invalid (ctx page : Nat)
  /-- a table lies in a peer package that does not answer: one that has not joined or is lost, or this one met once more -/
  | peer (p : Nat)
deriving DecidableEq, Repr

/-- A peer has joined: what it holds can be read. -/
def peerJoined (s : State) (p : Nat) : Bool := ((tget s.peers p).getD {}).joined

/-- The memory key of a table that an entry names, as that key or as a place in a peer package (R362): this package's own number comes in
through the pod context, whose walk via does (R431). -/
def tableAt (s : State) (via : Nat → Walked) (next : Nat) : Except Walked Nat :=
  match peerOfKey next with
  | none => .ok next
  | some (p, o) =>
    if p = s.boot.peerNum then
      match via o with
      | .leaf l => match peerOfKey (l.key o) with
        | some (q, _) => if q ≠ s.boot.peerNum ∧ peerJoined s q then .ok (l.key o) else .error (.peer q)
        | none => .ok (l.key o)
      | w => .error w
    else if peerJoined s p then .ok next else .error (.peer p)

/-- The place in its table of an offset's entry, by the table's memory key (R361). -/
def pteKey (off level table : Nat) : Nat :=
  table + 8 * (if level = 3 then off / 2 ^ 16 % 32 else off / 2 ^ levelShift level % 512)

/-- The walk from a table of a level on (R361). -/
def walkFrom (s : State) (ctx off : Nat) (via : Nat → Walked) : Nat → Nat → Nat → Walked
  | 0, _, _ => .invalid ctx (off / 2 ^ 16)
  | fuel + 1, level, table =>
    match readPte s level off (s.readMem (pteKey off level table) 8) with
    | none => .invalid ctx (off / 2 ^ 16)
    | some (.inr leaf) => .leaf leaf
    | some (.inl next) => match tableAt s via next with
      | .ok t => walkFrom s ctx off via fuel (level + 1) t
      | .error w => w

/-- A walk of the pod context for a table of another walk: one that it finds in this package as a peer once more, no package serves. -/
def podWalk (s : State) (off : Nat) : Walked :=
  walkFrom s s.boot.podCtx off (fun _ => .peer s.boot.peerNum) 4 0 (devKey (ctxRoot s s.boot.podCtx))

def walked (s : State) (ctx off : Nat) : Walked := walkFrom s ctx off (podWalk s) 4 0 (devKey (ctxRoot s ctx))

def Walked.toLeaf : Walked → Option Leaf
  | .leaf l => some l
  | _ => none

def walk (s : State) (ctx off : Nat) : Option Leaf := (walked s ctx off).toLeaf

/-- The keys of the entries that a walk reads, down to the one that ends it (R360). -/
def walkKeys (s : State) (off : Nat) : Nat → Nat → Nat → List Nat
  | 0, _, _ => []
  | fuel + 1, level, table =>
    let key := pteKey off level table
    key :: match readPte s level off (s.readMem key 8) with
      | some (.inl next) => match tableAt s (podWalk s) next with
        | .ok t => walkKeys s off fuel (level + 1) t
        | .error _ => []
      | _ => []

/-- A hit in a port's TLB or the shared one (R360). -/
def tlbHit (s : State) (port ctx off : Nat) : Option Leaf :=
  (s.tlb.find? fun e => (e.tlb == port || e.tlb == 11) && e.ctx == ctx && e.base ≤ off && off < e.base + e.size).map
    fun e => { base := e.base, size := e.size, frame := e.frame, remote := e.remote, w := e.w, x := e.x }

/-- The leaf that serves an offset: from a TLB, else by a walk; none: invalid. -/
def leafOf (s : State) (port ctx off : Nat) : Option Leaf :=
  match tlbHit s port ctx off with
  | some e => some e
  | none => walk s ctx off

/-- A Gondola's translation of a host offset (R359): entries 12 and 13, filled by the MMP, of any of the three sizes (R14). -/
def hostLeaf (s : State) (gondola ctx off : Nat) : Option Leaf :=
  (s.tlb.find? fun e => e.tlb == 12 + gondola && e.ctx == ctx && e.base ≤ off && off < e.base + e.size).map
    fun e => { base := e.base, size := e.size, frame := e.frame, remote := true, w := e.w, x := e.x }

/-! ## Owners (R12, R359) -/

/-- MEMFAULT reasons (R342). -/
def mfOwner : Nat := 1
def mfAlign : Nat := 2
def mfLimit : Nat := 3
def mfInvalid : Nat := 4
def mfPerm : Nat := 5
def mfPoison : Nat := 6
def mfSlot : Nat := 7
def mfDesc : Nat := 8
def mfFetch : Nat := 9
def mfRegPoison : Nat := 10

def ownerOf (a : DWord) : Nat := a.toNat / 2 ^ 56

/-- What an address names before any translation. -/
inductive Place where
  /-- the owner field is not in R12 -/
  | badOwner
  /-- the offset is beyond its owner's limit -/
  | beyond
  /-- scratchpad or die-shared window: not translated -/
  | local (key : Nat)
  | device (off : Nat)
  | host (gondola off : Nat)
  | peer (p off : Nat)
deriving DecidableEq, Repr

/-- Owners that do not depend on a block (R359). -/
def placeGlobal (s : State) (a : DWord) : Place :=
  let x := a.toNat
  match ownerOf a with
  | 0x00 => if x < 2 ^ 48 then .device x else .beyond
  | 0x01 => if x % 2 ^ 56 < 2 ^ 52 then .host 0 (x % 2 ^ 56) else .beyond
  | 0x02 => if x % 2 ^ 56 < 2 ^ 52 then .host 1 (x % 2 ^ 56) else .beyond
  | 0x40 =>
    let p := x / 2 ^ 46 % 2 ^ 10
    if p < s.boot.podSize then .peer p (x % 2 ^ 46) else .beyond
  | _ => .badOwner

/-- The place an address names for a block (R279, R282, R285). -/
def placeOf (s : State) (b : Block) (a : DWord) : Place :=
  let x := a.toNat
  match ownerOf a with
  | 0x03 => if x % 2 ^ 56 < b.scrSize then .local (scratchKey b.core (b.scrBase + x % 2 ^ 56)) else .beyond
  | 0x04 =>
    let m := x / 2 ^ 53 % 8
    let off := x % 2 ^ 53
    match (tget s.clusters b.cluster).bind fun c => c.members[m]? with
    | some (core, base, size) =>
      if m < b.clusterSize && off < size then .local (scratchKey core (base + off)) else .beyond
    | none => .beyond
  | 0x05 =>
    match b.span.bind fun k => tget s.spans k with
    | some sp => if x % 2 ^ 56 < 2 ^ 20 then .local (windowKey sp.die sp.window (x % 2 ^ 56)) else .beyond
    | none => .beyond
  | _ => placeGlobal s a

/-- Owner check of R13 and R211 step 1. -/
def ownerKnown (a : DWord) : Bool :=
  let o := ownerOf a
  o ≤ 5 || o == 0x40

/-- A translated place: key, rights and whether the line is remote; else why there is none yet. -/
inductive Target where
  | at (key : Nat) (w x remote : Bool)
  | fails (reason : Nat)
  /-- no valid mapping: the MMP decides (R364); context and page. With peerPage: the peer has not joined, and may answer yet (R432) -/
  | missing (ctx page : Nat)
deriving DecidableEq, Repr

/-- The MMP's name for the page of a host offset. -/
def hostPage (g off : Nat) : Nat := (1 + g) * 2 ^ 48 + off / 2 ^ 16

/-- What stands for a page where an access waits for a peer's answer, not for the MMP. -/
def peerPage (p : Nat) : Nat := 2 ^ 60 + p

/-- No valid mapping: the MMP decides, and has found none for the agent that is told so now (R364). -/
def missingPage (s : State) (ctx page : Nat) : Target :=
  if s.denied.contains (ctx, page) then .fails mfInvalid else .missing ctx page

/-- The Gondola whose UALink ports carry a peer's traffic: of the 36 ports of its route, 18 for each (R431). Without a route, by the
parity of its number (notes/assumptions/53.md). -/
def peerGondola (s : State) (p : Nat) : Nat :=
  match s.boot.routes[p]? with
  | some r => if r.toNat % 2 ^ 18 != 0 then 0 else if r.toNat / 2 ^ 18 != 0 then 1 else p % 2
  | none => p % 2

/-- The port at which a request that names this package's own peer number comes in: its Gondola turns it back (R431). -/
def podPort (s : State) : Nat := 8 + peerGondola s s.boot.peerNum

/-- What a translation needs besides the tables: which leaf serves an offset of a context at a port, what the walk comes to where none
does, and which peers answer. -/
structure Lookup where
  leaf : Nat → Nat → Nat → Option Leaf
  meets : Nat → Nat → Walked := fun ctx off => .invalid ctx (off / 2 ^ 16)
  answers : Nat → Bool

/-- A peer that does not answer: it is lost (LIMIT, R432), or may answer yet; a walk that meets this package once more is an access that no
package serves (notes/assumptions/53.md). -/
def silentPeer (s : State) (p : Nat) : Target :=
  if p = s.boot.peerNum ∨ ((tget s.peers p).getD {}).lost then .fails mfLimit else .missing 0 (peerPage p)

/-- No leaf serves the offset. -/
def noLeaf (s : State) (look : Lookup) (ctx off : Nat) : Target :=
  match look.meets ctx off with
  | .peer p => silentPeer s p
  | .invalid c p => missingPage s c p
  | .leaf _ => missingPage s ctx (off / 2 ^ 16)

/-- A place in another package (R431, R432): a lost peer fails with LIMIT. -/
def peerTarget (s : State) (look : Lookup) (p off : Nat) (w x : Bool) : Target :=
  if look.answers p && !((tget s.peers p).getD {}).lost then .at (peerKey p off) w x true else silentPeer s p

/-- A leaf's place for an offset. One that names this package as a peer comes in through the pod context (R362, R431); that context
naming it once more is an access that no package serves (notes/assumptions/53.md). -/
def leafTarget (s : State) (look : Lookup) (l : Leaf) (off : Nat) (own : Nat → Target) : Target :=
  match peerOfKey (l.key off) with
  | none => .at (l.key off) l.w l.x l.remote
  | some (p, o) =>
    if p = s.boot.peerNum then
      match own o with
      | .at key w x r => .at key (w && l.w) (x && l.x) r
      | t => t
    else peerTarget s look p o l.w l.x

/-- Through the pod context, as a request that comes in (R431). -/
def podTarget (s : State) (look : Lookup) (off : Nat) : Target :=
  match look.leaf (podPort s) s.boot.podCtx off with
  | some l => leafTarget s look l off fun _ => .fails mfLimit
  | none => noLeaf s look s.boot.podCtx off

def deviceVia (s : State) (look : Lookup) (port ctx off : Nat) : Target :=
  match look.leaf port ctx off with
  | some l => leafTarget s look l off (podTarget s look)
  | none => noLeaf s look ctx off

/-- Translation of a place for a port and context (R359, R360). -/
def targetVia (s : State) (look : Lookup) (port ctx : Nat) : Place → Target
  | .badOwner => .fails mfOwner
  | .beyond => .fails mfLimit
  | .local key => .at key true false false
  | .device off => deviceVia s look port ctx off
  | .host g off =>
    match hostLeaf s g ctx off with
    | some l => .at (l.key off) l.w false true
    | none => missingPage s ctx (hostPage g off)
  | .peer p off => if p = s.boot.peerNum then podTarget s look off else peerTarget s look p off true false

/-- A TLB or a walk finds the leaf; a peer answers once it has joined. -/
def walkLookup (s : State) : Lookup := { leaf := leafOf s, meets := walked s, answers := peerJoined s }

def targetOf (s : State) (port ctx : Nat) (p : Place) : Target := targetVia s (walkLookup s) port ctx p

/-- An access that comes in again as one from outside, since it or its leaf names this package as a peer: its offset in the pod context
(R362, R431). -/
def podOffset (s : State) (leaf : Nat → Option Leaf) (p : Place) : Option Nat :=
  match p with
  | .peer p off => if p = s.boot.peerNum then some off else none
  | .device off => ((leaf off).bind fun l => peerOfKey (l.key off)).bind fun y => if y.1 = s.boot.peerNum then some y.2 else none
  | _ => none

/-- The target of an address for a block's own access. -/
def targetFor (s : State) (b : Block) (a : DWord) : Target := targetOf s (b.core / 32) b.ctx (placeOf s b a)

/-- The MMP is called for a page (R364), or a request has left for a peer, which has not answered since then (R432). -/
def callMmp (s : State) (ctx page : Nat) : State :=
  if peerPage 0 ≤ page then
    let p := page - peerPage 0
    let x := (tget s.peers p).getD {}
    { s with peers := tset s.peers p { x with since := some (x.since.getD s.lodge) } }
  else if s.mmp.contains (ctx, page) then s else { s with mmp := s.mmp ++ [(ctx, page)] }

/-- The third refault of an access, and every third one after it, is reported to the MMP (R366). faults: how often it has met an invalid
entry before. -/
def reportStorm (s : State) (agent lane faults : Nat) : State :=
  if faults != 0 && faults % 3 == 0 then { s with storms := s.storms ++ [(agent, lane)] } else s

/-- An agent's access meets an invalid entry; one for which the MMP is at work already goes on waiting. -/
def Stall.meets (st : Stall) (s : State) (agent ctx page : Nat) : Stall × State :=
  if st.page = some (ctx, page) ∧ s.mmp.contains (ctx, page) then (st, s)
  else if peerPage 0 ≤ page then (st, callMmp s ctx page)
  else
    let n := if st.page = some (ctx, page) then st.faults else 0
    let (id, s) := s.fresh
    ({ page := some (ctx, page), faults := n + 1, arrived := if n = 0 then id else st.arrived },
      callMmp (reportStorm s agent 0 n) ctx page)

/-- The same for an agent of the Lodge or of a Gondola. -/
def agentCalls (s : State) (agent ctx page : Nat) : State :=
  let (st, s) := ((tget s.stalls agent).getD {}).meets s agent ctx page
  { s with stalls := tset s.stalls agent st }

/-- The same for the split of a group with the given mask, which waits for the decision. What its instruction meets on another page is
another access: each counts its own refaults (R366). -/
def splitCalls (s : State) (k : Nat) (mask : Mask) (ctx page : Nat) : State :=
  match (s.group k).bind fun g => if peerPage 0 ≤ page then none else (g.active ++ g.parked).find? fun p => p.mask == mask with
  | none => callMmp s ctx page
  | some p =>
    let again := p.page == some (ctx, page)
    if again && s.mmp.contains (ctx, page) then s
    else
      let n := if again then p.faults else 0
      (callMmp (reportStorm s (2 ^ 48 + k) ((lowestLane mask).getD 0) n) ctx page).modGroup k fun g => updSplit g mask fun p =>
        { p with page := some (ctx, page), denied := false, faults := n + 1 }

/-! ## Text (R66, R346) -/

/-- What a fetch of text bytes gives. -/
inductive Fetch where
  | bytes (bs : List Byte)
  /-- bad owner, beyond the limit, not executable, or poisoned: MEMFAULT FETCH (R346) -/
  | bad
  /-- no mapping: the context and page the MMP is called for, or the peer that has not answered -/
  | missing (ctx page : Nat)
deriving DecidableEq, Repr

/-- One aligned 32-bit word of text, read through the fetch path. -/
def fetchWord (s : State) (b : Block) (a : DWord) : Fetch :=
  match placeGlobal s a with
  | .device off =>
    match targetOf s (b.core / 32) b.ctx (.device off) with
    | .at key _ x _ => if x && !s.poisoned key 4 then .bytes (s.readBytes key 4) else .bad
    | .missing c p => .missing c p
    | .fails _ => .bad
  | _ => .bad

/-- n words of text: each of its lines is fetched on its own (R44, R66). -/
def fetchWords (s : State) (b : Block) (a : DWord) : Nat → Fetch
  | 0 => .bytes []
  | n + 1 =>
    match fetchWord s b a with
    | .bytes bs =>
      match fetchWords s b (a + 4) n with
      | .bytes rest => .bytes (bs ++ rest)
      | e => e
    | e => e

/-! ## Events (R424 to R426) -/

def dieInc (s : State) (d : Nat) : BitVec 8 := (s.dies[d]?.getD {}).inc

/-- The incarnation an event record carries (R424): the source's; the Lodge keeps the package's (R432). -/
def sourceInc (s : State) (src : Nat) : Nat :=
  if src < 8 then (dieInc s src).toNat
  else if src = 8 then s.boot.pkgInc.toNat
  else (s.gondolas[src - 9]?.getD {}).inc.toNat

/-- A source posts a record; none while its buffer of 32 is full (R426). -/
def post (s : State) (src code ctx : Nat) (arg0 arg1 : DWord) : Option State :=
  let o := (tget s.outbox src).getD {}
  if 32 ≤ o.recs.length then none
  else
    let e : Event := { code := code, src := src + 256 * sourceInc s src, ctx := ctx, time := s.lodge, detail := arg0, detail2 := arg1 }
    some { s with outbox := tset s.outbox src { o with recs := o.recs ++ [e] } }

/-! ## Clocks -/

/-- The die runs: it is not in reset, absent or held (R423). -/
def dieRuns (s : State) (d : Nat) : Bool := ((s.dies[d]?).getD {}).state == .run

def dieClk (s : State) (d : Nat) : Nat := (s.dies[d]?.getD {}).clk

def State.setDie (s : State) (d : Nat) (f : Die → Die) : State :=
  if h : d < 8 then { s with dies := s.dies.set d (f s.dies[d]) } else s

/-- Lodge clocks in a microsecond: the Lodge runs at 2.0 GHz and never steps (R5, R8). -/
def lodgePerUs : Nat := 2000

/-! ## Health counters (R127, R128) -/

/-- n events of a counter: it stays at all ones (R128). -/
def bump (s : State) (part code n : Nat) : State :=
  let k := part * 8 + code
  let c := ((tget s.health k).getD 0).toNat
  if n = 0 then s else { s with health := tset s.health k (BitVec.ofNat 32 (min (c + n) (2 ^ 32 - 1))) }

/-- The thresholds of a contract (R405). -/
def contractCounters (contract : Nat) : List Nat :=
  if contract = 6 ∨ contract = 7 then [0] else if contract = 10 then [4] else []

/-- Events of counters (code, count) caused by an instruction of a group (R412, R414): the counters of its partition
move, and an armed group holds ARITH once. -/
def healthEvents (s : State) (k seq : Nat) (pc : DWord) (handler : Bool) (evs : List (Nat × Nat)) : State :=
  evs.foldl (fun s (code, n) =>
    let s := bump s (partOf k) code n
    if n = 0 || handler then s
    else s.modGroup k fun g =>
      if g.armed.contains code then
        { g with armed := g.armed.filter (· != code),
                 held := g.held ++ [{ seq := seq, lane := 0, cause := 6, reason := code, pc := pc, addr := 0, fromHandler := false }] }
      else g) s

/-! ## Held faults (R344) -/

/-- The oldest held fault: issue order, then the lowest lane. -/
def oldestHeld (l : List HeldFault) : Option HeldFault :=
  l.foldl (fun best h => match best with
    | none => some h
    | some b => if h.seq < b.seq || (h.seq == b.seq && h.lane < b.lane) then some h else some b) none

/-- The held faults that the group's delivery points deliver now (R345). -/
def deliverable (g : Group) : List HeldFault := g.held.filter fun h => h.fromHandler == g.handler

def holdFault (s : State) (k : Nat) (h : HeldFault) : State := s.modGroup k fun g => { g with held := g.held ++ [h] }

/-! ## Barriers (R191, R192) -/

/-- Which blocks' lanes take part: the block, its cluster, or its die span. -/
inductive BarKind where | blk | cls | die
deriving DecidableEq, Repr

def BarKind.offset : BarKind → Nat
  | .blk => 0 | .cls => 16 | .die => 32

/-- Whether the group of block c takes part in the barriers of kind that block b names. -/
def sharesBarrier (kind : BarKind) (bk : Nat) (b : Block) (ck : Nat) (c : Block) : Bool :=
  match kind with
  | .blk => bk == ck
  | .cls => b.cluster == c.cluster
  | .die => b.span.isSome && b.span == c.span

/-- The groups whose lanes take part (R191). -/
def participants (s : State) (kind : BarKind) (bk : Nat) (b : Block) : List (Nat × Group) :=
  s.groups.filter fun e => match tget s.blocks e.2.blk with
    | some c => sharesBarrier kind bk b e.2.blk c
    | none => false

/-- Lanes of a list of groups that have not ended. -/
def liveLanes (gs : List Group) : Nat := gs.foldl (fun n g => n + (64 - maskCount g.ended)) 0

/-- Lanes of the cluster's or die span's blocks that are not resident: saved ones that still have to be restored, and ones whose bind
record has still to start them (R192, R194, R281). -/
def absentLanes (s : State) (kind : BarKind) (b : Block) : Nat :=
  let left := match kind with
    | .blk => 0
    | .cls => ((tget s.clusters b.cluster).map (·.blocksLeft)).getD 0
    | .die => ((b.span.bind fun k => tget s.spans k).map (·.blocksLeft)).getD 0
  let shares (c : Block) : Bool := kind != .blk && sharesBarrier kind 0 b 0 c
  let saved := s.saved.filter fun e => shares e.2.blk
  liveLanes (saved.flatMap fun e => e.2.groups) +
    (left - saved.length - (s.blocks.filter fun e => shares e.2).length) * b.lanes

/-- E of R192: participant lanes that have not ended. -/
def expected (s : State) (kind : BarKind) (bk : Nat) (b : Block) : Nat :=
  liveLanes ((participants s kind bk b).map (·.2)) + absentLanes s kind b

def getBarrier (s : State) (kind : BarKind) (bk : Nat) (b : Block) (i : Nat) : Barrier :=
  match kind with
  | .blk => ((tget s.blocks bk).bind fun b => b.bars[i]?).getD {}
  | .cls => ((tget s.clusters b.cluster).bind fun c => c.bars[i]?).getD {}
  | .die => ((b.span.bind fun k => tget s.spans k).bind fun c => c.bars[i]?).getD {}

def setBarrier (s : State) (kind : BarKind) (bk : Nat) (b : Block) (i : Nat) (x : Barrier) : State :=
  match kind with
  | .blk => { s with blocks := tmod s.blocks bk fun b => { b with bars := b.bars.setIfInBounds i x } }
  | .cls => { s with clusters := tmod s.clusters b.cluster fun c => { c with bars := c.bars.setIfInBounds i x } }
  | .die => match b.span with
    | some k => { s with spans := tmod s.spans k fun c => { c with bars := c.bars.setIfInBounds i x } }
    | none => s

/-- Acquire at a scope: the core's L1 lines go at .cls or wider; replicas stay (R227, R397). -/
def acquireL1 (s : State) (core : Nat) : State :=
  { s with l1 := s.l1.filter fun l => l.core != core || l.replica }

/-- A phase completes: P + 1, C = 0, and no lane is pending; the end of the Waits that it ends is an acquire at the barrier's scope
(R192, R193). -/
def completePhase (s : State) (kind : BarKind) (bk : Nat) (b : Block) (i : Nat) : State :=
  let x := getBarrier s kind bk b i
  let s := setBarrier s kind bk b i { phase := x.phase + 1, count := 0 }
  (participants s kind bk b).foldl (fun s e =>
    let s := if kind == .blk then s else acquireL1 s (coreOf e.1)
    s.modGroup e.1 fun g => { g with barPend := g.barPend.setIfInBounds (kind.offset + i) 0 }) s

/-- The phase completes when every lane that has not ended has arrived (R192). -/
def checkPhase (s : State) (kind : BarKind) (bk : Nat) (b : Block) (i : Nat) : State :=
  let x := getBarrier s kind bk b i
  if x.count ≠ 0 ∧ x.count.toNat = expected s kind bk b then completePhase s kind bk b i else s

/-- Arrive of R192 for lanes none of which is pending. -/
def arrive (s : State) (k : Nat) (kind : BarKind) (bk : Nat) (b : Block) (i : Nat) (m : Mask) : State :=
  let x := getBarrier s kind bk b i
  let s := setBarrier s kind bk b i { x with count := x.count + BitVec.ofNat 32 (maskCount m) }
  let s := s.modGroup k fun g =>
    { g with barPend := g.barPend.setIfInBounds (kind.offset + i) ((g.barPend[kind.offset + i]?.getD 0) ||| m) }
  checkPhase s kind bk b i

/-! ## Accesses under way (R227, R375) -/

/-- Every access of the op is performed, the forwarded ones too. -/
def opPerformed (s : State) (o : MemOp) : Bool := o.todo.isEmpty && !(s.fwd.any fun f => f.op == o.id)

/-- The memory instructions under way of some lanes of a group. -/
def opsOf (s : State) (k : Nat) (m : Mask) : List MemOp := s.reqs.filter fun o => o.grp == k && o.mask &&& m != 0

/-- What is under way that lanes of a group have come to know of, with the lanes that it is of: a release of theirs comes after it (R384). -/
def observedOf (s : State) (k : Nat) (m : Mask) : List (MemOp × Mask) :=
  s.reqs.filterMap fun o =>
    let writers := (o.seen.filter fun x => x.1 == k && x.2.1 &&& m != 0).foldl (fun w x => w ||| x.2.2) 0
    if writers = 0 then none else some (o, writers)

/-- The lane's access is one of lanes m; a uniform access is every lane's. -/
def MemOp.concerns (o : MemOp) (m : Mask) (lane : Nat) : Bool := o.uniform || m.getLsbD lane

/-- The accesses of lanes m are performed, the forwarded ones too: other lanes' are not waited for (R228). -/
def lanesDone (s : State) (o : MemOp) (m : Mask) : Bool :=
  !(o.todo.any fun x => o.concerns m x.lane) && !(s.fwd.any fun f => f.op == o.id && o.concerns m f.lane)

/-- An access of lanes m has failed. -/
def MemOp.badIn (o : MemOp) (m : Mask) : Bool := o.bad.any fun x => o.concerns m x.1

def MemKind.isPrf : MemKind → Bool
  | .prf _ _ => true
  | _ => false

/-- Everything that the lanes issued is performed: what an arrival (R193) and a release at .dev or narrower waits for. A prefetch delays
nothing (R220). -/
def lanesSettled (s : State) (k : Nat) (m : Mask) : Bool :=
  ((opsOf s k m).all fun o => o.kind.isPrf || lanesDone s o m) && (observedOf s k m).all fun x => lanesDone s x.1 x.2

/-- Some lane waits behind an acquiring atomic (R224). -/
def acquiring (s : State) (k : Nat) (m : Mask) : Bool := (opsOf s k m).any (·.acq.isSome)

/-- The same, or behind one that an acquire fence has made acquiring (R227, R383). -/
def acquirePending (s : State) (k : Nat) (m : Mask) : Bool := acquiring s k m || (opsOf s k m).any fun o => o.fenced &&& m != 0

def MemKind.isLoad : MemKind → Bool
  | .load | .ldr => true
  | _ => false

def isWrite : MemKind → Bool
  | .store | .stc | .atom _ _ _ | .signal _ => true
  | _ => false

/-- An instruction that reads: a load, or an atomic read-modify-write. -/
def MemKind.reads : MemKind → Bool
  | .store | .prf _ _ | .wbl => false
  | _ => true

/-- What lanes m wrote is acknowledged at a scope (R375): at .grp and .blk once the core has accepted it, but a WBL once its lines are
written back (R221); at .cls and .die once it is performed; while other lanes' accesses are on their way, so at .dev and .sys, unless one
of theirs has failed. Of a load that they have come to know of, the value is had. -/
def ackedAt (s : State) (o : MemOp) (m : Mask) (scope : Scope) : Bool :=
  let partly := !opPerformed s o && lanesDone s o m && !o.badIn m
  if o.kind.isLoad then lanesDone s o m
  else match scope with
    | .grp | .blk => o.kind != .wbl || lanesDone s o m
    | .cls | .die => lanesDone s o m
    | .dev => o.acked.isSome || partly
    | .sys => o.acked == some true || partly

/-- What a fence of this ordering and scope of lanes m waits for (R227, R228): their loads, and at a release their writes, with what they
have come to know of (R384). A load of theirs that failed is waited for, since the fence delivers it. -/
def fenceReady (s : State) (k : Nat) (m : Mask) (ord : FenceOrd) (scope : Scope) : Bool :=
  ((opsOf s k m).all fun o =>
    if o.kind.isPrf then true
    else if o.kind.isLoad then lanesDone s o m && !o.badIn m
    else ord == .acq || ackedAt s o m scope) &&
  (ord == .acq || (observedOf s k m).all fun x => ackedAt s x.1 x.2 scope)

/-- An acquire fence orders what follows it behind the lanes' atomics whose values are still on their way, though it does not wait for them
(R227, R383). -/
def fenceAtomics (s : State) (k : Nat) (m : Mask) (wide : Bool) : State :=
  { s with reqs := s.reqs.map fun (o : MemOp) =>
      if o.grp = k ∧ o.mask &&& m ≠ 0 ∧ o.kind.reads ∧ !o.kind.isLoad ∧ o.dst ≠ .none then
        { o with fenced := o.fenced ||| (o.mask &&& m), fencedWide := o.fencedWide || wide } else o }

def wideScope : Scope → Bool
  | .grp | .blk => false
  | _ => true

/-- A release at .grp or .blk waits for nothing that its core has accepted: the block's other groups come to know of what it covers, so
that wider releases of theirs wait for it (R375, R384). -/
def shareWrites (s : State) (k : Nat) (m : Mask) (scope : Scope) : State :=
  let known := ((opsOf s k m).map fun o => (o.id, o.mask &&& m)) ++ (observedOf s k m).map fun x => (x.1.id, x.2)
  if wideScope scope || known.isEmpty then s
  else
    let bk := (s.group k).map (·.blk)
    let gs := (s.groups.filter fun e => some e.2.blk == bk).map (·.1)
    { s with reqs := s.reqs.map fun (o : MemOp) =>
        let new := (known.filter fun x => x.1 == o.id).flatMap fun x => gs.map fun j => (j, fullMask, x.2)
        if new.isEmpty then o else { o with seen := (o.seen ++ new).dedup } }

/-- What an arrival waits for, a release at the barrier's scope (R193): at a block's barrier, for the loads alone, since the block's lanes
share the core that has accepted the writes (R375). -/
def arrivalReady (s : State) (kind : BarKind) (k : Nat) (m : Mask) : Bool :=
  match kind with
  | .blk => (opsOf s k m).all fun o => !o.kind.isLoad || lanesDone s o m
  | _ => lanesSettled s k m

/-- What an acquire at a scope leaves of the core's L1. -/
def acquireAt (s : State) (core : Nat) (scope : Scope) : State := if wideScope scope then acquireL1 s core else s

/-! ## The end of lanes (R189, R192) -/

/-- End(l) of R192 at one barrier, for lanes that have just ended. -/
def endAtBarrier (k bk : Nat) (b : Block) (m : Mask) (s : State) (kb : BarKind × Nat) : State :=
  let (kind, i) := kb
  let pend := ((s.group k).bind fun g => g.barPend[kind.offset + i]?).getD 0
  let gone := pend &&& m
  let x := getBarrier s kind bk b i
  let s := if gone = 0 then s else setBarrier s kind bk b i { x with count := x.count - BitVec.ofNat 32 (maskCount gone) }
  let s := if gone = 0 then s else s.modGroup k fun g =>
    { g with barPend := g.barPend.setIfInBounds (kind.offset + i) (pend &&& ~~~m) }
  checkPhase s kind bk b i

/-- The barriers a block's lanes take part in. -/
def barriersOf (b : Block) : List (BarKind × Nat) :=
  let all (kind : BarKind) := (List.range 16).map fun i => (kind, i)
  all .blk ++ all .cls ++ (if b.span.isSome then all .die else [])

/-- The lanes of m end: they leave their splits, arrive at nothing more, and the group ends when none is left. -/
def endLanes (s : State) (k : Nat) (m : Mask) : State :=
  match s.group k with
  | none => s
  | some g =>
    let m := m &&& ~~~g.ended
    let g1 := { dropLanes g m with ended := g.ended ||| m }
    let g2 := { g1 with ending := g1.ending || g1.ended == fullMask }
    let s := s.setGroup k g2
    match tget s.blocks g.blk with
    | none => s
    | some b => (barriersOf b).foldl (endAtBarrier k g.blk b m) s

/-- EXIT in trap handler mode, and the end of R335 and R338: every lane of the group ends. -/
def endGroup (s : State) (k : Nat) : State := endLanes s k fullMask

/-! ## Taking a trap (R335 to R340) -/

/-- Causes (R46). -/
def causeIllegal : Nat := 1
def causeStall : Nat := 2
def causeDeadread : Nat := 3
def causeMemfault : Nat := 4
def causeFrozen : Nat := 5
def causeArith : Nat := 6
def causeBreak : Nat := 7
def causeBarover : Nat := 8

/-- What a trap writes into its frame (R45, R340). -/
structure TrapInfo where
  cause : Nat
  reason : Nat
  pc : DWord
  nextPc : DWord
  addr : DWord := 0
  /-- the instruction completes: its LU releases take effect (R343) -/
  completes : Bool := false
  /-- its STALL spacing (R79) -/
  spacing : Nat := 0
deriving DecidableEq, Repr

/-- Address of a group's trap frame (R45). -/
def frameAddr (s : State) (ctx k : Nat) : DWord := ctxTrapArea s ctx + BitVec.ofNat 64 (k * 256)

/-- Bytes 0x00 to 0x6F of the frame, then 16 zero bytes, then SPLITS (R45). -/
def frameBytes (g : Group) (k ctx : Nat) (mask : Mask) (t : TrapInfo) (insn : IWord) : List Byte :=
  let word := t.cause + 256 * t.reason + 65536 * (if g.handler then 1 else 0) + 2 ^ 24
  let others (l : List Split) := l.filter fun p => p.mask != mask
  let splits := (sortBy slalomBefore (others g.active) ++ sortBy (fun a b => decide (a.age < b.age)) (others g.parked)).take 4
  let pad : List (DWord × Mask) := (splits.map fun p => (p.pc, p.mask)) ++ List.replicate (4 - splits.length) (0, 0)
  leBytes 8 word ++ leBytes 8 t.pc.toNat ++ leBytes 8 t.nextPc.toNat ++ leBytes 8 t.addr.toNat ++ leBytes 8 mask.toNat ++
  ((List.range 7).map fun i => leBytes 8 ((g.preds[i + 1]?.getD 0).toNat)).flatten ++
  leBytes 12 insn.toNat ++ leBytes 4 (ctx + 256 * coreOf k + 65536 * (k % 64)) ++ leBytes 16 0 ++
  (pad.map fun p => leBytes 8 p.1.toNat ++ leBytes 8 p.2.toNat).flatten

/-- Where the frame's bytes go: one page holds them all, since a frame is 256-byte aligned. -/
def frameTarget (s : State) (b : Block) (k : Nat) : Target :=
  targetOf s (dieOf k) b.ctx (placeGlobal s (frameAddr s b.ctx k))

/-- The core's L1 keeps no copy of a frame that the device has written: the handler's lanes see it (R335). -/
def dropFrameCopies (s : State) (b : Block) (k : Nat) : State :=
  let line := (frameAddr s b.ctx k).toNat / 128
  { s with l1 := s.l1.filter fun l => !(l.core == coreOf k && l.ctx == b.ctx && (l.vline == line || l.vline == line + 1)) }

/-- Trap entry and pre-emption clear the group's reservations, those of LDRs under way among them (R218). -/
def dropReservations (s : State) (k : Nat) : State :=
  { s with
    resv := s.resv.filter fun r => r.grp != k
    reqs := s.reqs.map fun (o : MemOp) => if o.grp = k ∧ o.kind = .ldr then { o with kind := .load } else o }

/-- Steps 2 to 4 of R335, and R338 in trap handler mode. The trapping split is the one with the given mask. While the
page of the frame has no mapping the trap waits for the MMP (notes/assumptions/20.md). -/
def trapEntry (s : State) (k : Nat) (mask : Mask) (t : TrapInfo) (insn : IWord) : State :=
  match s.group k with
  | none => s
  | some g =>
    match tget s.blocks g.blk with
    | none => s
    | some b =>
      match frameTarget s b k with
      | .missing c p => splitCalls s k mask c p
      | .fails _ => endGroup s k
      | .at key _ _ _ =>
        let s := s.writeBytes key (frameBytes g k b.ctx mask t insn)
        let s := dropReservations (dropFrameCopies s b k) k
        let handler := ctxHandler s b.ctx
        if g.handler || handler == 0 then
          -- TRAP_DOUBLE (6) or TRAP_NOHANDLER (5), then the group ends once the record is accepted (R426)
          s.modGroup k fun g =>
            { g with trapEvent := some { code := if g.handler then 6 else 5, detail := frameAddr s b.ctx k } }
        else
          -- the STALLCHECK counts end (R80), and the run counts, since the handler issues next (R291); a suspended sleeper resumes
          -- behind its SLEEP (R190)
          let others (l : List Split) := (l.filter fun p => p.mask != mask).map fun p =>
            match p.wait with
            | some (.sleep _) => { p with pc := p.pc + 12, wait := none, producers := [], run := 0 }
            | some (.swait _ _ _) => { p with producers := [], run := 0, reread := true }
            | _ => { p with producers := [], run := 0 }
          s.modGroup k fun g =>
            { g with
              handler := true, m0 := mask, hregs := [], holder := none,
              suspActive := others g.active, suspParked := others g.parked,
              active := [{ pc := handler, mask := mask, age := g.nextAge }], parked := [],
              nextAge := g.nextAge + 1 }

/-! ## Returning from one (R201, R337) -/

/-- What TRET reads of the frame: NEXTPC, MASK and p1 to p7 (R47). -/
structure FrameRead where
  nextPc : DWord
  mask : Mask
  preds : List (BitVec 64)
deriving DecidableEq, Repr

def readFrame (s : State) (key : Nat) : FrameRead where
  nextPc := BitVec.ofNat 64 (s.readMem (key + 16) 8)
  mask := BitVec.ofNat 64 (s.readMem (key + 32) 8)
  preds := (List.range 7).map fun i => BitVec.ofNat 64 (s.readMem (key + 40 + 8 * i) 8)

/-- R201 and R337: the handler registers are released, the mode is left, the handler's other splits are gone, the
suspended splits resume, lanes of M0 outside M end, and M goes on at NEXTPC with p1 to p7 of the frame, no earlier than the clock
next (R79). The failures of the handler's copies are gone with the handler (R345). -/
def trapReturn (s : State) (k : Nat) (next : Nat) (f : FrameRead) : State :=
  match s.group k with
  | none => s
  | some g =>
    let live := g.m0 &&& ~~~g.ended
    let m := f.mask &&& live
    let merge (i : Nat) (old : Mask) : Mask :=
      if i = 0 then old else (old &&& ~~~m) ||| ((f.preds[i - 1]?.getD 0) &&& m)
    let back : Split := { pc := f.nextPc &&& ~~~3#64, mask := m, age := g.nextAge, notBefore := next }
    let held := g.held.filter fun h => !h.fromHandler
    let g1 : Group :=
      { g with
        handler := false, hregs := [], m0 := 0, held := held, flight := g.flight.filter (· < 256), holder := none,
        copyFails := g.copyFails.filter fun c => !c.handler,
        preds := Vector.ofFn fun i => merge i.val (g.preds[i]),
        active := (if m != 0 && g.suspActive.length < 4 then [back] else []) ++ g.suspActive,
        parked := g.suspParked ++ (if m != 0 && 4 ≤ g.suspActive.length then [back] else []),
        suspActive := [], suspParked := [], nextAge := g.nextAge + 1 }
    let handlerReg (o : MemOp) : Bool := o.handler && (match o.dst with | .vec n => 124 ≤ n.val | _ => false)
    let s := { s with reqs := s.reqs.map fun (o : MemOp) => if o.grp = k ∧ handlerReg o then { o with dst := .none } else o }
    let s := s.setGroup k g1
    let s := if live &&& ~~~m = 0 then s else endLanes s k (live &&& ~~~m)
    s.modGroup k fun g => settle (endOver g)

end Sys2Proof.Machine
end

