-- ==== Sys2Proof/Machine/Perform.lean ====
section
/-! DEFINITION. Perform.lean: what an access does where it is performed, and what it leaves in its core: atomic operations, the
frozen-region table as a die sees it, L1, how results land, reservations (R211 to R226, R369, R394). -/

namespace Sys2Proof.Machine

/-! ## Atomic operations (R223) -/

def atomNew (op : AtomOp) (t : Ty) (old b c : Nat) : Nat :=
  let n := t.bits
  let le (x y : Nat) : Bool := decide (readInt t.signed n x ≤ readInt t.signed n y)
  match op with
  | .add => (old + b) % 2 ^ n
  | .fadd => fadd .f32 old b
  | .min => if le old b then old else b
  | .max => if le b old then old else b
  | .and => old &&& b
  | .or => old ||| b
  | .xor => old ^^^ b
  | .xchg => b
  | .cas => if old = b then c else old
  | .inc => if b ≤ old then 0 else old + 1
  | .dec => if old = 0 ∨ b < old then b else old - 1

/-- One indivisible read and write at a key (R224): the old value, and the state after. -/
def atomAt (s : State) (op : AtomOp) (t : Ty) (key : Nat) (b c : DWord) : DWord × State :=
  let n := t.bits / 8
  let old := s.readMem key n
  (BitVec.ofNat 64 old, s.writeMem key n (atomNew op t old (b.toNat % 2 ^ t.bits) (c.toNat % 2 ^ t.bits)))

/-- SIGNAL's operation (R205). -/
def signalAt (s : State) (store : Bool) (key : Nat) (b : DWord) : DWord × State :=
  let old := BitVec.ofNat 64 (s.readMem key 8)
  (old, s.writeMem key 8 (if store then b else old - b).toNat)

/-! ## The frozen-region table as a die sees it (R394, R395) -/

/-- Entries of a die's copy that are FROZEN or THAWING and cover the address, lowest number first. -/
def frtCovers (s : State) (die ctx : Nat) (a : DWord) : List (Nat × FrtCopy) :=
  (s.frtCopy.filter fun e => e.1 / 256 == die && e.2.state != .live && e.2.ctx == ctx &&
    e.2.base * 4096 ≤ a.toNat && a.toNat < (e.2.base + e.2.len) * 4096).map fun e => (e.1 % 256, e.2)

def isFrozen (s : State) (die ctx : Nat) (a : DWord) : Bool := (frtCovers s die ctx a).any fun e => e.2.state == .frozen

def isThawing (s : State) (die ctx : Nat) (a : DWord) : Bool := (frtCovers s die ctx a).any fun e => e.2.state == .thawing

/-- R215 on the addresses of the lanes that may write: FROZEN with the lowest lane's address, else a stall. -/
inductive FrozenCheck where
  | clear
  | stall
  | frozen (addr : DWord)
deriving DecidableEq, Repr

def frozenCheck (s : State) (die ctx : Nat) (as : List DWord) : FrozenCheck :=
  match as.find? (isFrozen s die ctx) with
  | some a => .frozen a
  | none => if as.any (isThawing s die ctx) then .stall else .clear

/-! ## L1 (R369) -/

/-- The virtual line of an address. -/
def vlineOf (a : DWord) : Nat := a.toNat / 128

/-- The line's place in its 64 KiB page: equal for every alias of one physical line. -/
def lineInPage (a : DWord) : Nat := a.toNat / 128 % 512

def l1Find (s : State) (core ctx : Nat) (a : DWord) : Option L1Line :=
  s.l1.find? fun l => l.core == core && l.ctx == ctx && l.vline == vlineOf a

/-- Accesses of the core to the address's line that are not performed yet. -/
def pendingOn (s : State) (core : Nat) (a : DWord) : List (MemOp × Access) :=
  (s.reqs.filter fun o => coreOf o.grp == core && !o.kind.isPrf).flatMap fun o =>
    (o.todo.filter fun x => lineInPage x.addr == lineInPage a).map fun x => (o, x)

/-- Writes of the core to the line that are on their way to its holder (R374). -/
def forwardedOn (s : State) (core : Nat) (a : DWord) : List Forwarded :=
  s.fwd.filter fun f => f.core == core && lineInPage f.addr == lineInPage a

def linePending (s : State) (core : Nat) (a : DWord) : Bool :=
  !(pendingOn s core a).isEmpty || !(forwardedOn s core a).isEmpty

/-- A store whose translation is known to allow it: it will be performed (R362). -/
def sureStore (s : State) (o : MemOp) (x : Access) : Bool :=
  o.kind == .store && match placeGlobal s x.addr with
    | .device off => (tlbHit s o.port o.ctx off).any (·.w)
    | _ => false

/-! ## What a lane comes to know of (R384) -/

/-- A store of the lanes m of a group is seen at a place before earlier accesses of those lanes are performed, reads among them: who reads
that place comes to know of them. last: the latest op of theirs that counts. -/
def noteEarly (s : State) (k last : Nat) (m : Mask) (place : Nat) : State :=
  { s with reqs := s.reqs.map fun (o : MemOp) =>
      let mine := o.mask &&& m
      if o.grp = k ∧ mine ≠ 0 ∧ o.seq ≤ last ∧ !o.kind.isPrf ∧ !o.watch.contains (place, mine) then
        { o with watch := o.watch ++ [(place, mine)] } else o }

/-- Lanes m of a group read at a place. -/
def noteRead (s : State) (k : Nat) (m : Mask) (place : Nat) : State :=
  { s with reqs := s.reqs.map fun (o : MemOp) =>
      { o with seen := (o.watch.filter fun w => w.1 == place && !o.seen.contains (k, m, w.2)).foldl (fun l w => l ++ [(k, m, w.2)]) o.seen } }

/-- Bytes new from offset off on in place of the old ones. -/
def patchBytes (bs : List Byte) (off : Nat) (new : List Byte) : List Byte :=
  bs.take off ++ new ++ bs.drop (off + new.length)

/-- Every store of a core updates the L1 copy if one is present (R369); a copy of the core that may be of the same line under another name
goes. -/
def l1Store (s : State) (core ctx : Nat) (a : DWord) (new : List Byte) : State :=
  let named (l : L1Line) : Bool := l.ctx == ctx && l.vline == vlineOf a
  { s with l1 := (s.l1.filter fun l => l.core != core || l.vline % 512 != lineInPage a || named l).map fun l =>
      if l.core == core && named l then { l with bytes := patchBytes l.bytes (a.toNat % 128) new } else l }

/-- The core's copies of a line, under any name, go: an access of the core that L1 does not serve is under way to it. -/
def l1DropAll (s : State) (core : Nat) (a : DWord) : State :=
  { s with l1 := s.l1.filter fun l => l.core != core || l.vline % 512 != lineInPage a }

/-- A write is performed in a line: replicas of it that were filled before go (R390). -/
def dropStale (s : State) (key : Nat) : State :=
  { s with l1 := s.l1.filter fun l => !(l.replica && l.vline % 512 == lineOf key % 512) }

/-- L1 capacity in lines: the part of 256 KiB that no resident scratchpad takes, those of members that have ended but whose cluster
has not among them (R282). -/
def l1Lines (s : State) (core : Nat) : Nat :=
  let members := s.clusters.flatMap fun e => e.2.members
  let kept := members.foldl (fun n m => if m.1 = core then n + m.2.2 else n) 0
  let alone := s.blocks.foldl (fun n e => if e.2.core = core && (tget s.clusters e.2.cluster).isNone then n + e.2.scrSize else n) 0
  (256 * 1024 - (kept + alone)) / 128

/-- The oldest lines leave an L1 whose core has less room for them (R5). -/
def l1Trim (s : State) (core : Nat) : State :=
  let mine := s.l1.filter fun l => l.core == core
  { s with l1 := (s.l1.filter fun l => l.core != core) ++ mine.drop (mine.length - l1Lines s core) }

/-- A fill of a line (R369); none while a write of the core to it is under way, nor of a line with a poisoned word, whose
every read fails at its home (R443). The oldest line leaves a full L1. -/
def l1Fill (s : State) (core ctx : Nat) (a : DWord) (key : Nat) (replica : Bool) : State :=
  let s := l1DropAll s core a
  if linePending s core a || s.poisoned (key / 128 * 128) 128 then s
  else
    let line : L1Line :=
      { core := core, ctx := ctx, vline := vlineOf a, bytes := s.readBytes (key / 128 * 128) 128, replica := replica }
    let mine := s.l1.filter fun l => l.core == core
    let others := s.l1.filter fun l => l.core != core
    { s with l1 := others ++ (mine.drop (mine.length + 1 - l1Lines s core)) ++ [line] }

/-! ## Values that come back -/

/-- The 128 bits that a lane got. -/
def gotValue (got : List (Nat × Nat × DWord × Word)) (l : Nat) : BitVec 128 :=
  let part (p : Nat) : DWord := ((got.find? fun x => x.1 == l && x.2.1 == p).map (·.2.2.1)).getD 0
  part 1 ++ part 0

def gotTag (got : List (Nat × Nat × DWord × Word)) (l : Nat) : Word :=
  ((got.find? fun x => x.1 == l).map (·.2.2.2)).getD 0

/-- What lane l's result is (R210, R224, R226): zero in a lane that got nothing. -/
def resultValue (kind : MemKind) (size : Nat) (signed : Bool) (got : List (Nat × Nat × DWord × Word)) (l : Nat) : BitVec 128 :=
  let x := gotValue got l
  match kind with
  | .load =>
    if size < 4 then
      let w := 8 * size
      BitVec.ofNat 128 (if signed then wrap 32 (toSigned w (x.toNat % 2 ^ w)) else x.toNat % 2 ^ w)
    else x
  | .atom _ t true => x ||| ((gotTag got l).setWidth 128 <<< t.bits)
  | _ => x

/-- Registers that a result takes. -/
def resultRegs (kind : MemKind) (size : Nat) : Nat :=
  let n := max 1 (size / 4)
  match kind with
  | .atom _ _ true => 2 * n
  | _ => n

/-- The name vn of an instruction that was issued in trap handler mode, or not: the handler's register or the program's (R336). -/
def handlerName (handler : Bool) (n : Nat) : Bool := handler && decide (124 ≤ n ∧ n < 128)

/-- One register takes an arrived piece in the lanes of the mask. -/
def landReg (mask : Mask) (uni failed : Bool) (piece : Nat → Word) (r : Reg) : Reg :=
  { r with
    val := if uni then .uniform (piece 0) else .general (lanesOf fun l => if mask.getLsbD l then piece l else r.val.lane l)
    failed := r.failed || failed }

/-- Put an arrived result into registers that were mapped at issue; a spilled one takes it in its image in the spill area and stays
AWAY (R329). handler: the instruction was issued in trap handler mode. -/
def landRegs (s : State) (k : Nat) (handler : Bool) (n m : Nat) (mask : Mask) (uni failed : Bool) (x : Nat → BitVec 128) : State :=
  s.modGroup k fun g => (List.range m).foldl (fun g i =>
    let piece (l : Nat) : Word := (x l >>> (32 * i)).setWidth 32
    if handlerName handler (n + i) then { g with hregs := tmod g.hregs (n + i) (landReg mask uni failed piece) }
    else match tget g.regs (n + i) with
      | some r =>
        let r' := landReg mask uni failed piece r
        { g with
          regs := tset g.regs (n + i) r'
          spill := if r.away then memWrite g.spill (256 * (n + i)) (imageBytes r'.val) else g.spill }
      | none => g) g

/-- Mark registers that a failed load wrote (R344). -/
def markFailed (s : State) (k : Nat) (handler : Bool) (n m : Nat) : State :=
  s.modGroup k fun g => (List.range m).foldl (fun g i =>
    if handlerName handler (n + i) then { g with hregs := tmod g.hregs (n + i) fun r => { r with failed := true } }
    else { g with regs := tmod g.regs (n + i) fun r => { r with failed := true } }) g

/-- Put arrived bits into a predicate (R73). -/
def landPred (s : State) (k : Nat) (d : Fin 8) (mask : Mask) (x : Nat → Bool) : State :=
  if d = 0 then s
  else s.modGroup k fun g => { g with preds := g.preds.set d ((g.preds[d] &&& ~~~mask) ||| (maskOf x &&& mask)) }

/-- Held faults of an instruction's failed lanes (R344). -/
def holdFaults (s : State) (k seq : Nat) (pc : DWord) (handler : Bool) (bad : List (Nat × Nat × DWord)) : State :=
  bad.foldl (fun s x => holdFault s k
    { seq := seq, lane := x.1, cause := causeMemfault, reason := x.2.1, pc := pc, addr := x.2.2, fromHandler := handler }) s

/-- Registers and predicates that a result under way occupies (Group.flight). -/
def flightsOf (handler : Bool) (kind : MemKind) (size : Nat) (dst : Dst) : List Nat :=
  match dst with
  | .vec n => (List.range (resultRegs kind size)).map fun i =>
      if handler && decide (124 ≤ n.val) then 256 + (n.val + i) else n.val + i
  | .pred k => if k = 0 then [] else [128 + k.val]
  | .none => []

/-! ## One access at its place -/

/-- A lane's reservation for this access (R219). -/
def reserved (s : State) (k l : Nat) (a : DWord) (size : Nat) : Bool :=
  s.resv.any fun r => r.grp == k && r.lane == l && r.addr == a && r.size == size

def clearReservation (s : State) (k l : Nat) : State :=
  { s with resv := s.resv.filter fun r => !(r.grp == k && r.lane == l) }

/-- Owners 01, 02 and 40: LDR loads as LD with .uc does and sets no reservation, and STC is false (R217, R219). -/
def grantsReservation (a : DWord) : Bool := ownerOf a != 1 && ownerOf a != 2 && ownerOf a != 0x40

/-- One access performed at a key: what the lane gets, a failure, and the state after (R211 step 6, R213, R217, R219,
R224). tag is the word that ATOMT returns. -/
def performKey (s : State) (k ctx : Nat) (kind : MemKind) (size : Nat) (x : Access) (key : Nat) (tag : Word) :
    Option (DWord × Word) × State :=
  let _ := ctx
  let n := min size 8
  match kind with
  | .load => if s.poisoned key n then (none, s) else (some (BitVec.ofNat 64 (s.readMem key n), 0), s)
  | .ldr =>
    if s.poisoned key n then (none, s)
    else if !grantsReservation x.addr then (some (BitVec.ofNat 64 (s.readMem key n), 0), s)
    else
      let lanes := if x.every then List.range 64 else [x.lane]
      let s1 := lanes.foldl (fun s l => clearReservation s k l) s
      (some (BitVec.ofNat 64 (s.readMem key n), 0),
       { s1 with resv := s1.resv ++ lanes.map fun l => { grp := k, lane := l, addr := x.addr, size := size, line := lineOf key } })
  | .store => (some (0, 0), s.writeMem key n (x.data.toNat % 2 ^ (8 * n)))
  | .stc =>
    let ok := reserved s k x.lane x.addr size
    let s1 := clearReservation s k x.lane
    if ok then (some (1, 0), s1.writeMem key n (x.data.toNat % 2 ^ (8 * n))) else (some (0, 0), s1)
  | .atom op t _ =>
    if s.poisoned key n then (none, s)
    else
      let r := atomAt s op t key x.data x.cmp
      (some (r.1, tag), r.2)
  | .signal st =>
    if s.poisoned key n then (none, s)
    else
      let r := signalAt s st key x.data
      (some (r.1, 0), r.2)
  | .prf _ _ | .wbl => (some (0, 0), s)

end Sys2Proof.Machine
end

