-- ==== Sys2Proof/Machine/Homes.lean ====
section
/-! DEFINITION. Homes.lean: what happens to accesses on their way: the home slices, the directory, recalls, forwarded
writes, translation and its repair, and how results and acknowledgements come back (spec/20_memory_hierarchy.md, R329,
R375, R400, R401). Each definition named exec… is one event. -/

namespace Sys2Proof.Machine

/-! ## Small helpers -/

/-- Change the memory instruction with an id. -/
def modOp (s : State) (id : Nat) (f : MemOp → MemOp) : State :=
  { s with reqs := s.reqs.map fun o => if o.id = id then f o else o }

def dropOp (s : State) (id : Nat) : State := { s with reqs := s.reqs.filter fun o => o.id != id }

/-- An event that leaves the machine's state s. -/
def event (s : State) : Host.Outcome State Fault Refusal := .next s

/-! ## Directory (R371, R372) -/

def Region.covers (r : Region) (key : Nat) : Bool := r.base ≤ key && key < r.base + r.size

/-- The region of a key: one of the listed ones, or the 64 KiB range in state NONE (R372). -/
def regionAt (s : State) (key : Nat) : Region :=
  (s.regions.find? fun r => r.covers key).getD { base := key / 65536 * 65536, size := 65536, holder := none, conflict := 0 }

/-- Put regions in place of the one with r's range. -/
def replaceRegion (s : State) (r : Region) (news : List Region) : State :=
  { s with regions := (s.regions.filter fun x => !(x.base == r.base && x.size == r.size)) ++ news }

/-- The halves of a region: the one with the key, and the other. -/
def halves (r : Region) (key now : Nat) : Region × Region :=
  let h := r.size / 2
  let lo : Region := { r with size := h, conflict := now }
  let hi : Region := { r with base := r.base + h, size := h, conflict := now }
  if key < r.base + h then (lo, hi) else (hi, lo)

/-- Split until the line stands alone: the line's region and the pieces left over (R372). -/
def isolate (key now : Nat) : Nat → Region → List Region → Region × List Region
  | 0, r, rest => (r, rest)
  | fuel + 1, r, rest =>
    if r.size ≤ 128 then (r, rest)
    else
      let (mine, other) := halves r key now
      isolate key now fuel mine (other :: rest)

/-- A line-grain forward to a Gondola or a peer moves the counter of its 64 KiB piece (R367). -/
def countRemote (s : State) (key : Nat) (remote : Bool) : State :=
  if remote then
    let c := ((tget s.remote (key / 65536)).getD 0).toNat
    { s with remote := tset s.remote (key / 65536) (BitVec.ofNat 16 (min (c + 1) 65535)) }
  else s

/-- A TLB shows the key in a remote leaf: its piece has a counter (R367). -/
def remoteLeaf (s : State) (key : Nat) : Bool := s.tlb.any fun e => e.tlb ≤ 11 && e.remote && e.frame ≤ key && key < e.frame + e.size

/-- Dirty lines are written back to their homes: their bytes stand in mem already, and a remote line's home forwards
it (R367). Sequence tags do not move (R376). -/
def wroteBack (s : State) (ls : List DcLine) : State :=
  ls.foldl (fun s l => countRemote s l.key (l.dirty && decide (2 ^ 64 ≤ l.key))) s

/-- A die's cache holds the line. -/
def inDc (s : State) (die key : Nat) : Bool := s.dc.any fun l => l.die == die && l.key == key / 128 * 128

/-- Whether serving a key sends a line-grain forward to a remote line's home: with a holder, only a miss in its cache does (R367). -/
def goesOut (s : State) (holder : Option Nat) (key : Nat) (remote : Bool) : Bool :=
  remote && match holder with | none => true | some d => !inDc s d key

/-- Lines of a range leave a die's cache with their reservations; dirty ones are written back (R378). -/
def dropLines (s : State) (die base size : Nat) : State :=
  let leaves (l : DcLine) : Bool := l.die == die && base ≤ l.key && l.key < base + size && !l.replica
  { wroteBack s (s.dc.filter leaves) with
    dc := s.dc.filter fun l => !(leaves l)
    resv := s.resv.filter fun r => !(base / 128 ≤ r.line && r.line < (base + size) / 128) }

/-- A die cache evicts a line: a dirty one is written back, reservations on it are cleared, and the die stays the holder
(R218, R369); a replica goes without a word (R397). -/
def evictLine (s : State) (die key : Nat) : State :=
  match s.dc.find? fun l => l.die == die && l.key == key with
  | some l =>
    if l.replica then { s with dc := s.dc.erase l }
    else { wroteBack s [l] with
      dc := s.dc.erase l
      resv := s.resv.filter fun r => !(dieOf r.grp == die && r.line == lineOf key) }
  | none => s

/-- Sets of a die cache: 16 MiB in 16 ways of 128-byte lines (R5). Which set a line falls into is the model's choice
(notes/assumptions/56.md). -/
def dcSet (key : Nat) : Nat := key / 128 % 8192

/-- The die's lines that stand in the set of a key, oldest first; the windows of its die spans take 1 MiB each, one way in sixteen
(R285, R369). -/
def dcSetLines (s : State) (die key : Nat) : List DcLine := s.dc.filter fun l => l.die == die && dcSet l.key == dcSet key

def dcWays (s : State) (die : Nat) : Nat := 16 - (s.spans.filter fun e => e.2.die == die).length

/-- A line in a die's cache: one tag per physical line, so a fill under another name evicts the first (R369). The oldest lines of a full
set leave it, those that `.loc` has used last (R209). -/
def dcPut (s : State) (die ctx : Nat) (a : DWord) (key : Nat) (dirty replica w loc : Bool) : State :=
  let base := key / 128 * 128
  let other := s.dc.any fun l => l.die == die && l.key == base && !(l.ctx == ctx && l.vline == vlineOf a)
  let s := if other then evictLine s die base else s
  let extra := if inDc s die key then 0 else (dcSetLines s die key).length + 1 - dcWays s die
  let set := dcSetLines s die key
  let s := (((set.filter fun l => !l.loc) ++ set.filter (·.loc)).take extra).foldl (fun s l => evictLine s die l.key) s
  let was (f : DcLine → Bool) : Bool := s.dc.any fun l => l.die == die && l.key == base && f l
  { s with dc := (s.dc.filter fun l => !(l.die == die && l.key == base)) ++
      [{ die := die, ctx := ctx, vline := vlineOf a, key := base, dirty := dirty || was (·.dirty), replica := replica, w := w
         loc := loc || was (·.loc) }] }

/-- A request of another agent is performed at the holder: the line stands in its cache, under the tag that it has there (R373, R374). One
that is not there comes in under the request's name, if that is one that a die cache may keep: owner 00, and not through the pod context
(R359). -/
def dcTouch (s : State) (die ctx : Nat) (a : DWord) (key : Nat) (dirty w keep : Bool) : State :=
  if inDc s die key then
    { s with dc := s.dc.map fun l => if l.die == die && l.key == key / 128 * 128 then { l with dirty := l.dirty || dirty } else l }
  else if keep && ownerOf a == 0 then dcPut s die ctx a key dirty false w false else s

/-- A die whose caches cannot answer yet: in warm reset before its drain (R418). -/
def undrained (s : State) (d : Nat) : Bool :=
  let die := (s.dies[d]?).getD {}
  die.state == .resetting && !die.drained

/-- The holder has been drained: HOLDER_RESET answers for it (R419). -/
def holderGone (s : State) (d : Nat) : Bool := ((s.dies[d]?).getD {}).drained

/-- A link carries packets: no retraining window is open on it (R422). -/
def linkOpen (s : State) (port : Nat) : Bool := !((s.links[port]?).getD {}).retraining

/-- The link behind a key's home: the Gondola's for host memory and for a peer. -/
def keyLink (s : State) (key : Nat) : Option Nat :=
  if key < hostKey 0 0 then none
  else if key < hostKey 1 0 then some 8
  else if key < scratchKey 0 0 then some 9
  else (peerOfKey key).map fun y => 8 + peerGondola s y.1

def keyOpen (s : State) (key : Nat) : Bool := !((keyLink s key).any fun l => !linkOpen s l)

/-- What has to come first at a line's home cannot be done now: a die that a recall, a forwarded write or the request itself is for has not
been drained in its warm reset (R419), or a link carries nothing (R422). -/
def homeBlocked (s : State) (key : Nat) : Bool :=
  let shut (d : Nat) : Bool := !holderGone s d && (undrained s d || !linkOpen s d)
  !keyOpen s key ||
  (s.recalls.any fun r => r.base ≤ key && key < r.base + r.size && shut r.die) ||
  (s.fwd.any fun f => lineOf f.key == lineOf key && shut f.die) || (regionAt s key).holder.any shut

/-- A recall begins: the range stays with its holder until RECALL_COMPLETE. -/
def startRecall (s : State) (r : Region) (heir : Option Nat) : State :=
  match r.holder with
  | some d => { s with recalls := s.recalls ++ [{ die := d, base := r.base, size := r.size, heir := heir }] }
  | none => s

/-- The directory has no free entry: the held region with the oldest conflict is recalled and becomes NONE (R372). -/
def makeRoom (s : State) : State :=
  let held := s.regions.filter fun r => r.holder.isSome && !(s.recalls.any fun x => x.base == r.base && x.size == r.size)
  match held.find? fun r => held.all fun x => decide (r.conflict ≤ x.conflict) with
  | some r => startRecall s r none
  | none => s

/-- An own request of die e for a key (R372): served at once, or after the recall it starts. -/
def ownRequest (s : State) (e key : Nat) : Bool × State :=
  let r := regionAt s key
  match r.holder with
  | none => (true, replaceRegion s r [{ r with holder := some e }])
  | some d =>
    if d = e then (true, s)
    else if r.size ≤ 128 then (false, startRecall (replaceRegion s r [{ r with conflict := s.lodge }]) r (some e))
    else
      let (mine, other) := halves r key s.lodge
      (false, startRecall (replaceRegion s r [mine, other]) mine (some e))

/-- ATOMT, and an access to host memory behind a holder: the line stands alone, is recalled, and is NONE (R226, R367). -/
def isolateRequest (s : State) (key : Nat) : Bool × State :=
  let r := regionAt s key
  match r.holder with
  | none => (true, s)
  | some _ =>
    let (line, rest) := isolate key s.lodge 9 r []
    (false, startRecall (replaceRegion s r (line :: rest)) line none)

/-- A forwarded write is merged at the holder: its words alone, and the holder's line is dirty (R374). Where the die holds the line no
longer, or is in warm reset, it is performed at the home, after the written-back line (R419). -/
def landForwarded (s : State) (f : Forwarded) : State :=
  let holds := (regionAt s f.key).holder == some f.die && !undrained s f.die && !holderGone s f.die
  let s := if holds then dcTouch s f.die f.ctx f.addr f.key true true (!f.pod) else s
  let s := (s.reqs.filter fun (o : MemOp) => o.id == f.op).foldl (fun s o =>
    noteEarly s o.grp (o.seq - 1) (1#64 <<< f.lane) (lineInPage f.addr)) s
  { dropStale (s.writeBytes f.key f.bytes) f.key with fwd := s.fwd.erase f }

/-- The same in one event, for the lines a Lift copy, a DMA engine or MST writes (R373). -/
def isolateNow (s : State) (key : Nat) : State :=
  let r := regionAt s key
  match r.holder with
  | none => s
  | some d =>
    let (line, rest) := isolate key s.lodge 9 r []
    dropLines (replaceRegion s r ({ line with holder := none } :: rest)) d line.base line.size

/-- A recall ends: what was forwarded to its range is performed first (R374, R378). -/
def finishRecall (s : State) (r : Recall) : State :=
  let s := (s.fwd.filter fun f => f.die == r.die && r.base ≤ f.key && f.key < r.base + r.size).foldl landForwarded s
  let s := dropLines s r.die r.base r.size
  let old := regionAt s r.base
  { replaceRegion s old [{ old with holder := r.heir }] with recalls := s.recalls.erase r }

/-- Nothing served before holds the line any longer: recalls of it end, writes that are on their way to it are performed, and a holder that
has been drained has given it up (R378, R419). -/
def settleLine (s : State) (key : Nat) : State :=
  let s := (s.recalls.filter fun r => r.base ≤ key && key < r.base + r.size).foldl finishRecall s
  let s := (s.fwd.filter fun f => lineOf f.key == lineOf key).foldl landForwarded s
  let r := regionAt s key
  match r.holder with
  | some d =>
    if holderGone s d then replaceRegion s r [{ r with holder := none }] else s
  | none => s

/-! ## Sequence tags (R376) -/

def tagOf (s : State) (key : Nat) : BitVec 16 := (tget s.tags (lineOf key)).getD 0

/-- An event marked tag + 1: lines of LOC 0 pages carry a tag, here and in a peer; host lines carry none. -/
def bumpTag (s : State) (key : Nat) : State :=
  if key < 2 ^ 64 || peerKey 0 0 ≤ key then { s with tags := tset s.tags (lineOf key) (tagOf s key + 1) } else s

/-- A home slice supplies the line's tag: for a LOC 0 line, and the peer's for its own under owner 0x40; a remote line has none. -/
def tagged (s : State) (a : DWord) (key : Nat) : Bool :=
  key < 2 ^ 64 || match placeGlobal s a with | .peer p _ => p != s.boot.peerNum | _ => false

/-- The tag word of ATOMT (R226). -/
def tagWord (s : State) (a : DWord) (key : Nat) : Word :=
  if tagged s a key then 0x80000000#32 ||| (tagOf s key).setWidth 32 else 0

/-! ## Which request a port serves next -/

/-- The request type: an LDR asks as `.own`, and as `.uc` where it sets no reservation (R217). -/
def reqOf (o : MemOp) (x : Access) : ReqTy :=
  match o.kind with
  | .ldr => if grantsReservation x.addr then .own else .uc
  | _ => o.req

/-- The line that the access's own die keeps under its name: one that it holds, or a replica that a load may use. No translation takes
part (R359, R397). -/
def dieLine (s : State) (o : MemOp) (x : Access) : Option DcLine :=
  s.dc.find? fun l => l.die == o.port && l.ctx == o.ctx && l.vline == vlineOf x.addr &&
    (if l.replica then o.kind.isLoad && reqOf o x != .uc
     else (match o.kind with | .atom _ _ true => false | _ => true) && (regionAt s l.key).holder == some o.port && (!isWrite o.kind || l.w))

/-- The access's place as far as its port knows it: by the TLBs (R360), and by a peer that it has been sent to (R432). -/
def portTarget (s : State) (o : MemOp) (x : Access) : Target :=
  targetVia s { leaf := tlbHit s, answers := fun p => ((tget s.peers p).getD {}).joined && x.sent.isSome } o.port o.ctx
    (placeGlobal s x.addr)

/-- Where an access goes; none: a walk or the peer's answer is needed. -/
def resolved (s : State) (o : MemOp) (x : Access) : Option Target :=
  match dieLine s o x with
  | some l => some (.at (l.key + x.addr.toNat % 128) l.w false false)
  | none => match portTarget s o x with
    | .missing _ _ => none
    | t => some t

/-- The access's offset in the pod context, where it comes in again as one from outside (R362, R431). -/
def podPlace (s : State) (o : MemOp) (x : Access) : Option Nat :=
  if (dieLine s o x).isSome then none else podOffset s (tlbHit s o.port o.ctx) (placeGlobal s x.addr)

def viaPod (s : State) (o : MemOp) (x : Access) : Bool := (podPlace s o x).isSome

/-- An entry of the Lodge's table that is FROZEN or THAWING covers the address (R401). -/
def homeFrozen (s : State) (ctx : Nat) (a : DWord) : Bool :=
  ownerOf a == 0 && s.frt.any fun e => e.2.state != .live && e.2.ctx == ctx &&
    e.2.base * 4096 ≤ a.toNat && a.toNat < (e.2.base + e.2.len) * 4096

/-- An entry of the Lodge's table that is FROZEN or THAWING meets n bytes of a context from an offset on. -/
def frtMeets (s : State) (ctx off n : Nat) : Bool :=
  s.frt.any fun e => e.2.state != .live && e.2.ctx == ctx && decide (e.2.base * 4096 < off + n ∧ off < (e.2.base + e.2.len) * 4096)

/-- The same bytes of a line may be meant, under whatever names: they meet in the page. -/
def mayOverlap (o : MemOp) (x : Access) (p : MemOp) (y : Access) : Bool :=
  let a := x.addr.toNat % 65536
  let b := y.addr.toNat % 65536
  decide (a < b + min p.size 8 ∧ b < a + min o.size 8)

/-- The writes that R215 checks at issue; a SIGNAL waits at the home of a frozen line instead (R401). -/
def checkedKind : MemKind → Bool
  | .store | .stc | .atom _ _ _ => true
  | _ => false

/-- A write of the same lane to the same bytes that has passed R215 comes behind the access: an install waits for it (R232). -/
def storeBehind (s : State) (o : MemOp) (x : Access) : Bool :=
  ((s.reqs.dropWhile fun p => p.id != o.id).drop 1).any fun p =>
    p.grp == o.grp && checkedKind p.kind && p.todo.any fun y => y.lane == x.lane && mayOverlap o x p y

/-- A write that no die checked at issue waits at the home of a frozen line: a SIGNAL, and a write that comes in under this package's own
peer number (R401). A SIGNAL that a checked write of its lane has to follow is performed: the install of the frozen entry waits for that
write, and the entry cannot become LIVE before (DESIGN CHOICE, notes/assumptions/26.md). -/
def heldAtHome (s : State) (o : MemOp) (x : Access) : Bool :=
  isWrite o.kind &&
  match podPlace s o x with
  | some off => homeFrozen s s.boot.podCtx (BitVec.ofNat 64 off)
  | none => (match o.kind with | .signal _ => homeFrozen s o.ctx x.addr && !storeBehind s o x | _ => false)

/-- The access meets its line in its own die's cache: no home and no link takes part. -/
def servedInDie (s : State) (o : MemOp) (x : Access) : Bool := (dieLine s o x).isSome

/-- Nothing that was served before holds the line: no recall of it, no holder in warm reset or behind a link that carries nothing, no
forwarded write before the access unless its own die holds the line; and the links that it takes itself carry packets (R422). -/
def lineClear (s : State) (o : MemOp) (x : Access) (key : Nat) : Bool :=
  let holder := (regionAt s key).holder
  !(s.recalls.any fun r => r.base ≤ key && key < r.base + r.size) &&
  (match holder with | some d => !undrained s d && !holderGone s d && (d == o.port || linkOpen s d) | none => true) &&
  (holder == some o.port || !(s.fwd.any fun f => lineOf f.key == lineOf key)) &&
  (servedInDie s o x || keyOpen s key && (!viaPod s o x || linkOpen s (podPort s)))

/-- The lines that an access touches, by their places in a page: the first, and how many from there on (R221). -/
def linesOf (o : MemOp) (x : Access) : Nat × Nat :=
  if o.kind == .wbl then (lineInPage x.addr, min 512 ((x.addr.toNat % 128 + x.data.toNat + 127) / 128)) else (lineInPage x.addr, 1)

/-- Two accesses may touch one physical line: their lines meet in the page. -/
def mayMeet (o : MemOp) (x : Access) (p : MemOp) (y : Access) : Bool :=
  let a := linesOf o x
  let b := linesOf p y
  decide ((b.1 + 512 - a.1) % 512 < a.2) || decide ((a.1 + 512 - b.1) % 512 < b.2)

/-- Another access of the same ST that may write the same bytes under another name. -/
def mayAlias (x y : Access) : Bool := x.lane != y.lane && x.addr.toNat % 2 ^ 16 == y.addr.toNat % 2 ^ 16

/-- An access comes after the core's writes to its line that were issued before it (R369), a write after its LDRs there (R218,
notes/assumptions/13.md), and every access after its own lane's there; a prefetch holds up nothing (R220), nor does a write that waits for a frozen line (R401)
but for its own lane at its bytes. An STC's come in lane order (R219). Lanes of an ST that may meet in one place come in lane order, once
the places of the higher ones are known (R214). -/
def inOrder (s : State) (o : MemOp) (x : Access) : Bool :=
  (o.kind.isPrf || !((s.reqs.takeWhile fun p => p.id != o.id).any fun p =>
    coreOf p.grp == coreOf o.grp && !p.kind.isPrf && p.todo.any fun y =>
      let same := p.grp == o.grp && y.lane == x.lane
      (isWrite p.kind || (p.kind == .ldr && isWrite o.kind) || same) && mayMeet o x p y &&
        !(heldAtHome s p y && !(same && mayOverlap o x p y)))) &&
  (o.kind != .stc || o.todo.head? == some x) &&
  (o.kind != .store || (o.todo.filter (mayAlias x)).all fun y => decide (x.lane < y.lane) && (resolved s o y).isSome)

/-- A higher lane of the same ST writes the same bytes: this one's are never seen (R214). -/
def overwritten (s : State) (o : MemOp) (x : Access) (key : Nat) : Bool :=
  o.kind == .store && o.todo.any fun y => mayAlias x y && decide (x.lane < y.lane) && match resolved s o y with
    | some (.at k w _ _) => k == key && w
    | _ => false

/-- The MMP's replays of a page come in the order in which the accesses arrived (R364). -/
def replayTurn (s : State) (x : Access) : Bool :=
  x.replay.isNone || !(s.reqs.any fun p => p.todo.any fun y => y.replay == x.replay && decide (y.arrived < x.arrived))

/-- The port's link carries packets, and its die sends some. -/
def portOpen (s : State) (port : Nat) : Bool := linkOpen s port && (8 ≤ port || dieRuns s port)

/-- The home slice of a line (R370). -/
def homeSlice (key : Nat) : Nat :=
  let pa := key % 2 ^ 52
  ((pa / 2 ^ 7 % 2 ^ 16) ^^^ (pa / 2 ^ 23 % 2 ^ 16) ^^^ (pa / 2 ^ 39)) * 192 / 65536

/-- The place of a port in the rotating order of this Lodge clock (R377). -/
def portPlace (s : State) (port : Nat) : Nat := (port + 11 - s.portq) % 11

/-- The slice has served neither this port nor a later one in this Lodge clock (R377). -/
def portTurn (s : State) (port key : Nat) : Bool :=
  !(s.served.any fun e => e.1 == homeSlice key && decide (portPlace s port ≤ portPlace s e.2))

/-- Accesses that were queued for the line before this one are performed first (R377). -/
def queueTurn (s : State) (o : MemOp) (x : Access) (key : Nat) : Bool :=
  !(s.reqs.any fun p => p.todo.any fun y =>
    (match y.queued, x.queued with
      | some n, some m => decide (n < m)
      | some _, none => true
      | none, _ => false) &&
    y.waiting.isNone && !(heldAtHome s p y) && !(p.id == o.id && y == x) &&
    match resolved s p y with
      | some (.at k _ _ _) => lineOf k == lineOf key
      | _ => false)

/-- Whether the port can serve an access now: perform it, or queue it behind what holds its line. -/
def servable (s : State) (o : MemOp) (x : Access) : Bool :=
  x.waiting.isNone && inOrder s o x && replayTurn s x &&
  (o.kind == .wbl || match resolved s o x with
    | some (.at key _ _ _) =>
      !(heldAtHome s o x) && (x.queued.isSome || servedInDie s o x || portTurn s o.port key) &&
      (if lineClear s o x key && queueTurn s o x key then true else x.queued.isNone)
    | some _ => true
    | none => false)

/-- The accesses that a port can serve now: what the Lodge has accepted is served whatever becomes of the link or the die (R418, R422). -/
def servableAt (s : State) (port : Nat) : List (MemOp × Access) :=
  (s.reqs.filter fun o => o.port == port).flatMap fun o =>
    (o.todo.filter fun x =>
      (portOpen s port || x.queued.isSome || servedInDie s o x && dieRuns s port) && servable s o x).map fun x => (o, x)

/-! ## Serving a request (R373) -/

/-- The access is done: what the lane got, or why it failed. -/
def accessDone (s : State) (o : MemOp) (x : Access) (r : Except Nat (DWord × Word)) : State :=
  let s := match r, o.kind with
    -- L1 keeps no value that was never written; a failed STC leaves no reservation (R219)
    | .error _, .store => l1DropAll s (coreOf o.grp) x.addr
    | .error _, .stc => clearReservation s o.grp x.lane
    | _, _ => s
  let s := modOp s o.id fun o => { o with
    todo := o.todo.filter fun y => y != x
    got := match r with | .ok (v, t) => o.got ++ [(x.lane, x.part, v, t)] | .error _ => o.got
    bad := match r with
      | .error e => match o.kind with | .prf _ _ => o.bad | _ => o.bad ++ [(x.lane, e, x.addr - BitVec.ofNat 64 (8 * x.part))]
      | .ok _ => o.bad }
  { s with reqs := s.reqs.filter fun o => match o.kind with | .prf _ _ => !o.todo.isEmpty | _ => true }

/-- Perform the access at its key, with what its lanes and those of others come to know by it (R384). -/
def performAccess (s : State) (o : MemOp) (x : Access) (key : Nat) : State :=
  let lanes : Mask := if o.uniform then o.mask else 1#64 <<< x.lane
  let (r, s) := performKey s o.grp o.ctx o.kind o.size x key (tagWord s x.addr key)
  let s := if o.kind.reads then noteRead s o.grp lanes (lineInPage x.addr) else s
  let s := if isWrite o.kind then dropStale (noteEarly s o.grp (o.seq - 1) lanes (lineInPage x.addr)) key else s
  accessDone s o x (match r with | some y => .ok y | none => .error mfPoison)

/-- Where a range of a context's offsets stands: key and length of each 64 KiB slice that has a mapping. -/
def framesOf (s : State) (ctx base len : Nat) : List (Nat × Nat) :=
  (List.range ((base % 65536 + len + 65535) / 65536)).filterMap fun i =>
    let lo := max base ((base / 65536 + i) * 65536)
    let hi := min (base + len) ((base / 65536 + i + 1) * 65536)
    if lo < 2 ^ 48 then (walk s ctx lo).map fun l => (l.key lo, hi - lo) else none

/-- The frame stands in a range that is FROZEN or THAWING, whatever mapping an access comes through (R395). -/
def frozenFrame (s : State) (key : Nat) : Bool :=
  s.frt.any fun e => e.2.state != .live && (framesOf s e.2.ctx (e.2.base * 4096) (e.2.len * 4096)).any fun f =>
    decide (f.1 ≤ key ∧ key < f.1 + f.2)

/-- A line of a FROZEN entry, now and when it was asked for: the die may keep a replica (R397, R399). Of a peer's line, where the peer's
reply says so (R400); whether it does is free. -/
def mayReplicate (s : State) (o : MemOp) (x : Access) : Bool × State :=
  let asks := reqOf o x != .uc && (o.kind.isLoad || o.kind == .prf false .l1 || o.kind == .prf false .dc)
  match placeGlobal s x.addr with
  | .device _ => (asks && x.frozen == some true && isFrozen s o.port o.ctx x.addr, s)
  | .peer p _ =>
    if asks && p != s.boot.peerNum then let (w, s) := s.draw; (w.getLsbD 0, s) else (false, s)
  | _ => (false, s)

/-- A load or prefetch leaves a copy in L1 (R369, R397); of a line that has left the FROZEN state meanwhile it does not, nor of a frozen one
that it did not ask for as such (R399). -/
def fillAfter (s : State) (o : MemOp) (x : Access) (key : Nat) (replica : Bool) : State :=
  let now := isFrozen s o.port o.ctx x.addr
  let late := x.frozen == some false || x.frozen.isSome && !now || now && !replica
  let req := reqOf o x
  let fills := match o.kind with
    | .load => req == .own || req == .si || (replica && req == .wt)
    | .ldr => req == .own
    | .prf _ .l1 => true
    | _ => false
  if fills && !late && (ownerOf x.addr == 0 || replica) then l1Fill s (coreOf o.grp) o.ctx x.addr key replica else s

/-- The request kinds of R372's own requests. A line that the die's copy shows FROZEN has no holder (R371), nor does one whose frame a
FROZEN or THAWING entry guards under another name (R395); while the die has not installed the entry, and while its copy is THAWING, the
entry's own lines are claimed as others (R399). A die that has been drained holds nothing new (R419). -/
def isOwn (s : State) (o : MemOp) (x : Access) (key : Nat) : Bool :=
  (match o.kind with
    | .load | .store | .ldr => reqOf o x == .own
    | .stc => true
    | .prf true _ => true
    | .prf false .dc => (regionAt s key).holder.isNone
    | _ => false) &&
  ownerOf x.addr == 0 && decide (o.port < 8) && !(viaPod s o x) && !(holderGone s o.port) && x.frozen.isNone && !(isFrozen s o.port o.ctx x.addr) &&
  (homeFrozen s o.ctx x.addr || !(frozenFrame s key))

/-- Host lines, and lines of another package, are never kept by a die of this one under such an address: a holder that has the line under
another name is recalled first (R367). -/
def throughHome (s : State) (x : Access) : Bool :=
  match placeGlobal s x.addr with
  | .host _ _ => true
  | .peer p _ => p != s.boot.peerNum
  | _ => false

/-- PRF .ex does nothing on a frozen or thawing line, nor where its die cannot hold the line (R220, R359). -/
def prfDropped (s : State) (o : MemOp) (x : Access) (key : Nat) : Bool :=
  match o.kind with
  | .prf true _ => !(isOwn s o x key) || isThawing s o.port o.ctx x.addr
  | .prf false .l2 => true
  | .prf false .dc => (regionAt s key).holder.isSome
  | _ => false

/-- A request whose translation is known is served by its region's state. PRF .l2, and .dc of a held line, bring lines into L2, which is
not state (notes/assumptions/8.md). -/
def serveAt (s : State) (o : MemOp) (x : Access) (key : Nat) (w remote : Bool) : State :=
  -- a request that comes in again from outside is served at its Gondola's port (R431)
  let pod := viaPod s o x
  let e := if pod then podPort s else o.port
  -- a piece of a remote leaf has a counter, under whatever name its lines go out (R367)
  let remote := remote && (ownerOf x.addr == 0 || remoteLeaf s key)
  let r := regionAt s key
  let kind := o.kind
  if isWrite kind && !w then accessDone s o x (.error mfPerm)
  else if overwritten s o x key || prfDropped s o x key then accessDone s o x (.ok (0, 0))
  else if isOwn s o x key then
    let (ok, s) := ownRequest s e key
    if ok then
      let s := dcPut (countRemote s key (goesOut s (some e) key remote)) e o.ctx x.addr key (isWrite kind) false w o.loc
      fillAfter (performAccess s o x key) o x key false
    else s
  else match kind with
  | .atom _ _ true =>
    let (ok, s) := isolateRequest s key
    if ok then performAccess (bumpTag (countRemote s key remote) key) o x key else s
  | _ =>
    if throughHome s x && r.holder.isSome then (isolateRequest s key).2
    else
      let s := countRemote s key (goesOut s r.holder key remote)
      if isWrite kind then
        match r.holder with
        | some d =>
          if d = e then performAccess (dcPut s e o.ctx x.addr key true false w o.loc) o x key
          else if kind == .store then
            -- the words travel to the holder (R374)
            let n := min o.size 8
            let f : Forwarded :=
              { op := o.id, core := coreOf o.grp, lane := x.lane, die := d, ctx := o.ctx, addr := x.addr, key := key,
                bytes := leBytes n (x.data.toNat % 2 ^ (8 * n)), pod := pod }
            accessDone { bumpTag s key with fwd := s.fwd ++ [f] } o x (.ok (0, 0))
          else performAccess (dcTouch (bumpTag s key) d o.ctx x.addr key true w (!pod)) o x key
        | none => performAccess (bumpTag s key) o x key
      else
        let (rep, s) := mayReplicate s o x
        let s := match r.holder with
          | some d => if d = e then dcPut s e o.ctx x.addr key false false w o.loc else dcTouch s d o.ctx x.addr key false w (!pod)
          | none => if rep && (dieLine s o x).isNone then dcPut s o.port o.ctx x.addr key false true w o.loc else s
        fillAfter (performAccess s o x key) o x key rep

/-- The address in a range of a context's offsets that stands for a dirty line of the cache: the line's own, or one whose page maps to the
line, under whatever name the cache keeps it. -/
def nameIn (s : State) (ctx lo hi : Nat) (l : DcLine) : Option Nat :=
  let first := lo / 128 * 128
  if l.ctx = ctx ∧ first ≤ l.vline * 128 ∧ l.vline * 128 < hi then some (l.vline * 128)
  else
    let piece (i : Nat) : Nat := max first ((first / 65536 + i) * 65536)
    ((List.range ((first % 65536 + (hi - first) + 65535) / 65536)).find? fun i =>
      (walk s ctx (piece i)).any fun f => f.key (piece i) ≤ l.key && l.key < f.key (piece i) + (min hi ((first / 65536 + i + 1) * 65536) - piece i)).map
      fun i => piece i + (l.key - ((walk s ctx (piece i)).map fun f => f.key (piece i)).getD 0)

/-- WBL: every line of the range that the die holds dirty becomes clean, but for frozen lines, lines without a mapping and poisoned ones
(R211, R221). -/
def writeBack (s : State) (o : MemOp) (x : Access) : State :=
  let lo := x.addr.toNat
  let hi := min (lo + x.data.toNat) (2 ^ 48)
  let cleans (l : DcLine) : Bool :=
    l.die == o.port && l.dirty && !l.replica && !s.poisoned l.key 128 &&
    (nameIn s o.ctx lo hi l).any fun a => !(isFrozen s o.port o.ctx (BitVec.ofNat 64 a)) && (leafOf s o.port o.ctx a).isSome
  let dc := s.dc.map fun l => if cleans l then { l with dirty := false } else l
  accessDone { wroteBack s (s.dc.filter cleans) with dc := dc } o x (.ok (0, 0))

/-- A slice has served the port, and the access takes its place among those that wait for its line (R377). -/
def queueAt (s : State) (o : MemOp) (x : Access) : State :=
  if x.queued.isSome then s
  else modOp { s with nextId := s.nextId + 1 } o.id fun o =>
    { o with todo := o.todo.map fun y => if y = x then { y with queued := some s.nextId, replay := none } else y }

/-- The slice notes the port that it serves in this Lodge clock. -/
def noteServed (s : State) (o : MemOp) (x : Access) (key : Nat) : State :=
  if x.queued.isSome || servedInDie s o x then s else { s with served := (homeSlice key, o.port) :: s.served }

def serve (s : State) (o : MemOp) (x : Access) : State :=
  if o.kind == .wbl then writeBack s o x
  else match resolved s o x with
    | some (.at key w _ remote) =>
      let t := noteServed s o x key
      queueAt (if lineClear s o x key && queueTurn s o x key then serveAt t o x key w remote else t) o x
    | some (.fails r) => accessDone s o x (.error r)
    | _ => s

/-- HOME_REQUEST: the port's next request, which of those that nothing orders is free. -/
def execHomeRequest (port : Nat) (s : State) : Host.Outcome State Fault Refusal :=
  let (c, s) := pickFree s (servableAt s port)
  event (match c with
    | some (o, x) => serve s o x
    | none => s)

/-- The port's oldest request that can be served (R273, notes/assumptions/59.md). -/
def serveOldest (s : State) (port : Nat) : State :=
  match servableAt s port with
  | (o, x) :: _ => serve s o x
  | [] => s

/-! ## Requests of other agents at a home (R377) -/

/-- The accesses that are queued for a line, in their order. -/
def queuedOn (s : State) (key : Nat) : List (MemOp × Access) :=
  let all := s.reqs.flatMap fun o => (o.todo.filter fun x =>
    x.queued.isSome && x.waiting.isNone && !(heldAtHome s o x) && match resolved s o x with
      | some (.at k _ _ _) => lineOf k == lineOf key
      | _ => false).map fun x => (o, x)
  sortBy (fun (a b : MemOp × Access) => decide (a.2.queued.getD 0 < b.2.queued.getD 0)) all

/-- What holds a line ends at once, if it can now (R419, R422). -/
def settleNow (s : State) (key : Nat) : State := if homeBlocked s key then { s with blocked := true } else settleLine s key

/-- Those are performed before a later request. -/
def performQueued (key : Nat) : Nat → State → State
  | 0, s => s
  | fuel + 1, s => match queuedOn s key with
    | [] => s
    | (o, x) :: _ =>
      let s := settleNow s key
      if s.blocked then s else performQueued key fuel (serve s o x)

/-- The Lodge's clock moves on until the slice can serve the port (R377). -/
def untilTurn (s : State) (port key : Nat) : State :=
  if portTurn s port key then s else { s with lodge := s.lodge + 1, portq := (s.portq + 1) % 11, served := [] }

/-- Then it serves it. -/
def awaitTurn (s : State) (port key : Nat) : State :=
  let s := untilTurn s port key
  { s with served := (homeSlice key, port) :: s.served }

/-- What cannot be made now leaves no trace. -/
def unlessBlocked (s : State) (f : State → State) : State :=
  let t := f s
  if t.blocked then s else t

/-- A request of a port that is no lane's comes to the line's home: in its turn in the rotating order, after what is queued for the line, and
with nothing earlier holding it. What cannot be made now is tried again later (State.blocked). -/
def arriveHome (s : State) (port key : Nat) : State :=
  let s := awaitTurn s port key
  settleNow (performQueued key (3 * (queuedOn s key).length) s) key

/-! ## Forwarded writes, recalls, merges (R372, R374, R378, R419) -/

def execForwardedWrite (die : Nat) (s : State) : Host.Outcome State Fault Refusal :=
  event (match s.fwd.find? fun f => f.die == die with
    | some f =>
      if undrained s die || !(linkOpen s die) then s else landForwarded s f
    | none => s)

/-- The recall whose range begins at the line. A die that quiesces finishes it (R418). -/
def execRecallComplete (line : Nat) (s : State) : Host.Outcome State Fault Refusal :=
  event (match s.recalls.find? fun r => r.base / 128 == line with
    | some r =>
      if !(linkOpen s r.die) || s.fwd.any fun f => f.die == r.die && r.base ≤ f.key && f.key < r.base + r.size then s
      else finishRecall s r
    | none => s)

/-- Siblings in one state, neither with a conflict for 2^20 Lodge clocks, become their parent (R372). -/
def execRegionMerge (base log2 : Nat) (s : State) : Host.Outcome State Fault Refusal :=
  let size := 2 ^ log2
  let part (b : Nat) : Option Region := s.regions.find? fun r => r.base == b && r.size == size / 2
  event (if log2 < 8 || 16 < log2 || base % size != 0 then s
    else match part base, part (base + size / 2) with
      | some a, some b =>
        let quiet (r : Region) : Bool := r.conflict + 2 ^ 20 ≤ s.lodge
        let recalled := s.recalls.any fun r => r.base < base + size && base < r.base + r.size
        if a.holder == b.holder && quiet a && quiet b && !recalled then
          let s := replaceRegion (replaceRegion s a []) b []
          if log2 = 16 && a.holder.isNone then s
          else { s with regions := s.regions ++ [{ base := base, size := size, holder := a.holder, conflict := max a.conflict b.conflict }] }
        else s
      | _, _ => s)

/-- HOLDER_RESET: the first request of a port that meets a region of a drained die finds it NONE (R419). -/
def execHolderReset (port : Nat) (s : State) : Host.Outcome State Fault Refusal :=
  let meets (o : MemOp) (x : Access) : Option Region :=
    match resolved s o x with
    | some (.at key _ _ _) =>
      let r := regionAt s key
      match r.holder with
      | some d => if holderGone s d then some r else none
      | none => none
    | _ => none
  let hit := (s.reqs.filter fun o => o.port == port).findSome? fun o => o.todo.findSome? (meets o)
  event (match hit with
    | some r => replaceRegion s r [{ r with holder := none }]
    | none => s)

/-! ## Translation (R360 to R368) -/

/-- A TLB takes an entry; the oldest leaves a full one (4,096 entries at a port, 65,536 shared). -/
def tlbPut (s : State) (e : TlbEntry) : State :=
  let cap := if e.tlb = 11 then 65536 else 4096
  let mine := s.tlb.filter fun x => x.tlb == e.tlb
  let others := s.tlb.filter fun x => x.tlb != e.tlb
  { s with tlb := others ++ mine.drop (mine.length + 1 - cap) ++ [e] }

def leafEntry (tlb ctx : Nat) (l : Leaf) : TlbEntry :=
  { tlb := tlb, ctx := ctx, base := l.base, size := l.size, frame := l.frame, remote := l.remote, w := l.w, x := l.x }

/-- An access meets an invalid entry: a prefetch is dropped (R211 step 5); any other waits for the MMP (R364). The third refault of an
access, and every third one after it, is reported to the MMP as a REPLAYSTORM (R366). -/
def walkFails (s : State) (o : MemOp) (x : Access) (ctx page : Nat) : State :=
  match o.kind with
  | .prf _ _ => accessDone s o x (.ok (0, 0))
  | _ =>
    let (id, s) := s.fresh
    let s := callMmp (reportStorm s o.id x.lane x.faults) ctx page
    modOp s o.id fun o => { o with todo := o.todo.map fun y =>
      if y = x then { y with faults := y.faults + 1, waiting := some (ctx, page), replay := none,
                             arrived := if y.faults = 0 then id else y.arrived } else y }

/-- A walk for a page of a context reads the entries at their homes, as an agent of the Lodge, and fills the TLB of a port and the shared one
(R360). -/
def walkFill (s : State) (port ctx page : Nat) : Walked × State :=
  let s := (walkKeys s (page * 2 ^ 16) 4 0 (devKey (ctxRoot s ctx))).foldl (fun s key => arriveHome s 10 key) s
  let w := walked s ctx (page * 2 ^ 16)
  (w, match w with
    | .leaf l => tlbPut (tlbPut s (leafEntry port ctx l)) (leafEntry 11 ctx l)
    | _ => s)

/-- A walk waits at a peer that has been asked and has not answered. -/
def walkAsked (s : State) (ctx page : Nat) : Bool :=
  match walked s ctx (page * 2 ^ 16) with
  | .peer p => ((tget s.peers p).getD {}).since.isSome && silentPeer s p != .fails mfLimit
  | _ => false

/-- The first access of the port that needs a walk, or has still to be sent to its peer, with the context and page. -/
def needsWalk (s : State) (port : Nat) : Option (MemOp × Access × Nat × Nat) :=
  (s.reqs.filter fun o => o.port == port && o.kind != .wbl).findSome? fun o => o.todo.findSome? fun x =>
    if x.waiting.isSome || (dieLine s o x).isSome then none
    else match portTarget s o x with
      | .missing c p => if peerPage 0 ≤ p && x.sent.isSome || walkAsked s c p then none else some (o, x, c, p)
      | _ => none

/-- PAGE_WALK: that access takes a walker, or leaves for its peer (R432). -/
def execPageWalk (port : Nat) (s : State) : Host.Outcome State Fault Refusal :=
  event (match needsWalk s port with
    | none => s
    | some (o, x, c, p) =>
      if peerPage 0 ≤ p then
        modOp s o.id fun o => { o with todo := o.todo.map fun y => if y = x then { y with sent := some s.lodge } else y }
      else if 2 ^ 48 ≤ p then walkFails s o x c p
      else match walkFill s (if viaPod s o x then podPort s else port) c p with
        | (.leaf _, s) => s
        | (.invalid c p, s) => walkFails s o x c p
        | (.peer q, s) => match silentPeer s q with
          | .missing c p => callMmp s c p
          | _ => accessDone s o x (.error mfLimit))

/-- An offset's page comes into the TLB of a port, if its walk finds one. -/
def fillPage (s : State) (port ctx off : Nat) : State :=
  if (tlbHit s port ctx off).isSome then s else (walkFill s port ctx (off / 2 ^ 16)).2

/-- An agent that is no lane translates a range at its port: misses fill the TLBs (R360); what comes in again from outside is translated at
its Gondola's port (R431). -/
def fillRange (s : State) (port ctx : Nat) (a : DWord) (n : Nat) : State :=
  (List.range (if n = 0 then 0 else (a.toNat % 65536 + n + 65535) / 65536)).foldl (fun s i =>
    let p := placeGlobal s (a + BitVec.ofNat 64 (i * 65536))
    let s := match p with
      | .device off => fillPage s port ctx off
      | _ => s
    match podOffset s (tlbHit s port ctx) p with
    | some off => fillPage s (podPort s) s.boot.podCtx off
    | none => s) s

/-! ## Reads and writes of other agents (R360, R367, R373, R377) -/

/-- How an agent's access reaches its line. -/
def wayOf (s : State) (port ctx : Nat) (a : DWord) : Way :=
  let p := placeGlobal s a
  if (podOffset s (leafOf s port ctx) p).isSome then .pod
  else match p with
    | .host _ _ | .peer _ _ => .host
    | _ => .own

/-- The port at which it is served: what comes in again from outside, at its Gondola's (R431). -/
def wayPort (s : State) (port : Nat) (way : Way) : Nat := if way == .pod then podPort s else port

/-- Some of the bytes come in through the pod context, where a FROZEN or THAWING entry meets them: they wait like any peer's write (R401). -/
def heldAtPod (s : State) (port ctx : Nat) (a : DWord) (n : Nat) : Bool :=
  (List.range ((a.toNat % 65536 + n + 65535) / 65536)).any fun i =>
    let lo := if i = 0 then a.toNat else (a.toNat / 65536 + i) * 65536
    match podOffset s (leafOf s port ctx) (placeGlobal s (BitVec.ofNat 64 lo)) with
    | some off => frtMeets s s.boot.podCtx off (min (65536 - lo % 65536) (a.toNat + n - lo))
    | none => false

/-- It comes to the line's home over links that carry packets (R422). -/
def comesHome (s : State) (port : Nat) (way : Way) (key : Nat) : State :=
  if linkOpen s port && linkOpen s (wayPort s port way) then arriveHome s (wayPort s port way) key else { s with blocked := true }

/-- One line is read: from a replica, or into one, if it is frozen and the read may use one (R397); in the agent's own die cache; else at the
holder or the home, as by a load that claims nothing. Under a name of host memory a holder is recalled first (R367). -/
def homeRead (s : State) (port ctx : Nat) (a : DWord) (key : Nat) (w remote replicas : Bool) : State :=
  let way := wayOf s port ctx a
  let out (s : State) : Bool := remote && (ownerOf a == 0 || remoteLeaf s key)
  let own := way == .own && (regionAt s key).holder == some port
  if replicas && way == .own && isFrozen s port ctx a then
    if s.dc.any fun l => l.die == port && l.replica && l.key == key / 128 * 128 then s
    else
      let s := comesHome s port way key
      dcPut (countRemote s key (out s)) port ctx a key false true w false
  else if own && inDc s port key then s
  else
    let s := comesHome s port way key
    let s := if way == .host then isolateNow s key else s
    let holder := (regionAt s key).holder
    let s := countRemote s key (goesOut s holder key (out s))
    match holder with
    | some d => if d = port ∧ way = .own then dcPut s d ctx a key false false w false else dcTouch s d ctx a key false w (way == .own)
    | none => s

/-- A range is read at a port, as the TLBs, the homes, the caches and the counters come to know of it. What lies in no paged owner, or has no
mapping, is passed over. -/
def readAt (s : State) (port ctx : Nat) (a : DWord) (n : Nat) (replicas : Bool) : State :=
  (List.range ((a.toNat % 128 + n + 127) / 128)).foldl (fun s i =>
    let x := if i = 0 then a else BitVec.ofNat 64 ((a.toNat / 128 + i) * 128)
    match targetOf s port ctx (placeGlobal s x) with
    | .at key w _ remote => homeRead s port ctx x key w remote replicas
    | _ => s) (fillRange s port ctx a n)

/-- A write of a copy, of MST, of an engine or of an agent of the Lodge comes to the line's home and meets its holder: the die that writes is
recalled, and every die under a name of host memory; another one performs it in its cache; a line that is not there is brought in and
written back at once (R367, R373, R377, R378). -/
def atHolder (s : State) (port : Nat) (way : Way) (key : Nat) : State :=
  let s := comesHome s port way key
  let out (s : State) : State := countRemote s key (remoteLeaf s key)
  match (regionAt s key).holder with
  | none => out s
  | some d =>
    if d = wayPort s port way ∨ way = .host then out (isolateNow s key)
    else if inDc s d key then
      { s with dc := s.dc.map fun l => if l.die == d && l.key == key / 128 * 128 then { l with dirty := true } else l }
    else out s

/-! ## Results and acknowledgements -/

/-- The instruction returns something to its lanes. -/
def MemOp.returns (o : MemOp) : Bool := o.kind.isLoad || o.dst != .none

/-- LOAD_RESULT_ARRIVAL: the result is written, zero into failing lanes; the destination is no longer pending and the
failures are held (R329, R344). -/
def execLoadResultArrival (id : Nat) (s : State) : Host.Outcome State Fault Refusal :=
  event (match s.reqs.find? fun o => o.id == id with
    | none => s
    | some o =>
      if !(o.returns && opPerformed s o && linkOpen s o.port) then s
      else
        let value := resultValue o.kind o.size o.signed o.got
        let failed (l : Nat) : Bool := o.bad.any fun b => b.1 == l
        -- a failed atomic writes nothing
        let mask := if o.kind.isLoad then o.mask else o.mask &&& ~~~(maskOf failed)
        let s := match o.dst with
          | .vec n => landRegs s o.grp o.handler n.val (resultRegs o.kind o.size) mask o.uniform (o.kind.isLoad && !o.bad.isEmpty)
              fun l => if failed l then 0 else value l
          | .pred d => landPred s o.grp d o.mask fun l => !failed l && gotValue o.got l == 1
          | .none => s
        let codes := flightsOf o.handler o.kind o.size o.dst
        let s := s.modGroup o.grp fun g => { g with flight := g.flight.filter fun c => !(codes.contains c) }
        let s := if o.acked.isSome then s else holdFaults s o.grp o.seq o.pc o.handler o.bad
        let s := match o.acq with | some sc => acquireAt s (coreOf o.grp) sc | none => s
        dropOp (if o.fencedWide then acquireL1 s (coreOf o.grp) else s) id)

/-- STORE_ACKNOWLEDGE at a scope: failures are held with the first; at .sys the instruction is complete (R375). -/
def execStoreAcknowledge (id : Nat) (scope : Scope) (s : State) : Host.Outcome State Fault Refusal :=
  event (match s.reqs.find? fun o => o.id == id with
    | none => s
    | some o =>
      if o.kind.isLoad || !opPerformed s o || !linkOpen s o.port then s
      else
        let s := if o.acked.isSome then s else holdFaults s o.grp o.seq o.pc o.handler o.bad
        if scope == .sys && !o.returns then
          dropOp (match o.acq with | some sc => acquireAt s (coreOf o.grp) sc | none => s) id
        else modOp s id fun o => { o with acked := some (scope == .sys || o.acked == some true) })

end Sys2Proof.Machine
end

