-- ==== Sys2Proof/Machine/Issue.lean ====
section
/-! DEFINITION. Issue.lean: what every native instruction shares: finding its split and active lanes (R75), the checks
that come before its effect in the order of R341, and what its issue leaves behind (R71, R79, R80, R289 to R291). -/

namespace Sys2Proof.Machine

/-! ## Registers an instruction names -/

/-- Registers that a source field reads. -/
def srcRegs (k : SrcKind) (s : Src) : List Nat :=
  match s.sel with
  | .reg n =>
    let m := match k with
      | .val t | .reg t => t.regs
      | .pair => 2
      | .data m | .dataOrImm m => m
      | .unused | .pred => 0
    (List.range m).map (n.val + ·)
  | _ => []

/-- Registers that a destination field writes. -/
def dstRegs (k : DstKind) (d : Dst) : List Nat :=
  match d, k with
  | .vec n, .vec m | .vec n, .vecOrNone m => (List.range m).map (n.val + ·)
  | .vec n, .vecOrPred => [n.val]
  | _, _ => []

/-- SHAPEQ and VKILL name a register without reading it (R155, R157). -/
def readsNothing : Instr → Bool
  | .shapeq _ | .vkill _ => true
  | _ => false

/-- Everything an instruction names. -/
structure Uses where
  reads : List Nat
  writes : List Nat
  /-- predicates read, the guard among them; p0 is a constant -/
  predReads : List Nat
  predWrites : List Nat
  /-- registers with LU = 1 (R71) -/
  lus : List Nat
deriving DecidableEq, Repr

def usesOf (i : Instr) (o : Op) (f : Fields) : Uses :=
  let srcs := [(f.a, o.a), (f.b, o.b), (f.c, o.c)]
  let pr (s : Src) : List Nat := match s.sel with | .pred k => [k.val] | _ => []
  let ticket := match i with
    | .frz _ o | .thaw o => [o.imm.toNat % 128]
    | _ => []
  { reads := if readsNothing i then [] else (srcs.map fun x => srcRegs x.1 x.2).flatten
    writes := dstRegs f.dst o.dst ++ ticket
    predReads := (o.ctl.gp.val :: (srcs.map fun x => pr x.2).flatten).filter (· != 0)
    predWrites := match o.dst with | .pred k => if k = 0 then [] else [k.val] | _ => []
    lus := ((srcs.filter fun x => x.2.lu).map fun x => srcRegs x.1 x.2).flatten }

/-! ## The issuing split -/

/-- What an instruction sees: group, split, block, the lanes of R75. -/
structure View where
  k : Nat
  g : Group
  sp : Split
  b : Block
  act : Mask
  uses : Uses
  /-- the PC lies in text translated from APF (R42) -/
  translated : Bool := false
deriving DecidableEq, Repr

/-- The lanes of the issuing split whose guard reads true (R75). -/
def activeLanes (g : Group) (sp : Split) (c : Ctl) : Mask :=
  let p : Mask := if c.gp = 0 then fullMask else g.preds[c.gp]
  sp.mask &&& (if c.gn then ~~~p else p)

/-- The PC of a group lies in the translated text that its block runs; a trap handler's does not (R42, R406). -/
def inTranslated (s : State) (b : Block) (g : Group) (pc : DWord) : Bool :=
  b.translated && !g.handler && s.tcache.any fun e => match e.state with
    | .text a n _ => decide (a = b.text ∧ a.toNat ≤ pc.toNat ∧ pc.toNat < a.toNat + n)
    | _ => false

/-- The split that State.curGroup and State.curLane name. -/
def viewOf (s : State) (i : Instr) (o : Op) (f : Fields) : Option View := do
  let g ← s.group s.curGroup
  let sp ← splitAt g s.curLane
  let b ← tget s.blocks g.blk
  return { k := s.curGroup, g := g, sp := sp, b := b, act := activeLanes g sp o.ctl, uses := usesOf i o f,
           translated := inTranslated s b g sp.pc }

/-- The split's instruction waited for refills, and holds the storage that it took then (R328). -/
def View.holder (v : View) : Option Holder := v.g.holder.filter fun h => v.sp.mask.getLsbD h.lane

/-- What the instruction names and releases, and the storage already taken for its results (R328). -/
def View.named (v : View) : Naming :=
  { regs := v.uses.reads ++ v.uses.writes, drops := v.uses.lus,
    slabs := (v.holder.map (·.slabs)).getD 0, cells := (v.holder.map (·.cells)).getD 0 }

/-! ## Checks before the effect -/

/-- What an instruction does. -/
inductive Effect where
  /-- the effect is made; every lane of the split goes on to PC + 12 -/
  | done (s : State)
  /-- active lanes go to their targets, the others to PC + 12 (R185); rot: a taken backward branch with YL (R186) -/
  | goto (s : State) (target : Nat → DWord) (rot : Bool)
  /-- lanes of the mask end, the others go on (R189) -/
  | ends (s : State) (m : Mask)
  /-- the effect (if any) is made and the split traps -/
  | trap (s : State) (t : TrapInfo)
  /-- held: nothing of the instruction has taken effect (R71, R79) -/
  | hold (s : State)
  /-- the split is WAITING at this instruction (R287) -/
  | wait (s : State) (w : Wait)
  /-- the group's splits are as the effect left them (TRET, EXIT of a handler) -/
  | whole (s : State)
  /-- the split goes on and is rotated (R190) -/
  | rotates (s : State)

def classOfDie (d : Nat) : Class := if d < 4 then .m else if d < 6 then .f else if d = 6 then .l else .t

/-- The matrix forms a class runs natively (R262). -/
def nativeFmts : Class → List MmaFmt
  | .m => [.bf16, .e4m3, .e5m2, .mxf8e4, .mxf8e5, .mxi8, .kf4]
  | .f => [.f32, .bf16, .f16]
  | .l => [.l8, .l4]
  | .t => [.e4m3, .i8]

/-- The class whose row native text follows: its die's; the program's text keeps its own, when a restore has brought it to another class
(R407, notes/assumptions/34.md). -/
def textClass (v : View) : Class :=
  let here := classOfDie (v.b.core / 32)
  if v.g.handler then here else v.b.textCls.getD here

/-- FN of MMA and MMAS on the class of the text; translated text runs every form (R406, R408, R447). -/
def fmtLegal (v : View) (fmt : MmaFmt) : Bool := v.translated || (nativeFmts (textClass v)).contains fmt

/-- Steps 3 and 4 of R77 in this state: 4 is PRIV, 2 is RSVD. -/
def illegalNow (v : View) (i : Instr) : Option Nat :=
  if i.privileged && !v.g.handler then some 4
  else if !i.wf then some 2
  else match i with
    | .sreg o => if 28 ≤ o.imm.toNat && !v.g.handler then some 2 else none
    | .dbar _ _ => if v.b.span.isNone then some 2 else none
    | .mma fmt _ | .mmas fmt _ => if fmtLegal v fmt then none else some 2
    | _ => none

/-- A trap at issue with no effect: PC and NEXTPC name the instruction (R340). -/
def atIssue (v : View) (cause reason : Nat) (addr : DWord := 0) : TrapInfo :=
  { cause := cause, reason := reason, pc := v.sp.pc, nextPc := v.sp.pc, addr := addr }

/-- A trap after the instruction: NEXTPC is PC + 12 (R343, R200, R251). -/
def afterIssue (v : View) (cause reason : Nat) (addr : DWord := 0) : TrapInfo :=
  { cause := cause, reason := reason, pc := v.sp.pc, nextPc := v.sp.pc + 12, addr := addr, completes := true }

/-- The code under which a register's pending result is kept (Group.flight). -/
def flightCode (g : Group) (n : Nat) : Nat := if isHandlerReg g n then 256 + n else n

/-- R79, R319, R330: a register or predicate that the instruction reads, writes or releases has a result or a refill under way. -/
def scoreboardHolds (g : Group) (u : Uses) : Bool :=
  (u.reads ++ u.writes ++ u.lus).any (fun n => g.flight.contains (flightCode g n) || (!isHandlerReg g n && g.refills.contains n)) ||
  (u.predReads ++ u.predWrites).any fun k => g.flight.contains (128 + k)

/-- The STALL trap's reason, if STALLCHECK finds a read too early (R80). -/
def stallReason (v : View) (u : Uses) : Option Nat :=
  if v.b.flags.getLsbD 2 && !v.translated then
    ((u.reads ++ u.predReads.map (128 + ·)).find? fun r =>
      v.sp.producers.any fun p => p.reg == r && p.distance < p.latency)
  else none

/-- The registers read while unmapped, where some lane is active (R323). -/
def deadReads (v : View) (u : Uses) : List Nat :=
  if v.act = 0 then [] else u.reads.filter fun n => (regOf v.g n).isNone

/-- FORCEU, MKAFF and MKGEN write all 64 lanes as soon as one is active (R156). -/
def writesAll : Instr → Bool
  | .forceu _ | .mkaff _ | .mkgen _ => true
  | _ => false

/-- The destinations that a partial write reads before it expands them (R317, R318). -/
def keptDsts (i : Instr) (v : View) (u : Uses) : List Nat := if v.act = fullMask || writesAll i then [] else u.writes

/-- Each element of a list once, in the order of its first copies. -/
def firstCopies (ns : List Nat) : List Nat := ns.foldl (fun acc n => if acc.contains n then acc else acc ++ [n]) []

/-- Registers that must be refilled first: AWAY sources, and AWAY destinations of a partial write, in the order in which they
obtain their storage (R318, R328, R330). -/
def awayRegs (i : Instr) (v : View) (u : Uses) : List Nat :=
  if v.act = 0 then []
  else ((u.reads ++ keptDsts i v u).filter fun n => (regOf v.g n).any (·.away)) |> firstCopies

/-- The instruction needs a poisoned register: a source, or an AWAY destination of a partial write whose image has an error
(R330, R443). -/
def poisonedRegs (i : Instr) (v : View) (u : Uses) : List Nat :=
  if v.act = 0 then []
  else (u.reads.filter fun n => (regOf v.g n).any (·.poison)) ++
    (keptDsts i v u).filter fun n => (regOf v.g n).any fun r => r.away && r.poison

/-- The shape of one source (R148, R151). An affine one stays affine, with the base and stride of the values that the type takes from
its lanes, unless a narrow type bends them (notes/assumptions/24.md). -/
def sourceNominal (g : Group) (t : Ty) (imm : Word) (x : Src) : Nominal :=
  let lane (l : Nat) : Word := (fillLane t (srcAt g t imm x l)).setWidth 32
  if srcUniform g t x then .uniform
  else if t.bits = 32 then Nominal.ofPair (srcAffine g imm x)
  else if t.bits < 32 && (srcAffine g imm x).isSome &&
      (List.range 64).all fun l => lane l == lane 0 + BitVec.ofNat 32 l * (lane 1 - lane 0) then .affine (lane 0) (lane 1 - lane 0)
  else .general

/-- The source that ISEL takes in lane l (R148). -/
def chosenSrc (g : Group) (o : Op) (l : Nat) : Src := if srcB32 g o.imm o.c l ≠ 0 then o.a else o.b

/-- An instruction with an AWAY source whose result is uniform or affine all the same when all lanes are active: no rule of its own
shape reads that source's (R132, R148, R179 to R182). An AWAY register is stored general. -/
def cellResult (g : Group) : Instr → Bool
  | .red _ _ | .bcast _ | .poll _ _ | .sreg _ | .call _ | .forceu _ | .mkaff _ | .movi _ | .pcnt _ | .shapeq _ => true
  | .isel o => srcUniform g .b32 o.c && sourceNominal g o.ty o.imm (chosenSrc g o 0) != .general
  | .lxch mode o => mode != .edge && srcUniform g o.ty o.a
  | _ => false

/-- What the destination is counted for in the request of an instruction that has to refill (R328, notes/assumptions/45.md): a uniform
pair one cell (R315), and nothing for a register that the same instruction refills. -/
def dstStorage (i : Instr) (v : View) (u : Uses) : Nat × Nat :=
  if cellResult v.g i && (v.act = fullMask || writesAll i) then
    (0, match u.writes with
      | n :: _ :: _ => needPair v.g n
      | ns => (ns.filter fun n => !((regOf v.g n).any Reg.isCell)).length)
  else
    let refilled := awayRegs i v u
    ((u.writes.filter fun n => !((regOf v.g n).any Reg.isSlab || refilled.contains n)).length, 0)

/-- Take the storage of an instruction that has to refill the registers ns, in one request, and start to read their images back: one
instruction of a partition at a time (R328). They are AWAY until that is done (R330). -/
def startRefills (i : Instr) (s : State) (v : View) (ns : List Nat) : State :=
  let busy := s.groups.any fun e => partOf e.1 == partOf v.k && e.2.holder.isSome && !(e.1 == v.k && v.holder.isSome)
  if busy then s
  else
    let d := dstStorage i v v.uses
    let s := obtainFor s v.k v.named (ns.length + d.1, d.2)
    let names := v.named
    s.modGroup v.k fun g =>
      { g with
        refills := g.refills ++ ns
        holder := some { lane := (lowestLane v.sp.mask).getD 0, named := names.regs,
                         slabs := max d.1 names.slabs, cells := max d.2 names.cells } }

/-- Whether the instruction is a delivery point that its own kind makes it (R344, R345), with the group's faults. An MWAIT with no
active lane does nothing (R237). -/
def deliveryPoint (i : Instr) (g : Group) (act : Mask) : Bool :=
  match i with
  | .fence _ _ _ | .exit _ => true
  | .mwait o =>
    let m := if o.imm = 0 then 0xFFFF#16 else o.imm.setWidth 16
    act != 0 && g.held.any fun h => h.fromHandler == g.handler && h.slots &&& m != 0
  | .tret _ => g.held.any (·.fromHandler) || g.copyFails.any (·.handler)
  | _ => false

/-- The faults that a delivery point may deliver: those of the group's mode, and at TRET the handler's failed copies too, since no
fault of the handler is carried into the program (R345). -/
def heldAt (i : Instr) (g : Group) : List HeldFault :=
  deliverable g ++ match i with
  | .tret _ => (g.copyFails.filter (·.handler)).map fun c =>
      { seq := c.seq, lane := 0, cause := causeMemfault, reason := c.reason, pc := c.pc, addr := c.addr, fromHandler := true }
  | _ => []

/-- The held fault the group delivers at this instruction, if any. -/
def delivers (v : View) (i : Instr) (u : Uses) : Option HeldFault :=
  if deliveryPoint i v.g v.act || (v.act != 0 && u.reads.any fun n => (regOf v.g n).any (·.failed)) then
    oldestHeld (heldAt i v.g)
  else none

/-- Delivery clears every held fault of the group and the marks of failed loads (R344); an ARITH that goes with them arms its counter again, as
its own delivery would (R412; DESIGN CHOICE, notes/assumptions/32.md). -/
def clearHeld (s : State) (k : Nat) : State :=
  s.modGroup k fun g =>
    let f (t : Table Reg) : Table Reg := t.map fun e => (e.1, { e.2 with failed := false })
    let arith := (g.held.filter fun h => h.fromHandler == g.handler && h.cause == causeArith).map (·.reason)
    { g with held := g.held.filter (fun h => h.fromHandler != g.handler), regs := f g.regs, hregs := f g.hregs,
             armed := (g.armed ++ arith).dedup }

/-- The instruction is held by a THAWING entry or at the slot scoreboard: a trap that its checks find later is raised as at issue
(R71). -/
def markStalled (s : State) (v : View) : State :=
  s.modGroup v.k fun g => updSplit g v.sp.mask fun p => { p with stalled := true }

/-- The issue stamp of a read: one of a waiting instruction has the place of its issue in the group's order, however late it is
(R344). -/
def issueStamp (s : State) (v : View) : Nat × State := if v.sp.wait.isSome then (v.sp.stamp, s) else s.fresh

def stampWait (s : State) (v : View) (seq : Nat) : State :=
  s.modGroup v.k fun g => updSplit g v.sp.mask fun p => { p with stamp := seq }

/-- The checks of R341 that come before the instruction's own, in its order, and the holds of the scoreboard and of
refills. An error is what the instruction does instead of its effect. Of two causes that R341 gives one place, DEADREAD comes before REGPOISON
and a slot fault before FROZEN (DESIGN CHOICE, notes/assumptions/27.md). -/
def precheck (i : Instr) (s : State) (v : View) : Except Effect State :=
  let u := v.uses
  if v.g.ending || v.g.trapEvent.isSome || v.b.phase != .running then .error (.hold s)
  else match illegalNow v i with
  | some r => .error (.trap s (atIssue v causeIllegal r))
  | none =>
  match stallReason v u with
  | some r => .error (.trap s (atIssue v causeStall r))
  | none =>
  if scoreboardHolds v.g u then .error (.hold s)
  else
  let dead := minOf (deadReads v u)
  match if v.b.flags.getLsbD 3 then dead else none with
  | some n => .error (.trap s (atIssue v causeDeadread n))
  | none =>
  match minOf (poisonedRegs i v u) with
  | some n => .error (.trap s (atIssue v causeMemfault mfRegPoison (BitVec.ofNat 64 n)))
  | none =>
  match delivers v i u with
  | some h => .error (.trap (clearHeld s v.k)
      { cause := h.cause, reason := h.reason, pc := h.pc, nextPc := v.sp.pc, addr := h.addr })
  | none =>
  match awayRegs i v u with
  | n :: ns => .error (.hold (startRefills i s v (n :: ns)))
  | [] => .ok s

/-- A dead read sets sr.dead (R324). -/
def noteDead (v : View) (s : State) : State :=
  match minOf (deadReads v v.uses) with
  | some n => s.modGroup v.k fun g => { g with dead := deadAfter g.dead n }
  | none => s

/-- The registers that a split's retry refilled are held no longer (R328). -/
def dropHolder (s : State) (v : View) : State :=
  s.modGroup v.k fun g => { g with holder := if v.holder.isSome then none else g.holder }

/-- An instruction that issues has made its dead reads; one that is held or traps without effect has not (R71, R324). One that goes on
waiting holds no registers: it has issued (R328). -/
def Effect.withDead (v : View) : Effect → Effect
  | .done s => .done (noteDead v s)
  | .goto s t r => .goto (noteDead v s) t r
  | .ends s m => .ends (noteDead v s) m
  | .trap s t => .trap (if t.completes then noteDead v s else s) t
  | .wait s w => .wait (noteDead v s) w
  | .rotates s => .rotates (noteDead v s)
  | .hold s => .hold (if v.sp.wait.isSome then dropHolder s v else s)
  | .whole s => .whole s

/-! ## What an issue leaves -/

/-- Fixed latencies (R80); none: variable. -/
def fixedLatency (opc : Nat) : Option Nat :=
  if 0x02 ≤ opc ∧ opc ≤ 0x05 then some 6
  else if opc ≤ 0x1E then some 4
  else if opc = 0x29 then some 24
  else if 0x20 ≤ opc ∧ opc ≤ 0x2A then some 6
  else if opc = 0x30 then some 16
  else if 0x31 ≤ opc ∧ opc ≤ 0x34 then some 6
  else if opc = 0x38 ∨ opc = 0x39 ∨ opc = 0x3C then some 8
  else if opc = 0x3A ∨ opc = 0x3B then some 12
  else none

/-- R80: every earlier producer is one instruction further away, and this one counts from here. An instruction that writes a
register, if only in some lanes, takes the place of its earlier producer (DESIGN CHOICE, notes/assumptions/25.md). -/
def nextProducers (opc : Nat) (o : Op) (u : Uses) (act : Mask) (ps : List Producer) : List Producer :=
  let d := o.ctl.stall.val + 1
  let w := if act = 0 then [] else u.writes ++ u.predWrites.map (128 + ·)
  let old := countOn (ps.filter fun p => !(w.contains p.reg)) d
  match fixedLatency opc with
  | some lat => old ++ w.map fun r => { reg := r, latency := lat, distance := d }
  | none => old

/-- LU releases take effect after the reads; a register that the instruction also writes was mapped again by the write and holds
the result (R71, R76, heldReg). -/
def releaseUses (s : State) (v : View) : State :=
  s.modGroup v.k fun g => releaseRegs g (v.uses.lus.filter fun n => v.act = 0 || !(v.uses.writes.contains n))

/-- The group's place after it issued: last in its level, and no longer passed over (R81, R293, R306). -/
def toBack (s : State) (k : Nat) : State :=
  let same := s.groups.filter fun e => partOf e.1 == partOf k
  let top := same.foldl (fun m e => max m e.2.rr) 0
  s.modGroup k fun g => { g with rr := top + 1, aged := false, passedSince := none }

/-- The clock at which the instruction issues: not before its STALL spacing has passed (R79). -/
def issueClk (s : State) (v : View) : Nat := max (dieClk s (dieOf v.k)) v.sp.notBefore

/-- The split's next instruction issues no earlier than STALL + 1 clocks later (R79). -/
def nextIssue (s : State) (v : View) (o : Op) : Nat := issueClk s v + o.ctl.stall.val + 1

/-- The group has issued: its turn in the round robin, its clock, the end of its holds (R328). -/
def issuedNow (s : State) (v : View) : State :=
  let s := s.setDie (dieOf v.k) fun d => { d with clk := max d.clk v.sp.notBefore }
  let s := toBack s v.k
  { s.modGroup v.k fun g => { g with holder := if v.holder.isSome then none else g.holder } with issued := true }

/-- The issue itself: run counts (R291), the deferred mark (R288), STALL spacing on the die's clock (R79). -/
def markIssue (o : Op) (v : View) (prods : List Producer) (s : State) : State :=
  let next := nextIssue s v o
  issuedNow (s.modGroup v.k fun g =>
    let busy := othersReady g v.sp.mask
    { g with
      active := g.active.map fun p =>
        if p.mask == v.sp.mask then
          { p with run := if busy then p.run + 1 else p.run, deferred := false, notBefore := next, producers := prods,
                   deadline := none, reread := false, stalled := false, page := none, denied := false, faults := 0 }
        else { p with run := 0 } }) v

/-- The end of a wait: the instruction issued before, so nothing of an issue happens but that the producers are counted past it, as
where it did not wait (R80, R289 step 4). A refill that its retry needed holds nothing any more (R328). -/
def markWaited (v : View) (prods : List Producer) (s : State) : State :=
  { (dropHolder s v).modGroup v.k fun g =>
      updSplit g v.sp.mask fun p => { p with producers := prods, reread := false } with issued := true }

/-- A trap whose record the die can take ends the group (R335, R338, R426). -/
def flushTrapEvent (s : State) (k : Nat) : State :=
  match (s.group k).bind (·.trapEvent), (s.group k).bind fun g => tget s.blocks g.blk with
  | some e, some b =>
    match post s (dieOf k) e.code b.ctx e.detail 0 with
    | some s => endGroup (s.modGroup k fun g => { g with trapEvent := none }) k
    | none => s
  | _, _ => s

/-- The write of a trap's frame comes to its lines' homes at the die's port (R360, R367, R377, R378). -/
def frameArrives (s : State) (v : View) : Target → State
  | .at key _ _ _ =>
    let a := frameAddr s v.b.ctx v.k
    let s := fillRange s (dieOf v.k) v.b.ctx a 256
    [key, key + 128].foldl (fun s key =>
      let s := comesHome s (dieOf v.k) (wayOf s (dieOf v.k) v.b.ctx a) key
      countRemote s key (remoteLeaf s key)) s
  | _ => s

/-- Take a trap: the frame's page has to be there before anything of the instruction takes effect. An instruction that completes, or that
waits, has issued, and the handler's first one keeps its STALL spacing (R79). -/
def takeTrap (s0 : State) (v : View) (insn : IWord) (s : State) (t : TrapInfo) : State :=
  match frameTarget s0 v.b v.k with
  | .missing c p => splitCalls s0 v.k v.sp.mask c p
  | target =>
    let s := frameArrives s v target
    let nb := if v.sp.wait.isSome then v.sp.notBefore else issueClk s v + t.spacing
    let s := if t.completes then releaseUses s v else s
    let s := flushTrapEvent (trapEntry s v.k v.sp.mask t insn) v.k
    let s := if t.completes || v.sp.wait.isSome then s.modGroup v.k fun g =>
      { g with active := g.active.map fun p => if p.mask == v.sp.mask then { p with notBefore := nb } else p } else s
    if v.sp.wait.isSome then { s with issued := true } else issuedNow s v

/-- The word of an instruction as stored (R45). -/
def wordOf (i : Instr) : IWord := (encode i).getD 0

/-- What the issue of an instruction leaves, given its effect (R289). s0 is the state it issued in. -/
def finish (i : Instr) (o : Op) (s0 : State) (v : View) : Effect → State
  | .hold s => s
  | .wait s w =>
    let s := if v.sp.wait.isSome then markWaited v v.sp.producers s else markIssue o v v.sp.producers s
    s.modGroup v.k fun g => settleDue (updSplit g v.sp.mask fun p => { p with wait := some w })
  | .trap s t => takeTrap s0 v (wordOf i) s { t with spacing := o.ctl.stall.val + 1 }
  | .whole s => issuedNow s v
  | .rotates s =>
    (markIssue o v [] s).modGroup v.k fun g =>
      settle (endOver (rotate (updSplit g v.sp.mask fun p => { p with pc := p.pc + 12 }) v.sp.mask))
  | .ends s m =>
    let prods := nextProducers 0xFF o v.uses 0 v.sp.producers
    let s := (markIssue o v prods s).modGroup v.k fun g => updSplit g v.sp.mask fun p => { p with pc := p.pc + 12 }
    (endLanes s v.k m).modGroup v.k settleDue
  | .goto s target rot =>
    let go (l : Nat) : DWord := if v.act.getLsbD l then target l else v.sp.pc + 12
    let parts := partsOf ((maskLanes v.sp.mask).map fun l => (l, go l))
    (markIssue o v (nextProducers 0xFF o v.uses v.act v.sp.producers) (releaseUses s v)).modGroup v.k fun g =>
      let sp := (g.active.find? fun p => p.mask == v.sp.mask).getD v.sp
      let g := if v.act = 0 then updSplit g v.sp.mask fun p => { p with pc := p.pc + 12 } else divide g sp parts
      let back := parts.filter fun p => (p.2 &&& v.act) != 0
      settleDue (if rot && v.act != 0 then back.foldl (fun g p => rotate g p.2) g else g)
  | .done s =>
    let opc := ((i.form).map (·.1)).getD 0
    let s := releaseUses s v
    let prods := nextProducers opc o v.uses v.act v.sp.producers
    (if v.sp.wait.isSome then markWaited v prods s else markIssue o v prods s).modGroup v.k fun g => settleDue (updSplit g v.sp.mask fun p => { p with pc := p.pc + 12, wait := none })

/-- What the MMP's decision is for a split that waited for it (R364): the state in which its instruction tries again. -/
def State.told (s : State) (sp : Split) : State := if sp.denied then { s with denied := sp.page.toList } else s

/-- The decision has been used. -/
def State.untold (s : State) (k : Nat) (sp : Split) : State :=
  if sp.denied then { s with denied := [] }.modGroup k fun g => updSplit g sp.mask fun p => { p with denied := false } else s

/-- A native instruction: its split, the checks, its effect on the state after the checks, and what its issue
leaves. -/
def native (i : Instr) (s : State) (body : Op → View → State → Effect) : Host.Outcome State Fault Refusal :=
  match i.fields with
  | none => .fault .noIssuingSplit
  | some (o, f) =>
    match viewOf s i o f with
    | none => .fault .noIssuingSplit
    | some v =>
      let s := s.told v.sp
      match precheck i s v with
      | .error e => .next ((finish i o s v e).untold v.k v.sp)
      | .ok s1 => .next ((finish i o s v ((body o v s1).withDead v)).untold v.k v.sp)

/-! ## Writing results -/

/-- WriteDst at a type for the active lanes (R74, R85): a register, or a pair for a 64-bit type. -/
def writeVal (s : State) (v : View) (t : Ty) (nom : Nominal) (d : Dst) (x : Nat → DWord) : State :=
  match d with
  | .vec n =>
    if t.wide then writeWide s v.k v.named v.act (nom == .uniform) 2 n fun l => (x l).setWidth 128
    else writeReg s v.k v.named v.act nom n fun l => (fillLane t (x l)).setWidth 32
  | _ => s

/-- Write a predicate in the active lanes; a write to p0 is discarded (R73, R149). -/
def writePred (s : State) (v : View) (d : Dst) (x : Nat → Bool) : State :=
  match d with
  | .pred k =>
    if k = 0 then s
    else s.modGroup v.k fun g =>
      { g with preds := g.preds.set k ((g.preds[k] &&& ~~~v.act) ||| (maskOf x &&& v.act)) }
  | _ => s

end Sys2Proof.Machine
end

