-- ==== Sys2Proof/Machine/Access.lean ====
section
/-! DEFINITION. Access.lean: what loads, stores, reservations, atomics, prefetches and signals share from issue to
completion (R207 to R226): the checks of R211 and R215, the accesses that are performed at once in a scratchpad or
window, the ones sent to a Lodge port, and how results land. -/

namespace Sys2Proof.Machine

/-! ## What becomes of a lane's access at issue (R211) -/

inductive Fate where
  /-- OWNER or ALIGN, found at issue (R343) -/
  | bad (reason : Nat)
  /-- LIMIT, held (R344) -/
  | limit
  /-- a scratchpad or the window: performed at once -/
  | here (key : Nat)
  /-- it goes to the die's Lodge port -/
  | away
deriving DecidableEq, Repr

def fateOf (s : State) (b : Block) (size : Nat) (a : DWord) : Fate :=
  if !ownerKnown a then .bad mfOwner
  else if a.toNat % size ≠ 0 then .bad mfAlign
  else match placeOf s b a with
    | .badOwner => .bad mfOwner
    | .beyond => .limit
    | .local key => .here key
    | _ => .away

/-! ## Issue -/

/-- How an instruction accesses memory. -/
structure AccessSpec where
  kind : MemKind
  size : Nat
  signed : Bool := false
  req : ReqTy := .own
  /-- `.loc` (R209) -/
  loc : Bool := false
  acq : Option Scope := none
  rel : Option Scope := none
  /-- the FROZEN reason of a write that R215 checks -/
  checked : Option Nat := none
  addr : Nat → DWord
  data : Nat → BitVec 128 := fun _ => 0
  cmp : Nat → BitVec 128 := fun _ => 0
  /-- source A is uniform -/
  uniform : Bool := false
  /-- an LDR whose one access is for every lane (R213, R217) -/
  every : Bool := false
  /-- owners the instruction itself accepts (R205) -/
  owners : DWord → Bool := fun _ => true

/-- Accesses in flight that an LDR or STC of the same lanes waits for: reservations follow program order. -/
def reservationBusy (s : State) (k : Nat) (m : Mask) : Bool :=
  (opsOf s k m).any fun o => (o.kind == .ldr || o.kind == .stc) && !o.todo.isEmpty

/-- The accesses of one lane: one, or two halves (R212). -/
def accessesOf (sp : AccessSpec) (l : Nat) : List Access :=
  let a := sp.addr l
  let lo : Access := { lane := l, addr := a, data := (sp.data l).setWidth 64, cmp := (sp.cmp l).setWidth 64, every := sp.every }
  if sp.size = 16 then [lo, { lo with part := 1, addr := a + 8, data := (sp.data l >>> 64).setWidth 64 }] else [lo]

/-- What the issue of an access has collected so far. -/
structure Issued where
  s : State
  got : List (Nat × Nat × DWord × Word) := []
  bad : List (Nat × Nat × DWord) := []
  todo : List Access := []

/-- The lanes at or above l write the same bytes: only the highest of them is seen (R214). -/
def shadowed (sp : AccessSpec) (act : Mask) (l : Nat) : Bool :=
  sp.kind == .store && (maskLanes act).any fun j => l < j && sp.addr j == sp.addr l

/-- What lanes m come to know of by an access at a key in a scratchpad or window, and others by it (R384). -/
def noteHere (s : State) (k : Nat) (kind : MemKind) (m : Mask) (key : Nat) : State :=
  let s := if kind.reads then noteRead s k m (lineOf key) else s
  if isWrite kind then noteEarly s k s.nextId m (lineOf key) else s

/-- Accesses at a key known at issue, of lanes m. -/
def issueHere (v : View) (sp : AccessSpec) (key : Nat) (m : Mask) (l : Nat) (acc : Issued) : Issued :=
  (accessesOf sp l).foldl (fun acc x =>
    let (r, s) := performKey (noteHere acc.s v.k sp.kind m (key + 8 * x.part)) v.k v.b.ctx sp.kind sp.size x (key + 8 * x.part) 0
    match r with
    | some (w, t) => { acc with s := s, got := acc.got ++ [(l, x.part, w, t)] }
    | none => { acc with s := s, bad := acc.bad ++ [(l, mfPoison, sp.addr l)] }) acc

/-- Lanes m read a line in L1: they see the core's stores to it before these are performed, and come to know of them (R384, R388). -/
def readEarly (s : State) (k : Nat) (m : Mask) (a : DWord) : State :=
  let s := (pendingOn s (coreOf k) a).foldl (fun s e => noteEarly s e.1.grp e.1.seq (1#64 <<< e.2.lane) (lineInPage a)) s
  let s := (forwardedOn s (coreOf k) a).foldl (fun s f =>
    (s.reqs.filter fun (o : MemOp) => o.id == f.op).foldl (fun s o =>
      noteEarly s o.grp o.seq (1#64 <<< f.lane) (lineInPage a)) s) s
  noteRead s k m (lineInPage a)

/-- A load that L1 serves: the line is present, nothing of the core is under way to it but stores that it shows already (R369), and L1
still keeps it. A replica serves also an access to a peer's line (R359, R400). -/
def l1Serves (v : View) (sp : AccessSpec) (m : Mask) (a : DWord) (s : State) : Option (List Byte) × State :=
  if sp.kind == .load && (sp.req == .own || sp.req == .si) && (pendingOn s (coreOf v.k) a).all fun e => sureStore s e.1 e.2 then
    match l1Find s (coreOf v.k) v.b.ctx a with
    | some line =>
      let (w, s) := s.draw
      if w.getLsbD 0 then (some ((line.bytes.drop (a.toNat % 128)).take sp.size), readEarly s v.k m a)
      else (none, l1DropAll s (coreOf v.k) a)
    | none => (none, s)
  else (none, s)

/-- Accesses that go to the port, or that L1 serves. -/
def issueAway (v : View) (sp : AccessSpec) (m : Mask) (l : Nat) (acc : Issued) : Issued :=
  let a := sp.addr l
  let frozen := isFrozen acc.s (dieOf v.k) v.b.ctx a
  let (hit, s) := l1Serves v sp m a acc.s
  match hit with
  | some bs => { acc with s := s, got := acc.got ++ [(l, 0, BitVec.ofNat 64 (leNat (bs.take 8)), 0), (l, 1, BitVec.ofNat 64 (leNat (bs.drop 8)), 0)] }
  | none =>
    let s := if sp.kind == .store then l1Store s (coreOf v.k) v.b.ctx a (leBytes sp.size (sp.data l).toNat)
      else match sp.kind with
        | .prf _ _ | .wbl => s
        | _ => l1DropAll s (coreOf v.k) a
    { acc with s := s, todo := acc.todo ++ (accessesOf sp l).map fun x => { x with frozen := if frozen then some true else none } }

/-- One lane at issue, or all of them where one access serves all. An LDR gives up the lane's reservation, and an STC that fails does
(R218, R219). An STC lane without its reservation, or on an owner that grants none, is false at once (R219). -/
def issueLane (v : View) (sp : AccessSpec) (all : Bool) (acc : Issued) (l : Nat) : Issued :=
  let a := sp.addr l
  let gives (s : State) : State :=
    if all then (List.range 64).foldl (fun s l => clearReservation s v.k l) s else clearReservation s v.k l
  let acc := if sp.kind == .ldr then { acc with s := gives acc.s } else acc
  if shadowed sp v.act l then acc
  else match fateOf acc.s v.b sp.size a with
    | .bad _ => acc
    | .limit => { acc with s := if sp.kind == .stc then gives acc.s else acc.s, bad := acc.bad ++ [(l, mfLimit, a)] }
    | .here key => issueHere v sp key (if all then v.act else 1#64 <<< l) l acc
    | .away =>
      if sp.kind == .stc && (!grantsReservation a || !reserved acc.s v.k l a sp.size) then
        { acc with s := gives acc.s, got := acc.got ++ [(l, 0, 0, 0)] }
      else issueAway v sp (if all then v.act else 1#64 <<< l) l acc

/-- The lanes that R343 traps for, with reason and address. -/
def badLanes (s : State) (v : View) (sp : AccessSpec) : List (Nat × Nat × DWord) :=
  (maskLanes v.act).filterMap fun l =>
    if !sp.owners (sp.addr l) then some (l, mfOwner, sp.addr l)
    else match fateOf s v.b sp.size (sp.addr l) with
      | .bad r => some (l, r, sp.addr l)
      | _ => none

/-- What lane l of m registers from vn on holds before the instruction writes them; storage that a write of all lanes takes anew reads
zero (R317, R318). -/
def keptValue (v : View) (m n l : Nat) : BitVec 128 :=
  let piece (i : Nat) : Word := match heldReg v.g v.named (n + i) with
    | some r => if r.away && v.act == fullMask then 0 else r.val.lane l
    | none => 0
  (List.range m).foldl (fun x i => x ||| ((piece i).setWidth 128 <<< (32 * i))) 0

/-- Registers or predicate of the result at issue: what is known is written, the rest is under way (R213). Until its value arrives, a
lane of an atomic's destination is as it was, and a lane whose access fails later stays so (R344); one of zeroed, which OWNER or ALIGN
stops, is zero (R343). -/
def issueResult (v : View) (o : Op) (sp : AccessSpec) (uni : Bool) (zeroed : List Nat) (acc : Issued) (s : State) : State :=
  match o.dst with
  | .vec n =>
    let m := resultRegs sp.kind sp.size
    writeWide s v.k v.named v.act uni m n fun l =>
      if sp.kind.isLoad || acc.got.any (·.1 == l) || zeroed.contains l then resultValue sp.kind sp.size sp.signed acc.got l else keptValue v m n l
  | .pred _ => writePred s v o.dst fun l => (gotValue acc.got l) == 1
  | .none => s

/-- The order in which the lanes are served at issue: none is stated for the lanes of an atomic (R224), so those that are performed at
once come in a free order. -/
def laneOrder (v : View) (sp : AccessSpec) (lanes : List Nat) (s : State) : List Nat × State :=
  let here (l : Nat) : Bool := match fateOf s v.b sp.size (sp.addr l) with | .here _ => true | _ => false
  match sp.kind with
  | .atom _ _ _ =>
    let r := shuffle lanes.length (lanes.filter here) s
    (r.1 ++ lanes.filter fun l => !here l, r.2)
  | _ => (lanes, s)

/-- The whole issue of a memory instruction whose lanes passed R215. -/
def issueAccess (v : View) (o : Op) (sp : AccessSpec) (s : State) : Effect :=
  let uni := sp.kind.isLoad && sp.uniform && v.act == fullMask
  let bads := badLanes s v sp
  let lanes := (maskLanes v.act).filter fun l => !(bads.any fun x => x.1 == l)
  let (lanes, s) := laneOrder v sp lanes s
  -- bad lanes of an STC give up their reservations like the others (R219)
  let s := if sp.kind == .stc then bads.foldl (fun s x => clearReservation s v.k x.1) s else s
  let acc := (if uni then lanes.take 1 else lanes).foldl (issueLane v { sp with every := uni && sp.kind == .ldr } uni) { s := s }
  let (id, s) := acc.s.fresh
  let s := issueResult v o sp uni (bads.map (·.1)) acc s
  let regs : Nat := match o.dst with | .vec n => n.val | _ => 0
  let s :=
    if acc.todo.isEmpty then
      let s := holdFaults s v.k id v.sp.pc v.g.handler acc.bad
      let s := match sp.acq with | some sc => acquireAt s (coreOf v.k) sc | none => s
      match o.dst with
      | .vec _ => if acc.bad.isEmpty || !sp.kind.isLoad then s else markFailed s v.k v.g.handler regs (resultRegs sp.kind sp.size)
      | _ => s
    else
      let op : MemOp :=
        { id := id, grp := v.k, seq := id, pc := v.sp.pc, handler := v.g.handler, ctx := v.b.ctx, port := dieOf v.k,
          kind := sp.kind, size := sp.size, signed := sp.signed, req := sp.req, loc := sp.loc, acq := sp.acq, mask := v.act,
          dst := o.dst, uniform := uni, todo := acc.todo, got := acc.got, bad := acc.bad }
      { s with reqs := s.reqs ++ [op] }.modGroup v.k fun g =>
        { g with flight := g.flight ++ flightsOf g.handler sp.kind sp.size o.dst }
  match bads with
  | [] => .done s
  | (_, r, a) :: _ => .trap s (afterIssue v causeMemfault r a)

/-- A memory instruction: nothing without active lanes; it waits behind an acquiring atomic of its lanes, for the
accesses it releases, and for reservations under way; then R215, then its issue. After a THAWING entry has held it, the traps of R343
are raised as at issue, with no effect (R71). -/
def access (v : View) (o : Op) (sp : AccessSpec) (s : State) : Effect :=
  if v.act = 0 then .done s
  else if acquirePending s v.k v.act then .hold s
  else if !(match sp.rel with | some sc => fenceReady s v.k v.act .rel sc | none => true) then .hold s
  else if (sp.kind == .ldr || sp.kind == .stc) && reservationBusy s v.k v.act then .hold s
  else
    let s := match sp.rel with | some sc => shareWrites s v.k v.act sc | none => s
    match sp.checked with
    | none => issueAccess v o sp s
    | some reason =>
      let as := ((maskLanes v.act).map sp.addr).filter fun a => fateOf s v.b sp.size a == .away && ownerOf a == 0
      match frozenCheck s (dieOf v.k) v.b.ctx as with
      | .frozen a => .trap s (atIssue v causeFrozen reason a)
      | .stall => .hold (markStalled s v)
      | .clear =>
        match if v.sp.stalled then badLanes s v sp else [] with
        | (_, r, a) :: _ => .trap s (atIssue v causeMemfault r a)
        | [] => issueAccess v o sp s

end Sys2Proof.Machine
end

