-- ==== Sys2Proof/Machine/Integer.lean ====
section
/-! DEFINITION. Integer.lean: OPC 0x00 to 0x1E: integer arithmetic, logic, comparison, predicates and shapes
(spec/07_isa_integer.md). -/

namespace Sys2Proof.Machine

/-! ## Nominal shapes (R132, R133) -/

/-- Steps 2 to 4 of R132: uniform sources, else the affine row of R133 at a 32-bit integer type, else general. -/
def nominalOf (uni : Bool) (t : Ty) (row : Option (Word × Word)) : Nominal :=
  if uni then .uniform
  else if t == .b32 || t == .i32 then Nominal.ofPair row
  else .general

def affAdd (x y : Option (Word × Word)) : Option (Word × Word) :=
  x.bind fun a => y.map fun b => (a.1 + b.1, a.2 + b.2)

def affSub (x y : Option (Word × Word)) : Option (Word × Word) :=
  x.bind fun a => y.map fun b => (a.1 - b.1, a.2 - b.2)

def affShl (k : Nat) (p : Word × Word) : Word × Word := (p.1 <<< k, p.2 <<< k)

/-- One operand uniform, the other affine: base and stride times the uniform value (R133). -/
def affMul (g : Group) (o : Op) : Option (Word × Word) :=
  let scale (u : Src) (x : Src) : Option (Word × Word) :=
    (srcAffine g o.imm x).map fun p => (p.1 * srcB32 g o.imm u 0, p.2 * srcB32 g o.imm u 0)
  if srcUniform g o.ty o.b then scale o.b o.a
  else if srcUniform g o.ty o.a then scale o.a o.b
  else none

def uni2 (g : Group) (o : Op) : Bool := srcUniform g o.ty o.a && srcUniform g o.ty o.b

def uni3 (g : Group) (o : Op) : Bool := uni2 g o && srcUniform g o.ty o.c

/-! ## Shared forms -/

/-- A result per lane from sources A and B at the type, element by element. -/
def int2 (o : Op) (v : View) (s : State) (row : Option (Word × Word)) (f : Nat → Nat → Nat) : Effect :=
  .done (writeVal s v o.ty (nominalOf (uni2 v.g o) o.ty row) o.dst fun l =>
    onElems2 o.ty f (srcAt v.g o.ty o.imm o.a l) (srcAt v.g o.ty o.imm o.b l))

/-- A result per lane from source A at the type, element by element. -/
def int1 (o : Op) (v : View) (s : State) (row : Option (Word × Word)) (f : Nat → Nat) : Effect :=
  .done (writeVal s v o.ty (nominalOf (srcUniform v.g o.ty o.a) o.ty row) o.dst fun l =>
    onElems1 o.ty f (srcAt v.g o.ty o.imm o.a l))

/-- A shift or rotation: the count is source B read as b32 (R131). -/
def shift (o : Op) (v : View) (s : State) (row : Option (Word × Word)) (f : Nat → Nat → Nat) : Effect :=
  let uni := srcUniform v.g o.ty o.a && srcUniform v.g .b32 o.b
  .done (writeVal s v o.ty (nominalOf uni o.ty row) o.dst fun l =>
    let k := (srcB32 v.g o.imm o.b l).toNat
    onElems1 o.ty (fun a => f a k) (srcAt v.g o.ty o.imm o.a l))

/-! ## Arithmetic (R136, R137) -/

def execIadd (satur : Bool) (o : Op) (s : State) : Host.Outcome State Fault Refusal :=
  native (.iadd satur o) s fun o v s =>
    let w := elemBits o.ty; let sg := o.ty.signed
    int2 o v s (if satur then none else affAdd (srcAffine v.g o.imm o.a) (srcAffine v.g o.imm o.b))
      fun a b => narrow satur sg w (readInt sg w a + readInt sg w b)

def execIsub (satur : Bool) (o : Op) (s : State) : Host.Outcome State Fault Refusal :=
  native (.isub satur o) s fun o v s =>
    let w := elemBits o.ty; let sg := o.ty.signed
    int2 o v s (if satur then none else affSub (srcAffine v.g o.imm o.a) (srcAffine v.g o.imm o.b))
      fun a b => narrow satur sg w (readInt sg w a - readInt sg w b)

def execImin (o : Op) (s : State) : Host.Outcome State Fault Refusal :=
  native (.imin o) s fun o v s =>
    let w := elemBits o.ty; let sg := o.ty.signed
    int2 o v s none fun a b => if readInt sg w a ≤ readInt sg w b then a else b

def execImax (o : Op) (s : State) : Host.Outcome State Fault Refusal :=
  native (.imax o) s fun o v s =>
    let w := elemBits o.ty; let sg := o.ty.signed
    int2 o v s none fun a b => if readInt sg w b ≤ readInt sg w a then a else b

def execIabs (o : Op) (s : State) : Host.Outcome State Fault Refusal :=
  native (.iabs o) s fun o v s =>
    let w := elemBits o.ty
    int1 o v s none fun a => wrap w (toSigned w a).natAbs

def execIneg (o : Op) (s : State) : Host.Outcome State Fault Refusal :=
  native (.ineg o) s fun o v s =>
    let w := elemBits o.ty
    int1 o v s ((srcAffine v.g o.imm o.a).map fun p => (-p.1, -p.2)) fun a => wrap w (-(a : Int))

/-! ## Multiplication (R138, R139) -/

def execImul (o : Op) (s : State) : Host.Outcome State Fault Refusal :=
  native (.imul o) s fun o v s =>
    let w := elemBits o.ty; let sg := o.ty.signed
    int2 o v s (affMul v.g o) fun a b => wrap w (readInt sg w a * readInt sg w b)

def execImulh (o : Op) (s : State) : Host.Outcome State Fault Refusal :=
  native (.imulh o) s fun o v s =>
    let w := elemBits o.ty; let sg := o.ty.signed
    int2 o v s none fun a b => wrap (2 * w) (readInt sg w a * readInt sg w b) / 2 ^ w

def execImad (satur : Bool) (o : Op) (s : State) : Host.Outcome State Fault Refusal :=
  native (.imad satur o) s fun o v s =>
    let w := elemBits o.ty; let sg := o.ty.signed
    let row := if satur then none else affAdd (affMul v.g o) (srcAffine v.g o.imm o.c)
    .done (writeVal s v o.ty (nominalOf (uni3 v.g o) o.ty row) o.dst fun l =>
      onElems3 o.ty (fun a b c => narrow satur sg w (readInt sg w a * readInt sg w b + readInt sg w c))
        (srcAt v.g o.ty o.imm o.a l) (srcAt v.g o.ty o.imm o.b l) (srcAt v.g o.ty o.imm o.c l))

/-- C and the result are 64-bit (R139). -/
def execImadw (o : Op) (s : State) : Host.Outcome State Fault Refusal :=
  native (.imadw o) s fun o v s =>
    let sg := o.ty.signed
    let tc := if o.ty == .i32 then Ty.i64 else .b64
    let uni := uni2 v.g o && srcUniform v.g tc o.c
    .done (writeVal s v .b64 (if uni then .uniform else .general) o.dst fun l =>
      let a := readInt sg 32 (srcAt v.g o.ty o.imm o.a l).toNat
      let b := readInt sg 32 (srcAt v.g o.ty o.imm o.b l).toNat
      BitVec.ofNat 64 (wrap 64 (a * b + (srcAt v.g tc o.imm o.c l).toNat)))

/-! ## Logic (R140, R141) -/

/-- A bitwise result of A and B over the whole operand. -/
def logic2 (o : Op) (v : View) (s : State) (f : DWord → DWord → DWord) : Effect :=
  .done (writeVal s v o.ty (nominalOf (uni2 v.g o) o.ty none) o.dst fun l =>
    f (srcAt v.g o.ty o.imm o.a l) (srcAt v.g o.ty o.imm o.b l))

def execAnd (o : Op) (s : State) : Host.Outcome State Fault Refusal :=
  native (.and o) s fun o v s => logic2 o v s fun a b => a &&& b

def execOr (o : Op) (s : State) : Host.Outcome State Fault Refusal :=
  native (.or o) s fun o v s => logic2 o v s fun a b => a ||| b

def execXor (o : Op) (s : State) : Host.Outcome State Fault Refusal :=
  native (.xor o) s fun o v s => logic2 o v s fun a b => a ^^^ b

def execAndn (o : Op) (s : State) : Host.Outcome State Fault Refusal :=
  native (.andn o) s fun o v s => logic2 o v s fun a b => a &&& ~~~b

def execNot (o : Op) (s : State) : Host.Outcome State Fault Refusal :=
  native (.not o) s fun o v s =>
    .done (writeVal s v o.ty
      (nominalOf (srcUniform v.g o.ty o.a) o.ty ((srcAffine v.g o.imm o.a).map fun p => (~~~p.1, -p.2)))
      o.dst fun l => truncTo o.ty (~~~(srcAt v.g o.ty o.imm o.a l)))

/-- Bit k = a + 2b + 4c of the table, for each bit position (R141). -/
def bool3 (table : Word) (a b c : DWord) : DWord :=
  let pick (k : Nat) (x y z : Bool) : DWord :=
    if table.getLsbD k then
      (if x then a else ~~~a) &&& (if y then b else ~~~b) &&& (if z then c else ~~~c)
    else 0
  pick 0 false false false ||| pick 1 true false false ||| pick 2 false true false ||| pick 3 true true false |||
  pick 4 false false true ||| pick 5 true false true ||| pick 6 false true true ||| pick 7 true true true

def execBool3 (o : Op) (s : State) : Host.Outcome State Fault Refusal :=
  native (.bool3 o) s fun o v s =>
    .done (writeVal s v o.ty (nominalOf (uni3 v.g o) o.ty none) o.dst fun l =>
      truncTo o.ty (bool3 o.imm (srcAt v.g o.ty o.imm o.a l) (srcAt v.g o.ty o.imm o.b l) (srcAt v.g o.ty o.imm o.c l)))

/-! ## Shifts, funnels, rotations (R142 to R144) -/

def execShl (o : Op) (s : State) : Host.Outcome State Fault Refusal :=
  native (.shl o) s fun o v s =>
    let w := elemBits o.ty
    let k := (srcB32 v.g o.imm o.b 0).toNat
    let row := if srcUniform v.g .b32 o.b then (srcAffine v.g o.imm o.a).map (affShl k) else none
    shift o v s row fun a k => if w ≤ k then 0 else a * 2 ^ k % 2 ^ w

def execShr (o : Op) (s : State) : Host.Outcome State Fault Refusal :=
  native (.shr o) s fun o v s =>
    let w := elemBits o.ty
    shift o v s none fun a k => if w ≤ k then 0 else a / 2 ^ k

def execSar (o : Op) (s : State) : Host.Outcome State Fault Refusal :=
  native (.sar o) s fun o v s =>
    let w := elemBits o.ty
    shift o v s none fun a k => wrap w (toSigned w a / 2 ^ min k w)

def funnel (dir : FunnelDir) (hi lo : Word) (count : Nat) : Word :=
  let x := hi ++ lo
  match dir with
  | .l => (x <<< min count 32).extractLsb' 32 32
  | .r => (x >>> min count 32).extractLsb' 0 32
  | .lw => (x <<< (count % 32)).extractLsb' 32 32
  | .rw => (x >>> (count % 32)).extractLsb' 0 32

def execFunnel (dir : FunnelDir) (o : Op) (s : State) : Host.Outcome State Fault Refusal :=
  native (.funnel dir o) s fun o v s =>
    .done (writeVal s v .b32 (nominalOf (uni3 v.g o) .b32 none) o.dst fun l =>
      (funnel dir (srcB32 v.g o.imm o.a l) (srcB32 v.g o.imm o.b l) (srcB32 v.g o.imm o.c l).toNat).setWidth 64)

def execRot (right : Bool) (o : Op) (s : State) : Host.Outcome State Fault Refusal :=
  native (.rot right o) s fun o v s =>
    let w := elemBits o.ty
    shift o v s none fun a k =>
      let k := if right then (w - k % w) % w else k % w
      a * 2 ^ k % 2 ^ w + a / 2 ^ (w - k)

/-! ## Bit counts and fields (R145 to R147) -/

def popcount (w x : Nat) : Nat := ((List.range w).filter fun i => x.testBit i).length

def leadingZeros (w x : Nat) : Nat := if x = 0 then w else w - 1 - Nat.log2 x

def reverseBits (w x : Nat) : Nat := (List.range w).foldl (fun r i => 2 * r + (if x.testBit i then 1 else 0)) 0

/-- CLZ and POPC write one register, for b64 too (R145). -/
def countBits (o : Op) (v : View) (s : State) (f : Nat → Nat → Nat) : Effect :=
  .done (writeVal s v .b32 (nominalOf (srcUniform v.g o.ty o.a) .b64 none) o.dst fun l =>
    BitVec.ofNat 64 (f o.ty.bits (srcAt v.g o.ty o.imm o.a l).toNat))

def execClz (o : Op) (s : State) : Host.Outcome State Fault Refusal :=
  native (.clz o) s fun o v s => countBits o v s leadingZeros

def execPopc (o : Op) (s : State) : Host.Outcome State Fault Refusal :=
  native (.popc o) s fun o v s => countBits o v s popcount

def execBrev (o : Op) (s : State) : Host.Outcome State Fault Refusal :=
  native (.brev o) s fun o v s => int1 o v s none (reverseBits (elemBits o.ty))

/-- Position and length from a control word, cut to the width (R146). -/
def fieldOf (w : Nat) (ctl : Nat) : Nat × Nat :=
  let pos := ctl % 256; let len := ctl / 256 % 256
  (pos, if w ≤ pos then 0 else min len (w - pos))

def bfe (signed : Bool) (w a ctl : Nat) : Nat :=
  let (pos, len) := fieldOf w ctl
  if len = 0 then 0 else wrap w (readInt signed len (a / 2 ^ pos % 2 ^ len))

def execBfe (o : Op) (s : State) : Host.Outcome State Fault Refusal :=
  native (.bfe o) s fun o v s => shift o v s none fun a ctl => bfe o.ty.signed (elemBits o.ty) a ctl

def bfi (w base field ctl : Nat) : Nat :=
  let (pos, len) := fieldOf w ctl
  if len = 0 then base
  else base % 2 ^ pos + 2 ^ pos * (field % 2 ^ len) + base / 2 ^ (pos + len) * 2 ^ (pos + len)

def execBfi (o : Op) (s : State) : Host.Outcome State Fault Refusal :=
  native (.bfi o) s fun o v s =>
    let uni := uni2 v.g o && srcUniform v.g .b32 o.c
    .done (writeVal s v o.ty (nominalOf uni o.ty none) o.dst fun l =>
      BitVec.ofNat 64 (bfi o.ty.bits (srcAt v.g o.ty o.imm o.a l).toNat (srcAt v.g o.ty o.imm o.b l).toNat
        (srcB32 v.g o.imm o.c l).toNat))

/-! ## Selection and comparison (R148, R149) -/

def execIsel (o : Op) (s : State) : Host.Outcome State Fault Refusal :=
  native (.isel o) s fun o v s =>
    let nom := if srcUniform v.g .b32 o.c then sourceNominal v.g o.ty o.imm (chosenSrc v.g o 0) else .general
    .done (writeVal s v o.ty nom o.dst fun l => srcAt v.g o.ty o.imm (chosenSrc v.g o l) l)

def execIcmp (cond : Cond) (comb : Comb) (o : Op) (s : State) : Host.Outcome State Fault Refusal :=
  native (.icmp cond comb o) s fun o v s =>
    let w := o.ty.bits; let sg := o.ty.signed
    .done (writePred s v o.dst fun l =>
      combine comb
        (condHolds cond (readInt sg w (srcAt v.g o.ty o.imm o.a l).toNat) (readInt sg w (srcAt v.g o.ty o.imm o.b l).toNat))
        (srcPred v.g o.c l))

/-! ## Addresses and moves (R150 to R152) -/

def execLea (t : Fin 8) (o : Op) (s : State) : Host.Outcome State Fault Refusal :=
  native (.lea t o) s fun o v s =>
    let uni := srcUniform v.g o.ty o.a && srcUniform v.g .b32 o.b
    let row := affAdd (srcAffine v.g o.imm o.a)
      ((srcAffine v.g o.imm o.b).map fun p => ((affShl t.val p).1 + o.imm, (affShl t.val p).2))
    .done (writeVal s v o.ty (nominalOf uni o.ty row) o.dst fun l =>
      let a := srcAt v.g o.ty o.imm o.a l
      let b := srcB32 v.g o.imm o.b l
      match o.ty with
      | .b32 => ((a.setWidth 32 + (b <<< t.val) + o.imm).setWidth 64 : DWord)
      | .i64 => a + (b.signExtend 64 <<< t.val) + o.imm.signExtend 64
      | _ => a + (b.setWidth 64 <<< t.val) + o.imm.signExtend 64)

def execMov (o : Op) (s : State) : Host.Outcome State Fault Refusal :=
  native (.mov o) s fun o v s =>
    .done (writeVal s v o.ty (sourceNominal v.g o.ty o.imm o.a) o.dst fun l => srcAt v.g o.ty o.imm o.a l)

def execMovi (o : Op) (s : State) : Host.Outcome State Fault Refusal :=
  native (.movi o) s fun o v s =>
    .done (writeVal s v o.ty .uniform o.dst fun _ => immValue o.ty o.imm)

def execIcvt (satur : Bool) (src : Ty) (o : Op) (s : State) : Host.Outcome State Fault Refusal :=
  native (.icvt satur src o) s fun o v s =>
    .done (writeVal s v o.ty (if srcUniform v.g src o.a then .uniform else .general) o.dst fun l =>
      BitVec.ofNat 64 (narrow satur o.ty.signed o.ty.bits
        (readInt src.signed src.bits (srcAt v.g src o.imm o.a l).toNat)))

/-! ## Predicates (R153, R154) -/

def execPlop (op1 : Logic) (op2 : Option Logic) (o : Op) (s : State) : Host.Outcome State Fault Refusal :=
  native (.plop op1 op2 o) s fun o v s =>
    .done (writePred s v o.dst fun l =>
      let x := logicOp op1 (srcPred v.g o.a l) (srcPred v.g o.b l)
      match op2 with
      | some f => logicOp f x (srcPred v.g o.c l)
      | none => x)

def execPcnt (o : Op) (s : State) : Host.Outcome State Fault Refusal :=
  native (.pcnt o) s fun o v s =>
    let n := maskCount (v.act &&& maskOf fun l => srcPred v.g o.a l)
    .done (writeVal s v .b32 .uniform o.dst fun _ => BitVec.ofNat 64 n)

/-! ## Shapes (R155 to R157) -/

/-- The code of R155. An AWAY register reports SHAPE 3. -/
def shapeCode (r : Option Reg) : Nat :=
  match r with
  | none => 0
  | some r =>
    let shape := match r.val with | .uniform _ => 1 | .affine _ _ => 2 | .general _ => 3
    shape + (if r.away then 4 else 0) + (if r.pend then 8 else 0)

def execShapeq (o : Op) (s : State) : Host.Outcome State Fault Refusal :=
  native (.shapeq o) s fun o v s =>
    let n := match o.a.sel with | .reg n => n.val | _ => 0
    .done (writeVal s v .b32 .uniform o.dst fun _ => BitVec.ofNat 64 (shapeCode (regOf v.g n)))

/-- A write of all 64 lanes whatever lanes are active, if some lane is (R156). -/
def writeAll (s : State) (v : View) (t : Ty) (nom : Nominal) (d : Dst) (x : Nat → DWord) : Effect :=
  if v.act = 0 then .done s else .done (writeVal s { v with act := fullMask } t nom d x)

def execForceu (o : Op) (s : State) : Host.Outcome State Fault Refusal :=
  native (.forceu o) s fun o v s =>
    let f := (lowestLane v.act).getD 0
    writeAll s v o.ty .uniform o.dst fun _ => srcAt v.g o.ty o.imm o.a f

def execMkaff (o : Op) (s : State) : Host.Outcome State Fault Refusal :=
  native (.mkaff o) s fun o v s =>
    let f := (lowestLane v.act).getD 0
    let b := srcB32 v.g o.imm o.a f
    let st := srcB32 v.g o.imm o.b f
    writeAll s v .b32 (.affine b st) o.dst fun l => (b + st * BitVec.ofNat 32 l).setWidth 64

def execMkgen (o : Op) (s : State) : Host.Outcome State Fault Refusal :=
  native (.mkgen o) s fun o v s => writeAll s v o.ty .general o.dst fun l => srcAt v.g o.ty o.imm o.a l

/-- VKILL has no effect beside its release, which LU makes (R157). -/
def execVkill (o : Op) (s : State) : Host.Outcome State Fault Refusal :=
  native (.vkill o) s fun _ _ s => .done s

end Sys2Proof.Machine
end

