-- ==== Sys2Proof/Machine/Apf.lean ====
section
/-! DEFINITION. Apf.lean: what APF records hold, which kernels are malformed, and what the translator keeps of a kernel (R48 to R64).
Translated.lean runs it. -/

namespace Sys2Proof.Machine

/-! ## Records (R60, R61, R63) -/

structure ApfRec where
  opc : Nat
  fn : Nat
  ty : Nat
  gn : Bool
  grd : Nat
  dst : Nat
  sa : Nat
  sb : Nat
  sc : Nat
  /-- the reserved bits of an instruction record -/
  reserved : Bool
  raw : Nat
deriving DecidableEq, Repr

def apfRecOf (n : Nat) : ApfRec :=
  { opc := n % 128, fn := n / 2 ^ 7 % 64, ty := n / 2 ^ 13 % 32, gn := n / 2 ^ 18 % 2 == 1, grd := n / 2 ^ 20 % 2 ^ 18,
    dst := n / 2 ^ 38 % 2 ^ 18, sa := n / 2 ^ 56 % 2 ^ 20, sb := n / 2 ^ 76 % 2 ^ 20, sc := n / 2 ^ 96 % 2 ^ 20,
    reserved := n / 2 ^ 19 % 2 == 1 || n / 2 ^ 116 % 2 ^ 12 != 0, raw := n }

def ApfRec.structural (r : ApfRec) : Bool := r.opc == 0x7F

/-- The bits of a structure record that its kind does not list (R63). -/
def ApfRec.bare (r : ApfRec) (lo hi : Nat) : Bool := r.raw / 2 ^ 13 % 2 ^ (lo - 13) == 0 && r.raw / 2 ^ hi == 0

/-- The item a record stands in: its number, whether it is a loop, and the segment (R48, R50). -/
structure ApfItem where
  num : Nat
  loop : Bool
  seg : Nat
deriving DecidableEq, Repr

/-- An instruction record with its immediate and its place. -/
structure ApfInstr where
  ix : Nat
  rec' : ApfRec
  imm : Word
  /-- an IMM record follows it -/
  hasImm : Bool
  item : ApfItem
deriving DecidableEq, Repr

/-! ## Structure (R48, R50, R62, R63) -/

/-- An IMM record. -/
def ApfRec.isImm (r : ApfRec) : Bool := r.structural && r.fn == 7

/-- Records with their numbers, each with the IMM record that follows it. -/
def apfPairs : List ApfRec → Nat → List (Nat × ApfRec × Option ApfRec)
  | r :: m :: rs, ix =>
    if m.isImm then (ix, r, some m) :: apfPairs rs (ix + 2) else (ix, r, none) :: apfPairs (m :: rs) (ix + 1)
  | [r], ix => [(ix, r, none)]
  | [], _ => []

def inLoop (item : Option ApfItem) : Bool := (item.map (·.loop)).getD false

/-- What the records hold: the instructions, and the iteration registers of loops; none: malformed. -/
def apfItems : List (Nat × ApfRec × Option ApfRec) → Option ApfItem → Nat → Option (List ApfInstr × List (Nat × ApfItem))
  | [], _, _ => none
  | (ix, r, m) :: rs, item, count =>
    if r.structural then
      if m.isSome then none
      else if r.fn = 2 then
        if rs.isEmpty && r.bare 14 13 && !(inLoop item) && count != 0 then some ([], []) else none
      else if r.fn = 3 then
        if r.bare 14 13 && !(inLoop item) then
          apfItems rs (some { num := count + 1, loop := false, seg := 0 }) (count + 1)
        else none
      else if r.fn = 4 then
        let it : ApfItem := { num := count + 1, loop := true, seg := 0 }
        if r.bare 38 56 && !(inLoop item) then
          (apfItems rs (some it) (count + 1)).map fun x => (x.1, (r.dst, it) :: x.2)
        else none
      else if r.fn = 5 then
        if r.bare 14 13 && inLoop item then apfItems rs none count else none
      else if r.fn = 6 then
        if r.bare 14 13 && inLoop item then apfItems rs (item.map fun x => { x with seg := x.seg + 1 }) count else none
      else none
    else
      match item with
      | none => none
      | some it =>
        let imm := (m.map fun m => m.raw / 2 ^ 96).getD 0
        if (m.map fun m => m.raw / 2 ^ 13 % 2 ^ 83 != 0).getD false then none
        else (apfItems rs item count).map fun x => ({ ix := ix, rec' := r, imm := BitVec.ofNat 32 imm, hasImm := m.isSome, item := it } :: x.1, x.2)

/-! ## One instruction record against the native instruction (R55, R64) -/

abbrev ApfKinds := List (Nat × ApfKind)

def kindOf (ks : ApfKinds) (n : Nat) : Option ApfKind := (ks.find? fun e => e.1 == n).map (·.2)

/-- The native sources a field may stand for: %0 is p0, or the value 1 where a predicate cannot stand (R52). -/
def apfSrc (ks : ApfKinds) (f : Nat) : List Src :=
  let neg := f / 2 ^ 19 == 1
  let n := f % 2 ^ 18
  let s (sel : Sel) : Src := { sel := sel, neg := neg, lu := false }
  if f / 2 ^ 18 % 2 = 1 then
    match n with
    | 8 => [s .zero] | 9 => [s .imm] | 10 => [s .fimm] | 11 => [s .lane] | _ => []
  else if n = 0 then [s (.pred 0), s (.reg 0)]
  else match kindOf ks n with
    | some .pred => [s (.pred 1)]
    | some _ => [s (.reg 0)]
    | none => [s (.reg 0), s (.pred 1)]

/-- The native destinations of a field: a write to %0 is discarded (R52). -/
def apfDst (ks : ApfKinds) (n : Nat) : List Dst :=
  if n = 0x3FFFF then [.none]
  else if n = 0 then [.pred 0, .vec 0]
  else match kindOf ks n with
    | some .pred => [.pred 1]
    | some _ => [.vec 0]
    | none => [.vec 0, .pred 1]

/-- Registers that a source kind reads. -/
def srcKindRegs : SrcKind → Nat
  | .val t | .reg t => t.regs
  | .pair => 2
  | .data m | .dataOrImm m => m
  | .unused | .pred => 0

def kindOfRegs : Nat → ApfKind
  | 2 => .r64 | 4 => .r128 | _ => .r32

/-- A source field against the kind of the register it names; one that the instruction does not use is all zero (R61). -/
def apfSrcOk (ks : ApfKinds) (f : Nat) (k : SrcKind) (s : Src) : Bool :=
  if k = .unused then f == 0
  else match s.sel with
  | .reg _ =>
    if f % 2 ^ 18 = 0 then true
    else match kindOf ks (f % 2 ^ 18) with
      | some x => x == kindOfRegs (srcKindRegs k)
      | none => true
  | _ => true

def dstKindOf : DstKind → Dst → Option ApfKind
  | _, .none => none
  | _, .pred _ => some .pred
  | .vec m, _ | .vecOrNone m, _ => some (kindOfRegs m)
  | _, _ => some .r32

/-- OPC of FRZ and THAW, whose ticket register stands in SC (R55). -/
def apfTicket (opc : Nat) : Bool := opc == 0x63 || opc == 0x64

/-- Branches and calls, whose immediate counts records (R62). -/
def apfBranch (opc : Nat) : Bool := opc == 0x40 || opc == 0x41 || opc == 0x42

/-- The native instruction of a record, with its field kinds, under the kinds known so far. -/
def apfNative (ks : ApfKinds) (x : ApfInstr) : Option (Instr × Op × Fields) := do
  let r := x.rec'
  let ty ← Ty.ofCode r.ty
  let ticket := apfTicket r.opc
  let imm := if apfBranch r.opc || ticket then 0 else x.imm
  let cands : List Op := do
    let d ← apfDst ks r.dst
    let a ← apfSrc ks r.sa
    let b ← apfSrc ks r.sb
    let c ← apfSrc ks (if ticket then 0 else r.sc)
    return { ctl := { gp := 0, gn := false, stall := 0, yl := false }, ty := ty, dst := d, a := a, b := b, c := c, imm := imm }
  cands.findSome? fun o =>
    match ofOpcode r.opc r.fn o with
    | none => none
    | some i => match i.fields with
      | none => none
      | some (_, f) =>
        if i.wf && !i.privileged && apfSrcOk ks r.sa f.a o.a && apfSrcOk ks r.sb f.b o.b &&
            (ticket || apfSrcOk ks r.sc f.c o.c) && !(opcUndef r.opc) then some (i, o, f)
        else none

/-- What R55 and R446 allow where. Every sr.* name but five is legal; the names that only a handler reads then act as they do natively
(DEDUCED, notes/assumptions/58.md). -/
def apfAllowed (loop : Bool) : Instr → Bool
  | .bar _ _ | .shapeq _ | .forceu _ | .mkaff _ | .mkgen _ | .vkill _ | .ipf _ | .ipin _ | .iunpin _ => false
  | .sreg o => !([0, 1, 24, 25, 26].contains o.imm.toNat)
  | .cbar _ _ | .dbar _ _ => !loop
  | .lxch _ _ | .poll _ _ | .red _ _ | .scan _ _ _ | .bcast _ => loop
  | .cpy _ _ _ _ | .cpyg _ _ _ | .cbatch _ | .cwait _ | .tbinit _ | .tbexp _ | .tbarr _ | .tbwait _ _ => loop
  | .mclaim _ | .mrel _ | .mzero _ | .mld _ _ _ | .mst _ _ | .mmov _ _ | .mma _ _ | .mmas _ _ | .mwait _ | .mxv _
  | .mcntRd _ | .mcntRr _ => loop
  | _ => true

/-! ## Registers (R52 to R54) -/

/-- The registers a record names: source fields, the guard, and those it writes. -/
def apfReads (x : ApfInstr) : List Nat :=
  let r := x.rec'
  let src (f : Nat) : List Nat := if f / 2 ^ 18 % 2 = 1 || f % 2 ^ 18 = 0 then [] else [f % 2 ^ 18]
  (src r.sa ++ src r.sb ++ (if apfTicket r.opc then [] else src r.sc)) ++ (if r.grd = 0 then [] else [r.grd])

def apfWrites (x : ApfInstr) : List Nat :=
  (if x.rec'.dst = 0x3FFFF || x.rec'.dst = 0 then [] else [x.rec'.dst]) ++
  (if apfTicket x.rec'.opc && x.rec'.sc / 2 ^ 18 == 0 && x.rec'.sc != 0 then [x.rec'.sc] else [])

/-- The kinds that the first writer of each register fixes, in record order. -/
def apfKinds (loops : List (Nat × ApfItem)) (xs : List ApfInstr) : Option ApfKinds :=
  xs.foldlM (fun (ks : ApfKinds) x => do
    let (_, o, f) ← apfNative ks x
    let add (ks : ApfKinds) (n : Nat) (k : ApfKind) : ApfKinds := if (kindOf ks n).isSome then ks else ks ++ [(n, k)]
    let ks := match dstKindOf f.dst o.dst with
      | some k => if x.rec'.dst = 0 then ks else add ks x.rec'.dst k
      | none => ks
    return if apfTicket x.rec'.opc then add ks x.rec'.sc .r32 else ks)
  ((loops.filter fun l => l.1 != 0).map fun l => (l.1, ApfKind.r32))

/-- The item that owns each register: the first that writes it. -/
def apfOwners (loops : List (Nat × ApfItem)) (xs : List ApfInstr) : List (Nat × ApfItem) :=
  (loops.filter fun l => l.1 != 0) ++ xs.flatMap fun x => (apfWrites x).map fun n => (n, x.item)

/-- R54 for the register of a .pfor: no region and no other loop writes it. -/
def apfLoopOk (owners : List (Nat × ApfItem)) (l : Nat × ApfItem) : Bool := owners.all fun o => o.1 != l.1 || o.2.num == l.2.num

/-- R54 for one use: a loop's registers live in the loop alone, and a loop does not write a region's. -/
def apfUseOk (owners : List (Nat × ApfItem)) (x : ApfInstr) : Bool :=
  let mine (n : Nat) (write : Bool) : Bool :=
    (owners.filter fun o => o.1 == n).all fun o =>
      if o.2.loop then o.2.num == x.item.num || x.item.num < o.2.num && !write
      else !write || !x.item.loop
  (apfReads x).all (fun n => mine n false) && (apfWrites x).all fun n => mine n true

/-- The record that a signed count names (R62). -/
def apfTarget (ix : Nat) (count : Int) : Nat := ((ix : Int) + count).toNat

/-- The targets of a BRX, whose immediate counts the records to its table: 32-bit words, the number of entries first (R62, R187,
notes/assumptions/58.md); none: the table runs out of the section, or begins before the kernel (DESIGN CHOICE there). -/
def apfTable (recs : List Nat) (x : ApfInstr) : Option (List Nat) := do
  let word (i : Nat) : Option (BitVec 32) := (recs[apfTarget x.ix x.imm.toInt + i / 4]?).map fun r => BitVec.ofNat 32 (r / 2 ^ (32 * (i % 4)))
  let n ← word 0
  if 4 * recs.length < n.toNat || (x.ix : Int) + x.imm.toInt < 0 then none
  else (List.range n.toNat).mapM fun i => (word (i + 1)).map fun e => apfTarget x.ix e.toInt

/-- Where an instruction may branch to. -/
def apfTargets (recs : List Nat) (x : ApfInstr) : Option (List Nat) :=
  if x.rec'.opc == 0x40 || x.rec'.opc == 0x42 then some [apfTarget x.ix x.imm.toInt]
  else if x.rec'.opc == 0x41 then apfTable recs x
  else some []

/-- R62: a target is an instruction record of the same region or segment. -/
def apfTargetOk (recs : List Nat) (xs : List ApfInstr) (x : ApfInstr) : Bool :=
  match apfTargets recs x with
  | some ts => ts.all fun t => xs.any fun y => y.ix == t && y.item == x.item
  | none => false

/-- The records that may run after an instruction in the same call: an unguarded branch, RET or EXIT does not fall through, and one
whose guard is never true does nothing (R75). -/
def apfAfter (recs : List Nat) (x : ApfInstr) : List Nat :=
  let next := [x.ix + (if x.hasImm then 2 else 1)]
  let always := x.rec'.grd == 0 && !x.rec'.gn
  if x.rec'.grd == 0 && x.rec'.gn || x.rec'.opc == 0x42 then next
  else (if always && [0x40, 0x43, 0x44].contains x.rec'.opc then [] else next) ++ (apfTargets recs x).getD []

/-- What a call's code reaches before it returns. -/
def apfReach (recs : List Nat) (xs : List ApfInstr) : Nat → List Nat → List Nat → List Nat
  | 0, _, seen => seen
  | _, [], seen => seen
  | fuel + 1, ix :: todo, seen =>
    if seen.contains ix then apfReach recs xs fuel todo seen
    else
      let more := match xs.find? fun y => y.ix == ix with | some y => apfAfter recs y | none => []
      apfReach recs xs fuel (more ++ todo) (ix :: seen)

/-- R50: no .barrier is reached inside a call. -/
def apfCallOk (recs : List Nat) (xs : List ApfInstr) (x : ApfInstr) : Bool :=
  x.rec'.opc != 0x42 || x.rec'.grd == 0 && x.rec'.gn ||
  !((apfReach recs xs (3 * recs.length * (recs.length + 1)) ((apfTargets recs x).getD []) []).any fun ix =>
    match recs[ix]? with
    | some r => (apfRecOf r).structural && (apfRecOf r).fn == 6
    | none => false)

/-- One instruction record once every kind is known. -/
def apfInstrOk (nvreg : Nat) (recs : List Nat) (ks : ApfKinds) (owners : List (Nat × ApfItem)) (xs : List ApfInstr) (x : ApfInstr) : Bool :=
  !x.rec'.reserved && (apfReads x ++ apfWrites x).all (fun n => decide (n < nvreg)) &&
  (x.rec'.grd == 0 || (match kindOf ks x.rec'.grd with | some k => k == .pred | none => true)) &&
  (!(apfTicket x.rec'.opc) || (x.rec'.sc / 2 ^ 18 == 0 && x.rec'.sc != 0 && kindOf ks x.rec'.sc == some .r32 && !x.hasImm)) &&
  apfUseOk owners x && apfTargetOk recs xs x && apfCallOk recs xs x &&
  match apfNative ks x with
  | some (i, o, f) => apfAllowed x.item.loop i && (match dstKindOf f.dst o.dst with
    | some k => x.rec'.dst == 0 || kindOf ks x.rec'.dst == some k
    | none => true)
  | none => false

/-- A kernel taken apart: its records from KERNEL to END, its instructions, its loops, and the kinds of its registers. -/
structure ApfKernel where
  recs : List Nat
  nvreg : Nat
  instrs : List ApfInstr
  loops : List (Nat × ApfItem)
  kinds : ApfKinds
deriving DecidableEq, Repr

/-- The kernel whose records begin here, as far as its structure goes; none: it is malformed. -/
def apfKernel (recs : List Nat) : Option ApfKernel :=
  match recs with
  | [] => none
  | k :: rest =>
    let r := apfRecOf k
    let nvreg := k / 2 ^ 32 % 2 ^ 32
    let nrec := k / 2 ^ 64 % 2 ^ 32
    let body := (rest.take (nrec - 1)).map apfRecOf
    if !(r.structural && r.fn == 1 && k / 2 ^ 13 % 2 ^ 19 == 0 && k / 2 ^ 96 == 0 && decide (1 ≤ nvreg ∧ nvreg ≤ 262143) &&
        decide (body.length + 1 = nrec)) then none
    else match apfItems (apfPairs body 1) none 0 with
      | none => none
      | some (xs, loops) => (apfKinds loops xs).map fun ks => ⟨recs.take nrec, nvreg, xs, loops, ks⟩

/-- R64: the kernel is not malformed; recs goes on to the end of the section. -/
def ApfKernel.ok (k : ApfKernel) (recs : List Nat) : Bool :=
  let owners := apfOwners k.loops k.instrs
  k.loops.all (fun l => l.1 == 0 || decide (l.1 < k.nvreg) && apfLoopOk owners l) &&
  k.instrs.all (apfInstrOk k.nvreg recs k.kinds owners k.instrs)

/-- R64: a kernel whose records begin here is not malformed. -/
def apfOk (recs : List Nat) : Bool := ((apfKernel recs).map fun k => k.ok recs).getD false

/-! ## What the translator keeps (R57, R59) -/

/-- Instructions of a group's batches, copies, tile slots and counters: what one group of the hardware has once. -/
def keepsGroupState : Instr → Bool
  | .cpy _ _ _ _ | .cpyg _ _ _ | .cbatch _ | .cwait _ => true
  | .mclaim _ | .mrel _ | .mzero _ | .mld _ _ _ | .mst _ _ | .mmov _ _ | .mma _ _ | .mmas _ _ | .mwait _ | .mxv _
  | .mcntRd _ | .mcntRr _ => true
  | _ => false

/-- Bytes of a register of a kind. -/
def ApfKind.bytes : ApfKind → Nat
  | .pred | .r32 => 4 | .r64 => 8 | .r128 => 16

/-- Bytes that each iteration of a loop keeps across its barriers, if it has any (R59). -/
def apfKept (k : ApfKernel) (it : ApfItem) : Nat :=
  if k.instrs.any fun x => x.item.num == it.num && x.item.seg != 0 then
    (((apfOwners k.loops k.instrs).filter fun o => o.2.num == it.num).map (·.1)).dedup.foldl
      (fun n r => n + ((kindOf k.kinds r).map ApfKind.bytes).getD 0) 0
  else 0

/-- The mapping of a loop that a choice picks: how many virtual groups one group runs, 16 for the serial loop, since a block has no more
(R57). A loop whose instructions use what a group has once takes lanes (DESIGN CHOICE, notes/assumptions/58.md). -/
def apfMap (k : ApfKernel) (choice : Nat) (l : Nat × (Nat × ApfItem)) : Nat × Nat :=
  let keeps := k.instrs.any fun x => x.item.num == l.2.2.num && ((apfNative k.kinds x).map fun n => keepsGroupState n.1).getD false
  (if keeps then 1 else [1, 2, 4, 8, 16].getD (choice / 5 ^ l.1 % 5) 1, apfKept k l.2.2)

/-- What the translation of a well-formed kernel keeps of it. -/
def apfProg (k : ApfKernel) (recs : List Nat) (choice : Nat) : ApfProg :=
  { recs := k.recs, kinds := k.kinds
    tables := (k.instrs.filter fun x => x.rec'.opc == 0x41).map fun x => (x.ix, (apfTable recs x).getD [])
    maps := (k.loops.zipIdx.map fun l => (l.2, l.1)).map (apfMap k choice) }

end Sys2Proof.Machine
end

