-- ==== Sys2Proof/Machine/Translated.lean ====
section
/-! DEFINITION. Translated.lean: how translated text runs (R48 to R59, R446). The PC of translated text is its address plus 12 for each
record of the kernel; a record acts as its native instruction does, with its virtual registers brought into native ones first
(notes/assumptions/58.md). -/

namespace Sys2Proof.Machine

/-! ## What stands at a PC -/

/-- The kernel that a translated block runs (R42). -/
def progOf (s : State) (b : Block) : Option ApfProg :=
  if b.translated then
    s.tcache.findSome? fun e => match e.state with | .text a _ p => if a = b.text then some p else none | _ => none
  else none

/-- The PC of a record. -/
def recordPc (b : Block) (ix : Nat) : DWord := b.text + BitVec.ofNat 64 (12 * ix)

/-- The kernel and the record at a PC; none: the PC is outside translated text, as in a trap handler. -/
def recordAt (s : State) (b : Block) (pc : DWord) : Option (ApfProg × Nat) := do
  let p ← progOf s b
  let d := pc.toNat - b.text.toNat
  if b.text.toNat ≤ pc.toNat && d % 12 == 0 && d / 12 < p.recs.length then some (p, d / 12) else none

/-- The record at a PC of a group; none in trap handler mode, whose text is native wherever it stands (R42, R335). -/
def recordOf (s : State) (b : Block) (g : Group) (pc : DWord) : Option (ApfProg × Nat) := if g.handler then none else recordAt s b pc

def ApfProg.at (p : ApfProg) (ix : Nat) : ApfRec := apfRecOf ((p.recs[ix]?).getD 0)

/-- An instruction record with the IMM record that follows it. -/
def ApfProg.instr (p : ApfProg) (ix : Nat) : ApfInstr :=
  let m := p.at (ix + 1)
  { ix := ix, rec' := p.at ix, imm := if m.isImm then BitVec.ofNat 32 (m.raw / 2 ^ 96) else 0, hasImm := m.isImm,
    item := { num := 0, loop := false, seg := 0 } }

/-- The first structure record after a record, IMM records apart. -/
def ApfProg.next (p : ApfProg) (ix : Nat) : Nat :=
  ((List.range p.recs.length).find? fun i => ix < i && (p.at i).structural && !(p.at i).isImm).getD (p.recs.length - 1)

/-- The block runs a serial region (R48). -/
def ApfProg.serial (p : ApfProg) (b : Block) : Bool := (p.at b.apf.piece).fn == 3

/-! ## A record as a native instruction -/

/-- A record's native instruction; the virtual registers to bring into native places, with how many registers each takes; and where
its results go: places are vn as n, pk as 128 + k. -/
structure Plan where
  instr : Instr
  loads : List (Nat × Nat × Nat)
  results : List (Nat × Nat)
deriving DecidableEq, Repr

def reg128 (n : Nat) : Fin 128 := Fin.ofNat 128 n
def pred8 (n : Nat) : Fin 8 := Fin.ofNat 8 n

/-- A source in its own native place. -/
def planSrc (k : SrcKind) (f : Nat) (s : Src) (v p : Nat) : Src × List (Nat × Nat × Nat) :=
  let n := f % 2 ^ 18
  match s.sel with
  | .reg _ => if k = .unused then (s, []) else ({ s with sel := .reg (reg128 v) }, [(n, v, srcKindRegs k)])
  | .pred _ => if n = 0 then (s, []) else ({ s with sel := .pred (pred8 p) }, [(n, 128 + p, 1)])
  | _ => (s, [])

/-- A destination in a native place, which holds its old value first: a partial write keeps the other lanes. -/
def planDst (ks : ApfKinds) (n : Nat) (d : Dst) (v p : Nat) : Dst × List (Nat × Nat × Nat) × List (Nat × Nat) :=
  match d with
  | .vec _ =>
    let m := match kindOf ks n with | some .r64 => 2 | some .r128 => 4 | _ => 1
    (.vec (reg128 v), if n = 0 then [] else [(n, v, m)], if n = 0 then [] else [(n, v)])
  | .pred _ => if n = 0 then (.pred 0, [], []) else (.pred (pred8 p), [(n, 128 + p, 1)], [(n, 128 + p)])
  | .none => (.none, [], [])

/-- Sources stand in v0 to v11 and p1 to p4; the result goes to vd or pd, and a ticket to vt. A branch of n records is one of 12 n
bytes (R62). -/
def planOf (p : ApfProg) (x : ApfInstr) (vd vt pd : Nat) : Option Plan := do
  let (_, o, f) ← apfNative p.kinds x
  let r := x.rec'
  let a := planSrc f.a r.sa o.a 0 2
  let b := planSrc f.b r.sb o.b 4 3
  let c := planSrc f.c (if apfTicket r.opc then 0 else r.sc) o.c 8 4
  let d := planDst p.kinds r.dst o.dst vd pd
  let imm : Word :=
    if apfTicket r.opc then BitVec.ofNat 32 vt else if apfBranch r.opc then BitVec.ofInt 32 (12 * x.imm.toInt - 12) else x.imm
  let ticket := if apfTicket r.opc then [(r.sc % 2 ^ 18, vt)] else []
  let i ← ofOpcode r.opc r.fn { o with
    ctl := { o.ctl with gp := if r.grd = 0 then 0 else 1, gn := r.gn }, dst := d.1, a := a.1, b := b.1, c := c.1, imm := imm }
  return {
    instr := i
    loads := (if r.grd = 0 then [] else [(r.grd, 129, 1)]) ++ a.2 ++ b.2 ++ c.2 ++ d.2.1 ++ ticket.map fun t => (t.1, t.2, 1)
    results := d.2.2 ++ ticket }

/-! ## Virtual registers (R52, R54) -/

/-- Lane l of a virtual register: %0 is 1, a region's register is uniform, another is its virtual group's; one that nothing has
written is zero. -/
def virtual (b : Block) (g : Group) (n l : Nat) : BitVec 128 :=
  if n = 0 then 1
  else match tget b.apf.regs n with
    | some x => x
    | none => match (tget g.turns g.turn).bind fun t => tget t.regs n with
      | some v => (v[l]?).getD 0
      | none => 0

/-- A result of this place has not come back. -/
def placeBusy (g : Group) (place : Nat) : Bool :=
  if 128 ≤ place then g.flight.contains place
  else (List.range 4).any fun i => g.flight.contains (place + i) || g.refills.contains (place + i)

/-- The value that stands in a place. -/
def placeValue (g : Group) (place l : Nat) : BitVec 128 :=
  if 128 ≤ place then (if (g.preds[place - 128]?.getD 0).getLsbD l then 1 else 0) else readQuad g place l

/-- Bits of a register of a kind. -/
def kindMask : Option ApfKind → BitVec 128
  | some .pred => 1
  | some .r64 => 0xFFFFFFFFFFFFFFFF#128
  | some .r128 => BitVec.allOnes 128
  | _ => 0xFFFFFFFF#128

/-- A result goes to its virtual register: a region's is one value (R54). -/
def keepResult (p : ApfProg) (s : State) (k bk : Nat) (b : Block) (e : Nat × Nat) : State :=
  match s.group k with
  | none => s
  | some g =>
    let m := kindMask (kindOf p.kinds e.1)
    let s := s.modGroup k fun g =>
      if (regOf g e.2).any (·.failed) then { g with tainted := e.1 :: g.tainted } else g
    if p.serial b then
      let x := placeValue g e.2 b.apf.lead.2 &&& m
      { s with blocks := tmod s.blocks bk fun b => { b with apf := { b.apf with regs := tset b.apf.regs e.1 x } } }
    else
      let v : Vector (BitVec 128) 64 := Vector.ofFn fun l => placeValue g e.2 l.val &&& m
      s.modGroup k fun g => { g with turns := tmod g.turns g.turn fun t => { t with regs := tset t.regs e.1 v } }

/-- Results that have come back go to their virtual registers. -/
def settleStaged (p : ApfProg) (s : State) (k bk : Nat) : State :=
  match s.group k with
  | none => s
  | some g =>
    let back := g.staged.filter fun e => !placeBusy g e.2
    let s := back.foldl (fun s e => match tget s.blocks bk with | some b => keepResult p s k bk b e | none => s) s
    s.modGroup k fun g =>
      { g with staged := g.staged.filter (placeBusy g ·.2), tainted := if g.held.isEmpty then [] else g.tainted }

/-- Bring a virtual register into its native place. -/
def stage (s : State) (k : Nat) (b : Block) (x : Nat × Nat × Nat) : State :=
  match s.group k with
  | none => s
  | some g =>
    let value (l : Nat) : BitVec 128 := virtual b g x.1 l
    if 128 ≤ x.2.1 then
      s.modGroup k fun g => { g with preds := g.preds.setIfInBounds (x.2.1 - 128) (maskOf fun l => (value l).getLsbD 0) }
    else
      let uni := (List.range 64).all fun l => value l == value 0
      let s := writeWide s k { regs := (List.range 128) } fullMask uni x.2.2 x.2.1 value
      if g.tainted.contains x.1 then
        s.modGroup k fun g => { g with regs := tmod g.regs x.2.1 fun r => { r with failed := true } }
      else s

/-- Quads and predicates that no result under way uses. -/
def freeQuads (g : Group) : List Nat :=
  ((List.range 27).map fun i => 16 + 4 * i).filter fun q => !placeBusy g q && !(g.staged.any fun e => e.2 / 4 * 4 == q)

def freePreds (g : Group) : List Nat := [5, 6, 7].filter fun k => !placeBusy g (128 + k) && !(g.staged.any fun e => e.2 == 128 + k)

/-- The record at a split's PC names a register whose result is under way. -/
def recordWaits (p : ApfProg) (g : Group) (ix : Nat) : Bool :=
  let r := p.at ix
  !r.structural && (apfReads (p.instr ix) ++ apfWrites (p.instr ix)).any fun n => g.staged.any fun e => e.1 == n && placeBusy g e.2

/-- The native instruction of the record at a PC, as far as it does not depend on places. -/
def recordInstr (s : State) (b : Block) (pc : DWord) : Option Instr := do
  let (p, ix) ← recordAt s b pc
  if (p.at ix).structural then none else (planOf p (p.instr ix) 16 20 5).map (·.instr)

/-! ## Regions, loops and segments (R48 to R50, R57) -/

/-- Groups of a block by group number. -/
def blockGroups (s : State) (bk : Nat) : List (Nat × Group) :=
  sortBy (fun (a b : Nat × Group) => decide (a.2.idx < b.2.idx)) (s.groups.filter fun e => e.2.blk == bk)

/-- Lanes of a group of a block of L lanes (R275). -/
def groupLanes (lanes idx : Nat) : Mask := maskOf fun l => decide (idx * 64 + l < lanes)

/-- The lanes of a mask run on from one PC; the group's other lanes wait at another. -/
def runLanes (g : Group) (m : Mask) (pc idle : DWord) : Group :=
  let m := m &&& ~~~g.ended
  let rest := ~~~g.ended &&& ~~~m
  let runs : List Split := if m = 0 then [] else [{ pc := pc, mask := m, age := g.nextAge }]
  let waits : List Split := if rest = 0 then [] else [{ pc := idle, mask := rest, age := g.nextAge + 1, wait := some .piece }]
  { g with active := runs ++ waits, parked := [], nextAge := g.nextAge + 2 }

/-- A group begins the segment of a virtual group, from the instruction after a structure record. Reservations are the earlier turn's. -/
def startTurn (s : State) (k : Nat) (b : Block) (piece v : Nat) : State :=
  let s := match s.group k with
    | some g => if g.turn = v then s else dropReservations s k
    | none => s
  s.modGroup k fun g =>
    let live := ((tget g.turns v).map (·.live)).getD 0
    runLanes { g with turn := v } live (recordPc b (piece + 1)) (recordPc b piece)

/-- The next virtual group, from v on, in which an iteration still takes part. -/
def nextTurn (g : Group) (v : Nat) : Option Nat := (g.turns.find? fun t => v ≤ t.1 && t.2.live &&& ~~~g.ended != 0).map (·.1)

/-- The virtual groups that a group runs in turns: 1, 2, 4 or 8 of them, or 16 for all (R57). The lanes mapping stands in where the
block's scratchpad could not hold what the iterations keep (R59), or where lanes of the block have ended. -/
def turnsOf (s : State) (p : ApfProg) (bk : Nat) (b : Block) (piece : Nat) : Nat :=
  let n := ((List.range (piece + 1)).filter fun i => (p.at i).structural && (p.at i).fn == 4).length
  let (c, kept) := (p.maps[n - 1]?).getD (1, 0)
  let whole := (blockGroups s bk).length == b.slots.length &&
    (blockGroups s bk).all fun e => e.2.ended == ~~~(groupLanes b.lanes e.2.idx)
  if whole && decide (b.scrSize + kept * b.lanes ≤ 224 * 1024) then c else 1

/-- The virtual groups of a loop that a group runs, with the register that holds the iteration's number (R49, R56). R49 gives it for the
iterations alone: in the lanes at or beyond L of the last virtual group, which LXCH and BCAST can read, it is 64 v + l all the same (DESIGN
CHOICE, notes/assumptions/58.md). -/
def loopTurns (b : Block) (c ireg idx : Nat) : Table ApfTurn :=
  let vs := (List.range ((b.lanes + 63) / 64)).filter fun v => v / c == idx
  vs.map fun v =>
    let ixs : Vector (BitVec 128) 64 := Vector.ofFn fun l => BitVec.ofNat 128 (64 * v + l.val)
    (v, { live := groupLanes b.lanes v, regs := if ireg = 0 then [] else [(ireg, ixs)] })

def setPiece (s : State) (bk : Nat) (f : ApfRun → ApfRun) : State :=
  { s with blocks := tmod s.blocks bk fun b => { b with apf := f b.apf } }

/-- The block goes on behind a structure record: a region on one lane (R446 has the others with it at its barriers), a loop or its next
segment on its virtual groups, and at .end every lane ends. Special source 11 reads that lane's number in a region, and PCNT counts that one
lane (DEDUCED, notes/assumptions/58.md). -/
def enterPiece (p : ApfProg) (bk : Nat) (b : Block) : Nat → Nat → State → State
  | 0, _, s => s
  | fuel + 1, ix, s =>
    let r := p.at ix
    let gs := blockGroups s bk
    let each (s : State) (f : Nat × Group → State → State) : State := gs.foldl (fun s e => f e s) s
    if r.fn = 3 then
      match gs.find? fun e => e.2.ended != fullMask with
      | none => s
      | some lead =>
        let lane := (lowestLane (~~~lead.2.ended)).getD 0
        let s := setPiece s bk fun x => { x with piece := ix, lead := (lead.2.idx, lane) }
        each s fun e s => s.modGroup e.1 fun g =>
          runLanes g (if g.idx = lead.2.idx then 1#64 <<< lane else 0) (recordPc b (ix + 1)) (recordPc b ix)
    else if r.fn = 4 || r.fn = 6 then
      let c := turnsOf s p bk b ix
      let s := setPiece s bk fun x => { x with piece := ix }
      each s fun e s =>
        let s := if r.fn = 4 then s.modGroup e.1 fun g => { g with turns := loopTurns b c r.dst g.idx } else s
        match (s.group e.1).bind fun g => nextTurn g 0 with
        | some v => startTurn s e.1 b ix v
        | none => s.modGroup e.1 fun g => runLanes g 0 (recordPc b ix) (recordPc b ix)
    else if r.fn = 5 then
      enterPiece p bk b fuel (p.next ix) (each s fun e s => s.modGroup e.1 fun g => { g with turns := [] })
    else
      let s := setPiece s bk fun x => { x with piece := ix }
      each s fun e s => s.modGroup e.1 fun g => runLanes g fullMask (recordPc b ix) (recordPc b ix)

/-- Every lane of a group waits at the end of its piece, with nothing under way. -/
def groupWaits (s : State) (k : Nat) (g : Group) : Bool :=
  !g.ending && g.trapEvent.isNone && !g.handler && (g.active ++ g.parked).all (fun q => q.wait == some .piece) &&
  g.staged.all (fun e => !placeBusy g e.2) && lanesSettled s k fullMask

/-- A group whose turn is done begins the next one (R57). -/
def advanceTurn (p : ApfProg) (bk : Nat) (s : State) (e : Nat × Group) : State :=
  match tget s.blocks bk with
  | none => s
  | some b =>
    if !(groupWaits s e.1 e.2) then s
    else
      let s := settleStaged p s e.1 bk
      match if (p.at b.apf.piece).fn = 4 || (p.at b.apf.piece).fn = 6 then nextTurn e.2 (e.2.turn + 1) else none with
      | some v => startTurn s e.1 b b.apf.piece v
      | none => s

/-- The structure record that the block comes to once all its lanes wait: the one at which a region's lane stands, .end where that lane
is gone, the next one for a loop (R48, R50). -/
def nextPiece (s : State) (p : ApfProg) (bk : Nat) (b : Block) : Nat :=
  if p.serial b then
    match (blockGroups s bk).find? fun e => e.2.idx == b.apf.lead.1 with
    | some e => match splitAt e.2 b.apf.lead.2 with
      | some q => ((recordAt s b q.pc).map (·.2)).getD (p.recs.length - 1)
      | none => p.recs.length - 1
    | none => p.recs.length - 1
  else p.next b.apf.piece

/-- Splits that stand at an IMM record go on to the record behind it, and join what stands there (R62, R289). -/
def passImm (s : State) (b : Block) (g : Group) : Group :=
  let at' (p : Split) : Bool := p.ready && (recordAt s b p.pc).any fun x => (x.1.at x.2).isImm
  if g.handler || !((g.active ++ g.parked).any at') then g
  else
    let pass (l : List Split) : List Split := l.map fun p => if at' p then { p with pc := p.pc + 12 } else p
    settleDue { g with active := pass g.active, parked := pass g.parked }

/-- What every step does with translated blocks: splits that a return from a trap, the end of a wait or a restore has left at an IMM record
join what stands behind it, and lanes that have come to the end of a turn, a segment or an item go on. -/
def advanceBlock (s : State) (bk : Nat) : State :=
  match tget s.blocks bk with
  | none => s
  | some b => match progOf s b with
    | none => s
    | some p =>
      if b.phase != .running || !dieRuns s (b.core / 32) then s
      else
        let s := (blockGroups s bk).foldl (fun s e => s.modGroup e.1 (passImm s b)) s
        let s := (blockGroups s bk).foldl (advanceTurn p bk) s
        let gs := blockGroups s bk
        if (p.at b.apf.piece).fn != 2 && !gs.isEmpty && gs.all fun e => groupWaits s e.1 e.2 then
          let b := (tget s.blocks bk).getD b
          enterPiece p bk b 3 (nextPiece s p bk b) s
        else s

def advanceBlocks (s : State) : State := s.blocks.foldl (fun s e => if e.2.translated then advanceBlock s e.1 else s) s

/-! ## The issue of a record -/

/-- Instructions that act on a virtual group (R55, R56). -/
def actsOnGroup (i : Instr) : Bool :=
  !(apfAllowed false i) && apfAllowed true i || match i with | .frz _ _ | .thaw _ => true | _ => false

/-- Iterations of the virtual group that still take part in the loop. -/
def turnLive (g : Group) : Mask := (((tget g.turns g.turn).map (·.live)).getD 0) &&& ~~~g.ended

/-- A record at which not all of the virtual group is active traps: ILLEGAL with reason APF (R56). -/
def partTraps (i : Instr) (s : State) : Host.Outcome State Fault Refusal :=
  native i s fun _ v s => .trap s (atIssue v causeIllegal 3)

/-- EXIT: in a region the whole block goes to .end; an iteration waits for the end of the loop, without part in it (R48, R50). -/
def exitRecord (p : ApfProg) (ix : Nat) (i : Instr) (s : State) : Host.Outcome State Fault Refusal :=
  native i s fun _ v s =>
    if v.act = 0 then .done s
    else if p.serial v.b then .goto s (fun _ => recordPc v.b (p.recs.length - 1)) false
    else
      let s := s.modGroup v.k fun g =>
        { g with turns := tmod g.turns g.turn fun t => { t with live := t.live &&& ~~~v.act } }
      .goto s (fun _ => recordPc v.b (p.next ix)) false

/-- BRX through the table that the translator has read (R62). -/
def tableRecord (p : ApfProg) (ix : Nat) (i : Instr) (s : State) : Host.Outcome State Fault Refusal :=
  let table := ((p.tables.find? fun t => t.1 == ix).map (·.2)).getD []
  native i s fun o v s =>
    if v.act = 0 then .done s
    else .goto s (fun l => match table[(srcB32 v.g o.imm o.a l).toNat]? with
      | some t => recordPc v.b t
      | none => v.sp.pc + 12) false

/-- The barrier that CBAR and DBAR name. -/
def blockBarrier : Instr → Option (BarKind × Nat)
  | .cbar _ o => some (.cls, o.imm.toNat % 16)
  | .dbar _ o => some (.die, o.imm.toNat % 16)
  | _ => none

/-- A region's CBAR or DBAR is one arrival of the whole block: with the lane that runs the region, every other lane arrives (R446). -/
def arriveAll (i : Instr) (k lane bk : Nat) (s t : State) : State :=
  match blockBarrier i, tget t.blocks bk with
  | some (kind, n), some b =>
    let pend (s : State) (k : Nat) : Mask := ((s.group k).bind fun g => g.barPend[kind.offset + n]?).getD 0
    if (pend t k).getLsbD lane && !(pend s k).getLsbD lane then
      (blockGroups t bk).foldl (fun (t : State) e =>
        let m := ~~~e.2.ended &&& ~~~(pend t e.1)
        if m = 0 then t else arrive t e.1 kind bk b n m) t
    else t
  | _, _ => t

/-- EXIT as .end runs it. -/
def endInstr : Instr :=
  .exit { ctl := { gp := 0, gn := false, stall := 0, yl := false }, ty := .none, dst := .none,
          a := { sel := .reg 0, neg := false, lu := false }, b := { sel := .reg 0, neg := false, lu := false },
          c := { sel := .reg 0, neg := false, lu := false }, imm := 0 }

/-- After an attempt: the group's own number, where the results will be, and its splits behind their IMM records. -/
def afterRecord (b : Block) (k idx : Nat) (results : List (Nat × Nat)) :
    Host.Outcome State Fault Refusal → Host.Outcome State Fault Refusal
  | .next s => .next (s.modGroup k fun g => passImm s b { g with idx := idx, staged := g.staged ++ results })
  | o => o

/-- An instruction record: its registers are brought in, and it acts as the native instruction. -/
def runInstr (run : Instr → State → Host.Outcome State Fault Refusal) (p : ApfProg) (ix k lane bk : Nat) (b : Block) (g : Group)
    (s : State) : Host.Outcome State Fault Refusal :=
  match freeQuads g, freePreds g with
  | q :: t :: _, pd :: _ =>
    match planOf p (p.instr ix) q t pd with
    | none => .next s
    | some pl =>
      if recordWaits p g ix then .next s
      else
        let s := pl.loads.foldl (fun s x => stage s k b x) s
        let s := if p.serial b then s else s.modGroup k fun g => { g with idx := g.turn }
        let sp := splitAt g lane
        let act := match pl.instr.fields, s.group k, sp with
          | some (o, _), some g, some sp => activeLanes g sp o.ctl
          | _, _, _ => 0
        let opc := (p.at ix).opc
        afterRecord b k g.idx pl.results (
          if actsOnGroup pl.instr && !(p.serial b) && act != turnLive g then partTraps pl.instr s
          else if opc = 0x44 then exitRecord p ix pl.instr s
          else if opc = 0x41 then tableRecord p ix pl.instr s
          else match run pl.instr s with
            | .next t => .next (if p.serial b then arriveAll pl.instr k lane bk s t else t)
            | o => o)
  | _, _ => .next s

/-- A split at a record of translated text: an IMM record is passed over, at another structure record the split waits for its block,
and .end is an EXIT of every lane. -/
def runRecord (run : Instr → State → Host.Outcome State Fault Refusal) (s : State) (p : ApfProg) (ix k lane : Nat) :
    Host.Outcome State Fault Refusal :=
  match (s.group k).bind fun g => (splitAt g lane).bind fun sp => (tget s.blocks g.blk).map fun b => (g.blk, sp, b) with
  | none => .next s
  | some (bk, sp, b) =>
    let r := p.at ix
    if r.structural then
      if r.isImm then .next { s.modGroup k (passImm s b) with issued := true }
      else if r.fn = 2 && b.apf.piece = ix then run endInstr s
      else .next (s.modGroup k fun g => updSplit g sp.mask fun q => { q with wait := some .piece })
    else
      let s := settleStaged p s k bk
      match s.group k, tget s.blocks bk with
      | some g, some b => runInstr run p ix k lane bk b g s
      | _, _ => .next s

/-- The record of translated text at which a split stands. -/
def splitRecord (s : State) (k lane : Nat) : Option (ApfProg × Nat) :=
  (s.group k).bind fun g => (splitAt g lane).bind fun sp => (tget s.blocks g.blk).bind fun b => recordOf s b g sp.pc

end Sys2Proof.Machine
end

