-- ==== Sys2Proof/Machine/Control.lean ====
section
/-! DEFINITION. Control.lean: OPC 0x40 to 0x4A: branches, EXIT, YIELD, SLEEP and barriers (R185 to R194). -/

namespace Sys2Proof.Machine

/-- PC + 12 + IMM (R186). -/
def dispTarget (v : View) (o : Op) : DWord := v.sp.pc + 12 + o.imm.signExtend 64

def execBra (o : Op) (s : State) : Host.Outcome State Fault Refusal :=
  native (.bra o) s fun o v s => .goto s (fun _ => dispTarget v o) (o.ctl.yl && o.imm.msb)

/-- What reading a branch table gives for one index: a target, or the fetch that failed and its address (R187). -/
def brxTarget (s : State) (v : View) (table : DWord) (n : Nat) (i : Nat) : Except (Fetch × DWord) DWord :=
  if i < n then
    let e := table + BitVec.ofNat 64 (4 * (i + 1))
    match fetchWord s v.b e with
    | .bytes bs => .ok ((e + (BitVec.ofNat 32 (leNat bs)).signExtend 64) &&& ~~~3#64)
    | x => .error (x, e)
  else .ok (v.sp.pc + 12)

/-- The blocks that stop with a block: its cluster's and its die span's (R281, R284, R346). -/
def companions (s : State) (bk : Nat) (b : Block) : List Nat :=
  (s.blocks.filter fun e => e.1 == bk || e.2.cluster == b.cluster || (b.span.isSome && e.2.span == b.span)).map (·.1)

def setPhase (s : State) (bks : List Nat) (p : Phase) : State :=
  { s with blocks := s.blocks.map fun e => if bks.contains e.1 then (e.1, { e.2 with phase := p }) else e }

/-- A split's fetch finds no mapping: the split waits, the MMP is called, and the block with its companions drains to be saved
(R346). From a peer that has not answered yet, the split fetches again (R432). -/
def fetchWaits (s : State) (v : View) (ctx page : Nat) : State :=
  let s := splitCalls s v.k v.sp.mask ctx page
  if peerPage 0 ≤ page then s
  else setPhase (s.modGroup v.k fun g => updSplit g v.sp.mask fun x => { x with wait := some (.text ctx page) })
    (companions s v.g.blk v.b) .fetchDraining

/-- A fetch that failed: MEMFAULT FETCH, or the wait of R346; the instruction has had no effect. -/
def fetchFails (s : State) (v : View) (x : Fetch) (a : DWord) : Effect :=
  match x with
  | .missing c p => .hold (fetchWaits s v c p)
  | _ => .trap s (atIssue v causeMemfault mfFetch a)

def execBrx (o : Op) (s : State) : Host.Outcome State Fault Refusal :=
  native (.brx o) s fun o v s =>
    if v.act = 0 then .done s
    else
      let table := dispTarget v o
      match fetchWord s v.b table with
      | .bytes bs =>
        let targets := (maskLanes v.act).map fun l =>
          (l, brxTarget s v table (leNat bs) (srcB32 v.g o.imm o.a l).toNat)
        match targets.findSome? fun t => match t.2 with | .error e => some e | .ok _ => none with
        | some (x, a) => fetchFails s v x a
        | none => .goto s (fun l => match targets.find? (fun t => t.1 == l) with
            | some (_, .ok a) => a
            | _ => v.sp.pc + 12) false
      | x => fetchFails s v x table

def execCall (o : Op) (s : State) : Host.Outcome State Fault Refusal :=
  native (.call o) s fun o v s =>
    .goto (writeVal s v .b64 .uniform o.dst fun _ => v.sp.pc + 12) (fun _ => dispTarget v o) false

def execRet (o : Op) (s : State) : Host.Outcome State Fault Refusal :=
  native (.ret o) s fun o v s => .goto s (fun l => srcPair v.g o.a l &&& ~~~3#64) false

/-- R189: the active lanes end; in trap handler mode every lane of the group, whatever the guard. -/
def execExit (o : Op) (s : State) : Host.Outcome State Fault Refusal :=
  native (.exit o) s fun _ v s => if v.g.handler then .whole (endGroup s v.k) else .ends s v.act

def execYield (o : Op) (s : State) : Host.Outcome State Fault Refusal :=
  native (.yield o) s fun _ _ s => .rotates s

def execNop (o : Op) (s : State) : Host.Outcome State Fault Refusal :=
  native (.nop o) s fun _ _ s => .done s

/-- The split waits until IMM clocks have passed (R190); every lane counts as active. -/
def execSleep (o : Op) (s : State) : Host.Outcome State Fault Refusal :=
  native (.sleep o) s fun o v s =>
    if o.imm = 0 then .done s
    else match v.sp.wait with
      | some (.sleep till) => if till ≤ dieClk s (dieOf v.k) then .done s else .hold s
      | _ => .wait s (.sleep (issueClk s v + o.imm.toNat))

/-- The instruction at a PC of native text. -/
def nativeAt (s : State) (b : Block) (pc : DWord) : Option Instr :=
  match fetchWords s b pc 3 with
  | .bytes bs => match decode bs with | .ok i => some i | .error _ => none
  | _ => none

/-- The instruction of native text that a waiting split stands at. -/
def waitingInstr (s : State) (g lane : Nat) : Option Instr := do
  let gr ← s.group g
  let sp ← splitAt gr lane
  let b ← tget s.blocks gr.blk
  let _ ← sp.wait
  if !dieRuns s (dieOf g) then none
  else if (recordOf s b gr sp.pc).isSome then none else nativeAt s b sp.pc

/-- The instruction at a PC of any text. -/
def textInstr (s : State) (b : Block) (g : Group) (pc : DWord) : Option Instr :=
  if (recordOf s b g pc).isSome then recordInstr s b pc else nativeAt s b pc

/-- The split that a step or an event issues for. -/
def State.at (s : State) (g lane : Nat) : State := { s with curGroup := g, curLane := lane, issued := false }

/-- SLEEP_EXPIRY: the sleeping split's instruction ends once its clocks have passed (R190). -/
def execSleepExpiry (g lane : Nat) (s : State) : Host.Outcome State Fault Refusal :=
  match waitingInstr s g lane with
  | some (.sleep o) => execSleep o (s.at g lane)
  | _ => .next s

/-! ## Barriers (R191 to R193) -/

/-- Lanes of the group pending at a barrier. -/
def pendingAt (s : State) (k : Nat) (kind : BarKind) (i : Nat) : Mask :=
  ((s.group k).bind fun g => g.barPend[kind.offset + i]?).getD 0

/-- The end of Wait: an acquire at the barrier's scope (R193). -/
def barrierDone (s : State) (v : View) (kind : BarKind) : Effect :=
  .done (if kind == .blk then s else acquireL1 s (coreOf v.k))

/-- The split is in the Wait part of its barrier instruction. -/
def Split.arrived (p : Split) : Bool := match p.wait with | some (.phase _ _ _) => true | _ => false

/-- Wait(l) for the active lanes (R192). -/
def barrierWait (s : State) (v : View) (kind : BarKind) (i spacing : Nat) : Effect :=
  if pendingAt s v.k kind i &&& v.act = 0 then barrierDone s v kind
  else if v.sp.arrived then .hold s
  else .wait s (.phase (kind.offset + i) v.act spacing)

/-- Arrive, then Wait, for the active lanes at once (R192). An arrival is a release of the lanes' earlier accesses (R193). -/
def barrier (kind : BarKind) (mode : BarMode) (o : Op) (v : View) (s : State) : Effect :=
  let i := o.imm.toNat % 16
  if v.act = 0 then .done s
  else if mode = .wait ∨ v.sp.arrived = true then barrierWait s v kind i (o.ctl.stall.val + 1)
  else if pendingAt s v.k kind i &&& v.act ≠ 0 || !arrivalReady s kind v.k v.act then
    (if v.sp.wait.isSome then .hold s else .wait s .barrier)
  else
    let s := if kind = .blk then shareWrites s v.k v.act .blk else s
    let s := arrive s v.k kind v.g.blk v.b i v.act
    if mode = .arrive then .done s else barrierWait s v kind i (o.ctl.stall.val + 1)

def execBar (mode : BarMode) (o : Op) (s : State) : Host.Outcome State Fault Refusal :=
  native (.bar mode o) s fun o v s => barrier .blk mode o v s

def execCbar (mode : BarMode) (o : Op) (s : State) : Host.Outcome State Fault Refusal :=
  native (.cbar mode o) s fun o v s => barrier .cls mode o v s

def execDbar (mode : BarMode) (o : Op) (s : State) : Host.Outcome State Fault Refusal :=
  native (.dbar mode o) s fun o v s => barrier .die mode o v s

/-! ## The waits that a phase ends (R192, R289) -/

/-- Steps 4 to 6 of R289 for a group some of whose Waits are over. -/
def endWaitsOf (s : State) (k : Nat) : State :=
  match s.group k with
  | none => s
  | some g =>
    let runs := (tget s.blocks g.blk).any fun b => b.phase == .running
    if !((g.active ++ g.parked).any fun p => (waitOver g p).isSome) || g.ending || g.trapEvent.isSome || !runs then s
    else s.modGroup k settleDue

/-- What every step does with waiting splits once its instruction has issued (R289). -/
def endWaits (s : State) : State := s.groups.foldl (fun s e => endWaitsOf s e.1) s

end Sys2Proof.Machine
end

