-- ==== Sys2Proof/Machine/Sfu.lean ====
section
/-! DEFINITION. Sfu.lean: the SFU functions of R170 and R171. FRCP, FSQRT and FRSQ round an exact value. The
transcendental functions are computed to 256 fractional bits and rounded from there; arguments with an exact result are
taken apart first (notes/assumptions/16.md). -/

namespace Sys2Proof.Machine

/-! ## Fixed point with 256 fractional bits -/

def fixBits : Nat := 256
def fixOne : Nat := 2 ^ fixBits

def fixMul (a b : Nat) : Nat := a * b / fixOne

/-- The sum of term / k over odd k, signs alternating when alt: atan and atanh by their series. -/
def atanSeries (alt : Bool) (z2 : Nat) : Nat → Nat → Nat → Bool → Int → Int
  | 0, _, _, _, acc => acc
  | fuel + 1, term, k, minus, acc =>
    let t : Int := (term / k : Nat)
    atanSeries alt z2 fuel (fixMul term z2) (k + 2) (alt && !minus) (if minus then acc - t else acc + t)

/-- atan (or atanh) of z below one half, in fixed point. -/
def fixAtan (alt : Bool) (z : Nat) : Int := atanSeries alt (fixMul z z) 90 z 1 false 0

/-- ln 2 = 2 atanh(1/3). -/
def fixLn2 : Nat := (2 * fixAtan false (fixOne / 3)).toNat

/-- pi = 16 atan(1/5) - 4 atan(1/239). -/
def fixPi : Nat := (16 * fixAtan true (fixOne / 5) - 4 * fixAtan true (fixOne / 239)).toNat

/-- The Taylor series of exp at x. -/
def expSeries (x : Nat) : Nat → Nat → Nat → Nat → Nat
  | 0, _, _, acc => acc
  | fuel + 1, k, term, acc => expSeries x fuel (k + 1) (fixMul term x / k) (acc + term)

/-- sin x (from term x, k = 2) and cos x (from term 1, k = 1), alternating over steps of two. -/
def trigSeries (x2 : Nat) : Nat → Nat → Nat → Bool → Int → Int
  | 0, _, _, _, acc => acc
  | fuel + 1, k, term, minus, acc =>
    let t : Int := term
    trigSeries x2 fuel (k + 2) (fixMul term x2 / (k * (k + 1))) (!minus) (if minus then acc - t else acc + t)

def fixSin (x : Nat) : Nat := (trigSeries (fixMul x x) 30 2 x false 0).toNat
def fixCos (x : Nat) : Nat := (trigSeries (fixMul x x) 30 1 fixOne false 0).toNat

/-! ## The functions -/

/-- The seven SFU functions of R170. -/
inductive SfuFn where | rcp | rsq | sqrt | ex2 | lg2 | sinpi | cospi
deriving DecidableEq, Repr

/-- The square root of n / d with 120 fractional bits and a sticky bit: it rounds as the exact root does. -/
def sqrtQ (n d : Nat) : Nat × Nat :=
  let x := n * 2 ^ 240 / d
  let r := isqrt x
  let exact := r * r == x && n * 2 ^ 240 % d == 0
  (2 * r + (if exact then 0 else 1), 2 ^ 121)

/-- 2^x for a rational x with |x| below 2^9. -/
def exp2Q (neg : Bool) (n d : Nat) : Nat × Nat :=
  let i : Int := if neg then -((n + d - 1) / d : Nat) else (n / d : Nat)
  let f := if neg then (d - n % d) % d else n % d
  let m := if f = 0 then fixOne else expSeries (fixMul (f * fixOne / d) fixLn2) 60 1 fixOne 0
  let (a, b) := pow2 i
  (m * a, fixOne * b)

/-- log2 of n / d > 0. -/
def log2Q (n d : Nat) : Q :=
  let k := floorLog2 n d
  let (a, b) := pow2 k
  let num := n * b
  let den := d * a
  let z := (num - den) * fixOne / (num + den)
  let l := 2 * fixAtan false z
  ⟨k * fixOne + l * fixOne / fixLn2, fixOne⟩

/-- sin(pi x) for x = n / d ≥ 0: the sign and the magnitude over fixOne. -/
def sinPiQ (n d : Nat) : Bool × Nat :=
  let m := n % (2 * d)
  let neg := decide (d ≤ m)
  let r := m % d
  -- r / d in [0, 1): sin rises to 1/2 and falls
  let r := if 2 * r ≤ d then r else d - r
  let v := if r = 0 then 0 else if 2 * r = d then fixOne
    else if 4 * r ≤ d then fixSin (r * fixPi / d)
    else fixCos ((d - 2 * r) * fixPi / (2 * d))
  (neg, v)

/-- f(Exact(a)) with the special inputs of R171; the result is rounded once by the caller. -/
def sfu : SfuFn → FVal → FVal
  | _, .nan => .nan
  | .rcp, .inf s => .fin s 0 1
  | .rcp, .fin s n d => if n = 0 then .inf s else .fin s d n
  | .rsq, .inf s => if s then .nan else .fin false 0 1
  | .rsq, .fin s n d =>
    if n = 0 then .inf s else if s then .nan else let (a, b) := sqrtQ d n; .fin false a b
  | .sqrt, .inf s => if s then .nan else .inf false
  | .sqrt, .fin s n d =>
    if n = 0 then .fin s 0 1 else if s then .nan else let (a, b) := sqrtQ n d; .fin false a b
  | .ex2, .inf s => if s then .fin false 0 1 else .inf false
  | .ex2, .fin s n d =>
    -- beyond these bounds the result overflows, or rounds to zero
    if 200 * d ≤ n then (if s then .fin false 1 (2 ^ 200) else .inf false)
    else let (a, b) := exp2Q s n d; .fin false a b
  | .lg2, .inf s => if s then .nan else .inf false
  | .lg2, .fin s n d =>
    if n = 0 then .inf true else if s then .nan
    else FVal.ofQ false (log2Q n d)
  | .sinpi, .inf _ => .nan
  | .sinpi, .fin s n d =>
    if n % d = 0 then .fin s 0 1
    else let (t, v) := sinPiQ n d; .fin (s != t) v fixOne
  | .cospi, .inf _ => .nan
  | .cospi, .fin _ n d =>
    let (t, v) := sinPiQ (2 * n + d) (2 * d)
    .fin (t && v != 0) v fixOne

end Sys2Proof.Machine
end

