-- ==== Sys2Proof/Machine/Float.lean ====
section
/-! DEFINITION. Float.lean: OPC 0x20 to 0x2A and 0x30 to 0x34: float arithmetic, comparison, SFU and conversions
(spec/08_isa_float.md). -/

namespace Sys2Proof.Machine

/-! ## Shared forms -/

/-- The format of a float type's elements (R74, R158). -/
def fmtOf : Ty → FloatFmt
  | .f16 | .f16x2 => .f16
  | .bf16 | .bf16x2 => .bf16
  | .e4m3 => .e4m3
  | .e5m2 => .e5m2
  | _ => .f32

/-- The sign bits of a type's elements. -/
def signBits : Ty → DWord
  | .f16 | .bf16 => 0x8000
  | .f16x2 | .bf16x2 => 0x80008000
  | .e4m3 | .e5m2 => 0x80
  | _ => 0x80000000

/-- A float source: ABS, then NEG (R162). -/
def srcFloat (g : Group) (t : Ty) (imm : Word) (s : Src) (abs : Bool) (l : Nat) : DWord :=
  match s.sel with
  | .pred _ => srcAt g t imm s l
  | _ =>
    let x := srcAt g t imm { s with neg := false } l
    let x := if abs then x &&& ~~~(signBits t) else x
    if s.neg then negValue t x else x

/-- R159: uniform when every value source is uniform, else general. -/
def floatNominal (uni : Bool) : Nominal := if uni then .uniform else .general

def funi2 (g : Group) (o : Op) : Bool := srcUniform g o.ty o.a && srcUniform g o.ty o.b

/-- A result per element from A and B (R158, R163). -/
def float2 (o : Op) (v : View) (s : State) (abs : Abs) (f : FloatFmt → Nat → Nat → Nat) : Effect :=
  .done (writeVal s v o.ty (floatNominal (funi2 v.g o)) o.dst fun l =>
    onElems2 o.ty (f (fmtOf o.ty)) (srcFloat v.g o.ty o.imm o.a abs.a l) (srcFloat v.g o.ty o.imm o.b abs.b l))

/-- A result per element from A. -/
def float1 (o : Op) (v : View) (s : State) (f : FloatFmt → Nat → Nat) : Effect :=
  .done (writeVal s v o.ty (floatNominal (srcUniform v.g o.ty o.a)) o.dst fun l =>
    onElems1 o.ty (f (fmtOf o.ty)) (srcAt v.g o.ty o.imm o.a l))

/-! ## Arithmetic (R163) -/

def execFadd (abs : Abs) (o : Op) (s : State) : Host.Outcome State Fault Refusal :=
  native (.fadd abs o) s fun o v s => float2 o v s abs fadd

def execFsub (abs : Abs) (o : Op) (s : State) : Host.Outcome State Fault Refusal :=
  native (.fsub abs o) s fun o v s => float2 o v s abs fsub

def execFmul (abs : Abs) (o : Op) (s : State) : Host.Outcome State Fault Refusal :=
  native (.fmul abs o) s fun o v s => float2 o v s abs fmul

def execFfma (abs : Abs) (o : Op) (s : State) : Host.Outcome State Fault Refusal :=
  native (.ffma abs o) s fun o v s =>
    .done (writeVal s v o.ty (floatNominal (funi2 v.g o && srcUniform v.g o.ty o.c)) o.dst fun l =>
      onElems3 o.ty (ffma (fmtOf o.ty)) (srcFloat v.g o.ty o.imm o.a abs.a l)
        (srcFloat v.g o.ty o.imm o.b abs.b l) (srcFloat v.g o.ty o.imm o.c abs.c l))

/-! ## Minimum and maximum (R164) -/

/-- a below b, with −0 below +0. -/
def fBelow (a b : FVal) : Bool := fLess a b || (a.isZero && b.isZero && a.sign && !b.sign)

def fminmax (max nan : Bool) (f : FloatFmt) (a b : Nat) : Nat :=
  let x := f.decode a
  let y := f.decode b
  if x.isNan && y.isNan then f.nan
  else if x.isNan then (if nan then f.nan else b)
  else if y.isNan then (if nan then f.nan else a)
  else if max then (if fBelow x y then b else a) else (if fBelow y x then b else a)

def execFmin (nan : Bool) (o : Op) (s : State) : Host.Outcome State Fault Refusal :=
  native (.fmin nan o) s fun o v s => float2 o v s ⟨false, false, false⟩ (fminmax false nan)

def execFmax (nan : Bool) (o : Op) (s : State) : Host.Outcome State Fault Refusal :=
  native (.fmax nan o) s fun o v s => float2 o v s ⟨false, false, false⟩ (fminmax true nan)

/-! ## Comparison and classification (R165, R166) -/

def execFcmp (cond : FCond) (comb : Comb) (o : Op) (s : State) : Host.Outcome State Fault Refusal :=
  native (.fcmp cond comb o) s fun o v s =>
    let f := fmtOf o.ty
    .done (writePred s v o.dst fun l =>
      combine comb
        (fcondHolds cond (f.decode (srcAt v.g o.ty o.imm o.a l).toNat) (f.decode (srcAt v.g o.ty o.imm o.b l).toNat))
        (srcPred v.g o.c l))

def execFclass (o : Op) (s : State) : Host.Outcome State Fault Refusal :=
  native (.fclass o) s fun o v s =>
    let bit (l : Nat) : Nat := classBit (fmtOf o.ty) (srcAt v.g o.ty o.imm o.a l).toNat
    match o.dst with
    | .pred _ => .done (writePred s v o.dst fun l => o.imm.getLsbD (bit l))
    | _ => .done (writeVal s v .b32 (floatNominal (srcUniform v.g o.ty o.a)) o.dst fun l => 1#64 <<< bit l)

/-! ## Rounding to integral values (R167) -/

def frnd (r : Rnd) (f : FloatFmt) (a : Nat) : Nat :=
  match f.decode a with
  | .fin s n d => f.rne (FVal.ofQ s (Rational.ofInt (roundInt r s n d)))
  | x => f.rne x

def execFrnd (r : Rnd) (o : Op) (s : State) : Host.Outcome State Fault Refusal :=
  native (.frnd r o) s fun o v s => float1 o v s (frnd r)

/-! ## Division, dot products, SFU (R168 to R171) -/

def fdivVal : FVal → FVal → FVal
  | .nan, _ => .nan
  | _, .nan => .nan
  | .inf _, .inf _ => .nan
  | .inf s, .fin t _ _ => .inf (s != t)
  | .fin s _ _, .inf t => .fin (s != t) 0 1
  | .fin s n d, .fin t m e =>
    if m = 0 then (if n = 0 then .nan else .inf (s != t)) else .fin (s != t) (n * e) (d * m)

def fdiv (f : FloatFmt) (a b : Nat) : Nat := f.rne (fdivVal (f.decode a) (f.decode b))

def execFdiv (o : Op) (s : State) : Host.Outcome State Fault Refusal :=
  native (.fdiv o) s fun o v s => float2 o v s ⟨false, false, false⟩ fdiv

def fdot2 (fe fd : FloatFmt) (a b : DWord) (c : Nat) : Nat :=
  let p (k : Nat) : FVal := (fe.decode (elem 16 k a)).mul (fe.decode (elem 16 k b))
  roundSum fd [fd.decode c, p 0, p 1]

def execFdot2 (half : Bool) (o : Op) (s : State) : Host.Outcome State Fault Refusal :=
  native (.fdot2 half o) s fun o v s =>
    let fe := fmtOf o.ty
    let tc : Ty := if half then (if o.ty == .f16x2 then .f16 else .bf16) else .f32
    .done (writeVal s v tc (floatNominal (funi2 v.g o && srcUniform v.g tc o.c)) o.dst fun l =>
      BitVec.ofNat 64 (fdot2 fe (fmtOf tc) (srcAt v.g o.ty o.imm o.a l) (srcAt v.g o.ty o.imm o.b l)
        (srcAt v.g tc o.imm o.c l).toNat))

/-- RoundRNE of the function's exact value (R170). -/
def sfuOp (fn : SfuFn) (f : FloatFmt) (a : Nat) : Nat := f.rne (sfu fn (f.decode a))

def execFrcp (o : Op) (s : State) : Host.Outcome State Fault Refusal :=
  native (.frcp o) s fun o v s => float1 o v s (sfuOp .rcp)

def execFrsq (o : Op) (s : State) : Host.Outcome State Fault Refusal :=
  native (.frsq o) s fun o v s => float1 o v s (sfuOp .rsq)

def execFsqrt (o : Op) (s : State) : Host.Outcome State Fault Refusal :=
  native (.fsqrt o) s fun o v s => float1 o v s (sfuOp .sqrt)

def execFex2 (o : Op) (s : State) : Host.Outcome State Fault Refusal :=
  native (.fex2 o) s fun o v s => float1 o v s (sfuOp .ex2)

def execFlg2 (o : Op) (s : State) : Host.Outcome State Fault Refusal :=
  native (.flg2 o) s fun o v s => float1 o v s (sfuOp .lg2)

def execFsinpi (o : Op) (s : State) : Host.Outcome State Fault Refusal :=
  native (.fsinpi o) s fun o v s => float1 o v s (sfuOp .sinpi)

def execFcospi (o : Op) (s : State) : Host.Outcome State Fault Refusal :=
  native (.fcospi o) s fun o v s => float1 o v s (sfuOp .cospi)

/-! ## Conversions (R172 to R175) -/

def f2i (r : Rnd) (satur signed : Bool) (w : Nat) (x : FVal) : Nat :=
  match x with
  | .nan => 0
  | .inf s => if satur then wrap w (if s then loOf signed w else hiOf signed w) else 0
  | .fin s n d => narrow satur signed w (roundInt r s n d)

def execF2i (src : FSrc) (satur : Bool) (r : Rnd) (o : Op) (s : State) : Host.Outcome State Fault Refusal :=
  native (.f2i src satur r o) s fun o v s =>
    .done (writeVal s v o.ty (floatNominal (srcUniform v.g src.ty o.a)) o.dst fun l =>
      BitVec.ofNat 64 (f2i r satur o.ty.signed o.ty.bits ((fmtOf src.ty).decode (srcAt v.g src.ty o.imm o.a l).toNat)))

def execI2f (src : Ty) (o : Op) (s : State) : Host.Outcome State Fault Refusal :=
  native (.i2f src o) s fun o v s =>
    .done (writeVal s v o.ty (floatNominal (srcUniform v.g src o.a)) o.dst fun l =>
      let x := readInt src.signed src.bits (srcAt v.g src o.imm o.a l).toNat
      BitVec.ofNat 64 ((fmtOf o.ty).rne (FVal.ofQ false (Rational.ofInt x))))

/-- How a conversion with a seed rounds at an element index (R99, R100). -/
def roundModeOf (sr : Bool) (seed : Word) (index : Nat) : RoundMode :=
  if sr then .sr (srBits seed (BitVec.ofNat 32 index)) else .rne

def execF2f (satur sr : Bool) (src : FSrc) (o : Op) (s : State) : Host.Outcome State Fault Refusal :=
  native (.f2f satur sr src o) s fun o v s =>
    .done (writeVal s v o.ty (floatNominal (!sr && srcUniform v.g src.ty o.a)) o.dst fun l =>
      let x := (fmtOf src.ty).decode (srcAt v.g src.ty o.imm o.a l).toNat
      BitVec.ofNat 64 ((fmtOf o.ty).round (roundModeOf sr o.imm l) satur x).code)

def PackFmt.fmt : PackFmt → FloatFmt
  | .f16x2 => .f16 | .bf16x2 => .bf16 | .e4m3x2 => .e4m3 | .e5m2x2 => .e5m2

/-- Lane l of FPACK (R175). -/
def fpackLane (satur sr hi : Bool) (fmt : PackFmt) (seed : Word) (l : Nat) (a b c : Nat) : Nat :=
  let f := PackFmt.fmt fmt
  let conv (index x : Nat) : Nat := (f.round (roundModeOf sr seed index) satur (FloatFmt.f32.decode x)).code
  match fmt with
  | .f16x2 | .bf16x2 => conv (2 * l) a + 65536 * conv (2 * l + 1) b
  | _ =>
    if hi then c % 65536 + 65536 * conv (4 * l + 2) a + 16777216 * conv (4 * l + 3) b
    else conv (4 * l) a + 256 * conv (4 * l + 1) b + c / 65536 * 65536

def execFpack (satur sr hi : Bool) (fmt : PackFmt) (o : Op) (s : State) : Host.Outcome State Fault Refusal :=
  native (.fpack satur sr hi fmt o) s fun o v s =>
    let usesC := match fmt with | .f16x2 | .bf16x2 => false | _ => true
    let uni := !sr && funi2 v.g o && (!usesC || srcUniform v.g .b32 o.c)
    .done (writeVal s v .b32 (floatNominal uni) o.dst fun l =>
      BitVec.ofNat 64 (fpackLane satur sr hi fmt o.imm l (srcAt v.g .f32 o.imm o.a l).toNat
        (srcAt v.g .f32 o.imm o.b l).toNat (srcB32 v.g o.imm o.c l).toNat))

end Sys2Proof.Machine
end

