-- ==== Sys2Proof/Machine/Narrow.lean ====
section
/-! DEFINITION. Narrow.lean: the blocked formats: reading MX, KF4, L8, L4 and t3 elements, and converting into MX, KF4,
L8 and L4 with the events the health counters count (R101 to R122, R127, R128). -/

namespace Sys2Proof.Machine

/-! ## Events (R127) -/

/-- Events of SATE, FLZE, ZBLK and SBLK. -/
structure Counts where
  sate : Nat := 0
  flze : Nat := 0
  zblk : Nat := 0
  sblk : Nat := 0
  tinv : Nat := 0
deriving DecidableEq, Repr

def Counts.add (a b : Counts) : Counts :=
  { sate := a.sate + b.sate, flze := a.flze + b.flze, zblk := a.zblk + b.zblk, sblk := a.sblk + b.sblk,
    tinv := a.tinv + b.tinv }

def Counts.events (c : Counts) : List (Nat × Nat) := [(0, c.sate), (1, c.flze), (2, c.zblk), (3, c.sblk), (4, c.tinv)]

def totalCounts (cs : List Counts) : Counts := cs.foldl Counts.add {}

def ofBool (b : Bool) : Nat := if b then 1 else 0

/-! ## Magnitudes -/

/-- A positive rational n / d. -/
abbrev Mag := Nat × Nat

def magLt (a b : Mag) : Bool := decide (a.1 * b.2 < b.1 * a.2)
def magLe (a b : Mag) : Bool := decide (a.1 * b.2 ≤ b.1 * a.2)
def magMul (a b : Mag) : Mag := (a.1 * b.1, a.2 * b.2)
def magDiv (a b : Mag) : Mag := (a.1 * b.2, a.2 * b.1)

/-- The magnitude of a finite number. -/
def magOf : FVal → Mag
  | .fin _ n d => (n, d)
  | _ => (0, 1)

/-- The largest finite magnitude; 0 where there is none. -/
def maxMag (xs : List FVal) : Mag :=
  xs.foldl (fun m x => if magLt m (magOf x) then magOf x else m) (0, 1)

/-- 2^k. -/
def magPow (k : Int) : Mag := pow2 k

/-! ## Reading (R103, R104, R108 to R111, R116, R117) -/

/-- An E8M0 scale: NaN, or 2^(e - 127). -/
def e8m0 (code : Nat) : FVal := if code = 0xFF then .nan else let (n, d) := pow2 ((code : Int) - 127); .fin false n d

/-- An unsigned E3M5 scale (R110). -/
def e3m5 (code : Nat) : Mag :=
  let e := code / 32 % 8
  let m := code % 32
  if e = 0 then (m, 256) else let (n, d) := pow2 ((e : Int) - 4); (n * (32 + m), d * 32)

/-- Twice the magnitude of an E2M1 code (R108). -/
def e2m1Twice (code : Nat) : Nat :=
  match code % 8 with
  | 0 => 0 | 1 => 1 | 2 => 2 | 3 => 3 | 4 => 4 | 5 => 6 | 6 => 8 | _ => 12

/-- A KF4 element alone: code 1000 is the extra value (R108, R109). -/
def kf4Elem (xv : FVal) (code : Nat) : FVal :=
  if code % 16 = 8 then xv else .fin (decide (8 ≤ code % 16)) (e2m1Twice code) 2

/-- An element under its block scale: code 00 marks a block of zeros (R110). -/
def kf4Scaled (xv : FVal) (scale code : Nat) : FVal :=
  if scale = 0 then .fin false 0 1
  else let (n, d) := e3m5 scale; (kf4Elem xv code).mul (.fin false n d)

def mxi8Elem (code : Nat) : FVal := FVal.ofQ false ⟨toSigned 8 (code % 256), 64⟩

/-- 2^(k / m) to 200 bits, for a power of two m = 2^fuel: square roots taken by the floor. -/
def rootFixed : Nat → Nat → Nat
  | 0, n => n
  | fuel + 1, n => rootFixed fuel (isqrt n)

/-- 2^(k / 16) for k below 16. It is irrational unless k = 0, and 200 bits decide every rounding asked of it
(notes/assumptions/16.md). -/
def pow2Sixteenth (k : Nat) : Mag := (rootFixed 4 (2 ^ (k + 16 * 200)), 2 ^ 200)

/-- 2^(k / 16) for any k. -/
def pow2Frac (k : Int) : Mag := magMul (pow2 (k / 16)) (pow2Sixteenth (k % 16).toNat)

/-- The magnitude code and sign of an L8 or L4 element. -/
def lCode (l8 : Bool) (code : Nat) : Bool × Nat :=
  if l8 then (decide (128 ≤ code % 256), code % 128) else (decide (8 ≤ code % 16), code % 8)

/-- An L element alone (R116, R117). A code that reads as zero reads as +0 (DEDUCED, notes/assumptions/29.md). -/
def lElem (l8 : Bool) (code : Nat) : FVal :=
  let (s, c) := lCode l8 code
  if c = 0 then .fin false 0 1
  else let (n, d) := pow2Frac (if l8 then (c : Int) - 64 else 8 * ((c : Int) - 4)); .fin s n d

/-- The weights of a t3 byte, and whether it is invalid (R120). -/
def t3Weights (b : Nat) : List Int × Bool :=
  let trit (k : Nat) : Int := match b / 3 ^ k % 3 with | 0 => 0 | 1 => 1 | _ => -1
  if 243 ≤ b then (List.replicate 5 0, true) else ((List.range 5).map trit, false)

/-! ## Converting into unblocked floats (R97 to R102) -/

/-- A code, with the events of an unblocked conversion (R127). -/
def convFloat (f : FloatFmt) (mode : RoundMode) (satur : Bool) (x : FVal) : Nat × Counts :=
  let r := f.round mode satur x
  let zeroed := match x with | .fin _ n _ => n != 0 && r.code % f.signBit == 0 | _ => false
  (r.code, { sate := ofBool r.overflowed, flze := ofBool zeroed })

/-! ## Converting into MX formats (R105, R106) -/

/-- MX elements. -/
inductive MxElem where | e4m3 | e5m2 | int8
deriving DecidableEq, Repr

/-- One MXINT8 element: the integer, and whether it saturated. -/
def mxi8Round (mode : RoundMode) (x : FVal) : Nat × Bool :=
  let put (s : Bool) (m : Nat) : Nat := if s then (256 - m) % 256 else m
  match x with
  | .nan => (0, false)
  | .inf s => (put s 127, true)
  | .fin s n d =>
    let beyond := decide (127 * d < n)
    match mode with
    | .rne => let k := nearestEven n d; (put s (min k 127), decide (127 < k))
    | .sr r => if beyond then (put s 127, true) else (put s (n / d + (if r * d < 256 * (n % d) then 1 else 0)), false)

def mxRound (el : MxElem) (mode : RoundMode) (satur : Bool) (x : FVal) : Nat × Bool :=
  match el with
  | .int8 => mxi8Round mode (x.mul (.fin false 64 1))
  | .e4m3 => let r := FloatFmt.e4m3.round mode satur x; (r.code, r.overflowed)
  | .e5m2 => let r := FloatFmt.e5m2.round mode satur x; (r.code, r.overflowed)

def mxZero (el : MxElem) (code : Nat) : Bool :=
  match el with | .int8 => code == 0 | _ => code % 128 == 0

/-- A block of 32: scale code, element codes, events. The index of the block's first element names the random bits. -/
def convMx (el : MxElem) (mode : Nat → RoundMode) (satur : Bool) (xs : List FVal) : Nat × List Nat × Counts :=
  if xs.any FVal.isNan then (0xFF, xs.map fun _ => 0, {})
  else
    let amax := maxMag xs
    let emax : Int := match el with | .e4m3 => 8 | .e5m2 => 15 | .int8 => 0
    let e : Int := if amax.1 = 0 then -127 else max (-127) (min 127 (floorLog2 amax.1 amax.2 - emax))
    let (n, d) := pow2 (-e)
    let rs := (List.range xs.length).zip xs |>.map fun (i, x) => (x, mxRound el (mode i) satur (x.mul (.fin false n d)))
    let zero := rs.all fun r => mxZero el r.2.1
    let events : Counts :=
      { sate := (rs.filter fun r => r.2.2).length
        flze := (rs.filter fun r => !r.1.isZero && mxZero el r.2.1).length
        zblk := ofBool zero
        sblk := ofBool (rs.any fun r => r.2.2) }
    (if zero then 0 else (e + 127).toNat, rs.map fun r => r.2.1, events)

/-! ## Band scales (R112, R118) -/

/-- The exponent of a dynamic band scale for the largest finite magnitude A > 0. -/
def bandExp (t : Ty) (a : Mag) : Int :=
  match t with
  | .l8 => let m := ceilLog2 (a.1 ^ 16) (a.2 ^ 16 * 2 ^ 63); -((-m) / 16)
  | .l4 => let m := ceilLog2 (a.1 ^ 2) (a.2 ^ 2 * 2 ^ 3); -((-m) / 2)
  | _ => ceilLog2 (2 * a.1) (189 * a.2)

/-- A supplied band scale is used: it is a positive normal finite BF16 (R112). -/
def staticScale (stat : Nat) : Bool := decide (0x80 ≤ stat ∧ stat < 0x7F80)

/-- The BF16 code of a band's scale: the static one if it is a positive normal finite number, else the dynamic one. -/
def bandScale (t : Ty) (stat : Nat) (a : Mag) : Nat :=
  if staticScale stat then stat
  else if a.1 = 0 then 0x3F80
  else (max (-126) (min 127 (bandExp t a)) + 127).toNat * 128

/-! ## Converting into KF4 (R113 to R115) -/

/-- The candidates of one sign as magnitude and code, smallest first; the extra value where it is one of them. -/
def kf4Candidates (xv : FVal) (neg : Bool) : List (Mag × Nat) :=
  let ord := (List.range 8).map fun c => (((e2m1Twice c, 2) : Mag), if c = 0 then 0 else if neg then 8 + c else c)
  match xv with
  | .fin s n d =>
    let m : Mag := (n, d)
    if s != neg || n = 0 || ord.any (fun o => magLe o.1 m && magLe m o.1) then ord
    else (ord.takeWhile fun o => magLt o.1 m) ++ [(m, 8)] ++ ord.dropWhile fun o => magLt o.1 m
  | _ => ord

/-- The smallest block-scale code that covers bmax under S (R113). -/
def kf4Scale (sc bmax : Mag) : Nat :=
  if bmax.1 = 0 then 0
  else (((List.range 255).map (· + 1)).find? fun c => magLe bmax (magMul (6, 1) (magMul sc (e3m5 c)))).getD 255

/-- The element of magnitude y: its code and whether it saturated (R114). -/
def kf4Round (cands : List (Mag × Nat)) (mode : RoundMode) (y : Mag) : Nat × Bool :=
  let below := (cands.filter fun c => magLe c.1 y).getLast?
  let above := cands.find? fun c => magLt y c.1
  match below, above with
  | some b, none => (b.2, magLt b.1 y)
  | some b, some a =>
    if magLe y b.1 then (b.2, false)
    else
      -- y - b and a - y over one denominator
      let lo : Int := (y.1 * b.1.2 : Nat) - (b.1.1 * y.2 : Nat)
      let lo := lo * a.1.2
      let hi : Int := (a.1.1 * y.2 : Nat) - (y.1 * a.1.2 : Nat)
      let hi := hi * b.1.2
      match mode with
      | .rne =>
        if lo < hi then (b.2, false) else if hi < lo then (a.2, false)
        else if a.2 = 8 then (b.2, false) else if b.2 = 8 then (a.2, false)
        else if b.2 % 2 = 0 then (b.2, false) else (a.2, false)
      | .sr r => if (r : Int) * (lo + hi) < 256 * lo then (a.2, false) else (b.2, false)
  | none, _ => (0, false)

/-- The scale code of a block: FF where every element is infinite, and so saturates (R115); else R113's. A block of
infinities and zeros alone has bmax 0 and so code 00 (log entry 29). -/
def kf4BlockScale (sc : Mag) (xs : List FVal) : Nat := if xs.all FVal.isInf then 255 else kf4Scale sc (maxMag xs)

/-- A block of 8: block-scale code, element codes, events. -/
def convKf4 (xv : FVal) (sc : Mag) (mode : Nat → RoundMode) (xs : List FVal) : Nat × List Nat × Counts :=
  let c := kf4BlockScale sc xs
  let unit := magMul sc (e3m5 c)
  let one (i : Nat) (x : FVal) : Nat × Bool :=
    match x with
    | .nan => (0, false)
    | .inf s => (((kf4Candidates xv s).getLast?.map (·.2)).getD 0, true)
    | .fin s n d => if n = 0 || c = 0 then (0, false) else kf4Round (kf4Candidates xv s) (mode i) (magDiv (n, d) unit)
  let rs := (List.range xs.length).zip xs |>.map fun (i, x) => (x, one i x)
  let zero := rs.all fun r => r.2.1 == 0
  let events : Counts :=
    { sate := (rs.filter fun r => r.2.2).length
      flze := (rs.filter fun r => !r.1.isZero && r.2.1 == 0).length
      zblk := ofBool zero
      sblk := ofBool (rs.any fun r => r.2.2) }
  (if zero then 0 else c, rs.map fun r => r.2.1, events)

/-! ## Converting into L8 and L4 (R118) -/

/-- The integer nearest m * log2 (n / d), for m a power of two: never a tie (R118). -/
def logNearest (m : Nat) (x : Mag) : Int := (floorLog2 (x.1 ^ (2 * m)) (x.2 ^ (2 * m)) + 1) / 2

def convL (l8 : Bool) (sc : Mag) (x : FVal) : Nat × Counts :=
  let top := if l8 then 127 else 7
  let sign (s : Bool) (c : Nat) : Nat := if s then c + (if l8 then 128 else 8) else c
  match x with
  | .nan => (0, { flze := 1 })
  | .inf s => (sign s top, { sate := 1 })
  | .fin s n d =>
    if n = 0 then (0, {})
    else
      let r := magDiv (n, d) sc
      let c : Int := if l8 then 64 + logNearest 16 r else 4 + logNearest 2 r
      if c < 1 then (0, { flze := 1 })
      else if (top : Int) < c then (sign s top, { sate := 1 })
      else (sign s c.toNat, {})

end Sys2Proof.Machine
end

