-- ==== Sys2Proof/Machine/Lift.lean ====
section
/-! DEFINITION. Lift.lean: Lift copies with their conversions, batches, byte barriers, instruction prefetch and pinning
(R237 to R253, R410, R411). -/

namespace Sys2Proof.Machine

/-! ## Reading and writing on behalf of a group -/

/-- Why bytes at a virtual address cannot be had. -/
inductive VaErr where
  | missing (ctx page : Nat)
  | fails (reason : Nat) (addr : DWord)
deriving DecidableEq, Repr

/-- The key of one byte; write: the page has to allow it. -/
def vaKey (s : State) (b : Block) (write : Bool) (a : DWord) : Except VaErr Nat :=
  match targetFor s b a with
  | .at key w _ _ => if write && !w then .error (.fails mfPerm a) else .ok key
  | .fails r => .error (.fails r a)
  | .missing c p => .error (.missing c p)

/-- The keys of n bytes. -/
def vaKeys (s : State) (b : Block) (write : Bool) (a : DWord) : Nat → Except VaErr (List Nat)
  | 0 => .ok []
  | n + 1 => do
    let k ← vaKey s b write a
    let ks ← vaKeys s b write (a + 1) n
    return k :: ks

/-- The aligned words of 8 bytes that a range meets, each an access (R380): address and length. fuel: the range's bytes. -/
def wordsIn (a : DWord) : Nat → Nat → List (DWord × Nat)
  | 0, _ => []
  | _, 0 => []
  | fuel + 1, n =>
    let m := min n (8 - a.toNat % 8)
    (a, m) :: wordsIn (a + BitVec.ofNat 64 m) fuel (n - m)

/-- The bytes of one access. Poisoned data fail (R211 step 6). -/
def vaWord (s : State) (b : Block) (a : DWord) (n : Nat) : Except VaErr (List Byte) := do
  let ks ← vaKeys s b false a n
  if ks.any fun k => s.poisoned k 1 then .error (.fails mfPoison a) else return ks.map (memByte s.mem)

/-- Bytes to land at a virtual address. -/
def vaCells (s : State) (b : Block) (a : DWord) (bs : List Byte) : Except VaErr (List Host.Cell) := do
  let ks ← vaKeys s b true a bs.length
  return ks.zip bs

def mapExcept {α β ε : Type} (f : α → Except ε β) : List α → Except ε (List β)
  | [] => .ok []
  | x :: xs => do
    let y ← f x
    let ys ← mapExcept f xs
    return y :: ys

/-- n bytes as a number, low byte first, word by word. -/
def vaRead (s : State) (b : Block) (a : DWord) (n : Nat) : Except VaErr Nat := do
  let bs ← mapExcept (fun w => vaWord s b w.1 w.2) (wordsIn a n n)
  return leNat bs.flatten

/-! ## Copy descriptors (R241, R242) -/

/-- A descriptor with what the instruction adds. -/
structure Desc where
  src : DWord
  dst : DWord
  nx : Nat
  ny : Nat
  nz : Nat
  ctl : Nat
  ssy : DWord
  ssz : DWord
  dsy : DWord
  dsz : DWord
  sblk : DWord
  sband : DWord
  dblk : DWord
  dband : DWord
  seed : Word
  xv : Nat
  bscale : Nat
  tbar : DWord
  rest : Nat
deriving DecidableEq, Repr

def descOf (bs : List Byte) : Desc :=
  let at' (off n : Nat) : Nat := leNat ((bs.drop off).take n)
  let d (off : Nat) : DWord := BitVec.ofNat 64 (at' off 8)
  { src := d 0, dst := d 8, nx := at' 0x10 4, ny := at' 0x14 4, nz := at' 0x18 4, ctl := at' 0x1C 4,
    ssy := d 0x20, ssz := d 0x28, dsy := d 0x30, dsz := d 0x38, sblk := d 0x40, sband := d 0x48, dblk := d 0x50,
    dband := d 0x58, seed := BitVec.ofNat 32 (at' 0x60 4), xv := at' 0x64 2, bscale := at' 0x66 2, tbar := d 0x68,
    rest := at' 0x70 16 }

def Desc.sfmt (d : Desc) : Option Ty := Ty.ofCode (d.ctl % 32)
def Desc.dfmt (d : Desc) : Option Ty := Ty.ofCode (d.ctl / 256 % 32)
def Desc.rnd (d : Desc) : Nat := d.ctl / 65536 % 4
def Desc.sat (d : Desc) : Bool := d.ctl / 2 ^ 18 % 2 == 1
def Desc.mxe (d : Desc) : Bool := d.ctl / 2 ^ 19 % 2 == 1

/-- Formats with the layout of R107. -/
def blocked (t : Ty) : Bool := t.oneOf [.kf4, .mxf8, .mxi8, .l8, .l4]
def hasBlockScales (t : Ty) : Bool := t.oneOf [.kf4, .mxf8, .mxi8]
def hasBands (t : Ty) : Bool := t.oneOf [.kf4, .l8, .l4]

/-- Elements of a block; L4 packs two in a byte (R107). -/
def blockLen : Ty → Nat
  | .mxf8 | .mxi8 => 32 | .kf4 => 8 | .l4 => 2 | _ => 1

/-- The conversion pairs of R242. -/
def pairOk (s d : Ty) (rnd : Nat) : Bool :=
  let wide (t : Ty) : Bool := t.oneOf [.f32, .bf16, .f16]
  let narrow (t : Ty) : Bool := t.oneOf [.e4m3, .e5m2, .kf4, .mxf8, .mxi8, .l8, .l4]
  (wide s && (wide d || narrow d) && s != d || narrow s && wide d) && !(rnd == 1 && d.oneOf [.l8, .l4, .f32])

/-- R241 to R244 and the byte barrier rule of R250 for a descriptor. -/
def descOk (cv tb gather : Bool) (dim : Option CpyDim) (d : Desc) : Bool :=
  let zero (x : DWord) : Bool := x == 0
  let flat := gather || dim == some .d1
  let shape := d.nx ≤ 2 ^ 24 && 1 ≤ d.ny && d.ny ≤ 2 ^ 24 && 1 ≤ d.nz && d.nz ≤ 65536 &&
    (!flat || d.ny == 1) && (dim == some .d3 || d.nz == 1) && (!gather || (zero d.ssz && zero d.dsz)) && d.rest == 0
  let tbOk := if tb then ((ownerOf d.tbar == 3 || ownerOf d.tbar == 4) && d.tbar.toNat % 16 == 0) else zero d.tbar
  let plain := d.ctl == 0 && zero d.sblk && zero d.sband && zero d.dblk && zero d.dband && d.seed == 0 && d.xv == 0 && d.bscale == 0
  let conv := match d.sfmt, d.dfmt with
    | some s, some t =>
      d.ctl / 2 ^ 20 == 0 && d.ctl / 2 ^ 13 % 8 == 0 && d.ctl / 32 % 8 == 0 && d.rnd < 2 && pairOk s t d.rnd &&
      (hasBlockScales s || zero d.sblk) && (hasBands s || zero d.sband) &&
      (hasBlockScales t || zero d.dblk) && (hasBands t || zero d.dband) &&
      (d.rnd == 1 || d.seed == 0) && (s == .kf4 || t == .kf4 || d.xv == 0) && (hasBands t || d.bscale == 0) &&
      (!blocked s || (zero d.ssy && zero d.ssz && d.nx % blockLen s == 0)) &&
      (!blocked t || (zero d.dsy && zero d.dsz && d.nx % blockLen t == 0))
    | _, _ => false
  shape && tbOk && if cv then conv else plain

/-! ## Rows (R243, R244) -/

/-- A row of a copy: its place among the destination's rows, the source row under R107, and both addresses when the
side is not blocked. -/
structure CopyRow where
  dst : Nat
  src : Nat
  srcAddr : DWord
  dstAddr : DWord
deriving DecidableEq, Repr

def copyRows (d : Desc) (gather : Bool) (rows : List (Nat × Nat)) : List CopyRow :=
  if gather then rows.map fun (l, i) =>
    { dst := l, src := i, srcAddr := d.src + BitVec.ofNat 64 i * d.ssy, dstAddr := d.dst + BitVec.ofNat 64 l * d.dsy }
  else (List.range d.nz).flatMap fun z => (List.range d.ny).map fun y =>
    let r := z * d.ny + y
    { dst := r, src := r
      srcAddr := d.src + BitVec.ofNat 64 z * d.ssz + BitVec.ofNat 64 y * d.ssy
      dstAddr := d.dst + BitVec.ofNat 64 z * d.dsz + BitVec.ofNat 64 y * d.dsy }

/-- Bits of an element in memory and in a tile; t3 packs five weights into one byte. -/
def storedBits (t : Ty) : Nat :=
  match t with
  | .kf4 | .l4 => 4
  | .mxf8 | .mxi8 | .l8 | .t3 => 8
  | t => t.bits

def addr (a : DWord) (n : Nat) : DWord := a + BitVec.ofNat 64 n

/-- Address of element x of row r in the layout of R107. -/
def blockedAt (t : Ty) (base : DWord) (nx r x : Nat) : DWord := addr base ((r * nx + x) * storedBits t / 8)

/-- The value of element x of a row (R243). -/
def sourceElem (s : State) (b : Block) (d : Desc) (t : Ty) (row : CopyRow) (x : Nat) : Except VaErr FVal := do
  let band : Unit → Except VaErr FVal := fun _ => do
    let n ← vaRead s b (addr d.sband (2 * (row.src / 64))) 2
    return FloatFmt.bf16.decode n
  match t with
  | .kf4 =>
    let n ← vaRead s b (blockedAt t d.src d.nx row.src x) 1
    let sc ← vaRead s b (addr d.sblk (row.src * (d.nx / 8) + x / 8)) 1
    let bs ← band ()
    return (kf4Scaled (FloatFmt.bf16.decode d.xv) sc (if x % 2 = 0 then n % 16 else n / 16)).mul bs
  | .mxf8 =>
    let n ← vaRead s b (blockedAt t d.src d.nx row.src x) 1
    let sc ← vaRead s b (addr d.sblk (row.src * (d.nx / 32) + x / 32)) 1
    return ((if d.mxe then FloatFmt.e5m2 else .e4m3).decode n).mul (e8m0 sc)
  | .mxi8 =>
    let n ← vaRead s b (blockedAt t d.src d.nx row.src x) 1
    let sc ← vaRead s b (addr d.sblk (row.src * (d.nx / 32) + x / 32)) 1
    return (mxi8Elem n).mul (e8m0 sc)
  | .l8 =>
    let n ← vaRead s b (blockedAt t d.src d.nx row.src x) 1
    let bs ← band ()
    return (lElem true n).mul bs
  | .l4 =>
    let n ← vaRead s b (blockedAt t d.src d.nx row.src x) 1
    let bs ← band ()
    return (lElem false (if x % 2 = 0 then n % 16 else n / 16)).mul bs
  | _ =>
    let n ← vaRead s b (addr row.srcAddr (x * (storedBits t / 8))) (storedBits t / 8)
    return (fmtOf t).decode n

/-! ## The bytes a copy writes -/

/-- Bytes to land, by virtual address. -/
abbrev Piece := DWord × List Byte

/-- Pairs of nibbles, the even element low (R107). -/
def packNibbles : List Nat → List Byte
  | a :: b :: xs => BitVec.ofNat 8 (a % 16 + 16 * (b % 16)) :: packNibbles xs
  | [a] => [BitVec.ofNat 8 (a % 16)]
  | [] => []

def chunksOf {α : Type} (n : Nat) : Nat → List α → List (List α)
  | 0, _ => []
  | fuel + 1, xs => if xs.isEmpty then [] else xs.take n :: chunksOf n fuel (xs.drop n)

/-- Values of a row from element x0 on, a whole number of blocks, into the destination's format: its pieces and events. -/
def convRow (d : Desc) (t : Ty) (band : Nat) (row : CopyRow) (x0 : Nat) (xs : List FVal) : List Piece × Counts :=
  let mode (x : Nat) : RoundMode :=
    if d.rnd = 1 then .sr (srBits d.seed (BitVec.ofNat 32 (row.dst * d.nx + x0 + x))) else .rne
  let sc := magOf (FloatFmt.bf16.decode band)
  let numbered := (List.range xs.length).zip xs
  let blocks := chunksOf (blockLen t) xs.length xs
  match t with
  | .kf4 =>
    let rs := (List.range blocks.length).zip blocks |>.map fun (j, ys) =>
      convKf4 (FloatFmt.bf16.decode d.xv) sc (fun i => mode (8 * j + i)) ys
    ([(blockedAt t d.dst d.nx row.dst x0, packNibbles (rs.flatMap fun r => r.2.1)),
      (addr d.dblk (row.dst * (d.nx / 8) + x0 / 8), rs.map fun r => BitVec.ofNat 8 r.1)],
     totalCounts (rs.map fun r => r.2.2))
  | .mxf8 | .mxi8 =>
    let el : MxElem := if t == .mxi8 then .int8 else if d.mxe then .e5m2 else .e4m3
    let rs := (List.range blocks.length).zip blocks |>.map fun (j, ys) =>
      convMx el (fun i => mode (32 * j + i)) d.sat ys
    ([(blockedAt t d.dst d.nx row.dst x0, (rs.flatMap fun r => r.2.1).map (BitVec.ofNat 8)),
      (addr d.dblk (row.dst * (d.nx / 32) + x0 / 32), rs.map fun r => BitVec.ofNat 8 r.1)],
     totalCounts (rs.map fun r => r.2.2))
  | .l8 | .l4 =>
    let rs := xs.map (convL (t == .l8) sc)
    let codes := rs.map (·.1)
    ([(blockedAt t d.dst d.nx row.dst x0, if t == .l8 then codes.map (BitVec.ofNat 8) else packNibbles codes)],
     totalCounts (rs.map (·.2)))
  | _ =>
    let rs := numbered.map fun (x, v) => convFloat (fmtOf t) (mode x) d.sat v
    ([(addr row.dstAddr (x0 * (storedBits t / 8)), rs.flatMap fun r => leBytes (storedBits t / 8) r.1)], totalCounts (rs.map (·.2)))

/-- Addresses of everything a copy writes, as starts and lengths (R245). -/
def destRanges (d : Desc) (cv : Bool) (rows : List CopyRow) : List (DWord × Nat) :=
  match if cv then d.dfmt else none with
  | none => rows.map fun r => (r.dstAddr, d.nx)
  | some t =>
    if blocked t then
      (rows.flatMap fun r =>
        [(blockedAt t d.dst d.nx r.dst 0, d.nx * storedBits t / 8)] ++
        (if hasBlockScales t then [(addr d.dblk (r.dst * (d.nx / blockLen t)), d.nx / blockLen t)] else []) ++
        (if hasBands t then [(addr d.dband (2 * (r.dst / 64)), 2)] else []))
    else rows.map fun r => (r.dstAddr, d.nx * (storedBits t / 8))

/-! ## Pieces of a copy (R410, R411) -/

/-- Elements in a piece, bytes without a conversion: those of 128 source bytes. -/
def pieceLen (c : Copy) (d : Desc) : Nat :=
  match if c.cv then d.sfmt else none with
  | some t => 1024 / storedBits t
  | none => 128

def rowsOf (c : Copy) : List CopyRow := copyRows (descOf c.bytes) c.dim.isNone c.rows

/-- The pieces of a copy: place of the row among its rows, and first element. -/
def unitsOf (c : Copy) : List (Nat × Nat) :=
  let d := descOf c.bytes
  let n := pieceLen c d
  (List.range (rowsOf c).length).flatMap fun r => (List.range ((d.nx + n - 1) / n)).map fun i => (r, i * n)

/-- The values of n elements of a row from x0 on. -/
def sourceVals (s : State) (b : Block) (d : Desc) (t : Ty) (row : CopyRow) (x0 n : Nat) : Except VaErr (List FVal) :=
  mapExcept (fun i => sourceElem s b d t row (x0 + i)) (List.range n)

/-- What one piece writes, and its events. -/
def unitPieces (s : State) (b : Block) (c : Copy) (d : Desc) (row : CopyRow) (x0 : Nat) : Except VaErr (List Piece × Counts) :=
  let n := min (pieceLen c d) (d.nx - x0)
  match if c.cv then d.sfmt else none, d.dfmt with
  | some st, some dt => do
    let xs ← sourceVals s b d st row x0 n
    return convRow d dt (((c.scales.find? fun x => x.1 == row.dst / 64).map (·.2)).getD 0x3F80) row x0 xs
  | _, _ => do
    let x ← vaRead s b (addr row.srcAddr x0) n
    return ([(addr row.dstAddr x0, leBytes n x)], {})

/-- The source bytes of a piece, scales included, as starts and lengths. -/
def unitRanges (c : Copy) (d : Desc) (row : CopyRow) (x0 : Nat) : List (DWord × Nat) :=
  let n := min (pieceLen c d) (d.nx - x0)
  match if c.cv then d.sfmt else none with
  | none => [(addr row.srcAddr x0, n)]
  | some t =>
    if blocked t then
      [(blockedAt t d.src d.nx row.src x0, n * storedBits t / 8)] ++
      (if hasBlockScales t then [(addr d.sblk ((row.src * d.nx + x0) / blockLen t), n / blockLen t)] else []) ++
      (if hasBands t then [(addr d.sband (2 * (row.src / 64)), 2)] else [])
    else [(addr row.srcAddr (x0 * (storedBits t / 8)), n * (storedBits t / 8))]

/-- The bytes that a piece writes, block scales included, as starts and lengths. -/
def unitDests (c : Copy) (d : Desc) (row : CopyRow) (x0 : Nat) : List (DWord × Nat) :=
  let n := min (pieceLen c d) (d.nx - x0)
  match if c.cv then d.dfmt else none with
  | none => [(addr row.dstAddr x0, n)]
  | some t =>
    if blocked t then
      [(blockedAt t d.dst d.nx row.dst x0, n * storedBits t / 8)] ++
      (if hasBlockScales t then [(addr d.dblk ((row.dst * d.nx + x0) / blockLen t), n / blockLen t)] else [])
    else [(addr row.dstAddr (x0 * (storedBits t / 8)), n * (storedBits t / 8))]

/-! ## Frozen destinations (R245) -/

/-- The lowest byte of a range that a FROZEN (or THAWING) entry of the die's copy covers. -/
def rangeHit (s : State) (st : FrState) (die ctx : Nat) (r : DWord × Nat) : Option Nat :=
  minOf ((s.frtCopy.filter fun e => e.1 / 256 == die && e.2.state == st && e.2.ctx == ctx).filterMap fun e =>
    let lo := max r.1.toNat (e.2.base * 4096)
    if ownerOf r.1 == 0 && lo < r.1.toNat + r.2 && lo < (e.2.base + e.2.len) * 4096 then some lo else none)

def frozenRanges (s : State) (die ctx : Nat) (rs : List (DWord × Nat)) : FrozenCheck :=
  match minOf (rs.filterMap (rangeHit s .frozen die ctx)) with
  | some a => .frozen (BitVec.ofNat 64 a)
  | none => if rs.any fun r => (rangeHit s .thawing die ctx r).isSome then .stall else .clear

/-! ## CPY and CPYG -/

/-- The descriptor's bytes: aligned words of 8 (R241). -/
def readDesc (s : State) (b : Block) (a : DWord) : Except VaErr (List Byte) := do
  let n ← vaRead s b a 128
  return leBytes 128 n

/-- A copy that is never started (R246). -/
def failCopy (s : State) (v : View) (reason : Nat) (a : DWord) : State :=
  let (id, s) := s.fresh
  s.modGroup v.k fun g => { g with copyFails := g.copyFails ++
    [{ seq := id, pc := v.sp.pc, handler := v.g.handler, batch := none, reason := reason, addr := a }] }

def startCopy (tb cv : Bool) (dim : Option CpyDim) (o : Op) (v : View) (s : State) : Effect :=
  match lowestLane v.act with
  | none => .done s
  | some f =>
    let a := srcPair v.g o.a f
    if acquirePending s v.k v.sp.mask || !lanesSettled s v.k v.sp.mask ||
        64 ≤ (s.copies.filter fun c => c.grp == v.k).length then .hold s
    else if a.toNat % 8 != 0 then .done (failCopy s v mfDesc a)
    else match vaKeys s v.b false a 128 with
      | .error (.missing c p) => .hold (splitCalls s v.k v.sp.mask c p)
      | .error (.fails _ _) => .done (failCopy s v mfDesc a)
      | .ok _ =>
      let u := readAt s (dieOf v.k) v.b.ctx a 128 false
      -- the addresses were translated before the read filled TLBs
      match readDesc { u with tlb := s.tlb } v.b a, u with
      | .error _, s => .done (failCopy s v mfDesc a)
      | .ok bs, s =>
        let d := descOf bs
        let rows := if dim.isSome then [] else (maskLanes v.act).map fun l => (l, (srcData v.g 1 o.b l).toNat % 2 ^ 32)
        if !descOk cv tb dim.isNone dim d then .done (failCopy s v mfDesc a)
        else match frozenRanges s (dieOf v.k) v.b.ctx (destRanges d cv (copyRows d dim.isNone rows)) with
          | .frozen x => .trap s (atIssue v causeFrozen 3 x)
          | .stall => .hold (markStalled s v)
          | .clear =>
            let (id, s) := s.fresh
            let c : Copy :=
              { id := id, grp := v.k, seq := id, pc := v.sp.pc, handler := v.g.handler, ctx := v.b.ctx, batch := none,
                desc := a, bytes := bs, cv := cv, tb := tb, dim := dim, rows := rows }
            .done { s with copies := s.copies ++ [c] }

def execCpy (tb cv : Bool) (dim : CpyDim) (o : Op) (s : State) : Host.Outcome State Fault Refusal :=
  native (.cpy tb cv dim o) s fun o v s => startCopy tb cv (some dim) o v s

def execCpyg (tb cv : Bool) (o : Op) (s : State) : Host.Outcome State Fault Refusal :=
  native (.cpyg tb cv o) s fun o v s => startCopy tb cv none o v s

/-! ## Batches (R247, R248) -/

def execCbatch (o : Op) (s : State) : Host.Outcome State Fault Refusal :=
  native (.cbatch o) s fun o v s =>
    if v.act = 0 then .done s
    else
      let n := v.g.batch + 1
      let close (c : Copy) : Copy := if c.grp = v.k ∧ c.batch = none then { c with batch := some n } else c
      let mark (f : CopyFail) : CopyFail := if f.batch = none then { f with batch := some n } else f
      let s := { s with copies := s.copies.map close }
      let s := s.modGroup v.k fun g => { g with batch := n, copyFails := g.copyFails.map mark }
      .done (writeVal s v .b32 .uniform o.dst fun _ => n.setWidth 64)

/-- Whether batch b is one that CWAIT n covers. -/
def batchCovered (n : BitVec 16) (b : Option (BitVec 16)) : Bool :=
  match b with
  | some b => (n - b).toNat < 2 ^ 15
  | none => false

/-- The failure that a CWAIT without a predicate reports: the oldest batch, the first copy. -/
def oldestFail (n : BitVec 16) (fs : List CopyFail) : Option CopyFail :=
  (fs.filter fun f => batchCovered n f.batch).foldl (fun best f => match best with
    | none => some f
    | some g =>
      let age (x : CopyFail) : Nat := (n - (x.batch.getD 0)).toNat
      if age g < age f || (age g == age f && f.seq < g.seq) then some f else some g) none

/-- B of CWAIT: a register, ZERO or IMM. -/
def srcBatch (g : Group) (o : Op) (l : Nat) : BitVec 16 :=
  match o.a.sel with
  | .imm => o.imm.setWidth 16
  | _ => (srcData g 1 o.a l).setWidth 16

/-- With a predicate it takes away every failure that it covers, as R248 says, those of copies of the program too when a handler runs it, though
R345 keeps the program's faults for after TRET (DESIGN CHOICE, notes/assumptions/32.md). -/
def execCwait (o : Op) (s : State) : Host.Outcome State Fault Refusal :=
  native (.cwait o) s fun o v s =>
    match lowestLane v.act with
    | none => .done s
    | some f =>
      let n := srcBatch v.g o f
      if s.copies.any fun c => c.grp == v.k && batchCovered n c.batch then
        (if v.sp.wait.isSome then .hold s else .wait s .cwait)
      else match o.dst with
        | .pred _ =>
          let ok := !(v.g.copyFails.any fun x => batchCovered n x.batch)
          let s := s.modGroup v.k fun g => { g with copyFails := g.copyFails.filter fun x => !batchCovered n x.batch }
          .done (writePred s v o.dst fun _ => ok)
        | _ =>
          match oldestFail n (v.g.copyFails.filter fun x => x.handler == v.g.handler) with
          | some x =>
            .trap (s.modGroup v.k fun g => { g with copyFails := g.copyFails.erase x })
              (atIssue v causeMemfault x.reason x.addr)
          | none => .done s

/-! ## Byte barriers (R249 to R252) -/

/-- A byte barrier's fields. -/
structure ByteBar where
  bal : Word
  gota : Nat
  expa : Nat
  phase : Nat
  over' : Bool
deriving DecidableEq, Repr

def readBar (s : State) (key : Nat) : ByteBar :=
  let x := s.readMem key 16
  { bal := BitVec.ofNat 32 x, gota := x / 2 ^ 32 % 65536, expa := x / 2 ^ 48 % 65536, phase := x / 2 ^ 64 % 2 ^ 31,
    over' := x / 2 ^ 95 % 2 == 1 }

/-- Bits [127:96] keep what TBINIT wrote. -/
def writeBar (s : State) (key : Nat) (x : ByteBar) : State :=
  s.writeMem key 12 (x.bal.toNat + x.gota % 65536 * 2 ^ 32 + x.expa * 2 ^ 48 + x.phase % 2 ^ 31 * 2 ^ 64 +
    (if x.over' then 2 ^ 95 else 0))

/-- Check of R250. -/
def checkBar (x : ByteBar) : ByteBar :=
  if x.gota = x.expa ∧ x.bal.toInt ≤ 0 then
    { x with over' := decide (x.bal.toInt < 0), bal := 0, gota := 0, phase := (x.phase + 1) % 2 ^ 31 }
  else x

def modBar (s : State) (key : Nat) (f : ByteBar → ByteBar) : State := writeBar s key (checkBar (f (readBar s key)))

/-- What a byte barrier address gives lane f: a trap at issue, a held LIMIT, or the key. -/
def barFate (s : State) (v : View) (a : DWord) : Fate :=
  if ownerOf a != 3 && ownerOf a != 4 then .bad mfOwner else fateOf s v.b 16 a

/-- A byte-barrier operation at the address of lane f; zero is what goes into a destination when it fails. reads: it uses the barrier's
fields, which poison fails (R211 step 6, R443); TBINIT writes them all. -/
def barOp (reads : Bool) (o : Op) (v : View) (s : State) (f : Nat → Nat → State → Effect) : Effect :=
  match lowestLane v.act with
  | none => .done s
  | some l =>
    let a := laneAddr v.g o l
    let zero (s : State) : State := writeVal s v .b32 .uniform o.dst fun _ => 0
    let fails (reason : Nat) : Effect :=
      let (id, s) := issueStamp s v
      .done (holdFaults (zero s) v.k id v.sp.pc v.g.handler [(l, reason, a)])
    match barFate s v a with
    | .bad r => .trap (zero s) (afterIssue v causeMemfault r a)
    | .here key => if reads && s.poisoned key 16 then fails mfPoison else f l key s
    | _ => fails mfLimit

def execTbinit (o : Op) (s : State) : Host.Outcome State Fault Refusal :=
  native (.tbinit o) s fun o v s => barOp false o v s fun l key s =>
    let n := (srcData v.g 1 o.b l).toNat % 2 ^ 32
    let x := checkBar { bal := 0, gota := 0, expa := max 1 (min n 65535), phase := 0, over' := false }
    .done (writeBar (s.writeMem key 16 0) key x)

def execTbexp (o : Op) (s : State) : Host.Outcome State Fault Refusal :=
  native (.tbexp o) s fun o v s => barOp true o v s fun l key s =>
    .done (modBar s key fun x => { x with bal := x.bal + (srcData v.g 1 o.b l).setWidth 32 })

/-- TBARR is a release for the issuing split's lanes (R252). -/
def execTbarr (o : Op) (s : State) : Host.Outcome State Fault Refusal :=
  native (.tbarr o) s fun o v s => barOp true o v s fun l key s =>
    if !lanesSettled s v.k v.sp.mask then .hold s
    else
      let old := (readBar s key).phase
      let s := modBar s key fun x => { x with bal := x.bal + (srcData v.g 1 o.b l).setWidth 32, gota := (x.gota + 1) % 65536 }
      .done (writeVal s v .b32 .uniform o.dst fun _ => BitVec.ofNat 64 old)

/-- The end of TBWAIT is an acquire at .blk on owner 03 and at .cls on owner 04 (R252). The ADDR of BAROVER is the byte barrier's, by R340,
where R45 would have 0 (DEDUCED, notes/assumptions/20.md). -/
def execTbwait (strict : Bool) (o : Op) (s : State) : Host.Outcome State Fault Refusal :=
  native (.tbwait strict o) s fun o v s => barOp true o v s fun l key s =>
    let x := readBar s key
    if x.phase = (srcData v.g 1 o.b l).toNat % 2 ^ 31 then
      (if v.sp.wait.isSome then .hold s else let (id, s) := s.fresh; .wait (stampWait s v id) .tbwait)
    else
      let a := laneAddr v.g o l
      let s := acquireAt s (coreOf v.k) (if ownerOf a == 4 then .cls else .blk)
      if strict && x.over' then .trap s (afterIssue v causeBarover 0 a) else .done s

/-! ## Instruction prefetch and pinning (R253) -/

/-- Lane f's range: first line, and number of lines. -/
def textRange (v : View) (o : Op) (f : Nat) : Nat × Nat :=
  let a := (laneAddr v.g o f).toNat
  let len := (srcData v.g 1 o.b f).toNat % 2 ^ 32
  (a / 128, if len = 0 then 0 else (a + len - 1) / 128 - a / 128 + 1)

/-- Its last lines, as many as an instruction cache can hold. -/
def textLines (v : View) (o : Op) (f : Nat) : List Nat :=
  let (first, n) := textRange v o f
  (List.range (min 512 n)).map (first + n - min 512 n + ·)

/-- Lines come into a core's instruction cache of 64 KiB, the oldest leave it (R253). -/
def ilineFetch (s : State) (core : Nat) (ls : List Nat) : State :=
  let mine := s.ilines.filter fun x => x.1 == core
  let others := s.ilines.filter fun x => x.1 != core
  let all := mine ++ (ls.filter fun n => !(s.ilines.contains (core, n))).map fun n => (core, n)
  let pinned (n : Nat) : Bool := s.blocks.any fun e => e.2.core == core && e.2.pins.contains n
  let out := (all.filter fun x => !(pinned x.2)).take (all.length - 512)
  { s with ilines := others ++ all.filter fun x => !(out.contains x) }

/-- Text lines that the core's instruction cache does not hold are read at their homes or holders and come into it (R253, R360, R367). -/
def readText (s : State) (core ctx : Nat) (ls : List Nat) : State :=
  let out := ls.filter fun n => !(s.ilines.contains (core, n))
  ilineFetch (out.foldl (fun s n => readAt s (core / 32) ctx (BitVec.ofNat 64 (128 * n)) 128 false) s) core ls

/-- Lane f's range has owner 00 and a valid mapping throughout. -/
def textMapped (s : State) (v : View) (o : Op) (f : Nat) : Bool :=
  let (first, n) := textRange v o f
  ownerOf (laneAddr v.g o f) == 0 && decide ((first + n) * 128 ≤ 2 ^ 48) &&
  (List.range ((first % 512 + n + 511) / 512)).all fun i => (leafOf s (v.b.core / 32) v.b.ctx ((first / 512 + i) * 65536)).isSome

def execIpf (o : Op) (s : State) : Host.Outcome State Fault Refusal :=
  native (.ipf o) s fun o v s =>
    match lowestLane v.act with
    | none => .done s
    | some f =>
      .done (if textMapped s v o f then readText s (coreOf v.k) v.b.ctx (textLines v o f) else s)

/-- Pinned lines of a core: 128 lines of 128 bytes, each counted once (R253). -/
def pinnedOn (s : State) (core : Nat) : List (Nat × Nat) :=
  ((s.blocks.filter fun e => e.2.core == core).flatMap fun e => e.2.pins.map fun n => (e.2.ctx, n)).dedup

def pinLines (s : State) (bk : Nat) (b : Block) (ls : List Nat) : Option State :=
  let news := (ls.map fun n => (b.ctx, n)).filter fun x => !((pinnedOn s b.core).contains x)
  if (pinnedOn s b.core).length + news.length ≤ 128 then
    some { readText s b.core b.ctx ls with
      blocks := tmod s.blocks bk fun b => { b with pins := b.pins ++ ls.filter fun n => !(b.pins.contains n) } }
  else none

def execIpin (o : Op) (s : State) : Host.Outcome State Fault Refusal :=
  native (.ipin o) s fun o v s =>
    match lowestLane v.act with
    | none => .done s
    | some f =>
      let ok := textMapped s v o f && decide ((textRange v o f).2 ≤ 128)
      match if ok then pinLines s v.g.blk v.b (textLines v o f) else none with
      | some s => .done (writePred s v o.dst fun _ => true)
      | none => .done (writePred s v o.dst fun _ => false)

def execIunpin (o : Op) (s : State) : Host.Outcome State Fault Refusal :=
  native (.iunpin o) s fun o v s =>
    match lowestLane v.act with
    | none => .done s
    | some f =>
      let (first, len) := textRange v o f
      if !(textMapped s v o f) then .done s
      else
        let inside (n : Nat) : Bool := first ≤ n && n < first + len
        .done { s with blocks := tmod s.blocks v.g.blk fun b => { b with pins := b.pins.filter fun n => !inside n } }

/-! ## Copies under way -/

def copyFailed (s : State) (c : Copy) (reason : Nat) (a : DWord) : State :=
  let f : CopyFail := { seq := c.seq, pc := c.pc, handler := c.handler, batch := c.batch, reason := reason, addr := a }
  { s with copies := s.copies.filter fun x => x.id != c.id }.modGroup c.grp fun g => { g with copyFails := g.copyFails ++ [f] }

/-- Cells as runs of consecutive keys. -/
def runsOf : List Host.Cell → List (Nat × List Byte)
  | [] => []
  | (k, b) :: r =>
    match runsOf r with
    | (j, bs) :: rest => if j = k + 1 then (k, b :: bs) :: rest else (k, [b]) :: (j, bs) :: rest
    | [] => [(k, [b])]

/-- One line of a copy's or MST's writes lands: at its home or holder, with one step of its tag (R373, R376). -/
def landLine (s : State) (port : Nat) (way : Way) (cells : List Host.Cell) : State :=
  match cells with
  | [] => s
  | c :: _ =>
    let s := if c.1 < scratchKey 0 0 || peerKey 0 0 ≤ c.1 then dropStale (bumpTag (atHolder s port way c.1) c.1) c.1 else s
    (runsOf cells).foldl (fun s r => s.writeBytes r.1 r.2) s

/-- The cells that lie in the same lines as the first n after a freely chosen place. -/
def freePiece (s : State) (cells : List Host.Cell) (n : Nat) : List Host.Cell × List Host.Cell × State :=
  let (w, s) := s.draw
  let i := if cells.isEmpty then 0 else w.toNat % cells.length
  let lines := ((cells.drop i ++ cells.take i).take (max 1 n)).map fun c => lineOf c.1
  (cells.filter fun c => lines.contains (lineOf c.1), cells.filter fun c => !(lines.contains (lineOf c.1)), s)

/-- Lines of a group of cells, each with its cells in order. -/
def byLine (cells : List Host.Cell) : List (List Host.Cell) :=
  (cells.map fun c => lineOf c.1).dedup.map fun n => cells.filter fun c => lineOf c.1 == n

/-- Cells that follow each other, cut where their line ends. -/
def lineRuns (cells : List Host.Cell) : List (List Host.Cell) :=
  cells.foldr (fun c acc => match acc with
    | (d :: r) :: rest => if lineOf c.1 = lineOf d.1 then (c :: d :: r) :: rest else [c] :: (d :: r) :: rest
    | _ => [[c]]) []

/-- Cells land line by line; ways: how lines are reached, where it is not as owner 00 at the port. -/
def landCells (s : State) (port : Nat) (ways : List (Nat × Way)) (cells : List Host.Cell) : State :=
  (byLine cells).foldl (fun s l =>
    landLine s port ((ways.find? fun w => l.any fun c => lineOf c.1 == w.1).map (·.2) |>.getD .own) l) s

/-- A piece lands and is counted into the byte barrier (R250). -/
def deliver (s : State) (c : Copy) (b : Block) (cells : List Host.Cell) : State :=
  let s := landCells s (dieOf c.grp) c.ways cells
  let s := { s with l1 := s.l1.filter fun l => l.core != coreOf c.grp || l.replica }
  if c.tb then
    match placeOf s b (descOf c.bytes).tbar with
    | .local key =>
      if s.poisoned key 16 then copyFailed s c mfPoison (descOf c.bytes).tbar
      else modBar s key fun x => { x with bal := x.bal - BitVec.ofNat 32 cells.length }
    | _ => s
  else s

def findCopy (s : State) (id : Nat) : Option (Copy × Block) := do
  let c ← s.copies.find? fun c => c.id == id
  let g ← s.group c.grp
  let b ← tget s.blocks g.blk
  return (c, b)

def setCopy (s : State) (c : Copy) : State := { s with copies := s.copies.map fun x => if x.id = c.id then c else x }

/-- An access of the copy cannot be made: it waits for the MMP, which is told of its refaults (R366), or fails. -/
def copyStops (s : State) (c : Copy) : VaErr → State
  | .missing x p => let (st, s) := c.stall.meets s c.id x p; setCopy s { c with stall := st }
  | .fails r a => copyFailed s c r a

/-- A core has a piece for its die's edge converter: a converting copy of it does not wait for the MMP. -/
def convertsOn (s : State) (core : Nat) : Bool :=
  s.copies.any fun c => coreOf c.grp == core && c.cv && (c.units.any fun u => !u.isEmpty) && !(c.stall.page.any s.mmp.contains) &&
    decide (c.cells.length < 4096)

/-- The converter of the copy's die comes to its core next: the cores with a piece are served in turn (R410). -/
def converterTurn (s : State) (c : Copy) : Bool :=
  let die := dieOf c.grp
  let last := ((tget s.converter die).getD 31) % 32
  let place (core : Nat) : Nat := (core % 32 + 31 - last) % 32
  (List.range 32).all fun i => !convertsOn s (die * 32 + i) || decide (place (coreOf c.grp) ≤ place i)

/-- Neither side leaves the core: a copy without a conversion between scratchpads and windows needs no port (R410). -/
def copyInside (c : Copy) : Bool :=
  let near (a : DWord) : Bool := decide (3 ≤ ownerOf a ∧ ownerOf a ≤ 5)
  !c.cv && (rowsOf c).all fun r => near r.srcAddr && near r.dstAddr

/-- The copy goes on: its die runs, and the port carries packets where it needs it (R422). -/
def copyRuns (s : State) (c : Copy) : Bool :=
  dieRuns s (dieOf c.grp) && (linkOpen s (dieOf c.grp) || copyInside c)

/-! ### Words that several pieces share (R380) -/

/-- The aligned words of 8 that a range meets without covering them. -/
def edgeWords (r : DWord × Nat) : List Nat :=
  let lo := r.1.toNat
  let hi := lo + r.2
  (if lo % 8 = 0 then [] else [lo / 8]) ++ (if hi % 8 = 0 then [] else [hi / 8])

/-- The addresses of a word's bytes that some range of a list covers. -/
def bytesIn (rs : List (DWord × Nat)) (word : Nat) : List Nat :=
  ((List.range 8).map (8 * word + ·)).filter fun x => rs.any fun r => r.1.toNat ≤ x && x < r.1.toNat + r.2

/-- The ranges of some pieces. -/
def rangesOf (f : CopyRow → Nat → List (DWord × Nat)) (rows : List CopyRow) (us : List (Nat × Nat)) : List (DWord × Nat) :=
  us.flatMap fun u => match rows[u.1]? with
    | some row => f row u.2
    | none => []

/-- The state in which a piece's words that are read already hold what was read. -/
def withBuf (s : State) (b : Block) (c : Copy) : State :=
  c.buf.foldl (fun (s : State) x => match vaKey s b false (BitVec.ofNat 64 x.1) with
    | .ok k => { s with mem := memPut s.mem k x.2 }
    | .error _ => s) s

/-- What is kept of the words that a piece has read, for the pieces that are still to be read. t: the state that it was read in. -/
def keepWords (t : State) (b : Block) (c : Copy) (mine : List (DWord × Nat)) (rest : List (DWord × Nat)) : List Host.Cell :=
  let words := (mine.flatMap edgeWords).dedup
  let new := (words.flatMap (bytesIn rest)).filterMap fun x =>
    match vaKey t b false (BitVec.ofNat 64 x) with
    | .ok k => if t.poisoned k 1 then none else some (x, memByte t.mem k)
    | .error _ => none
  let old := c.buf.filter fun x => !(words.contains (x.1 / 8)) && !(bytesIn rest (x.1 / 8)).isEmpty
  old ++ new

/-- The bytes of pieces, by address. -/
def bytesOf (ps : List Piece) : List Host.Cell :=
  ps.flatMap fun (p : Piece) => p.2.zipIdx.map fun (x : Byte × Nat) => ((addr p.1 x.2).toNat, x.1)

/-- Bytes to land, with those that waited, and the ones that have to wait for the rest of their word. -/
def closedBytes (c : Copy) (ps : List Piece) (rest : List (DWord × Nat)) : List Host.Cell × List Host.Cell :=
  let words := ((ps.flatMap fun (p : Piece) => edgeWords (p.1, p.2.length)) ++ c.part.map fun (x : Host.Cell) => x.1 / 8).dedup
  let openWords := words.filter fun w => !(bytesIn rest w).isEmpty
  (c.part ++ bytesOf ps).partition fun (x : Host.Cell) => !(openWords.contains (x.1 / 8))

/-! ### The reads of a copy -/

/-- The keys that bytes land at, and how lines are reached that are not the die's own way. -/
def landingCells (s : State) (b : Block) (xs : List Host.Cell) : Except VaErr (List Host.Cell × List (Nat × Way)) := do
  let cs ← mapExcept (fun (x : Host.Cell) => do
    let k ← vaKey s b true (BitVec.ofNat 64 x.1)
    return (k, x.2, wayOf s (b.core / 32) b.ctx (BitVec.ofNat 64 x.1))) xs
  return (cs.map fun x => (x.1, x.2.1), ((cs.filter fun x => x.2.2 != .own).map fun x => (lineOf x.1, x.2.2)).dedup)

/-- Bytes stand to land. -/
def Copy.lands (c : Copy) (s : State) (b : Block) (xs : List Host.Cell) : Except VaErr Copy := do
  let (cells, ways) ← landingCells s b xs
  return { c with cells := c.cells ++ cells, ways := (c.ways ++ ways).dedup }

/-- The band scales are dynamic: none is supplied, or none that is a positive normal finite number (R112, R118). -/
def dynamicBands (c : Copy) (d : Desc) : Bool := c.cv && d.dfmt.any hasBands && !staticScale d.bscale

/-- The copy begins: its pieces stand to be read, for dynamic band scales once before (R411). -/
def beginCopy (c : Copy) : Copy :=
  match c.units with
  | some _ => c
  | none =>
    let us := unitsOf c
    { c with units := some us, scan := if dynamicBands c (descOf c.bytes) then us else [] }

/-- The copy has band scales to find and to write. -/
def needsScales (c : Copy) : Bool := c.cv && (descOf c.bytes).dfmt.any hasBands && c.scales.isEmpty

/-- The band scales, once every value of the bands is known (R112, R411). A copy with no element still has its bands, whose scales it writes
(DESIGN CHOICE, notes/assumptions/28.md). -/
def giveScales (s : State) (c : Copy) (b : Block) : Except VaErr Copy :=
  let d := descOf c.bytes
  let most (r : Nat) : Mag := ((c.maxes.find? fun x => x.1 == r).map (·.2)).getD (0, 1)
  let scales := ((rowsOf c).map fun x => x.dst / 64).dedup.map fun r => (r, bandScale (d.dfmt.getD .kf4) d.bscale (most r))
  { c with scales := scales, buf := [] }.lands s b (bytesOf (scales.map fun (x : Nat × Nat) => (addr d.dband (2 * x.1), leBytes 2 x.2)))

/-- The addresses of a piece's accesses are there. -/
def unitThere (s : State) (b : Block) (c : Copy) (row : CopyRow) (x0 : Nat) : Except VaErr Unit := do
  let d := descOf c.bytes
  let _ ← mapExcept (fun r => vaKeys s b false r.1 r.2) (unitRanges c d row x0)
  let _ ← mapExcept (fun r => vaKeys s b true r.1 r.2) (unitDests c d row x0)
  return ()

/-- A piece is read at its lines' homes, holders or replicas: what f makes of the bytes, with the words kept for the pieces that are still to
be read (R239, R380, R397). -/
def readPiece {α : Type} (s : State) (c : Copy) (b : Block) (row : CopyRow) (u : Nat × Nat) (rest : List (Nat × Nat))
    (f : State → Except VaErr α) : State × Except VaErr (α × Copy) :=
  let d := descOf c.bytes
  match unitThere s b c row u.2 with
  | .error e => (s, .error e)
  | .ok _ =>
    let s := (unitRanges c d row u.2).foldl (fun s r => readAt s (b.core / 32) b.ctx r.1 r.2 true) s
    let t := withBuf s b c
    (s, do
      let x ← f t
      return (x, { c with buf := keepWords t b c (unitRanges c d row u.2) (rangesOf (unitRanges c d) (rowsOf c) rest), piece := none, stall := {} }))

/-- A first read for the dynamic band scales (R411). -/
def scanUnit (s : State) (c : Copy) (b : Block) (row : CopyRow) (u : Nat × Nat) : State × Except VaErr Copy :=
  let d := descOf c.bytes
  let rest := c.scan.filter (· != u)
  let r := readPiece s c b row u rest fun t => match d.sfmt with
    | some st => sourceVals t b d st row u.2 (min (pieceLen c d) (d.nx - u.2))
    | none => .ok []
  let band := row.dst / 64
  (r.1, r.2.map fun x =>
    let old : Mag := ((c.maxes.find? fun m => m.1 == band).map (·.2)).getD (0, 1)
    let new := maxMag x.1
    { x.2 with scan := rest, maxes := (c.maxes.filter fun m => m.1 != band) ++ [(band, if magLt old new then new else old)] })

/-- One more piece is read and converted: the copy with its cells, and what the read leaves. -/
def readUnit (s : State) (c : Copy) (b : Block) (row : CopyRow) (u : Nat × Nat) : State × Except VaErr Copy :=
  let d := descOf c.bytes
  let rest := (c.units.getD []).filter (· != u)
  let r := readPiece s c b row u rest fun t => unitPieces t b c d row u.2
  match r.2 with
  | .error e => (r.1, .error e)
  | .ok ((ps, ev), c) =>
    let (now, later) := closedBytes c ps (rangesOf (unitDests c d) (rowsOf c) rest)
    let s := (unitDests c d row u.2).foldl (fun s r => fillRange s (dieOf c.grp) b.ctx r.1 r.2) r.1
    match { c with units := some rest, part := later }.lands s b now with
    | .error e => (s, .error e)
    | .ok c =>
      let s := if c.cv then { s with converter := tset s.converter (dieOf c.grp) (coreOf c.grp) } else s
      (healthEvents s c.grp c.seq c.pc c.handler ev.events, .ok c)

/-- Which of its pieces a copy comes to is free (R243); one that met an invalid entry it tries again. -/
def choosePiece (s : State) (c : Copy) : Copy × State :=
  match c.piece with
  | some _ => (c, s)
  | none =>
    let (u, s) := pickFree s (if c.scan.isEmpty then c.units.getD [] else c.scan)
    ({ c with piece := u }, s)

/-- The copy goes on, where the converter comes to it and not too much of it stands to land: a first read, its band scales, or one more
piece. -/
def advanceCopy (s : State) (c : Copy) (b : Block) : State × Except VaErr Copy :=
  if c.cv && !converterTurn (setCopy s c) c || 4096 ≤ c.cells.length then (s, .ok c)
  else if c.scan.isEmpty && needsScales c then (s, giveScales s c b)
  else
    match c.piece.bind fun u => (rowsOf c)[u.1]?.map fun row => (row, u) with
    | none => (s, .ok c)
    | some (row, u) => if c.scan.isEmpty then readUnit s c b row u else scanUnit s c b row u

/-- Bytes of the copy's destination wait at frozen lines of the pod context (R401). -/
def copyHeld (s : State) (c : Copy) : Bool :=
  (destRanges (descOf c.bytes) c.cv (rowsOf c)).any fun r => heldAtPod s (dieOf c.grp) c.ctx r.1 r.2

/-- A TBAR beyond its owner's limit is an access that fails. -/
def barLost (s : State) (c : Copy) (b : Block) : Bool :=
  c.tb && match placeOf s b (descOf c.bytes).tbar with | .local _ => false | _ => true

/-- Bytes of a copy land in about k lines, in no stated order (R250); none: one of its accesses stops it first. -/
def landCopy (s : State) (c : Copy) (b : Block) (k : Nat) : State :=
  if copyHeld s c then setCopy s c
  else
    let (now, rest, s) := freePiece s c.cells k
    deliver (setCopy s { c with cells := rest }) { c with cells := rest } b now

/-- COPY_BYTES_DELIVERED: the copy reads one more piece, and some of its bytes land, in k lines by a count of 512. -/
def execCopyBytesDelivered (id k : Nat) (s : State) : Host.Outcome State Fault Refusal :=
  event (match findCopy s id with
    | none => s
    | some (c, b) =>
      if !(copyRuns s c) then s
      else if barLost s c b then copyFailed s c mfLimit (descOf c.bytes).tbar
      else
        let (c, s) := choosePiece s (beginCopy c)
        match advanceCopy s c b with
        | (s, .error e) => copyStops s c e
        | (s, .ok c) => landCopy s c b (k % 512))

/-- COPY_COMPLETE: every byte has landed (R239). -/
def execCopyComplete (id : Nat) (s : State) : Host.Outcome State Fault Refusal :=
  event (match findCopy s id with
    | none => s
    | some (c, _) =>
      if !(copyRuns s c) then s
      else
        let c := beginCopy c
        if c.units = some [] && c.cells.isEmpty && !needsScales c then { s with copies := s.copies.filter fun x => x.id != id }
        else setCopy s c)

end Sys2Proof.Machine
end

