-- ==== Sys2Proof/Machine/Matrix.lean ====
section
/-! DEFINITION. Matrix.lean: tile slots and their headers, MCLAIM to MCNT, and the work of the matrix units (R119, R123 to
R129, R254 to R267, R443, R447). -/

namespace Sys2Proof.Machine

/-! ## Slots and headers (R254 to R256) -/

/-- A slot header's fields (R255). -/
structure SlotHdr where
  fmt : Nat := 0
  mxe : Bool := false
  rows : Nat := 0
  cols : Nat := 0
  role : Nat := 0
  sslot : Nat := 0
  soff : Nat := 0
  xv : Nat := 0
deriving DecidableEq, Repr

def SlotHdr.word (h : SlotHdr) : BitVec 64 :=
  BitVec.ofNat 64 (h.fmt % 32 + (if h.mxe then 2 ^ 14 else 0) + h.rows % 256 * 2 ^ 15 + h.cols % 512 * 2 ^ 23 +
    h.role % 4 * 2 ^ 32 + h.sslot % 16 * 2 ^ 34 + h.soff % 1024 * 2 ^ 38 + h.xv % 65536 * 2 ^ 48)

def SlotHdr.ofWord (w : BitVec 64) : SlotHdr :=
  let n := w.toNat
  { fmt := n % 32, mxe := n / 2 ^ 14 % 2 == 1, rows := n / 2 ^ 15 % 256, cols := n / 2 ^ 23 % 512, role := n / 2 ^ 32 % 4,
    sslot := n / 2 ^ 34 % 16, soff := n / 2 ^ 38 % 1024, xv := n / 2 ^ 48 }

def slotHdr (s : State) (part slot : Nat) : SlotHdr := SlotHdr.ofWord ((tget s.hdrs (part * 16 + slot)).getD 0)

def setHdr (s : State) (part slot : Nat) (h : SlotHdr) : State := { s with hdrs := tset s.hdrs (part * 16 + slot) h.word }

/-- The header of MZERO and of a result quad's slots (R257, R263). -/
def accHdr : SlotHdr := { fmt := Ty.code .f32, role := 2, rows := 32, cols := 128 }

/-- COLS and row bytes of an operand tile (R256). -/
def tileCols : Ty → Nat
  | .f32 => 32 | .bf16 | .f16 => 64 | .kf4 | .l4 => 256 | _ => 128

def tileRowBytes : Ty → Nat
  | .t3 => 26 | _ => 128

/-- Bytes of the scale region (R256). -/
def scaleBytes : Ty → Nat
  | .mxf8 | .mxi8 | .t3 => 512 | .kf4 => 4100 | .l8 | .l4 => 4 | _ => 0

def tileByte (s : State) (part slot off : Nat) : Nat := (memByte s.tile (tileKey part slot off)).toNat

def tileRead (s : State) (part slot off n : Nat) : Nat := leNat (memRead s.tile (tileKey part slot off) n)

/-- Bytes into a slot: whole words of it lose their poison (R443). -/
def tileWrite (s : State) (part slot off : Nat) (bs : List Byte) : State :=
  let key := tileKey part slot off
  { s with
    tile := memWrite s.tile key bs
    tilePoison := s.tilePoison.filter fun w => !(key ≤ 4 * w && 4 * w + 4 ≤ key + bs.length) }

def tilePoisoned (s : State) (part slot off n : Nat) : Bool :=
  let key := tileKey part slot off
  s.tilePoison.any fun w => key < 4 * w + 4 && 4 * w < key + n

/-! ## The slot scoreboard (R264) -/

def slotBit (n : Nat) : BitVec 16 := 1#16 <<< n

def slotsMask (l : List Nat) : BitVec 16 := l.foldl (fun m n => m ||| slotBit n) 0

def slotsBusy (s : State) (part : Nat) (m : BitVec 16) : Bool :=
  s.matq.any fun o => o.part == part && o.slots &&& m != 0

/-- The lowest slot of a mask that the group has not claimed. -/
def unclaimed (g : Group) (m : BitVec 16) : Option Nat :=
  (List.range 16).find? fun n => m.getLsbD n && !g.claims.getLsbD n

def slotFault (v : View) (s : State) (slot : Nat) : Effect :=
  .trap s (atIssue v causeMemfault mfSlot (BitVec.ofNat 64 slot))

/-- What every instruction that names slots does first: nothing without active lanes, the scoreboard wait, the claims. -/
def onSlots (v : View) (s : State) (m : BitVec 16) (body : Nat → Effect) : Effect :=
  match lowestLane v.act with
  | none => .done s
  | some f =>
    if slotsBusy s (partOf v.k) m then .hold s
    else match unclaimed v.g m with
      | some n => slotFault v s n
      | none => body f

/-! ## MCLAIM, MREL, MZERO (R257) -/

/-- Slots that other groups of the partition hold. -/
def othersClaims (s : State) (k : Nat) : BitVec 16 :=
  (s.groups.filter fun e => partOf e.1 == partOf k && e.1 != k).foldl (fun m e => m ||| e.2.claims) 0

/-- The slots of a group's MCLAIM that waits and could be served now: its block runs (R347). -/
def readyClaims (s : State) (k : Nat) (g : Group) : List (BitVec 16) :=
  ((g.active ++ g.parked).filter fun p => p.wait == some .slot && g.trapEvent.isNone).filterMap fun p =>
    match (tget s.blocks g.blk).bind fun b => if b.phase == .running then textInstr s b g p.pc else none with
    | some (.mclaim o) =>
      let m : BitVec 16 := o.imm.setWidth 16
      if othersClaims s k &&& m == 0 && !slotsBusy s (partOf k) m then some m else none
    | _ => none

/-- A group of a lower slot of the partition is served first (R257). -/
def claimedFirst (s : State) (k : Nat) (m : BitVec 16) : Bool :=
  s.groups.any fun e => partOf e.1 == partOf k && decide (e.1 < k) && (readyClaims s e.1 e.2).any fun x => x &&& m != 0

def execMclaim (o : Op) (s : State) : Host.Outcome State Fault Refusal :=
  native (.mclaim o) s fun o v s =>
    let m : BitVec 16 := o.imm.setWidth 16
    let free := othersClaims s v.k &&& m == 0
    let claim (s : State) : State := s.modGroup v.k fun g => { g with claims := g.claims ||| m }
    let waits : Effect := if v.sp.wait.isSome then .hold s else .wait s .slot
    if v.act = 0 then .done s
    else match o.dst with
      | .pred _ =>
        if slotsBusy s (partOf v.k) m then .hold s
        else
          let free := free && !claimedFirst s v.k m
          .done (writePred (if free then claim s else s) v o.dst fun _ => free)
      | _ => if free && !slotsBusy s (partOf v.k) m && !claimedFirst s v.k m then .done (claim s) else waits

def execMrel (o : Op) (s : State) : Host.Outcome State Fault Refusal :=
  native (.mrel o) s fun o v s =>
    let m : BitVec 16 := o.imm.setWidth 16
    if v.act = 0 then .done s
    else if slotsBusy s (partOf v.k) m then (if v.sp.wait.isSome then .hold s else .wait s .slot)
    else .done (s.modGroup v.k fun g => { g with claims := g.claims &&& ~~~m })

/-- A slot reads zero; its header is given. -/
def clearSlot (s : State) (part : Nat) (h : SlotHdr) (slot : Nat) : State :=
  let key := tileKey part slot 0
  setHdr { s with tile := memClear s.tile key 16384
                  tilePoison := s.tilePoison.filter fun w => !(key ≤ 4 * w && 4 * w < key + 16384) } part slot h

def execMzero (o : Op) (s : State) : Host.Outcome State Fault Refusal :=
  native (.mzero o) s fun o v s =>
    let m : BitVec 16 := o.imm.setWidth 16
    if v.act = 0 then .done s
    else if slotsBusy s (partOf v.k) m then (if v.sp.wait.isSome then .hold s else .wait s .slot)
    else match unclaimed v.g m with
      | some n => slotFault v s n
      | none =>
        .done (((List.range 16).filter fun n => m.getLsbD n).foldl (fun s n => clearSlot s (partOf v.k) accHdr n) s)

/-! ## MLD and MST at issue (R258 to R260) -/

/-- The operation stands in its partition's queue; extra: slabs that it holds. -/
def enqueue (s : State) (v : View) (slots : BitVec 16) (work : MatWork) (emulated : Bool := false) (extra : Nat := 0) : State :=
  let (id, s) := s.fresh
  let op : MatOp :=
    { id := id, grp := v.k, seq := id, pc := v.sp.pc, handler := v.g.handler, ctx := v.b.ctx, part := partOf v.k,
      slots := slots, work := work, emulated := emulated, extra := extra }
  { s with matq := s.matq ++ [op] }

/-- An emulated one takes slabs of those that are free, how many is free (R408, notes/assumptions/34.md). -/
def enqueueMma (s : State) (v : View) (slots : BitVec 16) (work : MatWork) (emulated : Bool) : State :=
  if emulated then
    let (w, s) := s.draw
    let n := w.toNat % (freeSlabs s v.k + 1)
    enqueue (s.modGroup v.k fun g => { g with borrowed := g.borrowed + n }) v slots work true n
  else enqueue s v slots work

/-- The split's earlier accesses are performed before the unit reads memory (R259 with R239). -/
def unordered (s : State) (v : View) : Bool := acquirePending s v.k v.sp.mask || !lanesSettled s v.k v.sp.mask

def execMld (src : MldSrc) (role : Role) (o : Op) (s : State) : Host.Outcome State Fault Refusal :=
  native (.mld src role o) s fun o v s =>
    let slot := o.imm.toNat % 16
    onSlots v s (slotBit slot) fun f =>
      let q := (srcData v.g 1 o.b f).toNat % 2 ^ 32
      if role == .scale && 16384 < 16 * (o.imm.toNat / 256 % 1024) + q then slotFault v s slot
      else if unordered s v then .hold s
      else .done (enqueue s v (slotBit slot) (.mld src role o.ty o.imm (srcPair v.g o.a f) q))

/-- Bytes of a row that MST writes. -/
def mstRowBytes (h : SlotHdr) (ty : Ty) : Nat :=
  if Ty.code ty = h.fmt then (if ty == .t3 then 26 else h.cols * storedBits ty / 8) else h.cols * (storedBits ty / 8)

/-- The cases of R260: the slot's own format, or a float format for an f32 slot. -/
def mstOk (h : SlotHdr) (satur : Bool) (ty : Ty) : Bool :=
  if Ty.code ty = h.fmt then !satur else h.fmt == Ty.code .f32 && ty.oneOf [.bf16, .f16, .e4m3, .e5m2]

def execMst (satur : Bool) (o : Op) (s : State) : Host.Outcome State Fault Refusal :=
  native (.mst satur o) s fun o v s =>
    let slot := o.imm.toNat % 16
    onSlots v s (slotBit slot) fun f =>
      let h := slotHdr s (partOf v.k) slot
      let a := srcPair v.g o.a f
      let q := (srcData v.g 1 o.b f).toNat % 2 ^ 32
      if !mstOk h satur o.ty then slotFault v s slot
      else match frozenRanges s (dieOf v.k) v.b.ctx ((List.range h.rows).map fun r => (addr a (r * q), mstRowBytes h o.ty)) with
        | .frozen x => .trap s (atIssue v causeFrozen 4 x)
        | .stall => .hold s
        | .clear =>
          if unordered s v then .hold s
          else .done (enqueue s v (slotBit slot) (.mst satur o.ty slot a q))

/-! ## MMOV (R261) -/

/-- MMOV.from of a poisoned word gives the bytes that are stored, with no fault: R443's row for slots names MLD, MST and MMA alone (DESIGN
CHOICE, notes/assumptions/31.md). -/
def execMmov (form : MmovForm) (o : Op) (s : State) : Host.Outcome State Fault Refusal :=
  native (.mmov form o) s fun o v s =>
    let slot := o.imm.toNat % 16
    let part := partOf v.k
    let base := o.imm.toNat / 16 % 64 * 256
    onSlots v s (slotBit slot) fun _ =>
      let put (s : State) : State :=
        (maskLanes v.act).foldl (fun s l => tileWrite s part slot (base + 4 * l) (leBytes 4 (srcData v.g 1 o.a l).toNat)) s
      let hdr (role : Nat) : SlotHdr := { fmt := Ty.code o.ty, role := role, rows := 128, cols := tileCols o.ty }
      match form with
      | .to => .done (put s)
      | .from => .done (writeVal s v .b32 .general o.dst fun l => BitVec.ofNat 64 (tileRead s part slot (base + 4 * l) 4))
      | .toa => .done (setHdr (put s) part slot (hdr 0))
      | .tob => .done (setHdr (put s) part slot (hdr 1))

/-! ## MMA and MMAS at issue (R262, R447) -/

/-- The format and MXE that FN declares for A. -/
def mmaTile : MmaFmt → Ty × Bool
  | .f32 => (.f32, false) | .bf16 => (.bf16, false) | .f16 => (.f16, false) | .e4m3 => (.e4m3, false)
  | .e5m2 => (.e5m2, false) | .mxf8e4 => (.mxf8, false) | .mxf8e5 => (.mxf8, true) | .mxi8 => (.mxi8, false)
  | .kf4 => (.kf4, false) | .l8 => (.l8, false) | .l4 => (.l4, false) | .i8 => (.i8, false)

/-- B's formats on a class (R447). -/
def nativePairs (c : Class) (fmt : MmaFmt) : List Ty :=
  match fmt with
  | .e4m3 | .e5m2 => if c = .t then [.t3] else [.e4m3, .e5m2]
  | .i8 => [.t3]
  | f => [(mmaTile f).1]

/-- Those that a split's text may use: native text only the class's own; translated text emulates the others (R406, R408). -/
def mmaPairs (v : View) (fmt : MmaFmt) : List Ty :=
  match fmt with
  | .e4m3 | .e5m2 => if v.translated then [.e4m3, .e5m2, .t3] else nativePairs (textClass v) fmt
  | f => nativePairs .m f

/-- The class of the split's die lacks the form, so that it is emulated (R406, R408). -/
def mmaEmulated (s : State) (v : View) (fmt : MmaFmt) (slot : Nat) : Bool :=
  let c := classOfDie (v.b.core / 32)
  !((nativeFmts c).contains fmt &&
    (nativePairs c fmt).any fun x => Ty.code x == (slotHdr s (partOf v.k) slot).fmt)

/-- Slots of MMA's IMM: D quad, A, B, C quad unless CZ. -/
structure MmaSlots where
  d : Nat
  a : Nat
  b : Nat
  c : Option Nat
deriving DecidableEq, Repr

def mmaSlots (imm : Word) : MmaSlots :=
  let i := imm.toNat
  { d := i % 16, a := i / 16 % 16, b := i / 256 % 16, c := if i / 65536 % 2 = 1 then none else some (i / 4096 % 16) }

def quad (n : Nat) : List Nat := [n, n + 1, n + 2, n + 3]

def MmaSlots.named (m : MmaSlots) : List Nat := quad m.d ++ [m.a, m.b] ++ (m.c.map quad).getD []

/-- The scale slots that MMAS reads. -/
def scaleSlots (s : State) (part : Nat) (m : MmaSlots) : List (Nat × Ty × SlotHdr) :=
  [m.a, m.b].filterMap fun n =>
    let h := slotHdr s part n
    match Ty.ofCode h.fmt with
    | some t => if t.scaled then some (h.sslot, t, h) else none
    | none => none

/-- The first condition of R262 that is broken, as the slot it concerns: of several slots, which one R254 reports is DEDUCED
(notes/assumptions/30.md). -/
def mmaFault (s : State) (v : View) (fmt : MmaFmt) (scaled : Bool) (m : MmaSlots) : Option Nat :=
  let part := partOf v.k
  let ha := slotHdr s part m.a
  let hb := slotHdr s part m.b
  let (t, mxe) := mmaTile fmt
  match unclaimed v.g (slotsMask m.named) with
  | some n => some n
  | none =>
    if ha.role != 0 || ha.fmt != Ty.code t || (t == .mxf8 && ha.mxe != mxe) then some m.a
    else if hb.role != 1 || !((mmaPairs v fmt).any fun x => Ty.code x == hb.fmt) then some m.b
    else match ((m.c.map quad).getD []).find? fun n =>
        let h := slotHdr s part n
        h.role != 2 || h.fmt != Ty.code .f32 with
      | some n => some n
      | none =>
        if scaled then
          ((scaleSlots s part m).find? fun (x : Nat × Ty × SlotHdr) =>
            16384 < 16 * x.2.2.soff + scaleBytes x.2.1 || !v.g.claims.getLsbD x.1 || x.1 / 4 == m.d / 4).map (·.1)
        else none

def multiply (scaled : Bool) (fmt : MmaFmt) (o : Op) (v : View) (s : State) : Effect :=
  let m := mmaSlots o.imm
  let part := partOf v.k
  if v.act = 0 then .done s
  else if slotsBusy s part (slotsMask m.named) then .hold s
  else
    let extra := if scaled then (scaleSlots s part m).map (·.1) else []
    if slotsBusy s part (slotsMask extra) then .hold s
    else match mmaFault s v fmt scaled m with
      | some n => slotFault v s n
      | none => .done (enqueueMma s v (slotsMask (m.named ++ extra)) (.mma scaled fmt o.imm) (mmaEmulated s v fmt m.b))

def execMma (fmt : MmaFmt) (o : Op) (s : State) : Host.Outcome State Fault Refusal :=
  native (.mma fmt o) s fun o v s => multiply false fmt o v s

def execMmas (fmt : MmaFmt) (o : Op) (s : State) : Host.Outcome State Fault Refusal :=
  native (.mmas fmt o) s fun o v s => multiply true fmt o v s

/-! ## MWAIT, MXV, MCNT (R265 to R267) -/

/-- A mask that names a slot which the group has not claimed is no slot fault: what MWAIT waits for is the group's own operations, which use
claimed slots alone (DEDUCED, notes/assumptions/30.md). -/
def execMwait (o : Op) (s : State) : Host.Outcome State Fault Refusal :=
  native (.mwait o) s fun o v s =>
    let m : BitVec 16 := if o.imm = 0 then 0xFFFF else o.imm.setWidth 16
    if v.act = 0 then .done s
    else if s.matq.any fun x => x.grp == v.k && x.slots &&& m != 0 then .hold s
    else .done s

/-- The slots for which an instruction is held, not waiting, at the slot scoreboard; MMAS reads the slots of its scales too. -/
def heldSlots (s : State) (part : Nat) : Instr → BitVec 16
  | .mclaim o => match o.dst with | .pred _ => o.imm.setWidth 16 | _ => 0
  | .mld _ _ o | .mst _ o | .mmov _ o | .mxv o => slotBit (o.imm.toNat % 16)
  | .mma _ o => slotsMask (mmaSlots o.imm).named
  | .mmas _ o => slotsMask ((mmaSlots o.imm).named ++ (scaleSlots s part (mmaSlots o.imm)).map (·.1))
  | _ => 0

/-- The slot scoreboard holds a group's next instruction (R264, R306). -/
def heldAtSlots (s : State) (k : Nat) : Instr → Bool
  | .mwait o =>
    let m : BitVec 16 := if o.imm = 0 then 0xFFFF else o.imm.setWidth 16
    s.matq.any fun x => x.grp == k && x.slots &&& m != 0
  | i => slotsBusy s (partOf k) (heldSlots s (partOf k) i)

def execMxv (o : Op) (s : State) : Host.Outcome State Fault Refusal :=
  native (.mxv o) s fun o v s =>
    let slot := o.imm.toNat % 16
    onSlots v s (slotBit slot) fun f =>
      .done (setHdr s (partOf v.k) slot
        { slotHdr s (partOf v.k) slot with xv := (srcData v.g 1 o.a f).toNat % 65536 })

def counter (s : State) (part code : Nat) : Word := (tget s.health (part * 8 + code)).getD 0

def execMcntRd (o : Op) (s : State) : Host.Outcome State Fault Refusal :=
  native (.mcntRd o) s fun o v s =>
    .done (writeVal s v .b32 .uniform o.dst fun _ => (counter s (partOf v.k) o.imm.toNat).setWidth 64)

def execMcntRr (o : Op) (s : State) : Host.Outcome State Fault Refusal :=
  native (.mcntRr o) s fun o v s =>
    if v.act = 0 then .done s
    else
      let x := counter s (partOf v.k) o.imm.toNat
      let s := { s with health := tdel s.health (partOf v.k * 8 + o.imm.toNat) }
      .done (writeVal s v .b32 .uniform o.dst fun _ => x.setWidth 64)

/-! ## Elements of tiles (R256, R263) -/

/-- An operand tile as the unit reads it. -/
structure Tile where
  part : Nat
  slot : Nat
  ty : Ty
  hdr : SlotHdr
deriving DecidableEq, Repr

def tileOf (s : State) (part slot : Nat) : Tile :=
  let h := slotHdr s part slot
  { part := part, slot := slot, ty := (Ty.ofCode h.fmt).getD .none, hdr := h }

/-- Bit offset of element k of row i. -/
def Tile.bit (t : Tile) (i k : Nat) : Nat := i * tileRowBytes t.ty * 8 + k * storedBits t.ty

/-- The code of element k of row i; for t3 the byte that holds its trit. -/
def Tile.code (s : State) (t : Tile) (i k : Nat) : Nat :=
  if t.ty == .t3 then tileByte s t.part t.slot (i * 26 + k / 64 * 13 + k % 64 / 5)
  else
    let b := t.bit i k
    let w := storedBits t.ty
    if w < 8 then tileByte s t.part t.slot (b / 8) / 2 ^ (b % 8) % 16
    else tileRead s t.part t.slot (b / 8) (w / 8)

/-- A poisoned word lies under the element (R443). -/
def Tile.bad (s : State) (t : Tile) (i k : Nat) : Bool :=
  let b := if t.ty == .t3 then i * 26 + k / 64 * 13 + k % 64 / 5 else t.bit i k / 8
  !s.tilePoison.isEmpty && tilePoisoned s t.part t.slot b (max 1 (storedBits t.ty / 8))

/-- The element alone (R111). -/
def Tile.elem (s : State) (t : Tile) (i k : Nat) : FVal :=
  let c := t.code s i k
  if t.bad s i k then .nan
  else match t.ty with
    | .kf4 => kf4Elem (FloatFmt.bf16.decode t.hdr.xv) c
    | .mxf8 => (if t.hdr.mxe then FloatFmt.e5m2 else .e4m3).decode c
    | .mxi8 => mxi8Elem c
    | .i8 => FVal.ofQ false (Rational.ofInt (toSigned 8 c))
    | .t3 => FVal.ofQ false (Rational.ofInt (((t3Weights c).1[k % 64 % 5]?).getD 0))
    | ty => (fmtOf ty).decode c

/-- A scale's bytes, NaN where poisoned. -/
def Tile.scaleRead (s : State) (t : Tile) (off n : Nat) : Option Nat :=
  let o := 16 * t.hdr.soff + off
  if tilePoisoned s t.part t.hdr.sslot o n then none else some (tileRead s t.part t.hdr.sslot o n)

def scaleBf16 (x : Option Nat) : FVal := (x.map FloatFmt.bf16.decode).getD .nan

/-- The band or group scale of row i, element k. -/
def Tile.band (s : State) (t : Tile) (i k : Nat) : FVal :=
  match t.ty with
  | .kf4 => scaleBf16 (t.scaleRead s (4096 + 2 * (i / 64)) 2)
  | .l8 | .l4 => scaleBf16 (t.scaleRead s (2 * (i / 64)) 2)
  | .t3 => scaleBf16 (t.scaleRead s (4 * i + 2 * (k / 64)) 2)
  | _ => .fin false 1 1

/-- The element with every scale its format has (R263). -/
def Tile.scaledElem (s : State) (t : Tile) (i k : Nat) : FVal :=
  match t.ty with
  | .kf4 =>
    match t.scaleRead s (32 * i + k / 8) 1 with
    | none => .nan
    | some sc =>
      (if t.bad s i k then .nan else kf4Scaled (FloatFmt.bf16.decode t.hdr.xv) sc (t.code s i k)).mul (t.band s i k)
  | .mxf8 | .mxi8 =>
    match t.scaleRead s (4 * i + k / 32) 1 with
    | none => .nan
    | some sc => (t.elem s i k).mul (e8m0 sc)
  | .t3 => (t.elem s i k).mul (t.band s i k)
  | _ => t.elem s i k

/-- T of R119: significands of 2^(k/16) over 2^23. -/
def lTable : List Nat :=
  [0x800000, 0x85AAC3, 0x8B95C2, 0x91C3D3, 0x9837F0, 0x9EF532, 0xA5FED7, 0xAD583F,
   0xB504F3, 0xBD08A4, 0xC5672A, 0xCE248C, 0xD744FD, 0xE0CCDF, 0xEAC0C7, 0xF5257D]

/-- The product of two L elements before the band scales (R119). -/
def lProduct (l8 : Bool) (c1 c2 : Nat) : FVal :=
  let (s1, m1) := lCode l8 c1
  let (s2, m2) := lCode l8 c2
  if m1 = 0 || m2 = 0 then .fin false 0 1
  else
    let t : Int := if l8 then (m1 + m2 : Nat) - 128 else (m1 + m2 : Nat) - 8
    let e := if l8 then t / 16 else t / 2
    let k := if l8 then (t % 16).toNat else 8 * (t % 2).toNat
    let (n, d) := pow2 (e - 23)
    .fin (s1 != s2) ((lTable[k]?).getD 0 * n) d

/-- t[k] of R263 for A row i and B row j. -/
def product (s : State) (scaled : Bool) (a b : Tile) (i j k : Nat) : FVal :=
  if a.ty == .l8 || a.ty == .l4 then
    let p := if a.bad s i k || b.bad s j k then FVal.nan else lProduct (a.ty == .l8) (a.code s i k) (b.code s j k)
    if scaled then (p.mul (a.band s i k)).mul (b.band s j k) else p
  else if scaled then (a.scaledElem s i k).mul (b.scaledElem s j k)
  else (a.elem s i k).mul (b.elem s j k)

/-- Where element (i, j) of a quad lies (R254). -/
def quadPlace (q i j : Nat) : Nat × Nat := (q + i / 32, (i % 32 * 128 + j) * 4)

/-- One result element, with its events (R123 to R125, R128). -/
def mmaElem (s : State) (scaled : Bool) (a b : Tile) (m : MmaSlots) (i j : Nat) : Nat × Counts :=
  let c : FVal := match m.c with
    | none => .fin false 0 1
    | some q =>
      let (slot, off) := quadPlace q i j
      if tilePoisoned s a.part slot off 4 then .nan else FloatFmt.f32.decode (tileRead s a.part slot off 4)
  let x := sumTerms (c :: (List.range (tileCols a.ty)).map (product s scaled a b i j))
  convFloat .f32 .rne false x

/-- Rows of a result: its bytes and events. -/
def mmaAll (s : State) (scaled : Bool) (part : Nat) (m : MmaSlots) : List (Nat × Nat × Nat × Counts) :=
  let a := tileOf s part m.a
  let b := tileOf s part m.b
  (List.range 128).flatMap fun i => (List.range 128).map fun j =>
    let (slot, off) := quadPlace m.d i j
    let r := mmaElem s scaled a b m i j
    (slot, off, r)

/-- A slot of the list with poison in it (R443). -/
def poisonedSlot (s : State) (part : Nat) (slots : List Nat) : Option Nat :=
  slots.find? fun n => tilePoisoned s part n 0 16384

def holdSlotPoison (s : State) (o : MatOp) (slots : List Nat) : State :=
  match poisonedSlot s o.part slots with
  | none => s
  | some n => holdFault s o.grp
      { seq := o.seq, lane := 0, cause := causeMemfault, reason := mfPoison, pc := o.pc, addr := BitVec.ofNat 64 n,
        fromHandler := o.handler, slots := o.slots }

def performMma (s : State) (o : MatOp) (scaled : Bool) (imm : Word) : State :=
  let m := mmaSlots imm
  let rs := mmaAll s scaled o.part m
  let reads := [m.a, m.b] ++ (m.c.map quad).getD [] ++ (if scaled then (scaleSlots s o.part m).map (·.1) else [])
  let s := holdSlotPoison s o reads
  let s := (quad m.d).foldl (fun s n => clearSlot s o.part accHdr n) s
  let s := rs.foldl (fun s r => tileWrite s o.part r.1 r.2.1 (leBytes 4 r.2.2.1)) s
  healthEvents s o.grp o.seq o.pc o.handler (totalCounts (rs.map (·.2.2.2))).events

/-! ## MLD and MST in the unit -/

/-- A row that MLD loads without converting; t3 bytes from 243 on become 0 (R259). -/
def plainRow (ty : Ty) (bs : List Byte) : List Byte × Counts :=
  if ty == .t3 then
    (bs.map fun b => if 243 ≤ b.toNat then 0 else b, { tinv := (bs.filter fun b => decide (243 ≤ b.toNat)).length })
  else (bs, {})

/-- One stored row of MLD. -/
def mldRow (s : State) (b : Block) (src : MldSrc) (ty : Ty) (satur : Bool) (cols : Nat) (a : DWord) :
    Except VaErr (List Byte × Counts) := do
  if src == .same then
    let n := if ty == .t3 then 26 else cols * storedBits ty / 8
    let x ← vaRead s b a n
    return plainRow ty (leBytes n x)
  else
    let w := storedBits src.ty / 8
    let vs ← mapExcept (fun k => vaRead s b (addr a (k * w)) w) (List.range cols)
    let rs := vs.map fun x => convFloat (fmtOf ty) .rne satur ((fmtOf src.ty).decode x)
    return (rs.flatMap fun r => leBytes (storedBits ty / 8) r.1, totalCounts (rs.map (·.2)))

/-- What MLD puts into the slot: offsets with bytes, the header, the events. -/
def mldData (s : State) (b : Block) (src : MldSrc) (role : Role) (ty : Ty) (imm : Word) (a : DWord) (q : Nat) :
    Except VaErr (List (Nat × List Byte) × SlotHdr × Counts) := do
  let i := imm.toNat
  let soff := i / 256 % 1024
  let satur := i / 2 ^ 18 % 2 == 1
  match role with
  | .scale =>
    let x ← vaRead s b a q
    return ([(16 * soff, leBytes q x)], { fmt := 0, role := 3, soff := soff }, {})
  | _ =>
    let rows := if role == .accum then 32 else 128
    let cols := if role == .accum then 128 else tileCols ty
    let rb := if role == .accum then 512 else tileRowBytes ty
    let rs ← mapExcept (fun r => mldRow s b src ty satur cols (addr a (r * q))) (List.range rows)
    let roleCode := match role with | .stream => 0 | .station => 1 | _ => 2
    return ((List.range rows).zip rs |>.map fun (r, x) => (r * rb, x.1),
      { fmt := Ty.code ty, mxe := i / 2 ^ 19 % 2 == 1, rows := rows, cols := cols, role := roleCode,
        sslot := i / 16 % 16, soff := soff }, totalCounts (rs.map (·.2)))

/-- The canonical NaN of a format, where it has one. -/
def nanOf : Ty → Option Nat
  | .f32 => some FloatFmt.f32.nan | .f16 => some FloatFmt.f16.nan | .bf16 => some FloatFmt.bf16.nan
  | .e4m3 => some FloatFmt.e4m3.nan | .e5m2 => some FloatFmt.e5m2.nan | _ => none

/-- The bytes of one row that MST writes, the events, and the state after the free values that stand for poisoned
elements of a format without a NaN. -/
def mstRow (s : State) (part slot : Nat) (h : SlotHdr) (satur : Bool) (ty : Ty) (r : Nat) : List Byte × Counts × State :=
  let own := Ty.code ty = h.fmt
  let n := mstRowBytes h ty
  if own then
    let w := max 1 (storedBits ty / 8)
    (List.range (n / w)).foldl (fun (acc : List Byte × Counts × State) k =>
      let (bs, ev, s) := acc
      let off := r * n + k * w
      if tilePoisoned s part slot off w then
        match nanOf ty with
        | some x => (bs ++ leBytes w x, ev, s)
        | none => let (x, s) := s.draw; (bs ++ leBytes w x.toNat, ev, s)
      else (bs ++ leBytes w (tileRead s part slot off w), ev, s)) ([], {}, s)
  else
    let cs := (List.range h.cols).map fun k =>
      let off := (r * h.cols + k) * 4
      let x := if tilePoisoned s part slot off 4 then FVal.nan else FloatFmt.f32.decode (tileRead s part slot off 4)
      convFloat (fmtOf ty) .rne satur x
    (cs.flatMap fun c => leBytes (storedBits ty / 8) c.1, totalCounts (cs.map (·.2)), s)

/-- The operation leaves the unit, or the group's lanes with the slabs that it held. -/
def matDone (s : State) (o : MatOp) : State :=
  let s := if o.extra = 0 then s else s.modGroup o.grp fun g => { g with borrowed := g.borrowed - o.extra }
  { s with matq := s.matq.filter fun x => x.id != o.id }

/-- A fault of MLD or MST is held, for the MWAIT that covers its slot among others (R259). -/
def matFails (s : State) (o : MatOp) (reason : Nat) (a : DWord) : State :=
  matDone (holdFault s o.grp { seq := o.seq, lane := 0, cause := causeMemfault, reason := reason, pc := o.pc, addr := a,
                               fromHandler := o.handler, slots := o.slots }) o

/-- The rows that MST writes, with their addresses, the events, and the state after the free values. -/
def mstPieces (s : State) (part : Nat) (satur : Bool) (ty : Ty) (slot : Nat) (a : DWord) (q : Nat) : List Piece × Counts × State :=
  let h := slotHdr s part slot
  (List.range h.rows).foldl (fun (acc : List Piece × Counts × State) r =>
    let (bs, e, t) := mstRow acc.2.2 part slot h satur ty r
    (acc.1 ++ [(addr a (r * q), bs)], acc.2.1.add e, t)) ([], {}, s)

/-- An access of the operation cannot be made: it waits for the MMP, which is told of its refaults (R366), or fails. -/
def matStops (s : State) (o : MatOp) : VaErr → State
  | .missing c p =>
    let (st, s) := o.stall.meets s o.id c p
    { s with matq := s.matq.map fun x => if x.id = o.id then { x with stall := st } else x }
  | .fails r x => matFails s o r x

/-- MST: it waits as a whole at a frozen line that it reaches through the pod context (R401). -/
def performMst (s : State) (o : MatOp) (b : Block) (satur : Bool) (ty : Ty) (slot : Nat) (a : DWord) (q : Nat) : State :=
  let (ps, ev, s') := mstPieces s o.part satur ty slot a q
  if ps.any fun p => heldAtPod s (dieOf o.grp) b.ctx p.1 p.2.length then s
  else match landingCells s b (bytesOf ps) with
  | .error e => matStops s o e
  | .ok (cells, ways) =>
    let s := ps.foldl (fun s p => fillRange s (dieOf o.grp) b.ctx p.1 p.2.length) (holdSlotPoison s' o [slot])
    let s := landCells s (dieOf o.grp) ways cells
    let s := { s with l1 := s.l1.filter fun l => l.core != coreOf o.grp || l.replica }
    matDone (healthEvents s o.grp o.seq o.pc o.handler ev.events) o

/-- The bytes that MLD reads, as starts and lengths. -/
def mldRanges (src : MldSrc) (role : Role) (ty : Ty) (a : DWord) (q : Nat) : List (DWord × Nat) :=
  let cols := if role == .accum then 128 else tileCols ty
  let n := if src == .same then (if ty == .t3 then 26 else cols * storedBits ty / 8) else cols * (storedBits src.ty / 8)
  if role == .scale then [(a, q)] else (List.range (if role == .accum then 32 else 128)).map fun r => (addr a (r * q), n)

/-- Rows that follow each other without a gap, as one: a word that two of them share is written whole. -/
def joinRows : List (Nat × List Byte) → List (Nat × List Byte)
  | [] => []
  | (off, bs) :: rest => match joinRows rest with
    | (off', bs') :: more => if off' = off + bs.length then (off, bs ++ bs') :: more else (off, bs) :: (off', bs') :: more
    | [] => [(off, bs)]

/-- MLD: its rows are read at their lines' homes, holders or replicas, once every one of them has its translation (R259, R397). -/
def performMld (s : State) (o : MatOp) (b : Block) (src : MldSrc) (role : Role) (ty : Ty) (imm : Word) (a : DWord) (q : Nat) :
    State :=
  let slot := imm.toNat % 16
  let ranges := mldRanges src role ty a q
  match mapExcept (fun r => vaKeys s b false r.1 r.2) ranges with
  | .error e => matStops s o e
  | .ok _ =>
    let u := ranges.foldl (fun s r => readAt s (dieOf o.grp) b.ctx r.1 r.2 true) s
    -- the addresses were translated before the reads filled TLBs
    match mldData { u with tlb := s.tlb } b src role ty imm a q with
    | .error e => matStops u o e
    | .ok (ps, h, ev) =>
      let s := (joinRows ps).foldl (fun s p => tileWrite s o.part slot p.1 p.2) u
      matDone (healthEvents (setHdr s o.part slot h) o.grp o.seq o.pc o.handler ev.events) o

/-- The operations of a partition that may complete now: the oldest of its unit (R264), and the emulated ones, whose slots no other
operation names (R408). MLD and MST use the die's port. -/
def readyOps (s : State) (p : Nat) : List MatOp :=
  let here := s.matq.filter fun o => o.part == p
  let open' (o : MatOp) : Bool := dieRuns s (dieOf o.grp) && match o.work with
    | .mma _ _ _ => true
    | _ => linkOpen s (dieOf o.grp)
  ((here.filter fun o => !o.emulated).take 1 ++ here.filter (·.emulated)).filter open'

/-- One of them: only an emulated one leaves a choice. -/
def nextOpOf (s : State) (p : Nat) : Option MatOp × State :=
  match readyOps s p with
  | [o] => (some o, s)
  | l => pickFree s l

/-- The operation comes to its end, or to an access that cannot be made. -/
def runOp (s : State) (o : MatOp) : State :=
  match (s.group o.grp).bind fun g => tget s.blocks g.blk with
  | none => matDone s o
  | some b =>
    match o.work with
    | .mld src role ty imm a q => performMld s o b src role ty imm a q
    | .mst satur ty slot a q => performMst s o b satur ty slot a q
    | .mma scaled _ imm => matDone (performMma s o scaled imm) o

/-- MATRIX_OP_COMPLETE: an operation of the partition is done (R264). -/
def execMatrixOpComplete (p : Nat) (s : State) : Host.Outcome State Fault Refusal :=
  event (match nextOpOf s p with
    | (none, s) => s
    | (some o, s) => runOp s o)

end Sys2Proof.Machine
end

