-- ==== Sys2Proof/Machine/Memory.lean ====
section
/-! DEFINITION. Memory.lean: OPC 0x50 to 0x55, 0x60 to 0x62 and SIGNAL: loads, stores, reservations, prefetch,
write-back, atomics and fences (spec/10_isa_memory.md, R205). -/

namespace Sys2Proof.Machine

/-! ## Loads and stores (R209 to R214) -/

def loadSpec (v : View) (o : Op) (loc : Bool) (w : MemW) (req : ReqTy) : AccessSpec :=
  { kind := .load, size := w.bytes, signed := o.ty == .i8 || o.ty == .i16, req := req, loc := loc,
    addr := laneAddr v.g o, uniform := srcUniform v.g .b64 o.a }

def execLd (loc : Bool) (w : MemW) (req : ReqTy) (o : Op) (s : State) : Host.Outcome State Fault Refusal :=
  native (.ld loc w req o) s fun o v s => access v o (loadSpec v o loc w req) s

def storeSpec (v : View) (o : Op) (loc : Bool) (w : MemW) (req : ReqTy) : AccessSpec :=
  { kind := .store, size := w.bytes, req := req, loc := loc, checked := some 1,
    addr := laneAddr v.g o, data := srcData v.g w.regs o.b }

def execSt (loc : Bool) (w : MemW) (req : ReqTy) (o : Op) (s : State) : Host.Outcome State Fault Refusal :=
  native (.st loc w req o) s fun o v s => access v o (storeSpec v o loc w req) s

/-! ## Reservations (R216 to R219) -/

def wideSize (wide : Bool) : Nat := if wide then 8 else 4

def ldrSpec (v : View) (o : Op) (wide : Bool) : AccessSpec :=
  { kind := .ldr, size := wideSize wide, addr := laneAddr v.g o, uniform := srcUniform v.g .b64 o.a }

def execLdr (wide : Bool) (o : Op) (s : State) : Host.Outcome State Fault Refusal :=
  native (.ldr wide o) s fun o v s => access v o (ldrSpec v o wide) s

def stcSpec (v : View) (o : Op) (wide : Bool) : AccessSpec :=
  { kind := .stc, size := wideSize wide, checked := some 1,
    addr := laneAddr v.g o, data := srcData v.g (if wide then 2 else 1) o.b }

def execStc (wide : Bool) (o : Op) (s : State) : Host.Outcome State Fault Refusal :=
  native (.stc wide o) s fun o v s => access v o (stcSpec v o wide) s

/-! ## Prefetch and write-back (R220, R221) -/

/-- A request that no lane waits for and that never fails: the lanes whose address names a paged owner. -/
def hint (v : View) (kind : MemKind) (lane : Nat → Option Access) (s : State) : Effect :=
  let todo := (maskLanes v.act).filterMap lane
  if todo.isEmpty then .done s
  else
    let (id, s) := s.fresh
    let op : MemOp :=
      { id := id, grp := v.k, seq := id, pc := v.sp.pc, handler := v.g.handler, ctx := v.b.ctx, port := dieOf v.k,
        kind := kind, size := 1, signed := false, req := .own, mask := v.act, dst := .none, uniform := false, todo := todo }
    .done { s with reqs := s.reqs ++ [op] }

/-- The access of a hint: it knows whether its line is frozen for the die (R397). -/
def hintAccess (s : State) (die ctx l : Nat) (a len : DWord) : Access :=
  { lane := l, addr := a, data := len, frozen := if isFrozen s die ctx a then some true else none }

def execPrf (ex : Bool) (lvl : Lvl) (o : Op) (s : State) : Host.Outcome State Fault Refusal :=
  native (.prf ex lvl o) s fun o v s =>
    hint v (.prf ex lvl) (fun l =>
      let a := laneAddr v.g o l
      if fateOf s v.b 1 a == .away then some (hintAccess s (dieOf v.k) v.b.ctx l a 0) else none) s

/-- The length of a lane stands in data. -/
def execWbl (o : Op) (s : State) : Host.Outcome State Fault Refusal :=
  native (.wbl o) s fun o v s =>
    if v.act != 0 && acquirePending s v.k v.act then .hold s
    else hint v .wbl (fun l =>
      let a := laneAddr v.g o l
      let len := (srcData v.g 1 o.b l).setWidth 64
      if ownerOf a == 0 && fateOf s v.b 1 a == .away && len != 0 then some (hintAccess s (dieOf v.k) v.b.ctx l a len) else none) s

/-! ## Atomics (R222 to R226) -/

/-- IMM [26:24] and [23:0] of ATOM and ATOMT (R222). -/
def atomScope (imm : Word) : Scope :=
  match imm.toNat / 2 ^ 24 % 8 with
  | 0 => .grp | 1 => .blk | 2 => .cls | 3 => .die | 4 => .dev | _ => .sys

def atomAddr (v : View) (o : Op) (l : Nat) : DWord := srcPair v.g o.a l + (o.imm.extractLsb' 0 24).signExtend 64

def atomSpec (v : View) (o : Op) (op : AtomOp) (ord : AtomOrd) (tagged : Bool) : AccessSpec :=
  let sc := atomScope o.imm
  { kind := .atom op o.ty tagged, size := o.ty.bits / 8, req := .uc,
    acq := if ord == .acq || ord == .ar then some sc else none, rel := if ord == .rel || ord == .ar then some sc else none,
    checked := some 2, addr := atomAddr v o,
    data := srcData v.g o.ty.regs o.b, cmp := srcData v.g o.ty.regs o.c }

def execAtom (op : AtomOp) (ord : AtomOrd) (o : Op) (s : State) : Host.Outcome State Fault Refusal :=
  native (.atom op ord o) s fun o v s => access v o (atomSpec v o op ord false) s

def execAtomt (op : AtomOp) (ord : AtomOrd) (o : Op) (s : State) : Host.Outcome State Fault Refusal :=
  native (.atomt op ord o) s fun o v s => access v o (atomSpec v o op ord true) s

/-! ## Signals (R205) -/

/-- Owners that SIGNAL and SWAIT accept. -/
def signalOwner (a : DWord) : Bool := ownerOf a == 0 || ownerOf a == 1 || ownerOf a == 2 || ownerOf a == 0x40

/-- B of SIGNAL and SWAIT: a pair, ZERO, or IMM (R205, R206), complemented by NEG (R70, R176). -/
def srcSignal (g : Group) (signed : Bool) (o : Op) (l : Nat) : DWord :=
  let x : DWord := match o.b.sel with
    | .imm => if signed then o.imm.signExtend 64 else o.imm.setWidth 64
    | .reg n => readPair g n l
    | _ => 0
  if o.b.neg then ~~~x else x

def signalSpec (v : View) (o : Op) (st : Bool) : AccessSpec :=
  { kind := .signal st, size := 8, req := .uc, rel := some .sys, addr := srcPair v.g o.a, owners := signalOwner,
    data := fun l => (srcSignal v.g false o l).setWidth 128 }

def execSignal (st : Bool) (o : Op) (s : State) : Host.Outcome State Fault Refusal :=
  native (.signal st o) s fun o v s => access v o (signalSpec v o st) s

/-! ## Fences (R227, R228) -/

def execFence (scope : Scope) (ord : FenceOrd) (o : Op) (s : State) : Host.Outcome State Fault Refusal :=
  native (.fence scope ord o) s fun _ v s =>
    if v.act = 0 then .done s
    else if !fenceReady s v.k v.act ord scope then .hold s
    else
      let s := if ord == .acq then s else shareWrites s v.k v.act scope
      .done (if ord == .rel then s else fenceAtomics (acquireAt s (coreOf v.k) scope) v.k v.act (wideScope scope))

end Sys2Proof.Machine
end

