-- ==== Sys2Proof/Machine/System.lean ====
section
/-! DEFINITION. System.lean: special registers, TRAP, TRET, device-side launches and SWAIT (R195 to R206), and the event
of an illegal encoding (R77, R78). -/

namespace Sys2Proof.Machine

/-! ## Special registers (R195 to R199) -/

/-- The dies of a class (R3). -/
def classDies : Class → List Nat
  | .m => [0, 1, 2, 3] | .f => [4, 5] | .l => [6] | .t => [7]

/-- A die is present whenever it is not absent (R421). -/
def present (s : State) (d : Nat) : Bool := ((s.dies[d]?).getD {}).state != .absent

def presentDies (s : State) (c : Class) : List Nat := (classDies c).filter (present s)

/-- sr.dspan and sr.dsblock (R283, R284). -/
def dspanOf (s : State) (b : Block) : Nat × Nat :=
  match b.span.bind fun k => tget s.spans k with
  | some sp => (sp.num, b.lin - sp.num * ((tget s.grids b.grid).map (·.spanSize)).getD 0)
  | none =>
    let c := ((tget s.grids b.grid).bind (·.cls)).getD .m
    (((presentDies s c).filter fun d => d < b.core / 32).length, b.lin)

/-- sr.pool (R197). -/
def poolWord (s : State) (k : Nat) (g : Group) : Nat :=
  freeSlabs s k % 4096 * 65536 + cellsOf g % 256 * 256 + slabsOf g % 256

/-- The value of a special register, by its code (R196). -/
def sregValue (s : State) (v : View) (code : Nat) : Nat :=
  let b := v.b
  let gr := tget s.grids b.grid
  let field (f : Grid → Nat) : Nat := (gr.map f).getD 0
  match code with
  | 1 => v.g.idx
  | 2 => b.x | 3 => b.y | 4 => b.z
  | 5 => field (·.gx) | 6 => field (·.gy) | 7 => field (·.gz)
  | 8 => field (·.bx) | 9 => field (·.byy) | 10 => field (·.bz)
  | 11 => b.lanes
  | 12 => b.lin / b.clusterSize
  | 13 => b.member
  | 14 => (dspanOf s b).1
  | 15 => (dspanOf s b).2
  | 16 => b.core / 32
  | 17 => b.core
  | 18 => b.ctx
  | 19 => b.prio
  | 20 => b.flags.toNat
  | 21 => issueClk s v
  | 22 => field fun g => g.args.toNat
  | 23 => field fun g => g.kdata.toNat
  | 24 => poolWord s v.k v.g
  | 25 => v.g.dead.toNat
  | 26 => v.g.claims.toNat
  | 27 => if v.g.handler then 1 else 0
  | 28 => (frameAddr s b.ctx v.k).toNat
  | 29 => v.g.hscr0.toNat
  | 30 => v.g.hscr1.toNat
  | _ => 0

def execSreg (o : Op) (s : State) : Host.Outcome State Fault Refusal :=
  native (.sreg o) s fun o v s =>
    if o.imm = 0 then .done (writeVal s v .b32 (.affine 0 1) o.dst fun l => BitVec.ofNat 64 l)
    else .done (writeVal s v o.ty .uniform o.dst fun _ => BitVec.ofNat 64 (sregValue s v o.imm.toNat))

/-- sr.dead, sr.hscr0 and sr.hscr1 take the value of the lowest active lane (R199). A dead read of this instruction is
recorded after it (R198, withDead). -/
def execSset (o : Op) (s : State) : Host.Outcome State Fault Refusal :=
  native (.sset o) s fun o v s =>
    match lowestLane v.act with
    | none => .done s
    | some l =>
      let x := srcAt v.g o.ty o.imm o.a l
      .done (s.modGroup v.k fun g =>
        if o.imm = 29 then { g with hscr0 := x }
        else if o.imm = 30 then { g with hscr1 := x }
        else { g with dead := x.setWidth 32 &&& 0x8000007F#32 })

/-! ## Traps (R200, R201) -/

def execTrap (o : Op) (s : State) : Host.Outcome State Fault Refusal :=
  native (.trap o) s fun o v s =>
    if v.act = 0 then .done s else .trap s (afterIssue v causeBreak (o.imm.toNat % 256))

/-- Work that the handler's instructions have under way: TRET waits for it, since the handler's registers are released by it (R319,
R336) and every fault of the handler is delivered at it (R345). A prefetch delays nothing (R220). -/
def handlerBusy (s : State) (k : Nat) : Bool :=
  (s.reqs.any fun o => o.grp == k && o.handler && !o.kind.isPrf) || (s.copies.any fun c => c.grp == k && c.handler) ||
  (s.matq.any fun o => o.grp == k && o.handler) || (s.frzReqs.any fun r => r.grp == k && r.handler)

/-- The frame is read as the handler's lanes see it: after their own stores (R337). -/
def execTret (o : Op) (s : State) : Host.Outcome State Fault Refusal :=
  native (.tret o) s fun o v s =>
    if handlerBusy s v.k then .hold s
    else match frameTarget s v.b v.k with
      | .at key _ _ _ =>
        let s := readAt s (dieOf v.k) v.b.ctx (frameAddr s v.b.ctx v.k) 256 true
        .whole (trapReturn s v.k (nextIssue s v o) (readFrame s key))
      | .missing c p => .hold (splitCalls s v.k v.sp.mask c p)
      | .fails _ => .whole (endGroup s v.k)

/-! ## Device-side launches (R202) -/

/-- Queued device-side launches of a context; at most 1,024. -/
def queuedLaunches (s : State) (ctx : Nat) : Nat := (s.launches.filter fun x => x.ctx == ctx).length

/-- The lane's fault, if any: another owner than 00, or a misaligned status word. Where both addresses are bad the record's is the one
reported (DESIGN CHOICE, notes/assumptions/52.md). -/
def launchFault (v : View) (o : Op) (l : Nat) : Option (Nat × DWord) :=
  let rec' := srcPair v.g o.a l
  let stat := srcPair v.g o.b l
  if ownerOf rec' != 0 then some (mfOwner, rec')
  else if ownerOf stat != 0 then some (mfOwner, stat)
  else if stat.toNat % 8 != 0 then some (mfAlign, stat)
  else none

def execLaunch (o : Op) (s : State) : Host.Outcome State Fault Refusal :=
  native (.launch o) s fun o v s =>
    let lanes := maskLanes v.act
    let good := lanes.filter fun l => (launchFault v o l).isNone
    if v.act = 0 then .done s
    else if acquirePending s v.k v.act || !fenceReady s v.k v.act .rel .dev then .hold s
    else if 1024 < queuedLaunches s v.b.ctx + good.length then
      (if v.sp.wait.isSome then .hold s else .wait s .launch)
    else
      let entry (l : Nat) : DevLaunch :=
        { ctx := v.b.ctx, core := coreOf v.k, grp := v.k, prio := v.b.prio,
          record := srcPair v.g o.a l, status := srcPair v.g o.b l }
      let news := good.map entry
      let s := { s with launches := s.launches ++ news }
      match lanes.findSome? (launchFault v o) with
      | some (r, a) => .trap s (afterIssue v causeMemfault r a)
      | none => .done s

/-! ## SWAIT (R206) -/

/-- One read of every lane not yet satisfied: who is satisfied now, and whose read failed. The lanes' addresses are translated together, in
s₀. -/
def swaitPoll (cond : Cond) (o : Op) (v : View) (seq : Nat) (s₀ : State) (sat failed : Mask) : State × Mask × Mask :=
  (maskLanes (v.act &&& ~~~sat)).foldl (fun (acc : State × Mask × Mask) l =>
    let (s, sat, failed) := acc
    let a := srcPair v.g o.a l
    let bit : Mask := 1#64 <<< l
    let fails (s : State) (r : Nat) : State × Mask × Mask :=
      (holdFault s v.k { seq := seq, lane := l, cause := causeMemfault, reason := r, pc := v.sp.pc, addr := a,
                         fromHandler := v.g.handler }, sat ||| bit, failed ||| bit)
    match targetFor s₀ v.b a with
    | .at key _ _ _ =>
      -- the core's own accesses to the line come first (R369, R385)
      if linePending s (coreOf v.k) a then (s, sat, failed)
      else
        let s := readAt s (dieOf v.k) v.b.ctx a 8 false
        if s.poisoned key 8 then fails s mfPoison
        else
        let s := noteRead (l1DropAll s (coreOf v.k) a) v.k bit (lineInPage a)
        let x := toSigned 64 (s.readMem key 8)
        if condHolds cond x (srcSignal v.g true o l).toInt then (s, sat ||| bit, failed) else (s, sat, failed)
    | .fails r => fails s r
    | .missing c p => (splitCalls s v.k v.sp.mask c p, sat, failed)) (s₀, sat, failed)

/-- The end of the wait: the predicate says which lanes were satisfied by a read, and the satisfying read is an acquire
at .sys. -/
def swaitEnd (o : Op) (v : View) (s : State) (sat failed : Mask) : Effect :=
  .done (acquireAt (writePred s v o.dst fun l => (sat &&& ~~~failed).getLsbD l) (coreOf v.k) .sys)

def swaitBad (v : View) (o : Op) : Option (Nat × DWord) :=
  (maskLanes v.act).findSome? fun l =>
    let a := srcPair v.g o.a l
    if !signalOwner a then some (mfOwner, a) else if a.toNat % 8 != 0 then some (mfAlign, a) else none

def execSwait (cond : Cond) (o : Op) (s : State) : Host.Outcome State Fault Refusal :=
  native (.swait cond o) s fun o v s =>
    if v.act = 0 then .done s
    else match swaitBad v o with
    | some (r, a) => .trap (writePred s v o.dst fun _ => false) (afterIssue v causeMemfault r a)
    | none =>
      let due := v.sp.wait.isNone || v.sp.reread
      if acquirePending s v.k v.act || due && (maskLanes v.act).any fun l => linePending s (coreOf v.k) (srcPair v.g o.a l) then .hold s
      else
        let t := if o.b.sel == .imm then 0 else o.imm.toNat
        let (deadline, sat, failed) := match v.sp.wait with
          | some (.swait d sat failed) => (d, sat, failed)
          | _ => (if t = 0 then none else some (v.sp.deadline.getD (s.lodge + t * lodgePerUs)), 0, 0)
        let (seq, s) := issueStamp s v
        let late := match deadline with | some d => decide (d ≤ s.lodge) | none => false
        let past := late && v.sp.wait.isSome
        let (s, sat, failed) := if past && !v.sp.reread then (s, sat, failed) else swaitPoll cond o v seq s sat failed
        if v.act &&& ~~~sat = 0 || past then swaitEnd o v s sat failed
        else match v.sp.wait with
          | some (.swait _ _ _) =>
            .hold (s.modGroup v.k fun g => updSplit g v.sp.mask fun p =>
              { p with wait := some (.swait deadline sat failed), reread := false })
          | _ => .wait (stampWait s v seq) (.swait deadline sat failed)

/-- SWAIT_SATISFIED: a waiting SWAIT reads the signal again. -/
def execSwaitSatisfied (g lane : Nat) (s : State) : Host.Outcome State Fault Refusal :=
  match waitingInstr s g lane with
  | some (.swait cond o) => execSwait cond o (s.at g lane)
  | _ => .next s

/-- SWAIT_TIMEOUT: the deadline has passed. -/
def execSwaitTimeout (g lane : Nat) (s : State) : Host.Outcome State Fault Refusal :=
  match waitingInstr s g lane with
  | some (.swait cond o) =>
    match ((s.group g).bind fun gr => splitAt gr lane).bind (·.wait) with
    | some (.swait (some d) _ _) => if d ≤ s.lodge then execSwait cond o (s.at g lane) else .next s
    | _ => .next s
  | _ => .next s

/-! ## Illegal encodings (R77, R78) -/

/-- The view of a split whose word names nothing. -/
def bareView (s : State) : Option View := do
  let g ← s.group s.curGroup
  let sp ← splitAt g s.curLane
  let b ← tget s.blocks g.blk
  return { k := s.curGroup, g := g, sp := sp, b := b, act := sp.mask, uses := ⟨[], [], [], [], []⟩ }

/-- The reason of R77 for a word: UNDEF 1, RSVD 2, APF 3, PRIV 4, in the order of its steps. -/
def illegalReason (g : Group) (w : IWord) : Nat :=
  match decodeWord w with
  | .error .undef => 1
  | .error .apf => 3
  | _ => if wordPrivileged w && !g.handler then 4 else 2

/-- ILLEGAL_ENCODING: the whole issuing split traps (R78). -/
def execIllegalEncoding (w : IWord) (s : State) : Host.Outcome State Fault Refusal :=
  match bareView s with
  | none => .fault .noIssuingSplit
  | some v =>
    if v.g.ending || v.g.trapEvent.isSome || v.b.phase != .running then .next s
    else
      let s := s.told v.sp
      .next ((takeTrap s v w s (atIssue v causeIllegal (illegalReason v.g w))).untold v.k v.sp)

end Sys2Proof.Machine
end

