-- ==== Sys2Proof/Machine/CoreEvents.lean ====
section
/-! DEFINITION. CoreEvents.lean: events of a core: rotation, aging, shadow mode, refills, fetch faults, and the end of
groups and blocks (R189, R291, R293, R306, R308, R330, R346). -/

namespace Sys2Proof.Machine

/-! ## Who may issue (R306) -/

def groupPrio (s : State) (g : Group) : Nat := ((tget s.blocks g.blk).map (·.prio)).getD 0

/-- level(g) of R306. -/
def levelOf (s : State) (g : Group) : Nat := if g.aged then 11 else groupPrio s g

def partGroups (s : State) (p : Nat) : List (Nat × Group) := s.groups.filter fun e => partOf e.1 == p

/-- A group's position in the round-robin order of its own priority, among the groups of its partition (R306). -/
def levelPlace (s : State) (gs : List (Nat × Group)) (g : Group) : Nat :=
  (gs.filter fun e => groupPrio s e.2 == groupPrio s g && decide (e.2.rr < g.rr)).length

/-- The groups of a partition in the order of R306: aged groups rank beside priority 11 by the position that each holds in its own
level. Those of one position stand in the order of their slots (DESIGN CHOICE, notes/assumptions/6.md). -/
def issueOrder (s : State) (p : Nat) : List (Nat × Group) :=
  let gs := partGroups s p
  let place (e : Nat × Group) : Nat × Group × Nat := (e.1, e.2, levelPlace s gs e.2)
  (sortBy (fun (a b : Nat × Group × Nat) =>
    decide (levelOf s b.2.1 < levelOf s a.2.1) || (levelOf s a.2.1 == levelOf s b.2.1 && decide (a.2.2 < b.2.2))) (gs.map place)).map
    fun e => (e.1, e.2.1)

/-- The READY active splits of a group in slalom order (R288). -/
def slalom (g : Group) : List Split := sortBy slalomBefore (g.active.filter Split.ready)

/-- The first active split of a group in slalom order, READY or WAITING (R288). -/
def slalomFirst (g : Group) : Option Split := (sortBy slalomBefore g.active).head?

/-- The die issues: it runs, and the block is not being saved. -/
def mayIssue (s : State) (k : Nat) (g : Group) : Bool :=
  dieRuns s (dieOf k) && !g.ending && g.trapEvent.isNone &&
  ((tget s.blocks g.blk).map fun b => decide (b.phase = .running)).getD false

/-- What stands at a split's PC. -/
inductive AtPc where
  | instr (i : Instr)
  | illegal (w : IWord)
  | noText
deriving DecidableEq, Repr

def atPc (s : State) (b : Block) (pc : DWord) : AtPc :=
  match fetchWords s b pc 3 with
  | .bytes bs => match decode bs with
    | .ok i => .instr i
    | .error _ => .illegal (wordOfBytes bs)
  | _ => .noText

/-- The scoreboard holds the split's next instruction, or record of translated text (R79). -/
def heldByScoreboard (s : State) (g : Group) (sp : Split) : Bool :=
  match (tget s.blocks g.blk).bind fun b => recordOf s b g sp.pc with
  | some (p, ix) => recordWaits p g ix
  | none => match (tget s.blocks g.blk).map fun b => atPc s b sp.pc with
  | some (.instr i) => match i.fields with
    | some (o, f) => scoreboardHolds g (usesOf i o f)
    | none => false
  | _ => false

/-- The slot scoreboard holds the split's next instruction (R264). -/
def heldBySlots (s : State) (k : Nat) (g : Group) (sp : Split) : Bool :=
  ((tget s.blocks g.blk).bind fun b => textInstr s b g sp.pc).any fun i =>
    i.fields.any fun f => activeLanes g sp f.1.ctl != 0 && heldAtSlots s k i

/-- A READY split that can issue in this clock (R306). -/
def canIssue (s : State) (k : Nat) (g : Group) (sp : Split) : Bool :=
  decide (sp.notBefore ≤ dieClk s (dieOf k)) && !heldByScoreboard s g sp && !heldBySlots s k g sp

/-- A group could issue in this clock (R306). -/
def couldIssue (s : State) (k : Nat) (g : Group) : Bool := mayIssue s k g && (slalom g).any (canIssue s k g)

/-! ## Rotation and aging -/

/-- RUN_COUNT_ROTATION: a split that has issued 256 instructions while another waited is rotated (R291). -/
def execRunCountRotation (k : Nat) (s : State) : Host.Outcome State Fault Refusal :=
  event (s.modGroup k fun g =>
    match g.active.find? fun p => 256 ≤ p.run with
    | some p => settle (endOver (rotate g p.mask))
    | none => g)

/-- AGING: a group passed over for 1,024 clk counts as priority 11 until it issues (R293). -/
def execAging (k : Nat) (s : State) : Host.Outcome State Fault Refusal :=
  event (s.modGroup k fun g =>
    match g.passedSince with
    | some t => if t + 1024 ≤ dieClk s (dieOf k) then { g with aged := true } else g
    | none => g)

/-! ## Shadow mode (R308, R309) -/

/-- Registers and predicates whose values a group's next instructions cannot have yet: what is in flight or refilled, and what the
spill area holds; predicates as 128 + k. -/
def pendingRegs (g : Group) : List Nat :=
  ((List.range 128).filter fun n => g.flight.contains (flightCode g n) || (regOf g n).any (·.away)) ++
  ((List.range 8).filter fun k => g.flight.contains (128 + k)).map (128 + ·)

/-- A load of the group has still to write one of the registers with these codes. -/
def loadPending (s : State) (k : Nat) (codes : List Nat) : Bool :=
  s.reqs.any fun o => o.grp == k && o.kind.isLoad && (flightsOf o.handler o.kind o.size o.dst).any codes.contains

/-- The scoreboard holds a split on a load. -/
def heldOnLoad (s : State) (k : Nat) (g : Group) (sp : Split) : Bool :=
  heldByScoreboard s g sp && (tget s.blocks g.blk).any fun b =>
    match recordOf s b g sp.pc with
    | some (p, ix) =>
      let named := apfReads (p.instr ix) ++ apfWrites (p.instr ix)
      loadPending s k ((g.staged.filter fun e => named.contains e.1).map (·.2))
    | none => (nativeAt s b sp.pc).any fun i => i.fields.any fun f =>
      let u := usesOf i f.1 f.2
      loadPending s k ((u.reads ++ u.writes ++ u.lus).map (flightCode g))

/-- The group that would run ahead: no split of the partition can issue, and it is the first group whose first split is held on a load
(R308). -/
def shadowGroup (s : State) (p : Nat) : Option Nat :=
  let gs := (issueOrder s p).filter fun e => mayIssue s e.1 e.2
  if gs.any fun e => (slalom e.2).any (canIssue s e.1 e.2) then none
  else (gs.find? fun e => (slalomFirst e.2).any fun sp => sp.ready && heldOnLoad s e.1 e.2 sp).map (·.1)

/-- SHADOW_MODE_ENTRY. What the group does then is Shadow.lean's. -/
def execShadowModeEntry (p : Nat) (s : State) : Host.Outcome State Fault Refusal :=
  event (match tget s.shadow p, shadowGroup s p with
    | none, some k => { s with shadow := tset s.shadow p k }
    | _, _ => s)

def execShadowModeEnd (p : Nat) (s : State) : Host.Outcome State Fault Refusal := event { s with shadow := tdel s.shadow p }

/-! ## Refills (R330) -/

/-- REFILL_COMPLETE: the image of the first register that a group refills has come back from the spill area (R330). The register
stays held until its instruction issues (R328). -/
def execRefillComplete (k r : Nat) (s : State) : Host.Outcome State Fault Refusal :=
  event (s.modGroup k fun g =>
    if g.refills.head? = some r then
      { g with regs := tmod g.regs r fun x => { x with val := imageVal g.spill r, away := false }, refills := g.refills.tail }
    else g)

/-! ## The end of groups, blocks and grids (R189, R276, R279, R285) -/

/-- The group slot is free, and what was under way for it returns nothing any more. -/
def dropGroup (s : State) (k : Nat) : State :=
  { s with
    groups := tdel s.groups k
    reqs := s.reqs.filter fun o => o.grp != k
    copies := s.copies.filter fun c => c.grp != k
    matq := s.matq.filter fun o => o.grp != k
    frzReqs := s.frzReqs.filter fun r => r.grp != k
    resv := s.resv.filter fun r => r.grp != k
    shadow := s.shadow.filter fun e => e.2 != k }

/-- Every group of a block, its slot-table entry, and the block itself. -/
def dropBlock (s : State) (bk : Nat) : State :=
  let ks := (s.groups.filter fun e => e.2.blk == bk).map (·.1)
  let s := ks.foldl dropGroup s
  match tget s.blocks bk with
  | none => s
  | some b => { s with blocks := tdel s.blocks bk, binds := tdel s.binds (b.core * 64 + b.entry) }

def Grid.blocksTotal (g : Grid) : Nat := g.gx * g.gy * g.gz

/-- The work that decrements a signal, when a grid is complete (R18, R33). -/
def finishGrid (s : State) (key : Nat) (g : Grid) : State :=
  let s := { s with grids := tdel s.grids key }
  match g.origin with
  | .packet w =>
    { s with works := s.works.map fun (x : Work) => if x.id = w then { x with kind := .finished } else x }
  | .device _ =>
    if g.signal = 0 then s
    else
      let (id, s) := s.fresh
      { s with works := s.works ++ [{ id := id, queue := 4096, index := 0, ctx := g.ctx, signal := g.signal, kind := .finished }] }

/-- Blocks of the grid that run, are saved, or have a bind record. -/
def gridAlive (s : State) (key : Nat) : Bool :=
  s.blocks.any (fun e => e.2.grid == key) || s.saved.any (fun e => e.2.blk.grid == key) || s.binds.any fun e => e.2.grid.toNat == key

/-- Every block of the grid has started, or none will any more. -/
def Grid.exhausted (g : Grid) : Bool := decide (g.blocksTotal ≤ g.next) && g.redo.isEmpty && g.retry.isEmpty

/-- A block has ended: its cluster, die span and grid count it. The grid is complete with its last block; one whose launch failed after
blocks of it had started goes with the last of those. -/
def endBlock (s : State) (bk : Nat) : State :=
  match tget s.blocks bk with
  | none => s
  | some b =>
    let s := dropBlock s bk
    let s := match tget s.clusters b.cluster with
      | some c =>
        if c.blocksLeft ≤ 1 then { s with clusters := tdel s.clusters b.cluster }
        else { s with clusters := tset s.clusters b.cluster { c with blocksLeft := c.blocksLeft - 1 } }
      | none => s
    let s := match b.span.bind fun k => (tget s.spans k).map fun c => (k, c) with
      | some (k, c) =>
        if c.blocksLeft ≤ 1 then { s with spans := tdel s.spans k }
        else { s with spans := tset s.spans k { c with blocksLeft := c.blocksLeft - 1 } }
      | none => s
    match tget s.grids b.grid with
    | none => s
    | some g =>
      let g := { g with ended := g.ended + 1 }
      if g.ended = g.blocksTotal then finishGrid s b.grid g
      else if g.exhausted && !(gridAlive s b.grid) then { s with grids := tdel s.grids b.grid }
      else { s with grids := tset s.grids b.grid g }

/-- Everything the group issued that R189 waits for is complete. -/
def groupQuiet (s : State) (k : Nat) : Bool :=
  !(s.reqs.any fun o => o.grp == k && !o.kind.isLoad && !o.kind.isPrf) && !(s.copies.any fun c => c.grp == k) &&
  !(s.matq.any fun o => o.grp == k) && !(s.frzReqs.any fun r => r.grp == k)

/-- GROUP_END: a group whose lanes have all ended frees its slot; the last one ends the block (R189). A group that waits
for room for its event record ends when the record is accepted (R426). -/
def execGroupEnd (k : Nat) (s : State) : Host.Outcome State Fault Refusal :=
  let s := if dieRuns s (dieOf k) then flushTrapEvent s k else s
  event (match s.group k with
    | none => s
    | some g =>
      if g.ending && dieRuns s (dieOf k) && groupQuiet s k then
        let s := dropGroup s k
        if s.groups.any fun e => e.2.blk == g.blk then s else endBlock s g.blk
      else s)

/-! ## Instruction-fetch faults (R346) -/

/-- The address of the first word of the three that cannot be fetched. -/
def badWord (s : State) (b : Block) (pc : DWord) : DWord :=
  ([pc, pc + 4, pc + 8].find? fun a => fetchWord s b a == .bad).getD pc

/-- INSTRUCTION_FETCH_FAULT: the split waits, the MMP is called and the block is saved; a fetch that can never succeed
traps instead. INSN is then a free value, since no word was fetched. -/
def execInstructionFetchFault (k lane : Nat) (s : State) : Host.Outcome State Fault Refusal :=
  event (match bareView (s.at k lane) with
    | none => s
    | some v =>
      if !(mayIssue s k v.g) || v.sp.wait.isSome then s
      else
        let s := s.told v.sp
        (match fetchWords s v.b v.sp.pc 3 with
        | .bytes _ => s
        | .missing c p => fetchWaits s v c p
        | .bad =>
          let (w, s) := s.draw
          let (w', s) := s.draw
          takeTrap s v (w.setWidth 96 ||| (w'.setWidth 96 <<< 64)) s
            (atIssue v causeMemfault mfFetch (badWord s v.b v.sp.pc))).untold k v.sp)

end Sys2Proof.Machine
end

