-- ==== Sys2Proof/Machine/Freeze.lean ====
section
/-! DEFINITION. Freeze.lean: FRZ, THAW, FWAIT, FQRY, the frozen-region table, its installs and its collections
(R229 to R236, R394 to R402). -/

namespace Sys2Proof.Machine

/-! ## The table at the Lodge -/

def frtEntry (s : State) (e : Nat) : FrtEntry := (tget s.frt e).getD {}

/-- A valid range (R229). -/
def rangeOk (base len : DWord) : Bool :=
  ownerOf base == 0 && base.toNat % 4096 == 0 && len.toNat % 4096 == 0 && 4096 ≤ len.toNat && len.toNat ≤ 2 ^ 40 &&
  base.toNat + len.toNat - 1 < 2 ^ 56

/-- The entries of a state with exactly this range in this context (R395). -/
def frtMatch (s : State) (st : FrState) (ctx base len : Nat) : Option Nat :=
  (List.range 256).find? fun e =>
    let f := frtEntry s e
    f.state == st && f.ctx == ctx && f.base * 4096 == base && f.len * 4096 == len

/-- The lowest-numbered LIVE entry of the 256. -/
def lowestLive (s : State) : Option Nat := (List.range 256).find? fun e => (frtEntry s e).state == .live

/-- Dies that install and collect: the others count as having done so (R398, R418, R421). -/
def installing (s : State) : List Nat := (List.range 8).filter (dieRuns s)

/-- A ticket (R230). -/
def ticketFail (reason : Nat) : Word := 0x80000000#32 ||| BitVec.ofNat 32 reason
def ticketOf (entry : Nat) (seq : BitVec 23) : Word := BitVec.ofNat 32 (entry % 256 * 2 ^ 23 + seq.toNat)

/-- An operation succeeds on an entry: ISSUED goes up, and it stands in the order of SEQ (R230). -/
def issueOp (s : State) (e : Nat) (f : FrtEntry) (stage : FrzStage) : Word × State :=
  let seq := f.issued + 1
  (ticketOf e seq,
   { s with frt := tset s.frt e { f with issued := seq }
            frzOps := s.frzOps ++ [{ entry := e, seq := some seq, stage := stage }] })

def FrzStage.finished : FrzStage → Bool
  | .install _ dies peers => dies.isEmpty && peers.isEmpty
  | .counted => true
  | .collect _ _ _ => false

/-- Dies and peers whose acknowledgement an operation waits for. -/
def FrzStage.awaits : FrzStage → List Nat × List Nat
  | .install _ dies peers => (dies, peers)
  | .collect _ dies peers => (dies, peers)
  | .counted => ([], [])

/-- A die, or a peer, has acknowledged. -/
def FrzStage.without (die peer : Option Nat) : FrzStage → FrzStage
  | .install c dies peers => .install c (dies.filter (some · != die)) (peers.filter (some · != peer))
  | .collect x dies peers => .collect x (dies.filter (some · != die)) (peers.filter (some · != peer))
  | .counted => .counted

/-- The first operation of an entry that waits for a die, or for a peer: each acknowledges an entry's operations in their order. -/
def nextOp (s : State) (entry : Nat) (die peer : Option Nat) : Option FrzOp :=
  s.frzOps.find? fun o => o.entry == entry &&
    ((die.any fun d => o.stage.awaits.1.contains d) || (peer.any fun p => o.stage.awaits.2.contains p))

def setOp (s : State) (o o' : FrzOp) : State := { s with frzOps := s.frzOps.map fun x => if x = o then o' else x }

def FrtEntry.copy (f : FrtEntry) : FrtCopy := { state := f.state, sys := f.sys, ctx := f.ctx, base := f.base, len := f.len }

/-- Operations on one entry complete in SEQ order (R230): the first of each entry that has nothing left to wait for. -/
def completeLoop : Nat → State → State
  | 0, s => s
  | fuel + 1, s =>
    match s.frzOps.find? fun o => o.stage.finished && (s.frzOps.find? fun p => p.entry == o.entry) == some o with
    | none => s
    | some o =>
      let f := frtEntry s o.entry
      completeLoop fuel { s with
        frzOps := s.frzOps.erase o
        frt := if o.seq.isSome then tset s.frt o.entry { f with done := f.done + 1 } else s.frt }

/-- Every operation that can complete does. -/
def completeOps (s : State) : State := completeLoop s.frzOps.length s

/-! ## Results of FRZ and THAW -/

/-- pd and the ticket come back; the request is over. -/
def frzDeliver (s : State) (r : FrzReq) (ok : Bool) (ticket : Word) : State :=
  let s := landPred s r.grp r.pd r.mask fun _ => ok
  let code := if r.handler && decide (124 ≤ r.vt) then 256 + r.vt else r.vt
  let live := ((s.group r.grp).map fun g => g.flight.contains code).getD false
  let s := if live then landRegs s r.grp r.handler r.vt 1 r.mask (r.mask == fullMask) false fun _ => ticket.setWidth 128 else s
  let s := s.modGroup r.grp fun g => { g with flight := g.flight.filter fun c => c != code && c != 128 + r.pd.val }
  { s with frzReqs := s.frzReqs.filter fun x => x.id != r.id }

/-- What the Lodge answers at once, or what it waits for. -/
inductive FrzAnswer where
  /-- pd and the ticket, in a state in which nothing else is waited for -/
  | now (ok : Bool) (ticket : Word) (s : State)
  /-- the same, once the issuing die's copy agrees on the entry -/
  | after (ok : Bool) (ticket : Word) (entry : Nat) (s : State)
  /-- an entry with this range is THAWING -/
  | blocked

/-- The Lodge applies an FRZ (R231, R232, R396). -/
def applyFrz (s : State) (ctx : Nat) (sys : Bool) (base len : DWord) : FrzAnswer :=
  if !rangeOk base len then .now false (ticketFail 2) s
  else if (frtMatch s .thawing ctx base.toNat len.toNat).isSome then .blocked
  else match frtMatch s .frozen ctx base.toNat len.toNat with
    | some e =>
      let f := frtEntry s e
      if f.count = 255 then .now false (ticketFail 3) s
      else
        let widens := sys && !f.sys
        let f := { f with count := f.count + 1, sys := f.sys || sys }
        if widens then
          let (t, s) := issueOp s e f (.install f.copy (installing s) f.peers)
          .after true t e s
        else
          let (t, s) := issueOp s e f .counted
          .after true t e (completeOps s)
    | none =>
      match lowestLive s with
      | none => .now false (ticketFail 1) s
      | some e =>
        let old := frtEntry s e
        let f : FrtEntry := { state := .frozen, count := 1, sys := sys, ctx := ctx, base := base.toNat / 4096,
                              len := len.toNat / 4096, issued := old.issued, done := old.done }
        let (t, s) := issueOp s e f (.install f.copy (installing s) [])
        .after true t e s

/-- An entry becomes THAWING and its collection starts (R396, R398). -/
def startThaw (s : State) (e : Nat) (counted : Bool) : Word × State :=
  let f := { frtEntry s e with state := .thawing, count := 0 }
  let others := s.frt.filter fun x => x.1 != e && x.2.state == .frozen && x.2.ctx == f.ctx
  let stage := FrzStage.collect (others.map fun x => (x.2.base, x.2.len)) (installing s) (if f.sys then f.peers else [])
  if counted then issueOp s e f stage
  else (0, { s with frt := tset s.frt e f, frzOps := s.frzOps ++ [{ entry := e, seq := none, stage := stage }] })

/-- The Lodge applies a THAW (R233). -/
def applyThaw (s : State) (ctx : Nat) (base len : DWord) : FrzAnswer :=
  match frtMatch s .frozen ctx base.toNat len.toNat with
  | none => .now false (ticketFail 4) s
  | some e =>
    let f := frtEntry s e
    if 1 < f.count then
      let (t, s) := issueOp s e { f with count := f.count - 1 } .counted
      .now true t (completeOps s)
    else
      let (t, s) := startThaw s e true
      .after true t e s

/-- The entry's state in the die's copy has caught up with the Lodge's. -/
def copyAgrees (s : State) (die e : Nat) : Bool :=
  let f := frtEntry s e
  match tget s.frtCopy (die * 256 + e) with
  | some c => c == f.copy
  | none => f.state == .live

/-- Results whose die's copy agrees come back, over a link that carries packets (R422). -/
def deliverReady (s : State) : State :=
  s.frzReqs.foldl (fun s r => match r.result with
    | some (ok, t, e) => if copyAgrees s r.die e && linkOpen s r.die then frzDeliver s r ok t else s
    | none => s) s

def answerFrz (s : State) (r : FrzReq) : State :=
  match if r.thaw then applyThaw s r.ctx r.base r.len else applyFrz s r.ctx r.sys r.base r.len with
  | .now ok t s => frzDeliver s r ok t
  | .after ok t e s =>
    let r' := { r with result := some (ok, t, e) }
    let s := { s with frzReqs := s.frzReqs.map fun x => if x.id = r.id then r' else x }
    if copyAgrees s r.die e then frzDeliver s r' ok t else s
  | .blocked => s

/-- In this Lodge clock one of a higher core or slot was applied: this one reaches the Lodge in a later clock (R236). -/
def frzLate (s : State) (k : Nat) : Bool := s.frzLast.any fun x => x.1 == s.lodge && decide (k < x.2)

/-- FRZ and THAW act once, for the lowest active lane (R229, R236), and go to the Lodge over the die's link (R422). FRZ is a release at its
scope for every lane of the issuing split (R231); a THAW does not wait for an atomic that only a fence has made acquiring, since that may
wait for the THAW (R401). -/
def freeze (thaw sys : Bool) (o : Op) (v : View) (s : State) : Effect :=
  match lowestLane v.act, o.dst with
  | some f, .pred d =>
    if acquiring s v.k v.sp.mask || (!thaw && acquirePending s v.k v.sp.mask) || frzLate s v.k || !linkOpen s (dieOf v.k) then .hold s
    else if !thaw && !fenceReady s v.k v.sp.mask .rel (if sys then .sys else .dev) then .hold s
    else
      let vt := o.imm.toNat % 128
      let s := writeReg s v.k v.named v.act .uniform vt fun _ => 0
      let code := flightCode v.g vt
      let s := s.modGroup v.k fun g => { g with flight := g.flight ++ (code :: (if d = 0 then [] else [128 + d.val])) }
      let (id, s) := s.fresh
      let r : FrzReq :=
        { id := id, grp := v.k, handler := v.g.handler, mask := v.act, thaw := thaw, sys := sys,
          base := srcPair v.g o.a f, len := srcPair v.g o.b f, pd := d, vt := vt, ctx := v.b.ctx, die := dieOf v.k,
          result := none }
      .done (answerFrz { s with frzReqs := s.frzReqs ++ [r], frzLast := some (s.lodge, v.k) } r)
  | _, _ => .done s

def execFrz (sys : Bool) (o : Op) (s : State) : Host.Outcome State Fault Refusal :=
  native (.frz sys o) s fun o v s => freeze false sys o v s

def execThaw (o : Op) (s : State) : Host.Outcome State Fault Refusal :=
  native (.thaw o) s fun o v s => freeze true false o v s

/-! ## FWAIT and FQRY (R230, R234, R235) -/

def ticketDone (s : State) (t : Word) : Bool :=
  t.getLsbD 31 ||
  decide (((frtEntry s (t.toNat / 2 ^ 23 % 256)).done - t.setWidth 23).toNat < 2 ^ 22)

def execFwait (o : Op) (s : State) : Host.Outcome State Fault Refusal :=
  native (.fwait o) s fun o v s =>
    let ready := (maskLanes v.act).all fun l => ticketDone s ((srcData v.g 1 o.a l).setWidth 32)
    if v.act = 0 then .done s
    else if ready then .done (acquireL1 s (coreOf v.k))
    else if v.sp.wait.isSome then .hold s else .wait s .fwait

/-- The result of FQRY for one address (R235). COUNT stands in the Lodge's table alone (R394). -/
def fqryWord (s : State) (die ctx : Nat) (a : DWord) : Word :=
  match (frtCovers s die ctx a).head? with
  | none => 0
  | some (e, c) =>
    let st := if c.state == .frozen then 1 else 2
    let count := if c.state == .frozen then (frtEntry s e).count % 256 else 0
    BitVec.ofNat 32 (e * 2 ^ 24 + 2 ^ 11 + (if c.sys then 1024 else 0) + st * 256 + count)

def execFqry (o : Op) (s : State) : Host.Outcome State Fault Refusal :=
  native (.fqry o) s fun o v s =>
    let nom := if srcUniform v.g .b64 o.a then Nominal.uniform else .general
    let word (a : DWord) : Word := if a.toNat < 2 ^ 48 then fqryWord s (dieOf v.k) v.b.ctx a else 0
    .done (writeVal s v .b32 nom o.dst fun l => (word (laneAddr v.g o l)).setWidth 64)

/-! ## Installs and collections (R232, R398) -/

/-- A write of the die to the range that passed its check and is not acknowledged. -/
def writesUnder (s : State) (die : Nat) (f : FrtCopy) : Bool :=
  let inside (a : DWord) : Bool := f.base * 4096 ≤ a.toNat && a.toNat < (f.base + f.len) * 4096
  s.reqs.any fun o => o.port == die && o.ctx == f.ctx && checkedKind o.kind && o.acked.isNone &&
    (o.todo.any (fun x => inside x.addr) || (o.todo.isEmpty && !o.returns) || s.fwd.any (fun w => w.op == o.id))

/-- The pieces of a region, those inside a range with no holder; the range's ends are line boundaries. -/
def carve (lo hi : Nat) : Nat → Region → List Region
  | 0, r => [r]
  | fuel + 1, r =>
    if hi ≤ r.base || r.base + r.size ≤ lo then [r]
    else if lo ≤ r.base && r.base + r.size ≤ hi then [{ r with holder := none }]
    else
      let h := r.size / 2
      carve lo hi fuel { r with size := h } ++ carve lo hi fuel { r with base := r.base + h, size := h }

/-- A die gives up a range of keys: its dirty lines are written back, and it holds nothing of it. -/
def giveUpKeys (die : Nat) (s : State) (f : Nat × Nat) : State :=
  let hit (base size : Nat) : Bool := base < f.1 + f.2 && f.1 < base + size
  let s := (s.recalls.filter fun r => r.die == die && hit r.base r.size).foldl finishRecall s
  let s := (s.fwd.filter fun x => x.die == die && hit x.key 1).foldl landForwarded s
  dropLines { s with regions := s.regions.flatMap fun r =>
    if r.holder = some die && hit r.base r.size then carve f.1 (f.1 + f.2) 9 r else [r] } die f.1 f.2

/-- Lines of the range that the die holds go back to their homes, and it holds them no longer: those that the range maps now, and those
that stand in its cache under the range's names. -/
def giveUp (s : State) (die : Nat) (f : FrtCopy) : State :=
  let named (l : DcLine) : Bool := l.die == die && !l.replica && l.ctx == f.ctx &&
    f.base * 4096 ≤ l.vline * 128 && l.vline * 128 < (f.base + f.len) * 4096
  (framesOf s f.ctx (f.base * 4096) (f.len * 4096) ++ (s.dc.filter named).map fun (l : DcLine) => (l.key, 128)).foldl (giveUpKeys die) s

/-- FRZ_INSTALL: the die enters the change in its copy, gives up the range, and is done once its earlier writes are
acknowledged. -/
def execFrzInstall (die : Nat) (s : State) : Host.Outcome State Fault Refusal :=
  let waits (o : FrzOp) : Bool := match o.stage with
    | .install _ ds _ => ds.contains die && nextOp s o.entry (some die) none == some o && linkOpen s die
    | _ => false
  event (match s.frzOps.find? waits with
    | some o => match o.stage with
      | .install f _ _ =>
        let s := giveUp { s with frtCopy := tset s.frtCopy (die * 256 + o.entry) f } die f
        if writesUnder s die f then deliverReady s
        else deliverReady (completeOps (setOp s o { o with stage := o.stage.without (some die) none }))
      | _ => s
    | none => s)

/-- The line is collected: a line that another FROZEN entry covered when the collection began is not (R398). -/
def collects (f : FrtEntry) (spared : List (Nat × Nat)) (ctx vline : Nat) : Bool :=
  let covers (base len : Nat) : Bool := base * 4096 ≤ vline * 128 && vline * 128 < (base + len) * 4096
  ctx == f.ctx && covers f.base f.len && !(spared.any fun x => covers x.1 x.2)

/-- Loads of the die that are to fill a replica of a collected line and are in flight. -/
def fillsOf (s : State) (die : Nat) (f : FrtEntry) (spared : List (Nat × Nat)) : List (MemOp × Access) :=
  (s.reqs.filter fun o => o.port == die && o.kind.isLoad).flatMap fun o =>
    (o.todo.filter fun x => x.frozen == some true && x.waiting.isNone && collects f spared o.ctx (vlineOf x.addr) && inOrder s o x).map
      fun x => (o, x)

/-- An access that is in flight is performed now, in its turn at its home. -/
def performNow (s : State) (y : MemOp × Access) : State :=
  let (o, x) := y
  let s := match portTarget s o x with
    | .missing c p => if 2 ^ 48 ≤ p || (dieLine s o x).isSome then s else (walkFill s (if viaPod s o x then podPort s else o.port) c p).2
    | _ => s
  match resolved s o x with
  | some (.at key _ _ _) =>
    let s := if servedInDie s o x then s else arriveHome s o.port key
    match s.reqs.find? fun p => p.id == o.id && p.todo.contains x with
    | some o => serve s o x
    | none => s
  | some (.fails r) => accessDone s o x (.error r)
  | _ => s

/-- Replicas of the collected lines leave the die's caches. -/
def dropReplicas (s : State) (die : Nat) (f : FrtEntry) (spared : List (Nat × Nat)) : State :=
  let gone := collects f spared
  { s with
    -- what was asked for before does not stay when it comes (R399)
    reqs := s.reqs.map fun (o : MemOp) =>
      if o.port = die then { o with todo := o.todo.map fun x => { x with frozen := x.frozen.map fun y => y && !gone o.ctx (vlineOf x.addr) } } else o
    dc := s.dc.filter fun l => !(l.die == die && l.replica && gone l.ctx l.vline)
    l1 := s.l1.filter fun l => !(l.core / 32 == die && l.replica && gone l.ctx l.vline) }

/-- COLLECT_REQUEST: loads that are to fill a replica get the frozen value (R399), the die's entry leaves the FROZEN state, its replicas go,
and it acknowledges. A die that has still to install an earlier operation on the entry does that first. -/
def execCollectRequest (die entry : Nat) (s : State) : Host.Outcome State Fault Refusal :=
  event (match if linkOpen s die then nextOp s entry (some die) none else none with
    | some o => match o.stage with
      | .collect spared _ _ =>
        let s := (fillsOf s die (frtEntry s entry) spared).foldl performNow s
        let s := { s with frtCopy := tmod s.frtCopy (die * 256 + entry) fun c => { c with state := .thawing } }
        let s := dropReplicas s die (frtEntry s entry) spared
        deliverReady (setOp s o { o with stage := o.stage.without (some die) none })
      | _ => s
    | none => s)

/-- A peer acknowledges an install or a collection (R232, R400). -/
def peerAck (s : State) (entry peer : Nat) : State :=
  match nextOp s entry none (some peer) with
  | some o => deliverReady (completeOps (setOp s o { o with stage := o.stage.without none (some peer) }))
  | none => s

/-- FRZ requests that waited for a THAWING entry are applied, in the order of R236 (R231); their answers need the die's link (R422). -/
def retryBlocked (s : State) : State :=
  (sortBy (fun (a b : FrzReq) => decide (a.grp < b.grp)) (s.frzReqs.filter fun r => r.result.isNone && linkOpen s r.die)).foldl answerFrz s

/-- COLLECTION_COMPLETE: the last acknowledgement, of dies and peers, is in; the entry is LIVE in every copy and the THAW's ticket
completes (R233, R396, R398). -/
def execCollectionComplete (entry : Nat) (s : State) : Host.Outcome State Fault Refusal :=
  let hit := (s.frzOps.find? fun o => o.entry == entry).filter fun o => match o.stage with
    | .collect _ ds ps => ds.isEmpty && ps.isEmpty
    | _ => false
  event (match hit with
    | none => s
    | some o =>
      let f := frtEntry s entry
      let s := { s with
        frt := tset s.frt entry { issued := f.issued, done := f.done }
        frtCopy := s.frtCopy.filter fun c => c.1 % 256 != entry
        frzOps := s.frzOps.map fun x => if x = o then { o with stage := FrzStage.counted } else x }
      retryBlocked (deliverReady (completeOps s)))

/-- PEER_COLLECT_REQUEST: the replicas of the peer's lines go, and the request is acknowledged; an install changes
nothing here, since this package keeps no replica it has not asked for (R400). Traffic of another incarnation is
discarded (R432). -/
def execPeerCollectRequest (peer inc : Nat) (collect : Bool) (base len : Nat) (s : State) : Host.Outcome State Fault Refusal :=
  let p := (tget s.peers peer).getD {}
  let gone (vline : Nat) : Bool :=
    let a := vline * 128
    a / 2 ^ 56 == 0x40 && a / 2 ^ 46 % 1024 == peer && base ≤ a % 2 ^ 46 && a % 2 ^ 46 < base + len
  event (if p.joined && p.inc.toNat == inc && collect then
      { s with dc := s.dc.filter fun l => !(l.replica && gone l.vline)
               l1 := s.l1.filter fun l => !(l.replica && gone l.vline) }
    else s)

end Sys2Proof.Machine
end

