-- ==== Sys2Proof/Machine/Keccak.lean ====
section
/-! DEFINITION. Keccak.lean: SHAKE256, which R40, R41 and R440 name, as far as its first 136 bytes. PRESUMED: the
manual names the function and does not define it (FIPS 202). -/

namespace Sys2Proof.Machine

/-- The 25 lanes of the permutation's state, x fastest. -/
abbrev Sponge := List (BitVec 64)

def spongeLane (a : Sponge) (x y : Nat) : BitVec 64 := a.getD (x % 5 + 5 * (y % 5)) 0

def rotations : List Nat :=
  [0, 1, 62, 28, 27, 36, 44, 6, 55, 20, 3, 10, 43, 25, 39, 41, 45, 15, 21, 8, 18, 2, 61, 56, 14]

def roundConstants : List (BitVec 64) :=
  [0x0000000000000001, 0x0000000000008082, 0x800000000000808A, 0x8000000080008000,
   0x000000000000808B, 0x0000000080000001, 0x8000000080008081, 0x8000000000008009] ++
  [0x000000000000008A, 0x0000000000000088, 0x0000000080008009, 0x000000008000000A,
   0x000000008000808B, 0x800000000000008B, 0x8000000000008089, 0x8000000000008003] ++
  [0x8000000000008002, 0x8000000000000080, 0x000000000000800A, 0x800000008000000A,
   0x8000000080008081, 0x8000000000008080, 0x0000000080000001, 0x8000000080008008]

def gridLanes (f : Nat → Nat → BitVec 64) : Sponge :=
  (List.range 5).flatMap fun y => (List.range 5).map fun x => f x y

def theta (a : Sponge) : Sponge :=
  let c := (List.range 5).map fun x =>
    spongeLane a x 0 ^^^ spongeLane a x 1 ^^^ spongeLane a x 2 ^^^ spongeLane a x 3 ^^^ spongeLane a x 4
  let d := (List.range 5).map fun x => c.getD ((x + 4) % 5) 0 ^^^ (c.getD ((x + 1) % 5) 0).rotateLeft 1
  gridLanes fun x y => spongeLane a x y ^^^ d.getD x 0

def rhoPi (a : Sponge) : Sponge :=
  gridLanes fun x y =>
    let i := (x + 3 * y) % 5 + 5 * x
    (a.getD i 0).rotateLeft (rotations.getD i 0)

def chi (a : Sponge) : Sponge :=
  gridLanes fun x y => spongeLane a x y ^^^ (~~~(spongeLane a (x + 1) y) &&& spongeLane a (x + 2) y)

def iota (rc : BitVec 64) : Sponge → Sponge
  | [] => []
  | l :: r => (l ^^^ rc) :: r

def keccak (a : Sponge) : Sponge := roundConstants.foldl (fun a rc => iota rc (chi (rhoPi (theta a)))) a

/-- The state after the message, padded to blocks of 136 bytes: 0x1F after it, 0x80 in the last byte. -/
def padShake (bs : List Byte) : List Byte :=
  let fill := 135 - bs.length % 136
  if fill = 0 then bs ++ [0x9F] else bs ++ [0x1F] ++ List.replicate (fill - 1) 0 ++ [0x80]

def absorbBlock (a : Sponge) (block : List Byte) : Sponge :=
  keccak ((List.range 25).map fun i =>
    let w : BitVec 64 := if i < 17 then BitVec.ofNat 64 (leNat ((block.drop (8 * i)).take 8)) else 0
    a.getD i 0 ^^^ w)

def absorb : Nat → Sponge → List Byte → Sponge
  | 0, a, _ => a
  | n + 1, a, bs => if bs.isEmpty then a else absorb n (absorbBlock a (bs.take 136)) (bs.drop 136)

/-- The first 8 bytes of SHAKE256, read little-endian (R41): SHAKE256-64. -/
def shake64 (bs : List Byte) : DWord :=
  let p := padShake bs
  (absorb p.length (List.replicate 25 0) p).getD 0 0

end Sys2Proof.Machine
end

