-- ==== Sys2Proof/Machine/CmdProc.lean ====
section
/-! DEFINITION. CmdProc.lean: how the command processor, the DMA engines and the outside reach memory, what a launch record
and a code object hold, and the checks of R28 to R40 (spec/02_launch_contract.md). -/

namespace Sys2Proof.Machine

/-! ## Memory as the agents of the Lodge and of the Gondolas reach it (R360) -/

/-- One byte through a context's translation at a port: 8 and 9 for what a Gondola's engines and network links do, 10 for the Lodge's
own agents. -/
def agentKey (s : State) (port ctx : Nat) (write : Bool) (a : DWord) : Except VaErr Nat :=
  match targetOf s port ctx (placeGlobal s a) with
  | .at key w _ _ => if write && !w then .error (.fails mfPerm a) else .ok key
  | .fails r => .error (.fails r a)
  | .missing c p => .error (.missing c p)

def agentKeys (s : State) (port ctx : Nat) (write : Bool) (a : DWord) : Nat → Except VaErr (List Nat)
  | 0 => .ok []
  | n + 1 => do
    let k ← agentKey s port ctx write a
    let ks ← agentKeys s port ctx write (a + 1) n
    return k :: ks

/-- n bytes as a number, low byte first; poisoned ones fail (R29 FETCH). -/
def agentRead (s : State) (port ctx : Nat) (a : DWord) (n : Nat) : Except VaErr Nat := do
  let ks ← agentKeys s port ctx false a n
  if ks.any fun k => s.poisoned k 1 then .error (.fails mfPoison a)
  else return leNat (ks.map (memByte s.mem))

def agentCells (s : State) (port ctx : Nat) (a : DWord) (bs : List Byte) : Except VaErr (List Host.Cell) := do
  let ks ← agentKeys s port ctx true a bs.length
  return ks.zip bs

/-- The same for the command processor. -/
def cpKey (s : State) (ctx : Nat) (write : Bool) (a : DWord) : Except VaErr Nat := agentKey s 10 ctx write a
def cpKeys (s : State) (ctx : Nat) (write : Bool) (a : DWord) (n : Nat) : Except VaErr (List Nat) := agentKeys s 10 ctx write a n
def cpRead (s : State) (ctx : Nat) (a : DWord) (n : Nat) : Except VaErr Nat := agentRead s 10 ctx a n
def cpCells (s : State) (ctx : Nat) (a : DWord) (bs : List Byte) : Except VaErr (List Host.Cell) := agentCells s 10 ctx a bs

/-- Bytes that come in at a port for consecutive addresses, performed at their homes or holders, with one step of each line's tag (R373,
R376). -/
def agentLand (s : State) (port ctx : Nat) (a : DWord) (cells : List Host.Cell) : State :=
  ((lineRuns cells).foldl (fun (x : State × Nat) l => (landLine x.1 port (wayOf x.1 port ctx (addr a x.2)) l, x.2 + l.length))
    (fillRange s port ctx a cells.length, 0)).1

/-- The same for bytes that lie together at a key. -/
def landAt (s : State) (port key : Nat) (bs : List Byte) : State := landCells s port [] (bs.zipIdx.map fun x => (key + x.2, x.1))

/-- A write of the command processor's own fields. One that no mapping allows is discarded, as R204 has it for a status
word. -/
def cpWrite (s : State) (ctx : Nat) (a : DWord) (bs : List Byte) : State :=
  match cpCells s ctx a bs with
  | .ok cells => agentLand s 10 ctx a cells
  | .error _ => s

/-- The write has to wait: a FROZEN or THAWING entry covers it, in its context, or in the pod context where it comes in again from outside
(R401). -/
def agentHeld (s : State) (port ctx : Nat) (a : DWord) (n : Nat) : Bool :=
  (match placeGlobal s a with | .device off => frtMeets s ctx off n | _ => false) || heldAtPod s port ctx a n

/-! ## Launch records (R28, R35, R36) -/

def fieldAt (bs : List Byte) (off n : Nat) : Nat := leNat ((bs.drop off).take n)

/-- A packet header. -/
structure Header where
  kind : Nat
  valid : Bool
  barrier : Bool
  prio : Nat
  version : Nat
  reserved : Bool
deriving DecidableEq, Repr

def headerOf (w : Nat) : Header :=
  { kind := w % 256, valid := w / 256 % 2 == 1, barrier := w / 512 % 2 == 1, prio := w / 4096 % 16, version := w / 65536 % 256,
    reserved := w / 1024 % 4 != 0 || w / 2 ^ 24 != 0 }

structure LaunchRec where
  hdr : Header
  flags : Nat
  kindex : Nat
  codeobj : DWord
  gx : Nat
  gy : Nat
  gz : Nat
  dscratch : Nat
  signal : DWord
  argBytes : Nat
  reserved : Nat
  argPtr : DWord
  args : List Byte
deriving DecidableEq, Repr

def launchRecOf (bs : List Byte) : LaunchRec :=
  { hdr := headerOf (fieldAt bs 0 8), flags := fieldAt bs 8 4, kindex := fieldAt bs 0x0C 4,
    codeobj := BitVec.ofNat 64 (fieldAt bs 0x10 8), gx := fieldAt bs 0x18 4, gy := fieldAt bs 0x1C 4, gz := fieldAt bs 0x20 4,
    dscratch := fieldAt bs 0x24 4, signal := BitVec.ofNat 64 (fieldAt bs 0x28 8), argBytes := fieldAt bs 0x30 4,
    reserved := fieldAt bs 0x34 4, argPtr := BitVec.ofNat 64 (fieldAt bs 0x38 8), args := (bs.drop 0x40).take 64 }

/-! ## Code objects (R40) -/

structure Section where
  kind : Nat
  cls : Nat
  reserved : Nat
  hash : DWord
  offset : Nat
  size : Nat
deriving DecidableEq, Repr

structure Kernel where
  contract : Nat
  reserved : Nat
  cluster : Nat
  bx : Nat
  byy : Nat
  bz : Nat
  scratch : Nat
  regs : Nat
  argBytes : Nat
  apf : Nat
  native : List Nat
deriving DecidableEq, Repr

structure CodeObj where
  size : Nat
  sections : List Section
  kernels : List Kernel
deriving DecidableEq, Repr

def allOnes : Nat := 2 ^ 64 - 1

def sectionOf (bs : List Byte) : Section :=
  { kind := fieldAt bs 0 2, cls := fieldAt bs 2 2, reserved := fieldAt bs 4 4, hash := BitVec.ofNat 64 (fieldAt bs 8 8),
    offset := fieldAt bs 0x10 8, size := fieldAt bs 0x18 8 }

def kernelOf (bs : List Byte) : Kernel :=
  { contract := fieldAt bs 4 1, reserved := fieldAt bs 5 1 + fieldAt bs 0x0E 2, cluster := fieldAt bs 6 2, bx := fieldAt bs 8 2,
    byy := fieldAt bs 0x0A 2, bz := fieldAt bs 0x0C 2, scratch := fieldAt bs 0x10 4, regs := fieldAt bs 0x14 2,
    argBytes := fieldAt bs 0x16 2, apf := fieldAt bs 0x18 8,
    native := (List.range 4).map fun i => fieldAt bs (0x20 + 8 * i) 8 }

/-- The section of a kind, for NATIVE also of a class. -/
def CodeObj.section (c : CodeObj) (kind cls : Nat) : Option Section := c.sections.find? fun x => x.kind == kind && x.cls == cls

def Section.ok (size : Nat) (x : Section) : Bool :=
  decide (1 ≤ x.kind ∧ x.kind ≤ 4) && x.reserved == 0 &&
  (if x.kind = 2 then decide (1 ≤ x.cls ∧ x.cls ≤ 4) else x.cls == 0) &&
  (x.kind == 1 || x.kind == 2 || x.hash == 0) && x.offset % 256 == 0 && decide (x.offset + x.size ≤ size)

def Kernel.ok (c : CodeObj) (k : Kernel) : Bool :=
  let lanes := k.bx * k.byy * k.bz
  let inside (kind cls off : Nat) : Bool :=
    off == allOnes || (match c.section kind cls with | some x => decide (off < x.size) | none => false)
  decide (k.contract ≤ 10) && k.reserved == 0 && decide (1 ≤ k.cluster ∧ k.cluster ≤ 8) && decide (1 ≤ lanes ∧ lanes ≤ 1024) &&
  decide (k.regs ≤ 128) && inside 1 0 k.apf &&
  (List.range 4).all fun i => inside 2 (i + 1) ((k.native[i]?).getD allOnes)

/-- R40 for a whole code object. -/
def CodeObj.ok (c : CodeObj) : Bool :=
  (c.sections.all (Section.ok c.size)) && decide ((c.sections.map fun x => (x.kind, x.cls)).Nodup) && c.kernels.all (Kernel.ok c)

def chunkAt (s : State) (ctx : Nat) (a : DWord) (n : Nat) : Except VaErr (List Byte) := do
  let x ← cpRead s ctx a n
  return leBytes n x

/-- A code object's first 64 bytes name its tables as R40 has them. -/
def codeHeadOk (h : List Byte) : Bool :=
  let nsect := fieldAt h 8 4
  let nkern := fieldAt h 12 4
  let soff := fieldAt h 0x10 8
  let koff := fieldAt h 0x18 8
  let size := fieldAt h 0x20 8
  fieldAt h 0 4 == 0x014F574B && fieldAt h 4 4 == 1 && decide (1 ≤ nsect ∧ nsect ≤ 64) &&
    decide (1 ≤ nkern ∧ nkern ≤ 4096) && soff % 8 == 0 && koff % 8 == 0 && decide (soff + 32 * nsect ≤ size) &&
    decide (koff + 64 * nkern ≤ size) && fieldAt h 0x28 24 == 0

/-- The tables that such a head names. -/
def readTables (s : State) (ctx : Nat) (a : DWord) (h : List Byte) : Except VaErr CodeObj := do
  let ss ← mapExcept (fun i => chunkAt s ctx (addr a (fieldAt h 0x10 8 + 32 * i)) 32) (List.range (fieldAt h 8 4))
  let ks ← mapExcept (fun i => chunkAt s ctx (addr a (fieldAt h 0x18 8 + 64 * i)) 64) (List.range (fieldAt h 12 4))
  return { size := fieldAt h 0x20 8, sections := ss.map sectionOf, kernels := ks.map kernelOf }

/-- The code object at an address; none: it breaks R40. -/
def readCodeObj (s : State) (ctx : Nat) (a : DWord) : Except VaErr (Option CodeObj) := do
  let h ← chunkAt s ctx a 64
  if !codeHeadOk h then return none
  else
    let c ← readTables s ctx a h
    return (if c.ok then some c else none)

/-! ## Reasons of R29 -/

def qhType : Nat := 1
def qhVersion : Nat := 2
def qhRsvd : Nat := 3
def qhPrio : Nat := 4
def qhAlign : Nat := 5
def qhGrid : Nat := 6
def qhScratch : Nat := 7
def qhArgs : Nat := 8
def qhNocode : Nat := 9
def qhKindex : Nat := 10
def qhClass : Nat := 11
def qhOverrun : Nat := 12
def qhFetch : Nat := 13
def qhCodeobj : Nat := 14

/-- The reasons whose condition holds. -/
def reasonsOf (l : List (Nat × Bool)) : List Nat := (l.filter (·.2)).map (·.1)

/-- A signal or argument address of R29 ALIGN: 0, or 8-byte aligned with an owner of 00, 01 or 02. -/
def addrBad (a : DWord) : Bool := a != 0 && (a.toNat % 8 != 0 || 3 ≤ ownerOf a)

/-- The header's own reasons. -/
def headerReasons (h : Header) (maxPrio : Nat) : List (Nat × Bool) :=
  [(qhType, h.kind == 0 || decide (5 < h.kind)), (qhVersion, h.version != 1), (qhRsvd, h.reserved), (qhPrio, decide (maxPrio < h.prio))]

def classOfCode : Nat → Option Class
  | 1 => some .m | 2 => some .f | 3 => some .l | 4 => some .t | _ => none

def Class.code : Class → Nat
  | .m => 1 | .f => 2 | .l => 3 | .t => 4

/-- The native class of a contract (R4, R405). -/
def nativeClass (contract : Nat) : Option Class :=
  if contract = 0 then none else if contract ≤ 5 then some .m else if contract ≤ 7 then some .f
  else if contract ≤ 9 then some .l else some .t

def roundUp256 (n : Nat) : Nat := (n + 255) / 256 * 256

def Kernel.groups (k : Kernel) : Nat := (k.bx * k.byy * k.bz + 63) / 64

end Sys2Proof.Machine
end

