-- ==== Sys2Proof/Machine/Placing.lean ====
section
/-! DEFINITION. Placing.lean: which cores can take a block, a cluster or a die span, and where each part goes (R281, R284,
R298 to R300, R353). -/

namespace Sys2Proof.Machine

/-- What one block asks of a core. -/
structure Demand where
  groups : Nat
  /-- bytes of scratchpad, rounded (R278) -/
  scratch : Nat
  regs : Nat
  /-- slots that each group has claimed; for a restore (R353) -/
  claims : List (BitVec 16) := []
deriving DecidableEq, Repr

/-- Where a block goes. -/
structure Berth where
  core : Nat
  entry : Nat
  baseP : Nat
  /-- group slot keys, group 0 first -/
  slots : List Nat
  scrBase : Nat
  demand : Demand
deriving DecidableEq, Repr

/-- What is taken on a core: group slots, bytes of scratchpad, slot-table entries, blocks and committed cells. -/
structure CoreUse where
  slots : List Nat
  scratch : Nat
  entries : List Nat
  blocks : Nat
  cells : Nat
deriving DecidableEq, Repr

/-- Pool commitment of R300. -/
def commitOf (groups regs : Nat) : Nat := groups * (208 + 32 * regs)

/-- A field of a bind record (R301, R302). -/
def BindRec.field (w : DWord) (lo n : Nat) : Nat := w.toNat / 2 ^ lo % 2 ^ n

/-- The group slot keys that a record names (R299, R301). -/
def BindRec.keys (r : BindRec) (core : Nat) : List Nat :=
  (List.range (BindRec.field r.ctrl 35 5)).map fun g =>
    core * 64 + (BindRec.field r.ctrl 58 2 + g) % 4 * 16 + BindRec.field r.gslots (4 * g) 4

/-- Records of a core that are bound and whose block the hardware has still to start or restore. -/
def pendingBinds (s : State) (core : Nat) : List (Nat × BindRec) :=
  s.binds.filter fun e => e.1 / 64 == core && BindRec.field e.2.ctrl 63 1 == 1 &&
    !(s.blocks.any fun b => b.2.core == core && b.2.entry == e.1 % 64)

/-- Pool commitment of a pending record's block (R300). -/
def BindRec.commit (s : State) (r : BindRec) : Nat :=
  commitOf (BindRec.field r.ctrl 35 5) (((tget s.grids r.grid.toNat).map (·.regsHint)).getD 0)

/-- The use of a core, with places already chosen and not yet written. -/
def coreUse (s : State) (extra : List Berth) (core : Nat) : CoreUse :=
  let bs := s.blocks.filter fun e => e.2.core == core
  let ex := extra.filter fun p => p.core == core
  let members := s.clusters.flatMap fun e => e.2.members.filter fun m => m.1 == core
  let wait := pendingBinds s core
  { slots := ((s.groups.filter fun e => coreOf e.1 == core).map (·.1)) ++ wait.flatMap (fun e => e.2.keys core) ++ ex.flatMap (·.slots)
    scratch := (members.map fun m => m.2.2).sum + (ex.map fun p => p.demand.scratch).sum
    entries := (bs.map fun e => e.2.entry) ++ (wait.map fun e => e.1 % 64) ++ ex.map (·.entry)
    blocks := bs.length + wait.length + ex.length
    cells := (bs.foldl (fun n e => n + commitOf e.2.slots.length e.2.regsHint) 0) + (wait.map fun e => e.2.commit s).sum +
      ex.foldl (fun n p => n + commitOf p.demand.groups p.demand.regs) 0 }

/-- Free group slots of a partition, lowest first. -/
def freeOf (u : CoreUse) (core part : Nat) : List Nat :=
  ((List.range 16).map fun i => core * 64 + part * 16 + i).filter fun k => !(u.slots.contains k)

def freeSlots (u : CoreUse) (core : Nat) : Nat := ((List.range 4).map fun p => (freeOf u core p).length).sum

/-- An element of a list at which a measure is greatest, the first of them. -/
def argMax {α : Type} (f : α → Nat) : List α → Option α
  | [] => none
  | x :: xs => match argMax f xs with
    | none => some x
    | some y => if f x < f y then some y else some x

/-- The slots that a pending record's group claims once it is restored, by group slot key (R353). -/
def pendingClaims (s : State) (core : Nat) : List (Nat × BitVec 16) :=
  (pendingBinds s core).flatMap fun e =>
    if BindRec.field e.2.ctrl 62 1 = 0 then []
    else match s.saved.find? fun x => x.2.area == e.2.save && x.2.blk.ctx == BindRec.field e.2.ctrl 40 8 with
      | none => []
      | some x => (e.2.keys core).zipIdx.map fun k => (k.1, ((x.2.groups.find? fun g => g.idx == k.2).map (·.claims)).getD 0)

/-- Slots of a partition that are claimed: by its groups, by those that are to come back there, and by the places chosen with this one. -/
def claimsOn (s : State) (extra : List Berth) (part : Nat) : BitVec 16 :=
  let here := (s.groups.map fun e => (e.1, e.2.claims)) ++ pendingClaims s (part / 4) ++ extra.flatMap fun p => p.slots.zip p.demand.claims
  (here.filter fun e => partOf e.1 == part).foldl (fun m e => m ||| e.2) 0

/-- R299: the slots of the groups from base partition P on; none if some partition runs out. -/
def pickSlots (u : CoreUse) (core baseP groups : Nat) : Option (List Nat) :=
  (List.range groups).mapM fun g => (freeOf u core ((baseP + g) % 4))[g / 4]?

/-- R300 with R299 for one core. The block's scratchpad follows those of the core, which are moved together first (packCore). -/
def placeOn (s : State) (extra : List Berth) (d : Demand) (core : Nat) : Option Berth := do
  let u := coreUse s extra core
  let p ← argMax (fun p => (freeOf u core p).length) [0, 1, 2, 3]
  let slots ← pickSlots u core p d.groups
  let entry ← (List.range 64).find? fun e => !(u.entries.contains e)
  let claimsOk := (List.range d.groups).all fun g =>
    claimsOn s extra (core * 4 + (p + g) % 4) &&& ((d.claims[g]?).getD 0) == 0
  if u.scratch + d.scratch ≤ 224 * 1024 && (u.blocks = 0 || u.cells + commitOf d.groups d.regs ≤ 65536) && claimsOk then
    return { core := core, entry := entry, baseP := p, slots := slots, scrBase := u.scratch, demand := d }
  else none

def dieCores (die : Nat) : List Nat := (List.range 32).map fun i => die * 32 + i

/-- The dies of a class that take blocks. -/
def runDies (s : State) (c : Class) : List Nat := (classDies c).filter (dieRuns s)

/-- Free group slots over some dies. -/
def freeOnDies (s : State) (extra : List Berth) (ds : List Nat) : Nat :=
  ((ds.flatMap dieCores).map fun c => freeSlots (coreUse s extra c) c).sum

/-- A cluster on one die: distinct cores, the fullest with free slots first (R298). -/
def placeCluster (s : State) (die : Nat) : List Berth → List Nat → List Demand → Option (List Berth)
  | _, _, [] => some []
  | extra, cores, d :: ds => do
    let c ← argMax (fun c => freeSlots (coreUse s extra c) c) (cores.filter fun c => (placeOn s extra d c).isSome)
    let p ← placeOn s extra d c
    let rest ← placeCluster s die (extra ++ [p]) (cores.filter (· != c)) ds
    return p :: rest

/-- Clusters one after the other on one die: a die span (R284). -/
def placeSpan (s : State) (die : Nat) : List Berth → List (List Demand) → Option (List Berth)
  | _, [] => some []
  | extra, c :: cs => do
    let ps ← placeCluster s die extra (dieCores die) c
    let rest ← placeSpan s die (extra ++ ps) cs
    return ps ++ rest

/-- A free die-shared window of a die (R285). -/
def freeWindow (s : State) (die : Nat) : Option Nat :=
  (List.range 8).find? fun w => !(s.spans.any fun e => e.2.die == die && e.2.window == w)

/-- What starts as a whole: clusters of blocks, and whether they form a die span. -/
structure StartUnit where
  clusters : List (List Demand)
  span : Bool
deriving DecidableEq, Repr

/-- A unit on one die. -/
def placeOnDie (s : State) (u : StartUnit) (die : Nat) : Option (List Berth) :=
  if u.span && (freeWindow s die).isNone then none else placeSpan s die [] u.clusters

/-- R298 over the present, running dies of a class: a block takes the core with the most free slots of the class; a
cluster or die span takes a die. -/
def placeUnit (s : State) (c : Class) (u : StartUnit) : Option (List Berth) :=
  match u.span, u.clusters with
  | false, [[d]] => do
    let cores := ((runDies s c).flatMap dieCores).filter fun x => (placeOn s [] d x).isSome
    let core ← argMax (fun x => freeSlots (coreUse s [] x) x) cores
    let p ← placeOn s [] d core
    return [p]
  | _, _ => do
    let die ← argMax (fun d => freeOnDies s [] [d]) ((runDies s c).filter fun d => (placeOnDie s u d).isSome)
    placeOnDie s u die

/-! ## Scratchpads are moved together (R300) -/

/-- The allocations of a core by their bases, each with the base that it gets. -/
def packed (s : State) (core : Nat) : List (Nat × Nat × Nat) :=
  let rs := sortBy (fun (a b : Nat × Nat) => decide (a.1 < b.1))
    ((s.clusters.flatMap fun e => e.2.members.filter fun m => m.1 == core && m.2.2 != 0).map (·.2))
  (rs.foldl (fun (acc : Nat × List (Nat × Nat × Nat)) r => (acc.1 + r.2, acc.2 ++ [(r.1, r.2, acc.1)])) (0, [])).2

/-- The place of a scratchpad byte of the core once its allocations stand together; none: it belongs to none of them. -/
def packedKey (ps : List (Nat × Nat × Nat)) (core key : Nat) : Option Nat :=
  let off := key - scratchKey core 0
  (ps.find? fun p => p.1 ≤ off && off < p.1 + p.2.1).map fun p => scratchKey core (p.2.2 + (off - p.1))

/-- The scratchpads of a core move together from its first byte on, so that what is free is in one piece: R300 asks for the sum
alone (DESIGN CHOICE, notes/assumptions/39.md). -/
def packCore (s : State) (core : Nat) : State :=
  let ps := packed s core
  let lo := scratchKey core 0
  let inside (k : Nat) : Bool := lo ≤ k && k < lo + 2 ^ 18
  let moved (k : Nat) : Nat := if inside k then (packedKey ps core k).getD k else k
  let base (b : Nat) : Nat := ((ps.find? fun p => p.1 == b).map (·.2.2)).getD b
  { s with
    mem := (s.mem.filter fun c => inside c.1 && (packedKey ps core c.1).isSome).foldl (fun m c => memPut m (moved c.1) c.2)
      (memClear s.mem lo (2 ^ 18))
    poison := (s.poison.filter fun w => !(inside (4 * w)) || (packedKey ps core (4 * w)).isSome).map fun w => moved (4 * w) / 4
    resv := s.resv.map fun r => { r with line := lineOf (moved (r.line * 128)) }
    copies := s.copies.map fun c => { c with cells := c.cells.map fun x => (moved x.1, x.2) }
    clusters := s.clusters.map fun e => (e.1, { e.2 with members := e.2.members.map fun m =>
      if m.1 == core && m.2.2 != 0 then (core, base m.2.1, m.2.2) else m })
    blocks := s.blocks.map fun e => if e.2.core == core && e.2.scrSize != 0 then (e.1, { e.2 with scrBase := base e.2.scrBase }) else e
    binds := s.binds.map fun e =>
      if e.1 / 64 == core && e.2.scr.toNat / 65536 != 0 then
        (e.1, { e.2 with scr := BitVec.ofNat 32 (base (e.2.scr.toNat % 1024 * 256) / 256 + e.2.scr.toNat / 1024 * 1024) })
      else e }

/-! ## Units of a grid -/

def gridDemand (g : Grid) (k : Nat) : Demand := { groups := k, scratch := g.scratch, regs := g.regsHint }

def Grid.lanes (g : Grid) : Nat := g.bx * g.byy * g.bz
def Grid.groups (g : Grid) : Nat := (g.lanes + 63) / 64
def Grid.dspan (g : Grid) : Bool := g.flags.getLsbD 0

/-- Blocks of the unit that begins at a linear index: a cluster, or a die span (R281, R284). -/
def unitBlocks (g : Grid) (lin : Nat) : Nat :=
  if g.dspan then min (g.spanSize) (g.blocksTotal - lin) else g.cluster

def unitOf (g : Grid) (blocks : Nat) : StartUnit :=
  { clusters := List.replicate (blocks / g.cluster) (List.replicate g.cluster (gridDemand g g.groups)), span := g.dspan }

/-- The span size of R284 for a class. -/
def spanSizeFor (s : State) (g : Grid) (c : Class) : Nat :=
  let n := max 1 (presentDies s c).length
  g.cluster * ((g.blocksTotal + n * g.cluster - 1) / (n * g.cluster))

/-- The machine with nothing resident: what "an empty die" is (R284). -/
def emptied (s : State) : State :=
  { s with groups := [], blocks := [], clusters := [], spans := [], binds := [], dies := Vector.replicate 8 { state := .run } }

/-- A DSPAN grid whose largest die span no empty die of the class could hold (R284, R29 CLASS). -/
def neverResident (s : State) (g : Grid) (c : Class) : Bool :=
  if g.dspan then
    let n := min (spanSizeFor s g c) g.blocksTotal
    n * g.groups > 2048 || (placeOnDie (emptied s) (unitOf g n) ((classDies c).headD 0)).isNone
  else false

/-- The class with the most free group slots over its present dies; ties to the lower number (R297). -/
def roomiest (s : State) (cs : List Class) : Option Class :=
  argMax (fun c => freeOnDies s [] (runDies s c)) (cs.filter fun c => !(presentDies s c).isEmpty)

end Sys2Proof.Machine
end

