-- ==== Sys2Proof/Machine/Queues.lean ====
section
/-! DEFINITION. Queues.lean: queues, CPCMD, packets and their completion, teardown of a context, device-side launch records
(R15 to R39, R202 to R204, R312, R333, R334, R402, R428). -/

namespace Sys2Proof.Machine

def modQueue (s : State) (q : Nat) (f : Queue → Queue) : State :=
  { s with queues := tset s.queues q (f ((tget s.queues q).getD {})) }

/-- The package serves queues (R434 step 6, R437). -/
def ready (s : State) : Bool := s.boot.state == .ready

/-- The names under which the command processor waits for the MMP: for a queue's packet, and for the command of CPCMD (R366). -/
def queueAgent (q : Nat) (idx : DWord) : Nat := (1 + q) * 2 ^ 64 + idx.toNat
def cpcmdAgent : Nat := 2 ^ 62

/-- An agent's accesses are made: its refaults are over. -/
def agentDone (s : State) (agent : Nat) : State := { s with stalls := tdel s.stalls agent }

/-- A halt: ERRIDX, then STATUS, and QUEUE_HALT (R29). The flag says whether it is made: the command processor holds it while the
Lodge's buffer has no room for the record (R426) or the control block waits for the MMP. A queue that is HALTED already keeps ERRIDX and
STATUS (R24, notes/assumptions/57.md). -/
def haltQueue (s : State) (q reason : Nat) (idx : DWord) : Bool × State :=
  match tget s.queues q, (tget s.queues q).bind (·.ctx) with
  | some qu, some ctx =>
    match cpKeys s ctx true qu.ctrl 24 with
    | .error (.missing c p) => (false, agentCalls s (queueAgent q idx) c p)
    | _ =>
      match post s 8 2 ctx (BitVec.ofNat 64 (q + 65536 * reason)) idx with
      | none => (false, s)
      | some s =>
        if qu.halted then (true, s)
        else
          let s := cpWrite s ctx (qu.ctrl + 16) (leBytes 8 idx.toNat)
          let s := cpWrite s ctx (qu.ctrl + 8) (leBytes 8 (1 + 256 * reason))
          (true, modQueue s q fun x => { x with halted := true })
  | _, _ => (false, s)

/-- What follows a halt, once it is made. -/
def thenHalt (h : Bool × State) (f : State → State) : State := if h.1 then f h.2 else h.2

/-! ## Notify writes (R16, R26, R27) -/

/-- More than the ring holds is notified (R27). -/
def Queue.overrun (qu : Queue) : Bool := decide (qu.read.toNat + 2 ^ qu.log2n < qu.notify.toNat)

/-- A queue in service halts on an overrun. -/
def checkOverrun (s : State) (q : Nat) : State :=
  match tget s.queues q with
  | some qu => if qu.ctx.isSome && !qu.halted && qu.overrun then (haltQueue s q qhOverrun qu.read).2 else s
  | none => s

/-- What a read of the notify page gives: the highest value written at offset 0, zero elsewhere (R26). -/
def notifyRead (s : State) (q off : Nat) : DWord := if off = 0 then ((tget s.queues q).getD {}).notify else 0

/-- Where the queue's next packet lies (R25). -/
def Queue.packetAt (qu : Queue) : DWord := qu.ring + BitVec.ofNat 64 (qu.read.toNat % 2 ^ qu.log2n * 128)

/-- The queue is held at a packet, and the notified index is ahead of the read index (R16). -/
def headerWaits (s : State) (qu : Queue) : Bool :=
  ready s && qu.heldHeader && qu.ctx.isSome && !qu.halted && decide (qu.read.toNat < qu.notify.toNat)

/-- The Lodge clock at which a held header is read again of itself: 32 µs after the last read, so that no event that is under way then can
bring the next one past the 64 µs of R16 (DESIGN CHOICE, notes/assumptions/5.md). -/
def Queue.recheckAt (qu : Queue) : Nat := qu.headerAt + 32 * lodgePerUs

def recheckDue (s : State) (qu : Queue) : Bool := headerWaits s qu && decide (qu.recheckAt ≤ s.lodge)

/-- A held header is read again; the queue stays held while VALID is 0 (R16). -/
def recheckHeader (s : State) (q : Nat) : State :=
  match tget s.queues q with
  | some qu =>
    if qu.heldHeader then
      let put (held : Bool) (t : State) : State := modQueue t q fun x => { x with headerAt := s.lodge, heldHeader := held }
      let t := readAt s 10 (qu.ctx.getD 0) qu.packetAt 8 false
      match cpRead t (qu.ctx.getD 0) qu.packetAt 8 with
      | .ok w => put (!(headerOf w).valid) t
      | .error (.missing c p) => agentCalls (put true t) (queueAgent q qu.read) c p
      | .error (.fails _ _) => put false t
    else s
  | none => s

/-- HEADER_RECHECK (R16). -/
def execHeaderRecheck (q : Nat) (s : State) : Host.Outcome State Fault Refusal := event (recheckHeader s q)

/-- NOTIFY_WRITE: only an aligned 8-byte write at offset 0 of a notify page has an effect (R26), and none before READY (R437). It makes
the command processor read a held header again, whatever it writes (R16). -/
def execNotifyWrite (q off size : Nat) (v : DWord) (s : State) : Host.Outcome State Fault Refusal :=
  event (if !(ready s) || off != 0 || size != 8 || 4096 ≤ q then s
    else checkOverrun (modQueue (recheckHeader s q) q fun x =>
      { x with notify := if x.notify.toNat < v.toNat then v else x.notify }) q)

/-! ## Taking a packet (R17, R28, R29, R33) -/

/-- What a packet's own checks give. -/
inductive Checked (α : Type) where
  /-- a page it needs has no mapping: the MMP is called for it -/
  | missing (ctx page : Nat)
  | bad (reasons : List Nat)
  | good (x : α)

/-- What became of a read: its value; FETCH where it failed. -/
def Checked.ofExcept {α : Type} : Except VaErr α → Checked α
  | .ok x => .good x
  | .error (.missing c p) => .missing c p
  | .error (.fails _ _) => .bad [qhFetch]

/-- The queue serves packets now: nothing halts or holds it, and no BARRIER_AND of it waits (R31). -/
def serves (s : State) (q : Nat) (qu : Queue) : Bool :=
  ready s && qu.ctx.isSome && !qu.halted && !qu.heldHeader && !qu.overrun && decide (qu.read.toNat < qu.notify.toNat) &&
  !(s.works.any fun w => w.queue == q && match w.kind with | .barrierAnd _ => true | _ => false)

/-- The packet is consumed: VALID is cleared, then READIDX goes up (R17). -/
def consume (s : State) (q ctx : Nat) (qu : Queue) (a : DWord) (hdr : Nat) : State :=
  let s := cpWrite s ctx a (leBytes 8 (if hdr / 256 % 2 = 1 then hdr - 256 else hdr))
  let s := cpWrite s ctx qu.ctrl (leBytes 8 (qu.read + 1).toNat)
  agentDone (modQueue s q fun x => { x with read := x.read + 1 }) (queueAgent q qu.read)

/-- The next packet of a queue, if its TYPE is the wanted one: check it and start it. A packet that cannot run halts the
queue, by the lowest of its reasons. visit: what the check reads besides. Its 128 bytes are read and the read index goes up in one event, so a word that the program writes
between the two is never seen in part old, in part new: DESIGN CHOICE, R17 allows either value of each word
(notes/assumptions/5.md). -/
def takePacket {α : Type} (s : State) (q want : Nat) (visit : State → Nat → List Byte → State) (check : State → Nat → List Byte → Checked α)
    (start : State → Nat → Queue → List Byte → α → Option State) : State :=
  match tget s.queues q with
  | none => s
  | some qu =>
    let ctx := qu.ctx.getD 0
    let a := qu.packetAt
    if !(serves s q qu) then s
    else
    let s := readAt s 10 ctx a 128 false
    match cpKeys s ctx true qu.ctrl 24, cpRead s ctx a 128 with
      | .error (.missing c p), _ => agentCalls s (queueAgent q qu.read) c p
      | _, .error (.missing c p) => agentCalls s (queueAgent q qu.read) c p
      | _, .error (.fails _ _) => (haltQueue s q qhFetch qu.read).2
      | _, .ok n =>
        let bs := leBytes 128 n
        let hdr := fieldAt bs 0 8
        let h := headerOf hdr
        let heads := reasonsOf (headerReasons h qu.maxPrio)
        let s := if h.valid && h.kind == want then visit s ctx bs else s
        let halt (r : Nat) : State := thenHalt (haltQueue s q r qu.read) fun s => consume s q ctx qu a hdr
        if !h.valid then modQueue s q fun x => { x with heldHeader := true, headerAt := s.lodge }
        else if h.barrier && s.works.any fun w => w.queue == q then s
        else if h.kind = want || h.kind == 0 || decide (5 < h.kind) then
          match (if h.kind = want then check s ctx bs else .bad []) with
          | .missing c p => ((minOf heads).map halt).getD (agentCalls s (queueAgent q qu.read) c p)
          | .bad rs => ((minOf (heads ++ rs)).map halt).getD s
          | .good x =>
            match minOf heads with
            | some r => halt r
            | none => ((start s ctx qu bs x).map fun s => consume s q ctx qu a hdr).getD s
        else s

def addWork (s : State) (q : Nat) (qu : Queue) (ctx : Nat) (bs : List Byte) (kind : WorkKind) : State :=
  let (id, s) := s.fresh
  { s with works := s.works ++ [{ id := id, queue := q, index := qu.read, ctx := ctx,
                                  signal := BitVec.ofNat 64 (fieldAt bs 0x28 8), kind := kind }] }

def goodOr (l : List (Nat × Bool)) : Checked Unit := match reasonsOf l with | [] => .good () | rs => .bad rs

/-! ## LAUNCH -/

/-- Everything a launch needs. -/
structure LaunchInfo where
  rec' : LaunchRec
  kern : Kernel
  /-- bytes of its code object -/
  size : Nat
  data : Option DWord
  args : List Byte
deriving DecidableEq, Repr

/-- The grid a launch makes, without its place in the order. -/
def gridOf (r : LaunchRec) (k : Kernel) (ctx prio : Nat) (origin : LaunchFrom) : Grid :=
  { ctx := ctx, prio := prio, flags := BitVec.ofNat 32 r.flags, origin := origin, stamp := 0, stampMinor := 0,
    codeobj := r.codeobj, kindex := r.kindex, contract := k.contract, gx := r.gx, gy := r.gy, gz := r.gz, bx := k.bx,
    byy := k.byy, bz := k.bz, cluster := k.cluster, scratch := roundUp256 (k.scratch + r.dscratch), regsHint := k.regs,
    args := 0, kdata := 0, signal := r.signal, cls := none, texts := [], next := 0, ended := 0, redo := [], spanSize := 0,
    firstSince := none, starved := false }

/-- The classes a launch may be bound to as far as its record says: a native class without a present die is replaced (R37). -/
def classesOf (s : State) (r : LaunchRec) (k : Kernel) : List Class :=
  let others (l : List Class) : List Class := if l.all fun c => (presentDies s c).isEmpty then l else l.filter fun c => !(presentDies s c).isEmpty
  match classOfCode (r.flags / 16 % 16) with
  | some c => [c]
  | none => match nativeClass k.contract with
    | some c => if (presentDies s c).isEmpty then others ([Class.m, .f, .l, .t].filter (· != c)) else [c]
    | none => others [.m, .f, .l, .t]

/-- The reasons that the record and the kernel give. -/
def launchReasons (s : State) (r : LaunchRec) (k : Kernel) : List (Nat × Bool) :=
  let g := gridOf r k 0 0 (.device 0)
  [(qhGrid, r.gx % k.cluster != 0), (qhScratch, decide (224 * 1024 < roundUp256 (k.scratch + r.dscratch))),
   (qhArgs, r.argBytes != k.argBytes), (qhClass, (classesOf s r k).all fun c => neverResident s g c)]

/-- The reasons that the record alone gives. -/
def recordReasons (s : State) (r : LaunchRec) : List (Nat × Bool) :=
  let dims := decide (1 ≤ r.gx ∧ r.gx < 2 ^ 31 ∧ 1 ≤ r.gy ∧ r.gy < 65536 ∧ 1 ≤ r.gz ∧ r.gz < 65536 ∧ r.gx * r.gy * r.gz ≤ 2 ^ 32)
  [(qhRsvd, r.flags / 256 != 0 || decide (4 < r.flags / 16 % 16) || r.reserved != 0),
   (qhAlign, addrBad r.signal || addrBad r.argPtr), (qhGrid, !dims),
   (qhArgs, r.argBytes % 8 != 0 || (r.argPtr == 0 && decide (64 < r.argBytes)) || decide (4096 < r.argBytes)),
   (qhClass, match classOfCode (r.flags / 16 % 16) with | some c => (presentDies s c).isEmpty | none => false)]

/-- What the code object adds: its reasons, and where its head is sound, the code object and the kernel's own record, as far as each can be
read: the launch is held against a record that breaks R40 itself, or that stands beside one that cannot be read, as against any other.
KINDEX is held against the head's NKERN whatever else is wrong with the code object, and a table that cannot be read is FETCH (R29). -/
def launchKernel (s : State) (ctx : Nat) (r : LaunchRec) : Except VaErr (List Nat × Option CodeObj × Option Kernel) :=
  if r.codeobj.toNat % 256 != 0 || ownerOf r.codeobj != 0 then .ok ([qhCodeobj], none, none)
  else do
    let h ← chunkAt s ctx r.codeobj 64
    let late := if fieldAt h 12 4 ≤ r.kindex then [qhKindex] else []
    if !codeHeadOk h then return (late ++ [qhCodeobj], none, none)
    else
      let own := if late.isEmpty then chunkAt s ctx (addr r.codeobj (fieldAt h 0x18 8 + 64 * r.kindex)) 64 else .ok []
      let kern : Option Kernel := match own with | .ok bs => if late.isEmpty then some (kernelOf bs) else none | .error _ => none
      match readTables s ctx r.codeobj h with
      | .error (.missing c p) => .error (.missing c p)
      | .error _ => return (late ++ [qhFetch], none, kern)
      | .ok co => return (late ++ (if co.ok then [] else [qhCodeobj]), some co, kern)

def launchArgs (s : State) (ctx : Nat) (r : LaunchRec) : Checked (List Byte) :=
  if r.argPtr = 0 then .good (r.args.take r.argBytes) else Checked.ofExcept (chunkAt s ctx r.argPtr r.argBytes)

/-- R35 to R40 for a launch record, with every reason that applies. Where the record's own reasons are below any that a code object can
give, nothing else is read; arguments are read where their own fields are sound (R29). -/
def checkLaunch (s : State) (ctx : Nat) (bs : List Byte) : Checked LaunchInfo :=
  let r := launchRecOf bs
  let own := reasonsOf (recordReasons s r)
  if own.any fun x => decide (x ≤ qhGrid) then .bad own
  else
    let args := if own.contains qhArgs then .good [] else launchArgs s ctx r
    match Checked.ofExcept (launchKernel s ctx r), args with
    | .missing c p, _ => .missing c p
    | _, .missing c p => .missing c p
    | .bad rs, _ => .bad (own ++ rs)
    | .good (rs, co, k), args =>
      let more := match k with | some k => reasonsOf (launchReasons s r k) | none => []
      let unread := match args with | .bad as => as | _ => []
      match own ++ rs ++ more ++ unread, co, k, args with
      | [], some co, some k, .good args =>
        .good { rec' := r, kern := k, size := co.size, data := (co.section 3 0).map fun x => addr r.codeobj x.offset, args := args }
      | [], _, _, _ => .bad [qhCodeobj]
      | l, _, _, _ => .bad l

/-! ### Argument buffers (R38) -/

/-- Ranges of a context that the command processor knows to be in use: its queues, its tables and areas, and its grids' code objects,
argument buffers and signals. -/
def knownRanges (s : State) (ctx : Nat) : List (Nat × Nat) :=
  [((ctxSavePool s ctx).toNat, ctxSaveSize s ctx), ((ctxTrapArea s ctx).toNat, 256 * 16384), ((ctxQtable s ctx).toNat, 64 * 4096)] ++
  ((s.queues.filter fun e => e.2.ctx == some ctx).flatMap fun e => [(e.2.ring.toNat, 128 * 2 ^ e.2.log2n), (e.2.ctrl.toNat, 64)]) ++
  ((s.grids.filter fun e => e.2.ctx == ctx).flatMap fun e =>
    [(e.2.codeobj.toNat, e.2.codeSize), (e.2.args.toNat, 4096), (e.2.signal.toNat, 8)])

/-- A place for 4 KiB must not begin at an address; the next one that may: behind a range that is in use, or behind a mapped page, which may
hold what only the program knows of. Pages that hold argument buffers already may hold more. -/
def argNext (s : State) (ctx : Nat) (used : List (Nat × Nat)) (a : Nat) : Option Nat :=
  match used.find? fun r => decide (r.1 < a + 4096 ∧ a < r.1 + r.2) with
  | some r => some ((r.1 + r.2 + 4095) / 4096 * 4096)
  | none =>
    if s.argPages.contains (ctx, a / 65536) then none
    else match walked s ctx a with
      | .leaf l => some (l.base + l.size)
      | .peer _ => some ((a / 65536 + 1) * 65536)
      | .invalid _ _ => none

def argSearch (s : State) (ctx : Nat) (used : List (Nat × Nat)) : Nat → Nat → Nat
  | 0, a => a
  | fuel + 1, a => match argNext s ctx used a with
    | some b => if a < b ∧ b < 2 ^ 48 then argSearch s ctx used fuel b else a
    | none => a

/-- The grid's argument buffer: 4 KiB of owner 00, the lowest at or above the context's Config.argPlace that meets nothing the command
processor knows to be in use, in a page that is not mapped or that holds argument buffers already. The manual names no address (DESIGN
CHOICE, notes/assumptions/18.md). -/
def argAddr (s : State) (ctx : Nat) (x : LaunchInfo) : DWord :=
  let used := (knownRanges s ctx ++
    [(x.rec'.codeobj.toNat, x.size), (x.rec'.argPtr.toNat, x.args.length), (x.rec'.signal.toNat, 8)]).filter fun r => r.2 != 0
  BitVec.ofNat 64 (argSearch s ctx used (2 ^ 20) ((Config.argPlace ctx).toNat % 2 ^ 47 / 4096 * 4096))

/-- The page of a launch's argument buffer is taken for such buffers. -/
def takeArgPage (s : State) (ctx : Nat) (x : LaunchInfo) : State :=
  let page := (argAddr s ctx x).toNat / 65536
  if s.argPages.contains (ctx, page) then s else { s with argPages := s.argPages ++ [(ctx, page)] }

/-- The command processor comes to the homes of a code object's head and of its tables. -/
def visitCode (s : State) (ctx : Nat) (a : DWord) : State :=
  if a.toNat % 256 != 0 || ownerOf a != 0 then s
  else
    let s := readAt s 10 ctx a 64 false
    match chunkAt s ctx a 64 with
    | .ok h =>
      if codeHeadOk h then
        let s := readAt s 10 ctx (addr a (fieldAt h 0x10 8)) (32 * fieldAt h 8 4) false
        readAt s 10 ctx (addr a (fieldAt h 0x18 8)) (64 * fieldAt h 12 4) false
      else s
    | .error _ => s

/-- The same with a launch's arguments. -/
def visitTables (s : State) (ctx : Nat) (bs : List Byte) : State :=
  let r := launchRecOf bs
  if (reasonsOf (recordReasons s r)).any fun x => decide (x ≤ qhGrid) then s
  else
    visitCode (if r.argPtr = 0 ∨ 4096 < r.argBytes then s else readAt s 10 ctx r.argPtr r.argBytes false) ctx r.codeobj

/-- With them it has what it checks; a launch that passes takes the page of its argument buffer. -/
def visitLaunch (s : State) (ctx : Nat) (bs : List Byte) : State :=
  let s := visitTables s ctx bs
  match checkLaunch s ctx bs with
  | .good x => if x.args.isEmpty then s else takeArgPage s ctx x
  | _ => s

/-- A pending grid (R295); none while the page of its argument buffer waits for the MMP. -/
def acceptGrid (s : State) (ctx prio : Nat) (origin : LaunchFrom) (minor : Nat) (x : LaunchInfo) : Option (Nat × State) :=
  let a := argAddr s ctx x
  match cpKeys s ctx true a x.args.length with
  | .error (.missing _ _) => none
  | e =>
    let s := match e with | .ok ks => agentLand s 10 ctx a (ks.zip x.args) | _ => s
    let (kd, s) := match x.data with
      | some d => (d, s)
      | none => s.draw
    let (key, s) := s.fresh
    let g := { gridOf x.rec' x.kern ctx prio origin with
      stamp := s.lodge, stampMinor := minor, args := a, kdata := kd, codeSize := x.size }
    some (key, { s with grids := tset s.grids key g })

def startLaunch (q : Nat) (s : State) (ctx : Nat) (qu : Queue) (bs : List Byte) (x : LaunchInfo) : Option State := do
  let (key, s) ← acceptGrid s ctx x.rec'.hdr.prio (.packet s.nextId) q x
  let (id, s) := s.fresh
  return { s with
    grids := tmod s.grids key fun g => { g with origin := .packet id }
    works := s.works ++ [{ id := id, queue := q, index := qu.read, ctx := ctx, signal := BitVec.ofNat 64 (fieldAt bs 0x28 8),
                           kind := .launch key }] }

/-- The launch's own argument buffer, once all else is sound: it waits for the MMP with its page, and is FETCH where the page can get no
mapping or no right to be written. R29 names FETCH for reading the arguments and no reason for the buffer: DESIGN CHOICE
(notes/assumptions/18.md). -/
def checkLaunchArgs (s : State) (ctx : Nat) (bs : List Byte) : Checked LaunchInfo :=
  match checkLaunch s ctx bs with
  | .good x =>
    match cpKeys s ctx true (argAddr s ctx x) x.args.length with
    | .error (.missing c p) => .missing c p
    | .error (.fails _ _) => .bad [qhFetch]
    | .ok _ => .good x
  | r => r

/-- LAUNCH_PACKET: the next packet of the queue, where it is a LAUNCH (R35). -/
def execLaunchPacket (q : Nat) (s : State) : Host.Outcome State Fault Refusal :=
  event (takePacket s q 1 visitLaunch checkLaunchArgs (startLaunch q))

/-! ## The other packets (R30 to R32) -/

def zeros (bs : List Byte) (from' to' : Nat) : Bool := ((bs.drop from').take (to' - from')).all (· == 0)

def depsOf (bs : List Byte) : List DWord := (List.range (fieldAt bs 8 4)).map fun i => BitVec.ofNat 64 (fieldAt bs (0x30 + 8 * i) 8)

def checkBarrierAnd (_ : State) (_ : Nat) (bs : List Byte) : Checked Unit :=
  let n := fieldAt bs 8 4
  goodOr [(qhRsvd, decide (7 < n) || !(zeros bs 0x0C 0x28) || !(zeros bs (0x30 + 8 * n) 0x80)),
          (qhAlign, addrBad (BitVec.ofNat 64 (fieldAt bs 0x28 8)) || (n ≤ 7 && (depsOf bs).any addrBad))]

/-- BARRIER_AND: the packet starts; it is complete when its signals are (R31). -/
def execBarrierAnd (q : Nat) (s : State) : Host.Outcome State Fault Refusal :=
  event (takePacket s q 2 (fun s _ _ => s) checkBarrierAnd fun s ctx qu bs _ => some (addWork s q qu ctx bs (.barrierAnd (depsOf bs))))

/-- Copies that run on a Gondola's 16 engines (R428). -/
def enginesUsed (s : State) (g : Nat) : Nat :=
  (s.works.filter fun w => match w.kind with | .copy _ d _ _ left _ => d == some g && left != 0 | _ => false).length

/-- The engine that a copy gets: one of the named Gondola, or of the one with more of them free; none: all run. -/
def engineFor (s : State) (want : Nat) : Option Nat :=
  let g := if want = 0xFF then (if enginesUsed s 1 < enginesUsed s 0 then 1 else 0) else want
  if enginesUsed s g < 16 then some g else none

def setKind (s : State) (id : Nat) (k : WorkKind) : State :=
  { s with works := s.works.map fun (x : Work) => if x.id = id then { x with kind := k } else x }

/-- Copies that wait for an engine take the free ones in the order in which they started (R428). -/
def assignEngines (s : State) : State :=
  s.works.foldl (fun s w => match w.kind with
    | .copy want none src dst left carry =>
      (match engineFor s want with | some g => setKind s w.id (.copy want (some g) src dst left carry) | none => s)
    | _ => s) s

def checkCopy (_ : State) (_ : Nat) (bs : List Byte) : Checked Unit :=
  let e := fieldAt bs 0x20 8
  goodOr [(qhRsvd, decide (2 ^ 40 < fieldAt bs 0x18 8) || !(e == 0 || e == 1 || e == 0xFF) || !(zeros bs 0x30 0x80)),
          (qhAlign, addrBad (BitVec.ofNat 64 (fieldAt bs 0x28 8)))]

def startCopyPacket (q : Nat) (s : State) (ctx : Nat) (qu : Queue) (bs : List Byte) (_ : Unit) : Option State :=
  let e := fieldAt bs 0x20 8
  if fieldAt bs 0x18 8 = 0 then some (addWork s q qu ctx bs .finished)
  else some (assignEngines (addWork s q qu ctx bs
    (.copy e none (BitVec.ofNat 64 (fieldAt bs 8 8)) (BitVec.ofNat 64 (fieldAt bs 0x10 8)) (fieldAt bs 0x18 8) [])))

/-- COPY_PACKET: the copy starts, and takes an engine or waits for one (R428); one of no bytes is complete at once (R32). -/
def execCopyPacket (q : Nat) (s : State) : Host.Outcome State Fault Refusal :=
  event (takePacket s q 3 (fun s _ _ => s) checkCopy (startCopyPacket q))

def checkSignal (_ : State) (_ : Nat) (bs : List Byte) : Checked Unit :=
  let t : DWord := BitVec.ofNat 64 (fieldAt bs 8 8)
  goodOr [(qhRsvd, decide (1 < fieldAt bs 0x18 8) || !(zeros bs 0x20 0x28) || !(zeros bs 0x30 0x80)),
          (qhAlign, addrBad (BitVec.ofNat 64 (fieldAt bs 0x28 8)) || t.toNat % 8 != 0 || decide (3 ≤ ownerOf t))]

/-- SIGNAL_PACKET: the operation is made when the packet completes (R32). -/
def execSignalPacket (q : Nat) (s : State) : Host.Outcome State Fault Refusal :=
  event (takePacket s q 4 (fun s _ _ => s) checkSignal fun s ctx qu bs _ => some (addWork s q qu ctx bs
    (.signal (BitVec.ofNat 64 (fieldAt bs 8 8)) (BitVec.ofNat 64 (fieldAt bs 0x10 8)) (fieldAt bs 0x18 8 == 1))))

def checkNop (_ : State) (_ : Nat) (bs : List Byte) : Checked Unit :=
  goodOr [(qhRsvd, !(zeros bs 8 0x28) || !(zeros bs 0x30 0x80)), (qhAlign, addrBad (BitVec.ofNat 64 (fieldAt bs 0x28 8)))]

/-- NOP_PACKET (R30). -/
def execNopPacket (q : Nat) (s : State) : Host.Outcome State Fault Refusal :=
  event (takePacket s q 5 (fun s _ _ => s) checkNop fun s ctx qu bs _ => some (addWork s q qu ctx bs .finished))

/-! ## Completion (R18, R31 to R33) -/

def dropWork (s : State) (id : Nat) : State := { s with works := s.works.filter fun w => w.id != id }

/-- The packet's own work failed: the queue halts with FETCH, and the signal stays (R32). With its queue no longer in service the packet
is dropped, with no halt and no event: DESIGN CHOICE (notes/assumptions/57.md). -/
def failWork (s : State) (w : Work) : State :=
  let serving := ((tget s.queues w.queue).bind (·.ctx)) == some w.ctx
  if serving then thenHalt (haltQueue s w.queue qhFetch w.index) fun s => dropWork s w.id else dropWork s w.id

/-- One operation on a signal at its home (R18, R32); none: it has to wait. -/
inductive SignalDone where
  | made (s : State)
  | waits (s : State)
  | fails
deriving DecidableEq, Repr

def cpSignal (s : State) (agent ctx : Nat) (a : DWord) (store : Bool) (v : DWord) : SignalDone :=
  if agentHeld s 10 ctx a 8 then .waits s
  else match cpKey s ctx true a with
    | .error (.missing c p) => .waits (agentCalls s agent c p)
    | .error (.fails _ _) => .fails
    | .ok key =>
      let s := agentDone (atHolder (fillRange s 10 ctx a 8) 10 (wayOf s 10 ctx a) key) agent
      if s.poisoned key 8 then .fails else .made (dropStale (bumpTag (signalAt s store key v).2 key) key)

/-- The completion signal goes down by 1, and the work is over. A signal that cannot be reached is left as it is. -/
def completeWork (s : State) (w : Work) : State :=
  if w.signal = 0 then dropWork s w.id
  else match cpSignal s w.id w.ctx w.signal false 1 with
    | .made s => dropWork s w.id
    | .waits s => s
    | .fails => dropWork s w.id

/-- Every dependency reads zero or negative; none: a read failed. -/
def depsDone (s : State) (ctx : Nat) (deps : List DWord) : Checked Bool :=
  Checked.ofExcept (do
    let xs ← mapExcept (fun a => cpRead s ctx a 8) deps
    return xs.all fun x => decide (toSigned 64 x ≤ 0))

/-- PACKET_COMPLETE: a packet whose work is done decrements its completion signal (R33). -/
def execPacketComplete (id : Nat) (s : State) : Host.Outcome State Fault Refusal :=
  event (match s.works.find? fun w => w.id == id with
    | none => s
    | some w =>
      match w.kind with
      | .launch _ => s
      | .finished => completeWork s w
      | .copy _ _ _ _ left _ => if left = 0 then completeWork s w else s
      | .barrierAnd deps =>
        let s := deps.foldl (fun s a => readAt s 10 w.ctx a 8 false) s
        match depsDone s w.ctx deps with
        | .missing c p => agentCalls s w.id c p
        | .bad _ => failWork s w
        | .good true => completeWork s w
        | .good false => s
      | .signal t v st =>
        match cpSignal s w.id w.ctx t st v with
        | .made s => setKind s id .finished
        | .waits s => s
        | .fails => failWork s w)

/-- How many source bytes an engine reads to write n, of left to be written, with some read already: whole aligned words of 8 (R380). -/
def wordsFor (src : DWord) (carried left n : Nat) : Nat :=
  if n ≤ carried then 0
  else min (left - carried) (n - carried + (8 - (src.toNat + (n - carried)) % 8) % 8)

/-- One piece of a copy by an engine of Gondola g, at its port: n bytes to write, and what it has read beyond them. -/
def copyPiece (s : State) (g ctx : Nat) (src dst : DWord) (carry : List Byte) (m n : Nat) : Checked (List Byte × List Host.Cell) :=
  Checked.ofExcept (do
    let x ← agentRead s (8 + g) ctx src m
    let bs := carry ++ leBytes m x
    let cells ← agentCells s (8 + g) ctx dst (bs.take n)
    return (bs.drop n, cells))

/-- DMA_COPY: an engine moves the rest of one line and some whole lines more of its COPY packet, k of them by a count of 512 (R428), so that
a line that is fetched as text is wholly old or wholly new (R44). Its writes to frozen lines wait (R401). -/
def execDmaCopy (id k : Nat) (s : State) : Host.Outcome State Fault Refusal :=
  let s := assignEngines s
  event (match s.works.find? fun w => w.id == id with
    | some w =>
      match w.kind with
      | .copy want (some g) src dst left carry =>
        let n := min left (128 * (k % 512 + 1) - dst.toNat % 128)
        let m := wordsFor src carry.length left n
        if left = 0 || !portOpen s (8 + g) || agentHeld s (8 + g) w.ctx dst n then s
        else
        let s := readAt s (8 + g) w.ctx src m false
        match copyPiece s g w.ctx src dst carry m n with
          | .missing c p => agentCalls s w.id c p
          | .bad _ => failWork s w
          | .good (rest, cells) =>
            let s := agentLand (agentDone s w.id) (8 + g) w.ctx dst cells
            setKind s id (.copy want (some g) (addr src m) (addr dst n) (left - n) rest)
      | _ => s
    | none => s)

/-! ## CPCMD (R23) -/

/-- CPCMD's fields. -/
structure CpCmd where
  ctx : Nat
  queue : Nat
  cmd : Nat
deriving DecidableEq, Repr

def cpCmdOf (v : DWord) : CpCmd :=
  { ctx := (v.extractLsb' 32 8).toNat, queue := (v.extractLsb' 16 12).toNat, cmd := (v.extractLsb' 0 2).toNat }

/-- The bits that the host writes. -/
def cpCmdMask : DWord := 0x000000FF0FFF0003#64
/-- Reserved bits of the host's fields. -/
def cpCmdReserved : DWord := 0x0000FF00F000FFFC#64

def cpcmdBusy (s : State) : Bool := s.cpcmd.getLsbD 63

/-- A command ends with a STATUS. -/
def cpcmdDone (s : State) (status : Nat) : State :=
  { agentDone s cpcmdAgent with cpcmd := (s.cpcmd &&& cpCmdMask) ||| (BitVec.ofNat 64 status <<< 48) }

def disableQueue (s : State) (q : Nat) : State := modQueue s q fun x => { x with ctx := none, halted := false, heldHeader := false }

/-- R21 for a descriptor's 64 bytes. -/
def descriptorOk (bs : List Byte) (ctx : Nat) : Bool :=
  let a (off align : Nat) : Bool := fieldAt bs off 8 % align == 0 && decide (fieldAt bs off 8 / 2 ^ 56 ≤ 2)
  let w := fieldAt bs 0x10 4
  a 0 128 && a 8 64 && decide (4 ≤ w % 32 ∧ w % 32 ≤ 16) && w / 32 % 8 == 0 && decide (w / 256 % 16 ≤ 11) && w / 4096 % 16 == 0 &&
  w / 65536 % 256 == ctx && w / 2 ^ 24 % 128 == 0 && w / 2 ^ 31 == 1 && zeros bs 0x14 0x40

/-- QUEUE_REJECT: the queue ends disabled (R22, R23); none: no room for the record. -/
def rejectQueue (s : State) (q ctx : Nat) : Option State :=
  (post s 8 1 ctx (BitVec.ofNat 64 q) 0).map fun s =>
    let mine := ((tget s.queues q).bind (·.ctx)) == some ctx
    cpcmdDone (if mine then disableQueue s q else s) 2

/-- A QENABLE whose descriptor cannot be read, through an access that fails or poison, is answered as one that breaks R21: DESIGN
CHOICE (notes/assumptions/57.md). -/
def unreadable (s : State) (q ctx : Nat) : State := (rejectQueue s q ctx).getD s

/-- READIDX as the control block holds it; a free value where it cannot be read. -/
def readIndex (s : State) (ctx : Nat) (ctrl : DWord) : Checked DWord :=
  match cpRead s ctx ctrl 8 with
  | .ok n => .good (BitVec.ofNat 64 n)
  | .error (.missing c p) => .missing c p
  | .error _ => .bad []

/-- The queue is in RUN (R23). One that was in service and is held at a packet stays held, and its time goes on (R16). -/
def enterRun (s : State) (q ctx : Nat) (bs : List Byte) (read : DWord) : State :=
  let ctrl : DWord := BitVec.ofNat 64 (fieldAt bs 8 8)
  let w := fieldAt bs 0x10 4
  let s := modQueue s q fun x =>
    { x with ctx := some ctx, ring := BitVec.ofNat 64 (fieldAt bs 0 8), ctrl := ctrl, log2n := w % 32, maxPrio := w / 256 % 16,
             read := read, halted := false, heldHeader := x.heldHeader && x.ctx == some ctx,
             headerAt := if headerWaits s x then x.headerAt else s.lodge }
  checkOverrun (cpcmdDone (cpWrite s ctx (ctrl + 8) (leBytes 8 0)) 0) q

/-- QENABLE; BUSY stays while a page it reads waits for the MMP, or the buffer has no room for its record (R426). -/
def qenable (s : State) (c : CpCmd) : State :=
  let owner := (tget s.queues c.queue).bind (·.ctx)
  if !(ctxValid s c.ctx) then cpcmdDone s 1
  else if owner.isSome && owner != some c.ctx then cpcmdDone s 3
  else
  let desc := ctxQtable s c.ctx + BitVec.ofNat 64 (64 * c.queue)
  let s := readAt s 10 c.ctx desc 64 false
  match cpRead s c.ctx desc 64 with
    | .error (.missing x p) => agentCalls s cpcmdAgent x p
    | .error _ => unreadable s c.queue c.ctx
    | .ok n =>
      let bs := leBytes 64 n
      if !(descriptorOk bs c.ctx) then (rejectQueue s c.queue c.ctx).getD s
      else
      let ctrl : DWord := BitVec.ofNat 64 (fieldAt bs 8 8)
      let s := readAt s 10 c.ctx ctrl 8 false
      match readIndex s c.ctx ctrl with
        | .missing x p => agentCalls s cpcmdAgent x p
        | .good r => enterRun s c.queue c.ctx bs r
        | .bad _ => let (r, s) := s.draw; enterRun s c.queue c.ctx bs r

def qdisable (s : State) (c : CpCmd) : State :=
  if ((tget s.queues c.queue).bind (·.ctx)) == some c.ctx then cpcmdDone (disableQueue s c.queue) 0 else cpcmdDone s 4

/-- The device-side launches that the teardown finds queued are dead: LAUNCH_RECORD writes their status words (R204, R401). -/
def killLaunches (s : State) (ctx : Nat) : State :=
  { s with launches := s.launches.map fun x => if x.ctx = ctx then { x with dead := true } else x }

/-- A write under way that can go on without the group that issued it: an STC without a reservation does nothing. -/
def MemOp.orphans (o : MemOp) : Bool := isWrite o.kind && o.kind != .stc && decide (o.grp < 16384)

/-- It goes on so, with no result to come back; no group has the number (the model's own). -/
def MemOp.orphan (o : MemOp) : MemOp :=
  { o with grp := o.grp + 16384, dst := .none, acq := none, fenced := 0, fencedWide := false, seen := [], watch := [] }

/-- Writes under way of a context go on without the groups that issued them: what is held under R401 is performed later (R402). No result
comes back. -/
def orphanWrites (s : State) (ctx : Nat) : State :=
  { s with reqs := s.reqs.map fun (o : MemOp) =>
      if o.ctx = ctx ∧ o.orphans then
        { o.orphan with todo := o.todo.map fun x => { x with waiting := none, replay := none } }
      else o }

/-- A packet that goes on after its context's teardown: one that has started, but for a launch, whose grid is gone (R34, R312). -/
def outlives (ctx : Nat) (w : Work) : Bool := w.ctx != ctx || match w.kind with | .launch _ => false | _ => true

/-- Every die writes back and drops the lines of the context, and every TLB drops its entries (R334). -/
def forgetContext (s : State) (ctx : Nat) : State :=
  { wroteBack s (s.dc.filter fun l => l.ctx == ctx && !l.replica) with
    dc := s.dc.filter fun l => l.ctx != ctx
    l1 := s.l1.filter fun l => l.ctx != ctx
    tlb := s.tlb.filter fun e => e.ctx != ctx }

/-- Stages 1 and 2 of R334, with R312 and R402. -/
def tearDown (s : State) (ctx : Nat) : State :=
  let s := orphanWrites (killLaunches s ctx) ctx
  let bks := (s.blocks.filter fun e => e.2.ctx == ctx).map (·.1)
  let s := bks.foldl dropBlock s
  let gks := (s.grids.filter fun e => e.2.ctx == ctx).map (·.1)
  let frozen := (s.frt.filter fun e => e.2.state == .frozen && e.2.ctx == ctx).map (·.1)
  let s := { forgetContext s ctx with
    grids := s.grids.filter fun e => e.2.ctx != ctx
    clusters := s.clusters.filter fun e => !(gks.contains e.2.grid)
    spans := s.spans.filter fun e => !(gks.contains e.2.grid)
    saved := s.saved.filter fun e => e.2.blk.ctx != ctx
    binds := s.binds.filter fun e => (e.2.ctrl.extractLsb' 40 8).toNat != ctx
    works := s.works.filter (outlives ctx)
    queues := s.queues.map fun e =>
      if e.2.ctx == some ctx then (e.1, { e.2 with ctx := none, halted := false, heldHeader := false }) else e
    mmp := s.mmp.filter fun e => e.1 != ctx
    argPages := s.argPages.filter fun e => e.1 != ctx
    teardowns := if s.teardowns.contains ctx then s.teardowns else s.teardowns ++ [ctx] }
  frozen.foldl (fun s e => (startThaw s e false).2) s

/-- TEARDOWN; BUSY stays 1 until CONTEXT_FREE is posted. -/
def teardown (s : State) (c : CpCmd) : State :=
  if !(ctxValid s c.ctx) then cpcmdDone s 1 else tearDown s c.ctx

/-- The command processor goes on with a QENABLE that had to wait. -/
def resumeCpcmd (s : State) : State :=
  let c := cpCmdOf s.cpcmd
  if ready s && cpcmdBusy s && c.cmd == 1 then qenable s c else s

/-- A write of CPCMD; while BUSY = 1 it is discarded (R23). -/
def writeCpcmd (s : State) (v : DWord) : State :=
  if !(ready s) || cpcmdBusy s || v &&& cpCmdReserved != 0 then s
  else
    let c := cpCmdOf v
    let kept := s.cpcmd &&& 0x00FF000000000000#64
    if c.cmd = 0 then { s with cpcmd := kept ||| (v &&& cpCmdMask) }
    else
      let s := { s with cpcmd := 0x8000000000000000#64 ||| kept ||| (v &&& cpCmdMask) }
      if c.cmd = 1 then qenable s c else if c.cmd = 2 then qdisable s c else teardown s c

def execQenable (v : DWord) (s : State) : Host.Outcome State Fault Refusal := event (writeCpcmd s v)

def execQdisable (v : DWord) (s : State) : Host.Outcome State Fault Refusal := event (writeCpcmd s v)

def execTeardown (v : DWord) (s : State) : Host.Outcome State Fault Refusal := event (writeCpcmd s v)

/-- Something of the context is still under way: an entry that is not LIVE (R402), a write, a forwarded one, a status word (R204), the bytes
of a COPY packet. -/
def contextBusy (s : State) (ctx : Nat) : Bool :=
  (s.frt.any fun e => e.2.ctx == ctx && e.2.state != .live) || (s.reqs.any fun o => o.ctx == ctx) || (s.fwd.any fun f => f.ctx == ctx) ||
  (s.launches.any fun x => x.ctx == ctx) ||
  s.works.any fun w => w.ctx == ctx && match w.kind with | .copy _ _ _ _ left _ => left != 0 | _ => false

/-- CONTEXT_FREE: once nothing of the context is under way, VALID is cleared at the descriptor's home and the event posted. What the last
writes left in die caches and TLBs under its id goes as well, so that nothing stands there for a later context (R334), and with it a
packet that has started and not completed (DESIGN CHOICE, notes/assumptions/57.md). -/
def execContextFree (ctx : Nat) (s : State) : Host.Outcome State Fault Refusal :=
  event (if !(s.teardowns.contains ctx) || contextBusy s ctx then s
    else match post s 8 4 ctx 0 0 with
      | none => s
      | some s =>
        let a := devKey (s.boot.ctxTable.toNat + 64 * ctx + 48)
        let s := comesHome s 10 .own a
        let s := forgetContext (landAt s 10 a (leBytes 4 (s.readMem a 4 / 2 * 2))) ctx
        let s := { s with teardowns := s.teardowns.filter (· != ctx), works := s.works.filter fun w => w.ctx != ctx }
        if cpcmdBusy s && (cpCmdOf s.cpcmd).cmd == 3 && (cpCmdOf s.cpcmd).ctx == ctx then cpcmdDone s 0 else s)

/-! ## Device-side launches (R202, R203) -/

/-- The status word of a launch: its STATE and REASON; none while the write waits. One of a context whose descriptor is no longer VALID is
discarded (R204). -/
def writeStatus (s : State) (ctx : Nat) (a : DWord) (st reason : Nat) : Option State :=
  if !(ctxValid s ctx) then some s
  else if agentHeld s 10 ctx a 8 then none
  else match cpKeys s ctx true a 8 with
    | .error (.missing _ _) => none
    | _ => some (cpWrite s ctx a (leBytes 8 (st + 256 * reason)))

/-- The call of the MMP that a status word waits for. -/
def callForStatus (s : State) (agent ctx : Nat) (a : DWord) : State :=
  match cpKeys s ctx true a 8 with
  | .error (.missing c p) => agentCalls s agent c p
  | _ => s

def removeAt {α : Type} (l : List α) (i : Nat) : List α := l.take i ++ l.drop (i + 1)

/-- The name of a device-side launch where it waits for the MMP (R366). -/
def launchAgent (x : DevLaunch) : Nat := (2 ^ 20 + x.ctx) * 2 ^ 64 + x.record.toNat

/-- LAUNCH_RECORD: the record in place ix of the queued launches is read, checked and answered (R202); one that is dead has its status
word written, unless its mapping is gone (R204). -/
def execLaunchRecord (ix : Nat) (s : State) : Host.Outcome State Fault Refusal :=
  event (match s.launches[ix]? with
    | none => s
    | some x =>
      let me := launchAgent x
      let gone (s : State) : State := agentDone { s with launches := removeAt s.launches ix } me
      let answer (st r : Nat) : State := ((writeStatus s x.ctx x.status st r).map gone).getD (callForStatus s me x.ctx x.status)
      let reject (rs : List Nat) : State := ((minOf rs).map (answer 3)).getD s
      if x.dead then answer 2 0
      else
      let s := readAt s 10 x.ctx x.record 128 false
      match cpRead s x.ctx x.record 128 with
      | .error (.missing c p) => agentCalls s me c p
      | .error _ => reject [qhFetch]
      | .ok n =>
        let bs := leBytes 128 n
        let s := visitLaunch s x.ctx bs
        let h := headerOf (fieldAt bs 0 8)
        let heads := reasonsOf [(qhType, h.kind != 1), (qhVersion, h.version != 1), (qhRsvd, h.reserved || !h.valid),
                                (qhPrio, decide (x.prio < h.prio))]
        match checkLaunchArgs s x.ctx bs with
        | .missing c p => if heads.isEmpty then agentCalls s me c p else reject heads
        | .bad rs => reject (heads ++ rs)
        | .good info =>
          if !heads.isEmpty then reject heads
          else match acceptGrid s x.ctx h.prio (.device x.status) (4096 + x.core) info with
            | none => s
            | some (_, t) => ((writeStatus t x.ctx x.status 1 0).map gone).getD (callForStatus s me x.ctx x.status))

end Sys2Proof.Machine
end

