-- ==== Sys2Proof/Machine/Binding.lean ====
section
/-! DEFINITION. Binding.lean: the pending order, the class a grid is bound to, its text, and the translation cache (R41 to
R43, R64, R295 to R297, R355, R409). -/

namespace Sys2Proof.Machine

/-! ## The pending order (R295) -/

/-- Stamps of one Lodge clock and one queue or core, for which R295 gives no order: the grid that was accepted first comes first (DESIGN
CHOICE, notes/assumptions/43.md). -/
def pendingBefore (a b : Nat × Grid) : Bool :=
  if a.2.prio != b.2.prio then decide (b.2.prio < a.2.prio)
  else if a.2.stamp != b.2.stamp then decide (a.2.stamp < b.2.stamp)
  else if a.2.stampMinor != b.2.stampMinor then decide (a.2.stampMinor < b.2.stampMinor)
  else decide (a.1 < b.1)

/-- Saved blocks of a grid that may be bound again (R276, R346). -/
def savedOf (s : State) (key : Nat) : List (Nat × Saved) := s.saved.filter fun e => e.2.blk.grid == key && e.2.waitPage.isNone

/-- A grid with something still to start. -/
def Grid.pending (s : State) (key : Nat) (g : Grid) : Bool :=
  decide (g.next < g.blocksTotal) || !g.redo.isEmpty || !g.retry.isEmpty || !(savedOf s key).isEmpty

def pendingGrids (s : State) : List (Nat × Grid) := sortBy pendingBefore (s.grids.filter fun e => e.2.pending s e.1)

/-! ## Class (R297) -/

/-- Some core of the class's running dies passes R300 for one block of the grid. -/
def admitsBlock (s : State) (g : Grid) (c : Class) : Bool :=
  ((runDies s c).flatMap dieCores).any fun x => (placeOn s [] (gridDemand g g.groups) x).isSome

def allClasses : List Class := [.m, .f, .l, .t]

def Grid.forced (g : Grid) : Option Class := classOfCode ((g.flags.extractLsb' 4 4).toNat)

/-- R297; none where no class is left. -/
def chooseClass (s : State) (g : Grid) : Option Class :=
  match g.forced with
  | some c => some c
  | none => match nativeClass g.contract with
    | none => roomiest s allClasses
    | some n =>
      let others := allClasses.filter (· != n)
      if (presentDies s n).isEmpty then roomiest s others
      else if g.flags.getLsbD 1 && !(admitsBlock s g n) && others.any (admitsBlock s g) then
        roomiest s (others.filter (admitsBlock s g))
      else some n

/-- A class for the rest of a grid whose class has no present die left: step 3 of R297, once (R409). -/
def rebindClass (s : State) (c : Class) : Option Class := roomiest s (allClasses.filter (· != c))

/-! ## Text (R41 to R43) -/

def deviceHash (s : State) (c : Class) : DWord :=
  shake64 (leBytes 4 Config.partRevision.toNat ++ leBytes 4 c.code ++ leBytes 8 s.boot.mcrev.toNat)

/-- What looking for a text gives. -/
inductive TextFound where
  | missing (ctx page : Nat)
  | reject (reason : Nat)
  | native (a : DWord)
  | cached (id : Nat) (a : DWord)
  | running (id : Nat)
    /-- the hash of the APF part to be translated -/
  | translate (hash : DWord)
deriving DecidableEq, Repr

/-- The code object of a grid with its kernel. -/
def gridKernel (s : State) (g : Grid) : Checked (CodeObj × Kernel) :=
  match Checked.ofExcept (readCodeObj s g.ctx g.codeobj) with
  | .missing c p => .missing c p
  | .bad rs => .bad rs
  | .good none => .bad [qhCodeobj]
  | .good (some co) => match co.kernels[g.kindex]? with
    | some k => .good (co, k)
    | none => .bad [qhCodeobj]

/-- The kernel's native text for a class, where the section's hash names these devices. -/
def nativeText (s : State) (g : Grid) (c : Class) (co : CodeObj) (k : Kernel) : Option DWord :=
  let nat := (k.native[c.code - 1]?).getD allOnes
  if nat = allOnes then none
  else ((co.section 2 c.code).filter fun x => x.hash == deviceHash s c).map fun x => addr g.codeobj (x.offset + nat)

/-- The translation cache's entry for an APF section's kernel. -/
def cachedText (s : State) (g : Grid) (c : Class) (apf : Section) : Option TcEntry :=
  s.tcache.find? fun e => e.hash == apf.hash && e.kindex == g.kindex && e.devHash == deviceHash s c

/-- The command processor comes to the homes of what it reads to find a text: the code object, and an APF section that is to be translated. -/
def visitText (s : State) (g : Grid) (c : Class) : State :=
  let s := visitCode s g.ctx g.codeobj
  match gridKernel s g with
  | .good (co, k) => match nativeText s g c co k, co.section 1 0 with
    | none, some apf =>
      if k.apf = allOnes || (cachedText s g c apf).isSome then s else readAt s 10 g.ctx (addr g.codeobj apf.offset) apf.size false
    | _, _ => s
  | _ => s

def findText (s : State) (g : Grid) (c : Class) : TextFound :=
  match gridKernel s g with
  | .missing x p => .missing x p
  | .bad rs => .reject ((minOf rs).getD qhCodeobj)
  | .good (co, k) =>
    match nativeText s g c co k, co.section 1 0 with
    | some a, _ => .native a
    | none, some apf =>
      if k.apf = allOnes then .reject qhNocode
      else match cachedText s g c apf with
        | some e => (match e.state with | .running => .running e.id | .text a _ _ => .cached e.id a | .failed => .reject qhCodeobj)
        | none =>
          match chunkAt s g.ctx (addr g.codeobj apf.offset) apf.size with
          | .error (.missing x p) => .missing x p
          | .error _ => .reject qhFetch
          | .ok bs => if shake64 bs = apf.hash then .translate apf.hash else .reject qhCodeobj
    | none, none => .reject qhNocode

/-- No further block of the grid starts; its record stays while blocks of it need it (R196). -/
def closeGrid (s : State) (key : Nat) : State :=
  if gridAlive s key then
    { s with grids := tmod s.grids key fun g =>
        { g with next := g.blocksTotal, redo := [], retry := [], texts := g.texts.filter fun t => match t.2 with | .ready _ _ _ => true | _ => false } }
  else { s with grids := tdel s.grids key }

/-- A check that binding alone can make failed (R29, R202): no block starts, and nothing is decremented. The status word of a launch of
which blocks have started stays at 1 (R202), and the launch then ends without a word (DESIGN CHOICE, notes/assumptions/57.md). -/
def failGrid (s : State) (key : Nat) (g : Grid) (reason : Nat) : State :=
  let gone (s : State) : State := closeGrid (agentDone s key) key
  match g.origin with
  | .packet w =>
    match s.works.find? fun x => x.id == w with
    | none => gone s
    | some x =>
      if ((tget s.queues x.queue).bind (·.ctx)) == some x.ctx then
        thenHalt (haltQueue s x.queue reason x.index) fun s => gone (dropWork s w)
      else gone (dropWork s w)
  | .device a => if g.next != 0 then gone s else ((writeStatus s g.ctx a 3 reason).map gone).getD (callForStatus s key g.ctx a)

/-- TEXT of a class, once it stands. EMU marks text that emulates another class's contract. -/
def textReady (g : Grid) (c : Class) (a : DWord) (translated : Bool) : TextState :=
  .ready a (translated && (nativeClass g.contract).isSome && nativeClass g.contract != some c) translated

def setText (s : State) (key : Nat) (c : Class) (t : TextState) : State :=
  { s with grids := tmod s.grids key fun g => { g with texts := tset g.texts c.code t } }

/-- The text of a class for a grid is looked for (R41). -/
def resolveText (s : State) (key : Nat) (g : Grid) (c : Class) : State :=
  match findText s g c with
  | .missing x p => agentCalls s key x p
  | .reject r => failGrid s key g r
  | .native a => setText s key c (textReady g c a false)
  | .cached id a =>
    let (n, s) := s.fresh
    setText { s with tcache := s.tcache.map fun e => if e.id = id then { e with used := n } else e } key c (textReady g c a true)
  | .running id => setText s key c (.translating id)
  | .translate h =>
    let (id, s) := s.fresh
    let e : TcEntry := { id := id, hash := h, kindex := g.kindex, devHash := deviceHash s c, state := .running, used := id, starter := key }
    setText { s with tcache := s.tcache ++ [e] } key c (.translating id)

/-- The grid's class: bound once, and again where the class has lost every present die (R297, R409); a forced class that has before any
block started stays, and the launch fails (R202). -/
def bindClass (s : State) (g : Grid) : Option (Option Class) :=
  match g.cls with
  | none => some (chooseClass s g)
  | some c =>
    if !(presentDies s c).isEmpty then none
    else if g.next = 0 && g.forced.isSome then some (some c) else some (rebindClass s c)

/-! ## Waiting first (R43, R296) -/

/-- A grid that waits for room in the translation cache holds nobody back (R43). -/
def waitsForRoom (s : State) (g : Grid) : Bool :=
  match g.cls.bind fun c => tget g.texts c.code with
  | some (.translating id) => s.tcache.any fun e => e.id == id && e.noRoom
  | _ => false

/-- The first pending grid of a class that does not wait for room. -/
def firstOf (s : State) (c : Class) : Option (Nat × Grid) := (pendingGrids s).find? fun e => e.2.cls == some c && !(waitsForRoom s e.2)

/-- The grid has stood first of its class for 100 µs without admitting a block, once that has been so (R296). -/
def starvedNow (s : State) (g : Grid) : Bool :=
  g.starved || match g.firstSince with | some t => decide (t + 100 * lodgePerUs ≤ s.lodge) | none => false

/-- The time since which each class's first grid stands first without admitting a block; one that has starved stays so (R296). A step ends
with it. -/
def noteFirst (s : State) : State :=
  allClasses.foldl (fun s c => match firstOf s c with
    | some (k, _) =>
      { s with grids := s.grids.map fun e =>
          if e.2.cls != some c then e
          else if e.1 = k then (e.1, { e.2 with firstSince := some (e.2.firstSince.getD s.lodge), starved := starvedNow s e.2 })
          else (e.1, { e.2 with firstSince := none }) }
    | none => s) s

/-! ## The translation cache (R42, R43, R64, R355) -/

/-- The address lies in an entry's text. -/
def TcEntry.holds (e : TcEntry) (x : DWord) : Bool :=
  match e.state with
  | .text a n _ => a.toNat ≤ x.toNat && x.toNat < a.toNat + n
  | _ => false

/-- An entry's text stays while the bind record of a resident block, or of one that is to start, or a saved block names it (R43). -/
def tcPinned (s : State) (e : TcEntry) : Bool :=
  match e.state with
  | .text _ _ _ =>
    s.blocks.any (fun b => e.holds b.2.text) || s.saved.any (fun b => e.holds b.2.blk.text) ||
    s.binds.any fun r => BindRec.field r.2.ctrl 63 1 == 1 && e.holds r.2.text
  | .running => true
  | .failed => false

/-- The lowest place for n bytes of text in the area. -/
def textHole (n : Nat) (l : List TcEntry) : Option Nat :=
  let used := l.filterMap fun e => match e.state with | .text a m _ => some (a.toNat, m) | _ => none
  let cands := sortBy (fun a b => decide (a < b)) (textArea :: used.map fun r => r.1 + r.2)
  cands.find? fun a => decide (a + n ≤ textArea + 2 ^ 28) && used.all fun r => decide (a + n ≤ r.1 ∨ r.1 + r.2 ≤ a)

/-- Evict the least recently used entries until n bytes have a place: the place, and what is left; none: they cannot. -/
def tcRoom (s : State) (n : Nat) : Nat → List TcEntry → Option (Nat × List TcEntry)
  | 0, _ => none
  | fuel + 1, l =>
    match textHole n l with
    | some a => some (a, l)
    | none =>
      let cands := l.filter fun e => !(tcPinned s e) && e.state != .failed
      match cands.foldl (fun (best : Option TcEntry) e => match best with
        | none => some e
        | some b => if e.used < b.used then some e else some b) none with
      | none => none
      | some e => tcRoom s n fuel (l.erase e)

/-- Grids whose text has left the cache look for it again (R43). -/
def forgetTexts (s : State) (gone : List TcEntry) : State :=
  let back (t : Nat × TextState) : Nat × TextState := match t.2 with
    | .ready a _ true => if gone.any (·.holds a) then (t.1, .unbound) else t
    | _ => t
  { s with grids := s.grids.map fun e => (e.1, { e.2 with texts := e.2.texts.map back }) }

/-- Grids that wait for an entry look for their text again. -/
def wakeTranslation (s : State) (id : Nat) : State :=
  let back (t : Nat × TextState) : Nat × TextState := if t.2 = .translating id then (t.1, .unbound) else t
  { s with grids := s.grids.map fun e => (e.1, { e.2 with texts := e.2.texts.map back }) }

/-- The APF records of a grid's kernel; check: the section has still to be held against its HASH (R42). -/
def apfRecords (s : State) (g : Grid) (check : Bool) : Checked (List Nat) :=
  match gridKernel s g with
  | .missing x p => .missing x p
  | .bad rs => .bad rs
  | .good (co, k) =>
    match co.section 1 0 with
    | none => .bad [qhCodeobj]
    | some sec =>
      match Checked.ofExcept (chunkAt s g.ctx (addr g.codeobj sec.offset) sec.size) with
      | .missing x p => .missing x p
      | .bad rs => .bad rs
      | .good bs =>
        if check && shake64 bs != sec.hash then .bad [qhCodeobj]
        else .good ((chunksOf 16 bs.length (bs.drop k.apf)).filterMap fun r => if r.length = 16 then some (leNat r) else none)

/-- TRANSLATION_COMPLETE: the translation is inserted, or the failure recorded; one for which there is no room waits (R42, R43, R64). The
low 29 bits of pick are the bytes that its text takes, 12 for each record where that is more; the rest picks the mapping of each loop
(R57). -/
def execTranslationComplete (id pick : Nat) (s : State) : Host.Outcome State Fault Refusal :=
  let all := s.grids.filter fun e => e.2.texts.any fun t => t.2 == .translating id
  let waiting (e : TcEntry) : Option (Nat × Grid) := (all.find? fun x => x.1 == e.starter).orElse fun _ => all.head?
  let put (l : List TcEntry) (st : TcState) : List TcEntry := l.map fun e => if e.id = id then { e with state := st } else e
  let fails : State := wakeTranslation { s with tcache := put s.tcache .failed } id
  let running := s.tcache.find? fun e => e.id == id && e.state == .running
  event (match running, running.bind waiting with
    | some e, some (key, g) =>
      match apfRecords s g (key != e.starter) with
      | .missing c p => agentCalls s id c p
      | .bad rs => if key = e.starter then wakeTranslation { s with tcache := s.tcache.filter fun e => e.id != id } id
        else failGrid s key g ((minOf rs).getD qhCodeobj)
      | .good rs => match apfKernel rs with
        | none => fails
        | some k =>
          let n := (max (pick % 2 ^ 29) (12 * k.recs.length) + 255) / 256 * 256
          if !(k.ok rs) || 2 ^ 28 < n then fails
          else match tcRoom s n (s.tcache.length + 1) s.tcache with
            | none => { s with tcache := s.tcache.map fun e => if e.id = id then { e with noRoom := true } else e }
            | some (a, l) =>
              let gone := s.tcache.filter fun e => !(l.contains e)
              wakeTranslation (forgetTexts { s with tcache := put l (.text (BitVec.ofNat 64 a) n (apfProg k rs (pick / 2 ^ 29))) } gone) id
    | some _, none => { s with tcache := s.tcache.filter fun e => e.id != id }
    | none, _ => s)

end Sys2Proof.Machine
end

