-- ==== Sys2Proof/Machine/Starting.lean ====
section
/-! DEFINITION. Starting.lean: how the command processor places blocks, and how the dispatch hardware starts them (R276,
R277, R279 to R285, R296, R298 to R304, R409, R420). -/

namespace Sys2Proof.Machine

/-! ## Bind records (R301, R302) -/

/-- What a bind record is written from. -/
structure BindArgs where
  key : Nat
  grid : Grid
  lin : Nat
  berth : Berth
  text : DWord
  emu : Bool
  save : Option DWord
  /-- cores of the cluster's members, and the block's place among them -/
  cores : List Nat
  member : Nat
  window : Option Nat
deriving DecidableEq, Repr

def bindRecOf (x : BindArgs) : BindRec :=
  let g := x.grid
  let d := x.berth.demand
  let bit (b : Bool) (n : Nat) : Nat := if b then 2 ^ n else 0
  let nibbles (l : List Nat) (w : Nat) : Nat := l.foldr (fun v a => v % 2 ^ w + 2 ^ w * a) 0
  { ctrl := BitVec.ofNat 64 (2 ^ 63 + bit x.save.isSome 62 + bit x.emu 61 + x.berth.baseP * 2 ^ 58 + g.prio * 2 ^ 48 +
      g.ctx * 2 ^ 40 + d.groups * 2 ^ 35 + g.flags.toNat)
    gslots := BitVec.ofNat 64 (nibbles x.berth.slots 4)
    text := x.text
    grid := BitVec.ofNat 64 x.key
    bidx := BitVec.ofNat 64 (x.lin % g.gx + x.lin / g.gx % g.gy * 2 ^ 31 + x.lin / g.gx / g.gy * 2 ^ 47)
    save := x.save.getD 0
    cmap := BitVec.ofNat 64 (nibbles (x.cores.map (· % 32)) 5 + x.member * 2 ^ 40 + (g.cluster - 1) * 2 ^ 43)
    scr := BitVec.ofNat 32 (x.berth.scrBase / 256 + d.scratch / 256 * 2 ^ 16)
    dsw := BitVec.ofNat 32 (match x.window with | some w => 2 ^ 31 + w | none => 0) }

/-- The keys of a block's cluster and die span. -/
def clusterKey (grid lin c : Nat) : Nat := grid * 2 ^ 33 + lin / c
def spanKey (grid d : Nat) : Nat := grid * 2 ^ 33 + d

/-! ## Starting a unit -/

def emptyBars : Vector Barrier 16 := Vector.replicate 16 {}

/-- Cut places into clusters of c. -/
def memberOf (c i : Nat) : Nat := i % c

/-- The clusters of a unit, with where each member lies. -/
def addClusters (s : State) (key c lin : Nat) (ps : List Berth) : State :=
  (chunksOf c ps.length ps).zipIdx.foldl (fun (s : State) (x : List Berth × Nat) =>
    let ck := clusterKey key (lin + x.2 * c) c
    let members := x.1.map fun p => (p.core, p.scrBase, p.demand.scratch)
    let cl : Cluster := { grid := key, members := members, blocksLeft := c, bars := emptyBars, since := s.lodge }
    { s with clusters := tset s.clusters ck cl }) s

/-- Lines of a die beyond the ways that its windows leave are evicted, oldest first (R5, R285, R369). -/
def dcTrim (s : State) (die : Nat) : State :=
  (s.dc.filter fun l => l.die == die).foldl (fun s l =>
    if dcWays s die < (dcSetLines s die l.key).length then evictLine s die l.key else s) s

/-- The die span of a unit takes its window, which reads zero when it first starts, and whose contents a restore brings (R285). -/
def addSpan (s : State) (key : Nat) (g : Grid) (lin blocks die : Nat) (restoring : Bool) : Option Nat × State :=
  if g.dspan then
    let d := lin / (max 1 g.spanSize)
    let w := (freeWindow s die).getD 0
    let sk := spanKey key d
    let sp : Span := match (if restoring then tget s.spans sk else none) with
      | some o => { o with die := die, window := w }
      | none => { grid := key, num := d, die := die, window := w, blocksLeft := blocks, bars := emptyBars }
    let s := dcTrim { s with spans := tset s.spans sk sp } die
    (some w, s.clearRange (windowKey die w 0) (2 ^ 20))
  else (none, s)

def isBind : Instr → Bool
  | .bindRecord _ _ | .restore _ _ => true
  | _ => false

/-- The hardware takes the records next, behind those that it has still to take (R301, R310). -/
def bindEvents (s : State) (evs : List Instr) : State :=
  { s with agenda := s.agenda.takeWhile isBind ++ evs ++ s.agenda.dropWhile isBind }

/-- Bind records are written (R301). -/
def writeBinds (s : State) (key : Nat) (g : Grid) (lin : Nat) (ps : List Berth) (text : DWord) (emu : Bool) (window : Option Nat) :
    State :=
  let rs := ps.zipIdx.map fun (x : Berth × Nat) =>
    let cores := ((ps.drop (x.2 / g.cluster * g.cluster)).take g.cluster).map (·.core)
    (x.1, bindRecOf { key := key, grid := g, lin := lin + x.2, berth := x.1, text := text, emu := emu,
                      save := none, cores := cores, member := memberOf g.cluster x.2, window := window })
  let s := rs.foldl (fun (s : State) (r : Berth × BindRec) =>
    { s with binds := tset s.binds (r.1.core * 64 + r.1.entry) r.2 }) s
  bindEvents s (rs.map fun r => .bindRecord r.1.core r.1.entry)

/-- The cores of some places, their scratchpads moved together (R300). -/
def packCores (s : State) (ps : List Berth) : State := ((ps.map (·.core)).dedup).foldl packCore s

/-- Scratchpads that have come to the cores of some places leave the less to L1 (R5). -/
def trimCores (s : State) (ps : List Berth) : State := ((ps.map (·.core)).dedup).foldl l1Trim s

/-- Places in the order of the linear index; a cluster's members in the order chosen. -/
def startUnit (s : State) (key : Nat) (g : Grid) (lin : Nat) (ps : List Berth) (text : DWord) (emu : Bool) : State :=
  let die := ((ps.head?).map fun p => p.core / 32).getD 0
  let s := trimCores (addClusters (packCores s ps) key g.cluster lin ps) ps
  let (w, s) := addSpan s key g lin ps.length die false
  writeBinds s key g lin ps text emu w

/-! ## Which class and place a unit gets -/

/-- The text of a class, if it stands. -/
def textOf (g : Grid) (c : Class) : Option (DWord × Bool × Bool) :=
  match tget g.texts c.code with
  | some (.ready a emu tr) => some (a, emu, tr)
  | _ => none

/-- A text that has not been looked for yet is looked for (GRID_BIND does it). -/
def wantText (s : State) (key : Nat) (g : Grid) (c : Class) : State :=
  match tget g.texts c.code with
  | none => setText s key c .unbound
  | some _ => s

/-- A starving grid of a class holds back those that rank below it, until it admits a block (R296); one that waits for room in the
translation cache holds back nobody (R43). -/
def heldOn (s : State) (key : Nat) (c : Class) : Bool :=
  ((pendingGrids s).takeWhile fun e => e.1 != key).any fun e => e.2.cls == some c && starvedNow s e.2 && !(waitsForRoom s e.2)

/-- R409: a block that is dispatched again takes the bound class if that admits it now, else the roomiest class that
does; a class on which a starving grid holds it back admits nothing (R296). -/
def redoClass (s : State) (key : Nat) (c : Class) (u : StartUnit) : Option Class :=
  let admits (x : Class) : Bool := !(heldOn s key x) && (placeUnit s x u).isSome
  if admits c then some c else roomiest s (allClasses.filter fun x => x != c && admits x)

/-- The grid admitted a block: R296's time starts anew. -/
def admitted (s : State) (key : Nat) (f : Grid → Grid) : State :=
  { s with grids := tmod s.grids key fun g => { f g with firstSince := none, starved := false } }

/-- Start a unit from its first instruction on a class. -/
def beginUnit (s : State) (key : Nat) (g : Grid) (c : Class) (lin : Nat) (f : Grid → Grid) : Option State :=
  let u := unitOf g (unitBlocks g lin)
  match textOf g c, placeUnit s c u with
  | some (a, emu, _), some ps => some (admitted (startUnit s key g lin ps a emu) key f)
  | _, _ => none

/-! ## Restores (R276, R353) -/

/-- The saved blocks that come back together with a block: its cluster, or its die span, in linear order. -/
def savedUnit (s : State) (g : Grid) (x : Saved) : List (Nat × Saved) :=
  sortBy (fun (a b : Nat × Saved) => decide (a.2.blk.lin < b.2.blk.lin)) (s.saved.filter fun e =>
    e.2.blk.grid == x.blk.grid && (if g.dspan then e.2.blk.span == x.blk.span else e.2.blk.cluster == x.blk.cluster))

/-- A saved block's groups by number: the slots that each has claimed (R353). -/
def savedDemand (x : Saved) : Demand :=
  { groups := x.blk.slots.length, scratch := x.blk.scrSize, regs := x.blk.regsHint,
    claims := (List.range x.blk.slots.length).map fun i => ((x.groups.find? fun g => g.idx == i).map (·.claims)).getD 0 }

/-- The members of the clusters of saved blocks, cluster by cluster: the saved block, or none for a member that has ended, whose
scratchpad comes back with the others (R281, R282). -/
def savedClusters (s : State) (xs : List (Nat × Saved)) : List (List (Nat × Nat × Option Saved)) :=
  (xs.map fun x => x.2.blk.cluster).dedup.map fun k =>
    (List.range (((tget s.clusters k).map fun c => c.members.length).getD 0)).map fun m =>
      (k, m, (xs.find? fun x => x.2.blk.cluster == k && x.2.blk.member == m).map (·.2))

def memberDemand (g : Grid) (m : Nat × Nat × Option Saved) : Demand :=
  match m.2.2 with
  | some x => savedDemand x
  | none => { groups := 0, scratch := g.scratch, regs := 0 }

def savedStart (s : State) (g : Grid) (x : Saved) : StartUnit :=
  { clusters := (savedClusters s (savedUnit s g x)).map fun l => l.map (memberDemand g), span := g.dspan }

/-- A member's place in its cluster's list. -/
def setMember (s : State) (ck m : Nat) (v : Nat × Nat × Nat) : State :=
  { s with clusters := tmod s.clusters ck fun c => { c with members := c.members.set m v } }

/-- Scratchpads of a cluster's members that have ended, as the cluster leaves its die (R281, R282). -/
def keepEnded (s : State) (ck : Nat) : State :=
  match tget s.clusters ck with
  | none => s
  | some c =>
    let lives (m : Nat) : Bool :=
      s.blocks.any (fun e => e.2.cluster == ck && e.2.member == m) || s.saved.any fun e => e.2.blk.cluster == ck && e.2.blk.member == m
    let ended := c.members.zipIdx.filter fun m => m.1.1 < 256 && !(lives m.2)
    ended.foldl (fun s m =>
      let base := scratchKey m.1.1 m.1.2.1
      let cells := (s.mem.filter fun x => base ≤ x.1 && x.1 < base + m.1.2.2).map fun x => (x.1 - base, x.2)
      let words := (s.poison.filter fun w => base ≤ 4 * w && 4 * w < base + m.1.2.2).map fun w => w - base / 4
      setMember { s with clusters := tmod s.clusters ck fun c => { c with kept := c.kept ++ [(m.2, cells, words)] } } ck m.2 (256, 0, 0)) s

/-- A unit that was to come back has no place any more: the scratchpads of its clusters' members leave their cores, those of ended members
for the next placement (R279, R282, R300), and its window goes. -/
def displace (s : State) (bs : List Block) : State :=
  let s := ((bs.map (·.cluster)).dedup).foldl keepEnded s
  let s := bs.foldl (fun s b => setMember s b.cluster b.member (256, 0, 0)) s
  bs.foldl (fun s b => match b.span with
    | some k => { s with spans := tmod s.spans k fun x => { x with die := 8, window := 8 } }
    | none => s) s

/-- An ended member's scratchpad stands at its new place (R279, R282). -/
def placeKept (s : State) (ck m : Nat) (p : Berth) : State :=
  match (tget s.clusters ck).bind fun c => c.kept.find? fun k => k.1 == m with
  | none => s
  | some (_, cells, words) =>
    let base := scratchKey p.core p.scrBase
    let s := s.clearRange base p.demand.scratch
    { s with
      mem := cells.foldl (fun t c => memPut t (base + c.1) c.2) s.mem
      poison := s.poison ++ words.map fun w => base / 4 + w
      clusters := tmod s.clusters ck fun c => { c with kept := c.kept.filter fun k => k.1 != m } }

/-- A saved unit is placed on a class and its bind records say RESTORE. -/
def restoreUnit (s : State) (key : Nat) (g : Grid) (c : Class) (x : Saved) : Option State :=
  let xs := savedUnit s g x
  if xs.any fun e => e.2.waitPage.isSome then none
  else
    match placeUnit s c (savedStart s g x) with
    | none => none
    | some ps =>
      let pairs := ((savedClusters s xs).flatten).zip ps
      let die := ((ps.head?).map fun p => p.core / 32).getD 0
      let s := packCores s ps
      let s := pairs.foldl (fun (s : State) (p : (Nat × Nat × Option Saved) × Berth) =>
        let s := setMember s p.1.1 p.1.2.1 (p.2.core, p.2.scrBase, p.2.demand.scratch)
        match p.1.2.2 with | none => placeKept s p.1.1 p.1.2.1 p.2 | some _ => s) s
      let s := trimCores s ps
      let dated (e : Nat × Cluster) : Nat × Cluster := if pairs.any fun p => p.1.1 == e.1 then (e.1, { e.2 with since := s.lodge }) else e
      let s := { s with clusters := s.clusters.map dated }
      let (w, s) := addSpan s key g x.blk.lin xs.length die true
      let live := pairs.filterMap fun p => p.1.2.2.map fun b => (b, p.2)
      let s := live.foldl (fun (s : State) (p : Saved × Berth) =>
        let cores := match tget s.clusters p.1.blk.cluster with | some c => c.members.map (·.1) | none => []
        let r := bindRecOf { key := key, grid := g, lin := p.1.blk.lin, berth := p.2, text := p.1.blk.text,
                             emu := p.1.blk.emu, save := some p.1.area, cores := cores, member := p.1.blk.member, window := w }
        { s with binds := tset s.binds (p.2.core * 64 + p.2.entry) r }) s
      some (admitted (bindEvents s (live.map fun p => .restore p.2.core p.2.entry)) key id)

/-! ## Pre-emption (R304) -/

/-- The machine without a block's whole unit: its blocks, their clusters with every scratchpad, and the die span with its window. -/
def without (s : State) (e : Nat × Block) : State :=
  let ks := companions s e.1 e.2
  let cs := ks.filterMap fun k => (tget s.blocks k).map (·.cluster)
  let s' := ks.foldl dropBlock s
  { s' with clusters := s'.clusters.filter fun x => !(cs.contains x.1)
            spans := match e.2.span with | some k => tdel s'.spans k | none => s'.spans }

/-- The machine without blocks that are already being saved. -/
def afterSaves (s : State) : State :=
  (s.blocks.filter fun e => e.2.phase == .draining || e.2.phase == .fetchDraining).foldl
    (fun s e => if (tget s.blocks e.1).isSome then without s e else s) s

/-- A block that may be pre-empted: none of those that go with it found no room in the save pool (R304, R348). -/
def preemptible (s : State) (bk : Nat) (b : Block) : Bool :=
  (b.phase == .running || b.phase == .waitingInPlace) && decide (b.prio ≤ 10) &&
  (companions s bk b).all fun k => ((tget s.blocks k).map fun x => !x.unsavable).getD true

/-- Candidates in the order of R304, on dies that run: lowest priority, then the latest started, then the highest core. Of blocks of one
grid and one core that one dispatch started, the one with the highest index is the latest, since they start in that order (R276); of two
grids, the one whose block started last. -/
def victims (s : State) (c : Class) : List (Nat × Block) :=
  sortBy (fun (a b : Nat × Block) =>
    if a.2.prio != b.2.prio then decide (a.2.prio < b.2.prio)
    else if a.2.started != b.2.started then decide (b.2.started < a.2.started)
    else if a.2.core != b.2.core then decide (b.2.core < a.2.core)
    else if a.2.grid == b.2.grid then decide (b.2.lin < a.2.lin)
    else decide (b.1 < a.1))
  (s.blocks.filter fun e => preemptible s e.1 e.2 && classOfDie (e.2.core / 32) == c && dieRuns s (e.2.core / 32))

/-- Take candidates one by one until the test passes: those taken. -/
def takeUntil (ok : State → Bool) : List (Nat × Block) → State → List Nat → Option (List Nat)
  | [], s, got => if ok s then some got else none
  | e :: es, s, got => if ok s then some got else takeUntil ok es (without s e) (got ++ companions s e.1 e.2)

/-- The victims of R304 for a unit: on the core (for a cluster or die span, the die) of the highest-ranked candidate where
pre-empting candidates makes room. -/
def chooseVictims (s : State) (c : Class) (u : StartUnit) : Option (List Nat) :=
  let base := afterSaves s
  let cands := victims base c
  match u.span, u.clusters with
  | false, [[d]] =>
    cands.findSome? fun e => takeUntil (fun t => (placeOn t [] d e.2.core).isSome) (cands.filter fun x => x.2.core == e.2.core) base []
  | _, _ =>
    cands.findSome? fun e =>
      let die := e.2.core / 32
      takeUntil (fun t => (placeOnDie t u die).isSome) (cands.filter fun x => x.2.core / 32 == die) base []

/-- A grid of priority 11 that no core of its class admits asks for room (R304). -/
def preempt (s : State) (g : Grid) (c : Class) (u : StartUnit) : Option State :=
  if g.prio != 11 || (placeUnit (afterSaves s) c u).isSome then none
  else (chooseVictims s c u).map fun ks => setPhase s ks .draining

/-! ## BLOCK_DISPATCH (R276, R296, R298) -/

/-- What a grid has to start: a saved unit, one to start again after a reset, one whose records were refused, or the next one. -/
inductive NextUnit where
  | saved (x : Saved)
  | again (lin : Nat)
  | refused (lin : Nat)
  | fresh (lin : Nat)
deriving DecidableEq, Repr

def NextUnit.lin : NextUnit → Nat
  | .saved x => x.blk.lin
  | .again n | .refused n | .fresh n => n

/-- The lowest of each kind, in the order of their first blocks; the next fresh unit once there is none of them (R276). -/
def nextUnits (s : State) (key : Nat) (g : Grid) : List NextUnit :=
  let sv := (sortBy (fun (a b : Nat × Saved) => decide (a.2.blk.lin < b.2.blk.lin)) (savedOf s key)).head?
  let back := (sv.map fun x => NextUnit.saved x.2).toList ++ ((minOf g.redo).map NextUnit.again).toList ++
    ((minOf g.retry).map NextUnit.refused).toList
  if !back.isEmpty then sortBy (fun (a b : NextUnit) => decide (a.lin < b.lin)) back
  else if g.next < g.blocksTotal then [.fresh g.next] else []

/-- A unit starts on the bound class, from its first instruction. -/
def startOn (s : State) (key : Nat) (g : Grid) (c : Class) (lin : Nat) (f : Grid → Grid) : Option State :=
  if heldOn s key c then none
  else (beginUnit s key g c lin f).orElse fun _ =>
    if (textOf g c).isSome then preempt s g c (unitOf g (unitBlocks g lin)) else none

/-- What the visit of a grid does with one of its units; none: it cannot start now. -/
def tryUnit (s : State) (key : Nat) (g : Grid) (c : Class) : NextUnit → Option State
  | .saved x => if heldOn s key c then none else (restoreUnit s key g c x).orElse fun _ => preempt s g c (savedStart s g x)
  | .again lin =>
    let u := unitOf g (unitBlocks g lin)
    match redoClass s key c u with
    | some c' =>
      (beginUnit s key g c' lin fun g => { g with redo := g.redo.erase lin }).orElse fun _ =>
        if (tget g.texts c'.code).isNone then some (wantText s key g c') else none
    | none => if heldOn s key c then none else preempt s g c u
  | .refused lin => startOn s key g c lin fun g => { g with retry := g.retry.erase lin }
  | .fresh lin => startOn s key g c lin fun g => { g with next := lin + unitBlocks g lin }

/-- What visiting a grid does; none: nothing of it can start now. -/
def visit (s : State) (key : Nat) (g : Grid) : Option State :=
  g.cls.bind fun c => (nextUnits s key g).findSome? (tryUnit s key g c)

/-- Some unit of a reset die still stands to be dispatched, and there is a die that runs (R409, R418, notes/assumptions/46.md). -/
def redoOpen (s : State) : Bool := s.grids.any (fun e => !e.2.redo.isEmpty) && s.dies.any fun d => d.state == .run

/-- The grids that the command processor visits: in pending order, up to the first that has still to be bound (R296, R297). -/
def visited (s : State) : List (Nat × Grid) := (pendingGrids s).takeWhile fun e => e.2.cls.isSome

/-- One thing after the other starts, in pending order, until nothing can (R296). -/
def dispatchAll : Nat → State → State
  | 0, s => s
  | fuel + 1, s =>
    match (visited s).findSome? fun e => visit s e.1 e.2 with
    | some s => dispatchAll fuel s
    | none => s

/-- BLOCK_DISPATCH: the command processor visits the pending grids in their order, and starts of each what can start. No package holds
more blocks than the fuel allows for (16,384, R5, R298). -/
def execBlockDispatch (s : State) : Host.Outcome State Fault Refusal :=
  event (if ready s then dispatchAll 20000 s else s)

/-- GRID_BIND: the first grid of the pending order that has no class gets one, once every grid before it has been visited and can start nothing
more, and its text is looked for (R296, R297, R41). -/
def execGridBind (key : Nat) (s : State) : Host.Outcome State Fault Refusal :=
  event (match tget s.grids key with
    | none => s
    | some g =>
      let earlier := (pendingGrids s).takeWhile fun e => e.1 != key
      if !(ready s) || (g.cls.isNone && earlier.any fun e => e.2.cls.isNone || (visit s e.1 e.2).isSome) then s
      else match bindClass s g with
        | some none => s
        | some (some c) =>
          if (presentDies s c).isEmpty || (g.next = 0 && neverResident s g c) then failGrid s key g qhClass
          else
            let g := { g with cls := some c, texts := tset g.texts c.code .unbound, firstSince := none, starved := false
                              spanSize := if g.next = 0 then spanSizeFor s g c else g.spanSize }
            resolveText { visitText s g c with grids := tset s.grids key g } key g c
        | none =>
          match g.texts.find? fun e => e.2 == .unbound with
          | some e => match classOfCode e.1 with
            | some c => resolveText (visitText s g c) key g c
            | none => s
          | none => s)

/-- ADMISSION_STARVATION: the 100 µs of R296 have passed for a grid that stands first of its class. -/
def execAdmissionStarvation (key : Nat) (s : State) : Host.Outcome State Fault Refusal :=
  event (match tget s.grids key with
    | some g =>
      let first := match g.cls with | some c => (firstOf s c).map (·.1) == some key | none => false
      if first && starvedNow s g then { s with grids := tmod s.grids key fun g => { g with starved := true } } else s
    | none => s)

/-! ## BIND_RECORD (R299, R301 to R303) -/

/-- R303: what makes the hardware refuse a record. -/
def bindOk (s : State) (core : Nat) (r : BindRec) : Bool :=
  let f := BindRec.field
  let n := f r.ctrl 35 5
  let p := f r.ctrl 58 2
  let key (g : Nat) : Nat := core * 64 + (p + g) % 4 * 16 + f r.gslots (4 * g) 4
  let base := r.scr.toNat % 1024 * 256
  let size := r.scr.toNat / 65536 % 1024 * 256
  let others := s.blocks.filter fun e => e.2.core == core
  decide (1 ≤ n ∧ n ≤ 16) && f r.ctrl 60 1 == 0 && f r.ctrl 52 6 == 0 && f r.ctrl 32 3 == 0 && f r.bidx 63 1 == 0 &&
  f r.cmap 46 18 == 0 && r.scr.toNat / 2 ^ 10 % 64 == 0 && r.scr.toNat / 2 ^ 26 == 0 && r.dsw.toNat / 8 % 2 ^ 28 == 0 &&
  (n == 16 || f r.gslots (4 * n) (64 - 4 * n) == 0) && decide ((List.range n).map key).Nodup &&
  (List.range n).all (fun g => (s.group (key g)).isNone) &&
  others.all fun e => decide (base + size ≤ e.2.scrBase ∨ e.2.scrBase + e.2.scrSize ≤ base ∨ size = 0 ∨ e.2.scrSize = 0)

/-- The block a record describes. -/
def blockOf (s : State) (core entry : Nat) (r : BindRec) : Option Block := do
  let f := BindRec.field
  let key := r.grid.toNat
  let g ← tget s.grids key
  let n := f r.ctrl 35 5
  let p := f r.ctrl 58 2
  let x := f r.bidx 0 31
  let y := f r.bidx 31 16
  let z := f r.bidx 47 16
  let lin := x + g.gx * (y + g.gy * z)
  let tr := g.texts.any fun t => match t.2 with | .ready a _ tr => tr && a == r.text | _ => false
  return {
    grid := key, lin := lin, x := x, y := y, z := z, core := core, entry := entry, baseP := p,
    slots := (List.range n).map fun i => core * 64 + (p + i) % 4 * 16 + f r.gslots (4 * i) 4,
    text := r.text, scrBase := r.scr.toNat % 1024 * 256, scrSize := r.scr.toNat / 65536 % 1024 * 256,
    cluster := clusterKey key lin g.cluster, member := f r.cmap 40 3, clusterSize := f r.cmap 43 3 + 1,
    span := if r.dsw.getLsbD 31 then some (spanKey key (lin / max 1 g.spanSize)) else none,
    ctx := f r.ctrl 40 8, prio := f r.ctrl 48 4, flags := BitVec.ofNat 32 (f r.ctrl 0 32), emu := f r.ctrl 61 1 == 1,
    translated := tr, lanes := g.lanes, regsHint := g.regsHint, bars := emptyBars,
    started := ((tget s.clusters (clusterKey key lin g.cluster)).map (·.since)).getD 0 }

/-- A group as it starts (R303, R412). -/
def freshGroup (s : State) (bk : Nat) (b : Block) (idx k : Nat) : Group :=
  let live := groupLanes b.lanes idx
  let back := (s.groups.filter fun e => partOf e.1 == partOf k).foldl (fun m e => max m e.2.rr) 0 + 1
  { blk := bk, idx := idx, preds := Vector.replicate 8 0, ended := ~~~live,
    active := [{ pc := b.text, mask := live, age := 0 }], nextAge := 1, barPend := Vector.replicate 48 0, rr := back,
    armed := contractCounters (((tget s.grids b.grid).map (·.contract)).getD 0) }

/-- The pending records of a block's cluster or die span: core, record and block (R281, R284). -/
def unitBinds (s : State) (b : Block) : List (Nat × BindRec × Block) :=
  s.binds.filterMap fun e =>
    let waits := BindRec.field e.2.ctrl 63 1 == 1 && !(s.blocks.any fun x => x.2.core == e.1 / 64 && x.2.entry == e.1 % 64)
    if !waits then none
    else (blockOf s (e.1 / 64) (e.1 % 64) e.2).bind fun x =>
      if x.grid == b.grid && (if b.span.isSome then x.span == b.span else x.cluster == b.cluster) then some (e.1, e.2, x) else none

/-- The first block of the unit that a block belongs to. -/
def unitFirst (g : Grid) (lin : Nat) : Nat := if g.dspan then lin / max 1 g.spanSize * max 1 g.spanSize else lin / g.cluster * g.cluster

/-- Everything of a unit that has started is gone, and it stands to be tried again: on the bound class, unless a reset had moved it
(R297, R303, R409). -/
def redoUnit (s : State) (b : Block) : State :=
  let mine (x : Block) : Bool := x.grid == b.grid && (if b.span.isSome then x.span == b.span else x.cluster == b.cluster)
  let s := ((s.blocks.filter fun e => mine e.2).map (·.1)).foldl dropBlock s
  { s with
    clusters := s.clusters.filter fun e =>
      !(e.1 == b.cluster || (b.span.isSome && e.2.grid == b.grid &&
        ((tget s.grids b.grid).map fun g => some (spanKey b.grid ((e.1 - clusterKey b.grid 0 1) * g.cluster / max 1 g.spanSize)) == b.span).getD false))
    spans := match b.span with | some k => tdel s.spans k | none => s.spans
    grids := tmod s.grids b.grid fun g =>
      let n := unitFirst g b.lin
      if g.redo.contains n || g.retry.contains n then g
      else if g.cls == some (classOfDie (b.core / 32)) then { g with retry := g.retry ++ [n] }
      else { g with redo := g.redo ++ [n] } }

/-- A record that R303 refuses: its VALID is cleared once the event is accepted, and the block is tried again under R296, with the
cluster or die span that starts and is restored as a whole (R281, R284, R426). -/
def refuseBind (s : State) (core entry : Nat) (r : BindRec) : State :=
  match post s (core / 32) 3 (BindRec.field r.ctrl 40 8) (BitVec.ofNat 64 (core + 256 * entry)) 0 with
  | none => s
  | some s =>
    let gone : List Nat := (core * 64 + entry) :: match blockOf s core entry r with
      | some b => (unitBinds s b).map (·.1)
      | none => []
    let s' := { s with binds := s.binds.filter fun e => !(gone.contains e.1) }
    match blockOf s core entry r with
    | none => s'
    | some b => if BindRec.field r.ctrl 62 1 = 1 then displace s' (b :: (unitBinds s b).map (·.2.2)) else redoUnit s' b

/-- Blocks of a unit that have started or come back, once the last of them has: they run (R194, R281, R284). -/
def unitBack (s : State) (bk : Nat) (b : Block) : State :=
  if (unitBinds s b).isEmpty then setPhase s (companions s bk b) .running else s

/-- A record's VALID goes to 1: the block starts from its first instruction, and its groups' reserves are taken from the pool (R303,
R325, R326). The blocks of a cluster or die span run once the last of them has started (R281, R284). Its lanes see what the packet's start
acquired, so the core's L1 keeps no older copy (R33). -/
def startBlock (s : State) (core entry : Nat) (r : BindRec) : State :=
  let (bk, s) := s.fresh
  match blockOf s core entry r with
  | none => { s with binds := tdel s.binds (core * 64 + entry) }
  | some b =>
    let b := { b with phase := .arriving }
    let s := ({ s with blocks := tset s.blocks bk b }).clearRange (scratchKey core b.scrBase) b.scrSize
    let s := b.slots.zipIdx.foldl (fun s x => s.setGroup x.1 (freshGroup s bk b x.2 x.1)) (acquireL1 s core)
    unitBack (takeReserves s (core * 64)) bk b

/-- The record's block may start: no record of its unit is refused (R281, R303). -/
def unitOk (s : State) (core entry : Nat) (r : BindRec) : Bool :=
  match blockOf s core entry r with
  | some b => (unitBinds s b).all fun x => bindOk s (x.1 / 64) x.2.1
  | none => true

/-- BIND_RECORD. A unit starts with its first record only if none of its records is refused. A die that does not run takes no record
(R418, R421): its reset dispatches the block again. -/
def execBindRecord (core entry : Nat) (s : State) : Host.Outcome State Fault Refusal :=
  event (match tget s.binds (core * 64 + entry) with
    | none => s
    | some r =>
      if BindRec.field r.ctrl 63 1 = 0 || BindRec.field r.ctrl 62 1 = 1 || !dieRuns s (core / 32) || s.blocks.any fun e => e.2.core == core && e.2.entry == entry then s
      else if !(bindOk s core r) then refuseBind s core entry r
      else if unitOk s core entry r then startBlock s core entry r
      else s)

end Sys2Proof.Machine
end

