-- ==== Sys2Proof/Machine/Saving.lean ====
section
/-! DEFINITION. Saving.lean: the save area, PREEMPTION_SAVE and RESTORE (R253, R346 to R354). -/

namespace Sys2Proof.Machine

/-! ## Images (R349 to R352) -/

def padTo (n : Nat) (bs : List Byte) : List Byte := bs ++ List.replicate ((n - bs.length % n) % n) 0

/-- 2 bits of a MAP: the SHAPE codes of R155; AWAY is saved as 3. -/
def shapeBits (r : Option Reg) : Nat :=
  match r with
  | none => 0
  | some r => match r.val with | .uniform _ => 1 | .affine _ _ => 2 | .general _ => 3

/-- The value of register n of the program: that of its spill image while it is AWAY (R331). -/
def savedVal (g : Group) (n : Nat) (r : Reg) : RegVal := if r.away then imageVal g.spill n else r.val

/-- The image of a register (R351). -/
def regImage (v : RegVal) : List Byte :=
  match v with
  | .uniform x => leBytes 8 x.toNat
  | .affine b st => leBytes 4 b.toNat ++ leBytes 4 st.toNat
  | .general v => v.toList.flatMap fun x => leBytes 4 x.toNat

def mapBytes (t : Table Reg) (first n : Nat) : Nat := (List.range n).foldr (fun i a => shapeBits (tget t (first + i)) + 4 * a) 0

def barBytes (v : Vector Barrier 16) : List Byte := v.toList.flatMap fun b => leBytes 4 b.phase.toNat ++ leBytes 4 b.count.toNat

/-- One split entry (R351). A sleeper resumes behind its SLEEP (R190, R347). -/
def splitBytes (p : Split) (active : Bool) : List Byte :=
  let pc := match p.wait with | some (.sleep _) => p.pc + 12 | _ => p.pc
  let bar := p.arrived
  let dl := match p.wait with | some (.swait (some d) _ _) => d | _ => p.deadline.getD 0
  leBytes 8 (pc.toNat / 4 * 4 + (if bar then 2 else 0) + (if active then 1 else 0)) ++ leBytes 8 p.mask.toNat ++ leBytes 8 dl

/-- Every split and entry of a group, oldest first, with its ACTIVE bit. -/
def allSplits (g : Group) : List (Split × Bool) :=
  sortBy (fun (a b : Split × Bool) => decide (a.1.age < b.1.age))
    (((g.active ++ g.suspActive).map fun p => (p, true)) ++ (g.parked ++ g.suspParked).map fun p => (p, false))

/-- The first failed copy of each failed batch that has not been reported: the batch's entry (R247, R350). -/
def failedBatches (g : Group) : List CopyFail :=
  (g.copyFails.foldl (fun (acc : List CopyFail) f =>
    if f.batch.isNone || acc.any fun x => x.batch == f.batch then acc else acc ++ [f]) []).take 64

/-- A group record (R350), without the slot images. -/
def groupHead (s : State) (k : Nat) (g : Group) : List Byte :=
  let sp := allSplits g
  let fails := failedBatches g
  let h := oldestHeld g.held
  let hf (f : HeldFault → Nat) : Nat := (h.map f).getD 0
  leBytes 8 (sp.length + (if g.handler then 256 else 0)) ++ leBytes 32 (mapBytes g.regs 0 128) ++
  leBytes 16 ((List.range 128).foldr (fun i a => (if (tget g.regs i).any (·.pend) then 1 else 0) + 2 * a) 0) ++
  leBytes 8 g.m0.toNat ++ ((List.range 7).flatMap fun i => leBytes 8 ((g.preds[i + 1]?.getD 0).toNat)) ++
  leBytes 1 (mapBytes g.hregs 124 4) ++ leBytes 1 fails.length ++ leBytes 2 g.batch.toNat ++ leBytes 2 g.claims.toNat ++
  leBytes 2 0 ++ (g.barPend.toList.flatMap fun m => leBytes 8 m.toNat) ++ leBytes 8 g.hscr0.toNat ++ leBytes 8 g.hscr1.toNat ++
  leBytes 4 g.dead.toNat ++ leBytes 4 0 ++ leBytes 8 (hf (·.pc.toNat)) ++ leBytes 8 (hf (·.addr.toNat)) ++
  leBytes 8 (hf (·.cause) + 256 * hf (·.reason) + (if h.isSome then 2 ^ 16 else 0) + 2 ^ 17 * hf fun x => if x.fromHandler then 1 else 0) ++
  ((List.range 16).flatMap fun i => leBytes 8 ((tget s.hdrs (partOf k * 16 + i)).getD 0).toNat) ++
  (sp.flatMap fun p => splitBytes p.1 p.2) ++
  (fails.flatMap fun f => leBytes 2 (f.batch.getD 0).toNat ++ leBytes 1 f.reason ++ leBytes 5 0 ++ leBytes 8 f.addr.toNat) ++
  (g.regs.flatMap fun e => regImage (savedVal g e.1 e.2)) ++ (g.hregs.flatMap fun e => regImage e.2.val)

def claimedSlots (m : BitVec 16) : List Nat := (List.range 16).filter fun i => m.getLsbD i

def groupImage (s : State) (k : Nat) (g : Group) : List Byte :=
  padTo 256 (groupHead s k g) ++ (claimedSlots g.claims).flatMap fun i => memRead s.tile (tileKey (partOf k) i 0) 16384

/-- The groups of a block that have not ended, by group number. -/
def liveGroups (s : State) (bk : Nat) (b : Block) : List (Nat × Nat × Group) :=
  b.slots.zipIdx.filterMap fun x => match s.group x.1 with
    | some g => if g.blk = bk then some (x.2, x.1, g) else none
    | none => none

/-- The lowest-indexed block of its cluster or die span that is still there. -/
def leads (s : State) (bk : Nat) (b : Block) : Bool :=
  (s.blocks.filter fun e => e.2.cluster == b.cluster).all fun e => e.1 == bk || decide (b.lin < e.2.lin)

def leadsSpan (s : State) (bk : Nat) (b : Block) : Bool :=
  (s.blocks.filter fun e => e.2.span == b.span).all fun e => e.1 == bk || decide (b.lin < e.2.lin)

/-- The cluster record (R352), and the window's image where the block leads its die span. -/
def clusterImage (s : State) (bk : Nat) (b : Block) : List Byte :=
  let cb := match tget s.clusters b.cluster with | some c => barBytes c.bars | none => List.replicate 128 0
  match (b.span.filter fun _ => leadsSpan s bk b).bind fun k => tget s.spans k with
  | some sp => cb ++ barBytes sp.bars ++ memRead s.mem (windowKey sp.die sp.window 0) (2 ^ 20)
  | none => cb ++ List.replicate 128 0

/-- The whole save area of a block (R349). The list of pins follows the cluster record. A group that has ended has no record, and its GOFF
is 0, though NGRP counts it: R350 gives a record 1 to 64 splits (DEDUCED, notes/assumptions/41.md). -/
def saveImage (s : State) (bk : Nat) (b : Block) : List Byte :=
  let gs := (liveGroups s bk b).map fun x => (x.1, padTo 256 (groupImage s x.2.1 x.2.2))
  let offs := gs.foldl (fun (acc : Nat × List (Nat × Nat)) x => (acc.1 + x.2.length, acc.2 ++ [(x.1, acc.1)])) (256, [])
  let goff (i : Nat) : Nat := ((offs.2.find? fun x => x.1 == i).map (·.2)).getD 0
  let scr := padTo 256 (memRead s.mem (scratchKey b.core b.scrBase) b.scrSize)
  let cl := if leads s bk b then clusterImage s bk b else []
  let pins := b.pins.flatMap fun n => leBytes 8 (n * 128)
  let scrOff := offs.1
  let clOff := scrOff + scr.length
  let pinOff := clOff + cl.length
  let size := pinOff + (padTo 256 pins).length
  leBytes 4 1 ++ leBytes 4 b.slots.length ++ leBytes 8 size ++ leBytes 4 b.scrSize ++ leBytes 4 0 ++ leBytes 8 scrOff ++
  barBytes b.bars ++ ((List.range 16).flatMap fun i => leBytes 4 (goff i)) ++
  leBytes 8 (if cl.isEmpty then 0 else clOff) ++ leBytes 4 b.pins.length ++ leBytes 4 0 ++
  leBytes 8 (if pins.isEmpty then 0 else pinOff) ++ leBytes 8 0 ++ gs.flatMap (·.2) ++ scr ++ cl ++ padTo 256 pins

/-! ## The save pool (R348) -/

/-- The lowest place for n bytes in the context's save pool, beside the areas in use. -/
def saveHole (s : State) (ctx n : Nat) (extra : List (Nat × Nat)) : Option Nat :=
  let base := (ctxSavePool s ctx).toNat
  let used := ((s.saved.filter fun e => e.2.blk.ctx == ctx).map fun e => (e.2.area.toNat, e.2.size)) ++ extra
  let cands := sortBy (fun a b => decide (a < b)) (base :: used.map fun r => (r.1 + r.2 + 255) / 256 * 256)
  cands.find? fun a => decide (a + n ≤ base + ctxSaveSize s ctx) && used.all fun r => decide (a + n ≤ r.1 ∨ r.1 + r.2 ≤ a)

/-- An area for every block of a unit. -/
def saveAreas (s : State) (ctx : Nat) : List (List Byte) → List (Nat × Nat) → Option (List Nat)
  | [], _ => some []
  | im :: ims, extra => do
    let a ← saveHole s ctx im.length extra
    let rest ← saveAreas s ctx ims (extra ++ [(a, im.length)])
    return a :: rest

/-! ## PREEMPTION_SAVE (R347) -/

/-- Step 2: everything the block's groups issued is complete. -/
def drained (s : State) (bk : Nat) : Bool :=
  (s.groups.filter fun e => e.2.blk == bk).all fun e =>
    !e.2.ending && e.2.trapEvent.isNone && !(s.reqs.any fun o => o.grp == e.1) && !(s.copies.any fun c => c.grp == e.1) &&
    !(s.matq.any fun o => o.grp == e.1) && !(s.frzReqs.any fun r => r.grp == e.1)

/-- The page that the block's text waits for, if it still does (R346). -/
def textPage (s : State) (bk : Nat) : Option (Nat × Nat) :=
  (s.groups.filter fun e => e.2.blk == bk).findSome? fun e =>
    (e.2.active ++ e.2.parked).findSome? fun p => match p.wait with | some (.text c page) => some (c, page) | _ => none

/-- The offsets of a save area's words whose source is poisoned: tile slots, the scratchpad, and the window where the block leads its
die span (R349, R352, R443). -/
def poisonOffsets (s : State) (bk : Nat) (b : Block) (im : List Byte) : List Nat :=
  let range (l : List Nat) (key n dst : Nat) : List Nat :=
    (l.filter fun w => key ≤ 4 * w && 4 * w < key + n).map fun w => dst + (4 * w - key)
  let slots := (liveGroups s bk b).flatMap fun x =>
    let at' := fieldAt im (0xA0 + 4 * x.1) 4 + (padTo 256 (groupHead s x.2.1 x.2.2)).length
    (claimedSlots x.2.2.claims).zipIdx.flatMap fun i => range s.tilePoison (tileKey (partOf x.2.1) i.1 0) 16384 (at' + 16384 * i.2)
  let win := match (b.span.filter fun _ => leads s bk b && leadsSpan s bk b).bind fun k => tget s.spans k with
    | some sp => range s.poison (windowKey sp.die sp.window 0) (2 ^ 20) (fieldAt im 0xE0 8 + 256)
    | none => []
  slots ++ range s.poison (scratchKey b.core b.scrBase) b.scrSize (fieldAt im 0x18 8) ++ win

/-- Words of a save area take the poison of what they hold. -/
def poisonArea (s : State) (ctx area : Nat) (offs : List Nat) : State :=
  offs.foldl (fun s off => match cpKey s ctx true (BitVec.ofNat 64 (area + off)) with
    | .ok k => { s with poison := if s.poison.contains (k / 4) then s.poison else s.poison ++ [k / 4] }
    | .error _ => s) s

/-- Steps 4 and 5 for one block whose area is known. -/
def saveBlock (s : State) (bk : Nat) (b : Block) (area : Nat) (im : List Byte) (page : Option (Nat × Nat)) : State :=
  let (id, s) := s.fresh
  let gs := (liveGroups s bk b).map (·.2.2)
  let offs := poisonOffsets s bk b im
  let s := poisonArea (cpWrite s b.ctx (BitVec.ofNat 64 area) im) b.ctx area offs
  let s := dropBlock s bk
  let s := setMember s b.cluster b.member (256, 0, 0)
  let s := match b.span with
    | some k => { s with spans := tmod s.spans k fun x => { x with die := 8, window := 8 } }
    | none => s
  { s with saved := tset s.saved id { blk := b, groups := gs, area := BitVec.ofNat 64 area, size := im.length, waitPage := page } }

/-- A fetch-fault save for which the pool has no room: the block waits in place (R346); a pre-emption is given up
and R304 chooses others (R348). -/
def noRoom (s : State) (bks : List Nat) : State :=
  let s := setPhase s bks (if bks.any fun k => (textPage s k).isSome then .waitingInPlace else .running)
  { s with blocks := s.blocks.map fun e => if bks.contains e.1 then (e.1, { e.2 with unsavable := true }) else e }

/-- An area of the context's save pool is free again: its blocks may find room (R348). -/
def areaFreed (s : State) (ctx : Nat) : State :=
  { s with blocks := s.blocks.map fun e => if e.2.ctx == ctx then (e.1, { e.2 with unsavable := false }) else e }

/-- The first page of the save areas that has no mapping. -/
def missingArea (s : State) (ctx : Nat) (l : List (Nat × List Byte)) : Option (Nat × Nat) :=
  l.findSome? fun x => match cpKeys s ctx true (BitVec.ofNat 64 x.1) x.2.length with
    | .error (.missing c p) => some (c, p)
    | _ => none

/-- PREEMPTION_SAVE: once its whole unit has drained, each block's state is written to its save area and its resources
are freed. -/
def execPreemptionSave (bk : Nat) (s : State) : Host.Outcome State Fault Refusal :=
  event (match tget s.blocks bk with
    | none => s
    | some b =>
      let bks := companions s bk b
      if !(b.phase == .draining || b.phase == .fetchDraining) || !dieRuns s (b.core / 32) || !(bks.all (drained s)) then s
      else
        let s := { s with resv := s.resv.filter fun r => !(s.groups.any fun e => e.1 == r.grp && bks.contains e.2.blk) }
        let bs := sortBy (fun (a b : Nat × Block) => decide (a.2.lin < b.2.lin)) (s.blocks.filter fun e => bks.contains e.1)
        let ims := bs.map fun e => saveImage s e.1 e.2
        match saveAreas s b.ctx ims [] with
        | none => noRoom s bks
        | some as =>
          match missingArea s b.ctx (as.zip ims) with
          | some (c, p) => agentCalls s bk c p
          | none =>
            let page := bks.findSome? (textPage s)
            let s := ((bs.map fun e => e.2.cluster).dedup).foldl keepEnded s
            ((bs.zip as).zip ims).foldl (fun (s : State) (x : ((Nat × Block) × Nat) × List Byte) =>
              saveBlock s x.1.1.1 x.1.1.2 x.1.2 x.2 page) s)

/-! ## RESTORE (R353) -/

/-- A register from its image: the value and the bytes it takes. -/
def regOfImage (shape : Nat) (bs : List Byte) : Option RegVal × Nat :=
  match shape with
  | 1 => (some (.uniform (BitVec.ofNat 32 (fieldAt bs 0 4))), 8)
  | 2 => (some (.affine (BitVec.ofNat 32 (fieldAt bs 0 4)) (BitVec.ofNat 32 (fieldAt bs 4 4))), 8)
  | 3 => (some (.general (lanesOf fun l => BitVec.ofNat 32 (fieldAt bs (4 * l) 4))), 256)
  | _ => (none, 0)

/-- Registers first to first + n - 1 from their images, under MAP and PEND; marks of failed loads come from the model's
own record (R344). -/
def regsOfImage (first : Nat) (map pend : Nat) (old : Table Reg) (n : Nat) (bs : List Byte) : Table Reg × List Byte :=
  (List.range n).foldl (fun (acc : Table Reg × List Byte) i =>
    match regOfImage (map / 4 ^ i % 4) acc.2 with
    | (some v, k) =>
      let failed := (tget old (first + i)).any (·.failed)
      let poison := (tget old (first + i)).any (·.poison)
      (acc.1 ++ [(first + i, { val := v, pend := pend / 2 ^ i % 2 == 1, failed := failed, poison := poison })], acc.2.drop k)
    | (none, _) => acc) ([], bs)

def splitOfImage (bs : List Byte) (age : Nat) : Split × Bool :=
  let w := fieldAt bs 0 8
  let dl := fieldAt bs 16 8
  ({ pc := BitVec.ofNat 64 (w / 4 * 4), mask := BitVec.ofNat 64 (fieldAt bs 8 8), age := age,
     wait := if w / 2 % 2 = 1 then some (.phase 48 0 1) else none, deadline := if dl = 0 then none else some dl }, w % 2 == 1)

/-- At most four entries marked ACTIVE become active, the oldest (R353). -/
def dealSplits (l : List (Split × Bool)) : List Split × List Split :=
  let act := (l.filter (·.2)).map (·.1)
  (act.take 4, act.drop 4 ++ (l.filter fun x => !x.2).map (·.1))

/-- What no field of the area holds: what the MMP said to a split (R364), and at which barrier and for which lanes a split with BARWAIT
waits. -/
def withPage (old : Group) (p : Split) : Split :=
  match (old.active ++ old.parked ++ old.suspActive ++ old.suspParked).find? fun q => q.mask == p.mask with
  | some q => { p with page := q.page, denied := q.denied, reread := q.reread, stalled := q.stalled,
                       wait := if p.arrived && q.arrived then q.wait else p.wait }
  | none => p

/-- A group from its record (R350, R353). old is what the record has no field for. -/
def groupOfImage (bk : Nat) (old : Group) (rr : Nat) (bs : List Byte) : Group × List Byte :=
  let nspl := fieldAt bs 0 1
  let handler := fieldAt bs 1 1 % 2 == 1
  let m0 : Mask := BitVec.ofNat 64 (fieldAt bs 0x38 8)
  let nfail := fieldAt bs 0x79 1
  let sp := (List.range nspl).map fun i => splitOfImage (bs.drop (0x2B0 + 24 * i)) i
  let sp := sp.map fun x => (withPage old x.1, x.2)
  let mine := sp.filter fun x => !handler || x.1.mask &&& ~~~m0 == 0
  let susp := sp.filter fun x => handler && x.1.mask &&& ~~~m0 != 0
  let failAt := 0x2B0 + 24 * nspl
  let fails := (List.range nfail).map fun i =>
    let f := bs.drop (failAt + 16 * i)
    let was := ((failedBatches old)[i]?).getD { seq := i, batch := none, reason := 0, addr := 0 }
    { was with batch := some (BitVec.ofNat 16 (fieldAt f 0 2)), reason := fieldAt f 2 1, addr := BitVec.ofNat 64 (fieldAt f 8 8) }
  let images := bs.drop (failAt + 16 * nfail)
  let (regs, rest) := regsOfImage 0 (fieldAt bs 8 32) (fieldAt bs 0x28 16) old.regs 128 images
  let (hregs, rest) := regsOfImage 124 (fieldAt bs 0x78 1) 0 old.hregs 4 rest
  let claims : BitVec 16 := BitVec.ofNat 16 (fieldAt bs 0x7C 2)
  let live := sp.foldl (fun m x => m ||| x.1.mask) (0 : Mask)
  let (act, parked) := dealSplits mine
  let (sact, sparked) := dealSplits susp
  ({ old with
      blk := bk, regs := regs, hregs := hregs, ended := ~~~live, handler := handler, m0 := m0,
      preds := Vector.ofFn fun i => if i.val = 0 then 0 else BitVec.ofNat 64 (fieldAt bs (0x40 + 8 * (i.val - 1)) 8),
      active := act, parked := parked, suspActive := sact, suspParked := sparked, nextAge := nspl,
      barPend := Vector.ofFn fun i => BitVec.ofNat 64 (fieldAt bs (0x80 + 8 * i.val) 8),
      hscr0 := BitVec.ofNat 64 (fieldAt bs 0x200 8), hscr1 := BitVec.ofNat 64 (fieldAt bs 0x208 8),
      dead := BitVec.ofNat 32 (fieldAt bs 0x210 4), batch := BitVec.ofNat 16 (fieldAt bs 0x7A 2), claims := claims,
      copyFails := fails ++ old.copyFails.filter (fun f => !((failedBatches old).contains f)), flight := [], refills := [],
      holder := none, rr := rr,
      passedSince := none, aged := false, ending := false, trapEvent := none }, rest)

/-- Bytes of a group record before the slot images. -/
def groupHeadSize (bs rest : List Byte) : Nat := (bs.length - rest.length + 255) / 256 * 256

/-- Headers and images of the slots a restored group claims, on its new partition. -/
def restoreSlots (s : State) (k : Nat) (claims : BitVec 16) (bs : List Byte) (images : List Byte) : State :=
  (claimedSlots claims).zipIdx.foldl (fun (s : State) (x : Nat × Nat) =>
    let s := { s with hdrs := tset s.hdrs (partOf k * 16 + x.1) (BitVec.ofNat 64 (fieldAt bs (0x230 + 8 * x.1) 8)) }
    tileWrite s (partOf k) x.1 0 ((images.drop (16384 * x.2)).take 16384)) s

def barsOfImage (bs : List Byte) : Vector Barrier 16 :=
  Vector.ofFn fun i => { phase := BitVec.ofNat 32 (fieldAt bs (8 * i.val) 4), count := BitVec.ofNat 32 (fieldAt bs (8 * i.val + 4) 4) }

/-- Cluster, die span and window states come back where the area carries them (R352). -/
def restoreCluster (s : State) (b : Block) (bs : List Byte) : State :=
  let s := { s with clusters := tmod s.clusters b.cluster fun c => { c with bars := barsOfImage bs } }
  match b.span.bind fun k => (tget s.spans k).map fun sp => (k, sp) with
  | some (k, sp) =>
    if 256 < bs.length then
      { s with spans := tset s.spans k { sp with bars := barsOfImage (bs.drop 128) },
               mem := memWrite s.mem (windowKey sp.die sp.window 0) ((bs.drop 256).take (2 ^ 20)) }
    else s
  | none => s

/-- One group of the area comes back. -/
def restoreGroup (s : State) (bk k idx : Nat) (old : Option Group) (bs : List Byte) : State :=
  match old with
  | none => s
  | some old =>
    let back := (s.groups.filter fun e => partOf e.1 == partOf k).foldl (fun m e => max m e.2.rr) 0 + 1
    let (g, rest) := groupOfImage bk { old with idx := idx } back bs
    let s := s.setGroup k g
    (restoreSlots s k g.claims bs (bs.drop (groupHeadSize bs rest))).modGroup k settle

/-- Pins come back as far as the core's capacity allows (R253, R353). -/
def restorePins (s : State) (bk : Nat) (lines : List Nat) : State :=
  lines.foldl (fun s n => match (tget s.blocks bk).bind fun b => pinLines s bk b [n] with
    | some s => s
    | none => s) s

/-- The saved block that a bind record's SAVE names, in its context. -/
def savedAt (s : State) (r : BindRec) : Option (Nat × Saved) :=
  s.saved.find? fun e => e.2.area == r.save && e.2.blk.ctx == BindRec.field r.ctrl 40 8

/-- Bytes of a group record before its slot images (R350, R351). -/
def recordSize (bs : List Byte) : Nat :=
  let size (code : Nat) : Nat := if code = 0 then 0 else if code = 3 then 256 else 8
  let regs (off n : Nat) : Nat := ((List.range n).map fun i => size (fieldAt bs (off + i / 4) 1 / 4 ^ (i % 4) % 4)).sum
  (0x2B0 + 24 * fieldAt bs 0 1 + 16 * fieldAt bs 0x79 1 + regs 8 128 + regs 0x78 4 + 255) / 256 * 256

/-- The words of a restored block whose images in the area are poisoned: bad holds their offsets (R443). -/
def unpoisonArea (s : State) (bk : Nat) (b : Block) (im : List Byte) (bad : List Nat) : State :=
  let back (from' n key : Nat) : List Nat := (bad.filter fun o => from' ≤ o && o < from' + n).map fun o => (key + (o - from')) / 4
  let slots := (liveGroups s bk b).flatMap fun x =>
    let at' := fieldAt im (0xA0 + 4 * x.1) 4 + recordSize (im.drop (fieldAt im (0xA0 + 4 * x.1) 4))
    (claimedSlots x.2.2.claims).zipIdx.flatMap fun i => back (at' + 16384 * i.2) 16384 (tileKey (partOf x.2.1) i.1 0)
  let win := match b.span.bind fun k => tget s.spans k with
    | some sp => if fieldAt im 0xE0 8 = 0 then [] else back (fieldAt im 0xE0 8 + 256) (2 ^ 20) (windowKey sp.die sp.window 0)
    | none => []
  { s with
    tilePoison := s.tilePoison ++ slots
    poison := s.poison ++ back (fieldAt im 0x18 8) b.scrSize (scratchKey b.core b.scrBase) ++ win }

/-- The record's block comes back; bad lists the offsets of its area's poisoned words. -/
def restoreBlock (s : State) (core entry : Nat) (r : BindRec) (sv : Nat × Saved) (im : List Byte) (bad : List Nat) : State :=
  let (bk, s) := s.fresh
  match blockOf s core entry r with
  | none => s
  | some b =>
    let b := { b with bars := barsOfImage (im.drop 0x20), translated := sv.2.blk.translated, apf := sv.2.blk.apf, pins := [],
                       phase := .arriving, textCls := some (sv.2.blk.textCls.getD (classOfDie (sv.2.blk.core / 32))) }
    let scr := (im.drop (fieldAt im 0x18 8)).take b.scrSize
    let s := areaFreed ({ acquireL1 s core with
      blocks := tset s.blocks bk b, saved := tdel s.saved sv.1 }.clearRange (scratchKey core b.scrBase) b.scrSize) b.ctx
    let s := { s with mem := memWrite s.mem (scratchKey core b.scrBase) scr }
    let s := b.slots.zipIdx.foldl (fun (s : State) (x : Nat × Nat) =>
      let off := fieldAt im (0xA0 + 4 * x.2) 4
      if off = 0 then s
      else restoreGroup s bk x.1 x.2 (sv.2.groups.find? fun g => g.idx == x.2) (im.drop off)) s
    let cl := fieldAt im 0xE0 8
    let size := fieldAt im 8 8
    let pinOff := fieldAt im 0xF0 8
    let s := if cl = 0 then s else restoreCluster s b ((im.take (if pinOff = 0 then size else pinOff)).drop cl)
    let s := unitBack (takeReserves (unpoisonArea s bk b im bad) (core * 64)) bk b
    restorePins s bk ((List.range (fieldAt im 0xE8 4)).map fun i => fieldAt im (pinOff + 8 * i) 8 / 128)

/-- The bytes of a save area, poisoned ones too, with the offsets of its poisoned words. -/
def readArea (s : State) (x : Saved) : Except VaErr (List Byte × List Nat) := do
  let ks ← cpKeys s x.blk.ctx false x.area x.size
  let bad := if s.poison.isEmpty then [] else (ks.zipIdx.filter fun k => k.2 % 4 == 0 && s.poison.contains (k.1 / 4)).map (·.2)
  return (ks.map (memByte s.mem), bad)

/-- A block of the unit with a lower index has still to come back. -/
def restoresAfter (s : State) (core entry : Nat) (r : BindRec) : Bool :=
  match blockOf s core entry r with
  | some b => (unitBinds s b).any fun x => decide (x.2.2.lin < b.lin)
  | none => false

/-- A tile slot that the restored groups claim has been claimed by a resident group since they were placed (R353). -/
def claimsClash (s : State) (core entry : Nat) (r : BindRec) : Bool :=
  match blockOf s core entry r with
  | some b => (unitBinds s b).any fun x =>
      (pendingClaims s (x.1 / 64)).any fun c => (x.2.1.keys (x.1 / 64)).contains c.1 &&
        s.groups.any fun e => partOf e.1 == partOf c.1 && e.2.claims &&& c.2 != 0
  | none => false

/-- The unit's records go, and it is placed anew. -/
def withdrawUnit (s : State) (core entry : Nat) (r : BindRec) : State :=
  match blockOf s core entry r with
  | none => s
  | some b =>
    let unit := unitBinds s b
    displace { s with binds := s.binds.filter fun e => !((unit.map (·.1)).contains e.1) } (unit.map (·.2.2))

/-- Some block of the record's unit has come back already. -/
def unitArriving (s : State) (core entry : Nat) (r : BindRec) : Bool :=
  (blockOf s core entry r).any fun b => s.blocks.any fun e =>
    e.2.grid == b.grid && (if b.span.isSome then e.2.span == b.span else e.2.cluster == b.cluster)

/-- RESTORE: a bind record with RESTORE = 1 brings a saved block back; the blocks of a unit come in the order of their indices. -/
def execRestore (core entry : Nat) (s : State) : Host.Outcome State Fault Refusal :=
  event (match tget s.binds (core * 64 + entry) with
    | none => s
    | some r =>
      if BindRec.field r.ctrl 63 1 = 0 || BindRec.field r.ctrl 62 1 = 0 || !dieRuns s (core / 32) ||
          s.blocks.any fun e => e.2.core == core && e.2.entry == entry then s
      else if !(bindOk s core r) then refuseBind s core entry r
      else if !(unitOk s core entry r) || restoresAfter s core entry r then s
      else if claimsClash s core entry r then (if unitArriving s core entry r then s else withdrawUnit s core entry r)
      else match savedAt s r with
        | none => s
        | some sv =>
          let s := readAt s 10 sv.2.blk.ctx sv.2.area sv.2.size false
          match readArea s sv.2 with
          | .error (.missing c p) => agentCalls s sv.1 c p
          | .error (.fails _ _) => s
          | .ok (im, bad) => restoreBlock s core entry r sv im bad)

end Sys2Proof.Machine
end

