-- ==== Sys2Proof/Machine/Fabric.lean ====
section
/-! DEFINITION. Fabric.lean: warm reset, presence, links, event queues, host, peers and the network (R400, R401, R417 to R433,
R445). -/

namespace Sys2Proof.Machine

/-! ## Dies -/

def dieAt (s : State) (d : Nat) : Die := (s.dies[d]?).getD {}

def linkAt (s : State) (l : Nat) : Link := (s.links[l]?).getD {}

def modLink (s : State) (l : Nat) (f : Link → Link) : State :=
  if h : l < 10 then { s with links := s.links.set l (f s.links[l]) } else s

/-- DIECTL's fields (R423). -/
def dieCtlBusy (s : State) : Bool := s.diectl.getLsbD 31

/-- The command on a die ends, if it is the one that DIECTL holds. -/
def dieCtlDone (s : State) (d : Nat) : State :=
  if dieCtlBusy s && s.diectl.toNat % 8 = d then { s with diectl := s.diectl &&& 0x7FFFFFFF#32 } else s

/-- The die counts as having acknowledged every install and collection (R398, R418, R421). -/
def countAcked (s : State) (d : Nat) : State :=
  completeOps { s with frzOps := s.frzOps.map fun o => { o with stage := o.stage.without (some d) none } }

/-- The Lodge has accepted the access: it stands in the queue for its line, it waits for the MMP after its walk or is replayed (R364), it has
left for its peer (R432), or it is held at a frozen line (R401). -/
def accepted (s : State) (o : MemOp) (x : Access) : Bool :=
  x.queued.isSome || x.waiting.isSome || x.replay.isSome || x.sent.isSome || heldAtHome s o x

/-- Step 1 of R418, once the link carries packets (R422): the die issues nothing more, and what the Lodge has not accepted is never
performed. One that is to end in absence does so whatever starts a reset meanwhile (R421). -/
def quiesce (s : State) (d : Nat) (toAbsent : Bool) : State :=
  let stay := toAbsent || (dieAt s d).toAbsent
  if (linkAt s d).retraining then s.setDie d fun x => { x with resetPending := true, toAbsent := stay }
  else
    let s := s.setDie d fun x => { x with state := .resetting, drained := false, resetPending := false, toAbsent := stay }
    countAcked { s with reqs := s.reqs.map fun o =>
      if o.port = d then { o with todo := o.todo.filter (accepted s o) } else o } d

/-- Accesses of a die that wait for their lines, with their keys, in the order in which they were (R377). -/
def acceptedOf (s : State) (d : Nat) : List (MemOp × Access × Nat) :=
  let all := (s.reqs.filter fun o => o.port == d).flatMap fun o => o.todo.filterMap fun x =>
    if x.queued.isNone then none else match resolved s o x with
      | some (.at key _ _ _) => some (o, x, key)
      | _ => none
  sortBy (fun (a b : MemOp × Access × Nat) => decide (a.2.1.queued.getD 0 < b.2.1.queued.getD 0)) all

/-- What an access waits for can come before the die's drain: nothing of it lies with a die in reset that is not drained. -/
def comesFirst (s : State) (key : Nat) : Bool :=
  !((regionAt s key).holder.any (undrained s)) && !(s.recalls.any fun r => r.base ≤ key && key < r.base + r.size && undrained s r.die)

/-- Writes that the die has sent to a holder elsewhere, which can still perform them (R374, R418). -/
def forwardsOf (s : State) (d : Nat) : List Forwarded := s.fwd.filter fun f => f.core / 32 == d && f.die != d && !undrained s f.die

/-- An accepted access that waited for the drain is performed at the home after it, in the order of its line (R377, R419). -/
def afterDrain (s : State) (x : MemOp × Access × Nat) : State := performQueued x.2.2 (3 * (queuedOn s x.2.2).length) s

/-- Nothing of the program stays in the caches of a die. -/
def emptyCaches (s : State) (d : Nat) : State :=
  { s with dc := s.dc.filter fun l => l.die != d, l1 := s.l1.filter fun l => l.core / 32 != d }

/-- The number of free records of the Lodge's buffer (R426). -/
def lodgeRoom (s : State) : Nat := 32 - ((tget s.outbox 8).getD {}).recs.length

/-- Posts a record of the Lodge for which there is room. -/
def postLodge (s : State) (code : Nat) (arg0 arg1 : Nat) : State :=
  (post s 8 code 0xFF (BitVec.ofNat 64 arg0) (BitVec.ofNat 64 arg1)).getD s

/-- A range that a die in reset was to give up goes to its heir. -/
def heirOf (s : State) (d : Nat) (r : Region) : Region :=
  match s.recalls.find? (fun (x : Recall) => x.die == d && x.base == r.base && x.size == r.size) with
  | some x => { r with holder := x.heir }
  | none => r

/-- Step 2 of R418: dirty lines are at their homes; bad ones are poisoned there; everything else of the die's caches,
windows and scratchpads is gone. Forwarded writes that the die had not performed are performed at the home after the
written-back line, and their regions are NONE (R419). -/
def drainDie (s : State) (d : Nat) (bad : List Nat) : Nat × State :=
  let lost := ((s.dc.filter fun l => l.die == d && l.dirty && !l.replica && bad.contains l.key).map (·.key)).dedup
  let words := lost.flatMap fun k => (List.range 32).map fun i => k / 4 + i
  let s := wroteBack s (s.dc.filter fun l => l.die == d && !l.replica)
  let s := ((List.range 32).foldl (fun s i => s.clearRange (scratchKey (d * 32 + i) 0) (2 ^ 18)) s).clearRange (windowKey d 0 0) (8 * 2 ^ 20)
  let s := { emptyCaches s d with
    poison := (s.poison ++ words).dedup
    ilines := s.ilines.filter fun l => l.1 / 32 != d
    frtCopy := s.frtCopy.filter fun e => e.1 / 256 != d
    resv := s.resv.filter fun r => dieOf r.grp != d
    recalls := s.recalls.filter fun r => r.die != d
    regions := s.regions.map (heirOf s d) }
  let s := s.setDie d fun x => { x with drained := true, poisoned := lost.length }
  (lost.length, (s.fwd.filter fun f => f.die == d).foldl (fun s f => settleLine s f.key) s)

/-- The units of blocks that a die's reset makes start again: grid, first block, blocks, and how many had ended. -/
def redoUnits (s : State) (d : Nat) : List (Nat × Nat × Nat × Nat) :=
  let spans := (s.spans.filter fun e => e.2.die == d).filterMap fun e =>
    (tget s.grids e.2.grid).map fun g =>
      let lin := e.2.num * g.spanSize
      let n := unitBlocks g lin
      (e.2.grid, lin, n, n - e.2.blocksLeft)
  let clusters := (s.clusters.filter fun e => e.2.members.any fun m => m.1 / 32 == d).filterMap fun e =>
    match tget s.grids e.2.grid with
    | some g => if g.dspan then none else
        let lin := (e.1 - clusterKey e.2.grid 0 1) * g.cluster
        some (e.2.grid, lin, g.cluster, g.cluster - e.2.blocksLeft)
    | none => none
  spans ++ clusters

/-- Step 4 of R418 with R420: the die's blocks end unsaved and stand to be dispatched again, blocks of their units among them that were
still to come back. -/
def redispatch (s : State) (d : Nat) : Nat × State :=
  let us := redoUnits s d
  let bks := (s.blocks.filter fun e => e.2.core / 32 == d).map (·.1)
  let s := bks.foldl dropBlock s
  let again (b : Block) : Bool := us.any fun u => u.1 == b.grid && decide (u.2.1 ≤ b.lin ∧ b.lin < u.2.1 + u.2.2.1)
  let s := { s with
    saved := s.saved.filter fun e => !(again e.2.blk)
    clusters := s.clusters.filter fun e => !(e.2.members.any fun m => m.1 / 32 == d)
    spans := s.spans.filter fun e => e.2.die != d
    binds := s.binds.filter fun e => e.1 / 2048 != d
    health := s.health.filter fun e => e.1 / 1024 != d
    hdrs := s.hdrs.filter fun e => e.1 / 2048 != d
    shadow := s.shadow.filter fun e => e.1 / 128 != d }
  let s := us.foldl (fun (s : State) u =>
    { s with grids := tmod s.grids u.1 fun g =>
        { g with redo := if g.redo.contains u.2.1 then g.redo else g.redo ++ [u.2.1], ended := g.ended - u.2.2.2 } }) s
  ((us.map fun u => u.2.2.1).sum, s)

/-- Directory regions held by a die become NONE, and those that it was to hold after a recall (R418, R421). -/
def releaseRegions (s : State) (d : Nat) : State :=
  { s with
    regions := s.regions.map fun r => if r.holder = some d then { r with holder := none } else r
    recalls := s.recalls.map fun (r : Recall) => if r.heir = some d then { r with heir := none } else r }

/-- The die goes absent (R421). -/
def makeAbsent (s : State) (d why : Nat) : State :=
  dieCtlDone (postLodge (releaseRegions (s.setDie d fun x => { x with state := .absent, drained := false, toAbsent := false }) d)
    10 d why) d

/-- Writes that the Lodge has accepted and that still wait, for the MMP or at a frozen line, are performed later as its own (R364, R401,
R418). -/
def keepAccepted (s : State) (d : Nat) : State :=
  { s with reqs := s.reqs.map fun (o : MemOp) => if o.port = d ∧ o.orphans ∧ !o.todo.isEmpty then { o.orphan with port := 10 } else o }

/-- DRAIN: steps 2 and 3 of R418, once what the Lodge had accepted is performed, but for what it holds, and the die's blocks end; the command
processor holds them while the Lodge's buffer lacks room (R426). -/
def execDrain (d : Nat) (bad : List Nat) (s : State) : Host.Outcome State Fault Refusal :=
  event (
    if (dieAt s d).state != .resetting || (dieAt s d).drained || lodgeRoom s < 1 then s
    else if (acceptedOf s d).any (fun x => comesFirst s x.2.2) || !(forwardsOf s d).isEmpty then s
    else
      let inc := (dieAt s d).inc.toNat
      let late := acceptedOf s d
      let (lost, s) := drainDie s d bad
      let s := keepAccepted (emptyCaches (late.foldl afterDrain s) d) d
      let s := postLodge s 7 (d + 256 * inc) lost
      let (redone, s) := redispatch s d
      s.setDie d fun x => { x with redone := some redone })

/-- The end of step 4: the blocks have been dispatched again, and BLOCKS_REDISPATCHED is posted; then step 5 begins, or the die goes
absent (R418, R421). -/
def endRedispatch (s : State) (d : Nat) : State :=
  match (dieAt s d).redone with
  | none => s
  | some n =>
    if (dieAt s d).state != .resetting || redoOpen s || lodgeRoom s < 2 then s
    else
      let s := postLodge (s.setDie d fun x => { x with redone := none }) 8 d n
      if (dieAt s d).toAbsent then makeAbsent s d 3 else s.setDie d fun x => { x with state := .readmitting }

/-- A die's copy of the frozen-region table as the Lodge has it (R394). -/
def loadCopies (s : State) (d : Nat) : State :=
  (s.frt.filter fun e => e.2.state != .live).foldl (fun (s : State) e =>
    let c : FrtCopy := { state := e.2.state, sys := e.2.sys, ctx := e.2.ctx, base := e.2.base, len := e.2.len }
    { s with frtCopy := tset s.frtCopy (d * 256 + e.1) c }) s

/-- READMISSION: step 5 of R418 passes, or the die goes absent. A write of its old incarnation that still waits at another die comes before
(R417). -/
def execReadmission (d : Nat) (ok : Bool) (s : State) : Host.Outcome State Fault Refusal :=
  event (
    if (dieAt s d).state != .readmitting || lodgeRoom s < 1 || s.fwd.any fun f => f.core / 32 == d then s
    else if !ok then makeAbsent s d 2
    else if (dieAt s d).toAbsent then makeAbsent s d 3
    else
      let s := releaseRegions (loadCopies s d) d
      let s := s.setDie d fun x => { x with state := .run, inc := x.inc + 1, clk := 0, drained := false, poisoned := 0 }
      dieCtlDone (postLodge s 9 (d + 256 * (dieAt s d).inc.toNat) 0) d)

/-! ## DIECTL (R421, R423, R437) -/

def startWarmReset (s : State) (d : Nat) : State := if (dieAt s d).state == .run then quiesce s d false else dieCtlDone s d

def startAbsent (s : State) (d : Nat) : State :=
  if (dieAt s d).state == .run then quiesce s d true
  else if (dieAt s d).state == .absent then dieCtlDone s d
  else s.setDie d fun x => { x with toAbsent := true }

def startPresent (s : State) (d : Nat) : State :=
  if (dieAt s d).state == .absent then s.setDie d fun x => { x with state := .readmitting } else dieCtlDone s d

/-- A write of DIECTL: discarded in the safe state, while BUSY, and with a reserved bit set. -/
def writeDieCtl (s : State) (v : DWord) : State :=
  let w : BitVec 32 := v.setWidth 32
  if !(ready s) || dieCtlBusy s || w &&& 0x7FFFFCF8#32 != 0 then s
  else
    let d := w.toNat % 8
    let cmd := w.toNat / 256 % 4
    if cmd = 0 then { s with diectl := w &&& 0x307#32 }
    else
      let s := { s with diectl := 0x80000000#32 ||| (w &&& 0x307#32) }
      if cmd = 1 then startWarmReset s d else if cmd = 2 then startAbsent s d else startPresent s d

def execWarmreset (v : DWord) (s : State) : Host.Outcome State Fault Refusal := event (writeDieCtl s v)

def execAbsent (v : DWord) (s : State) : Host.Outcome State Fault Refusal := event (writeDieCtl s v)

def execPresent (v : DWord) (s : State) : Host.Outcome State Fault Refusal := event (writeDieCtl s v)

/-! ## The safe state (R437, R441, R443, R445) -/

/-- After a failure the contents of HBM are not promised (R437): they are free values. -/
def forgetHbm (s : State) : State :=
  { s with
    free := s.free + 1
    mem := (Config.lostBytes s.free).foldl (fun m c => memPut m (c.1 % hbmBytes) c.2) (s.mem.filter fun c => 2 ^ 64 ≤ c.1) }

/-- Every compute die is held in reset at once, and nothing unperformed is performed. A bring-up under way fails in its step. -/
def enterSafe (s : State) (code : Nat) : State :=
  let s := forgetHbm ((s.blocks.map (·.1)).foldl dropBlock s)
  { s with
    dies := s.dies.map fun d => { d with state := .held, drained := false, resetPending := false, toAbsent := false, redone := none }
    l1 := [], ilines := [], dc := [], reqs := [], fwd := [], recalls := []
    clusters := [], spans := [], binds := [], grids := [], saved := [], works := [], launches := []
    frzReqs := [], frzOps := [], copies := [], matq := [], shadow := [], resv := [], outer := [], tcache := [], stalls := []
    teardowns := [], mmp := [], argPages := []
    boot := { s.boot with state := .failed, code := code, step := (s.boot.loading.map (·.step)).getD s.boot.step, loading := none } }

/-! ## Links (R417, R422, R445) -/

/-- LINK_STEP_CHANGE: a retraining window opens; at most once in 100 us, and not on a link whose die is in warm reset or absent. -/
def execLinkStepChange (l step : Nat) (s : State) : Host.Outcome State Fault Refusal :=
  event (if l < 8 && (dieAt s l).state != .run then s
    else if (linkAt s l).retraining || (linkAt s l).changed.any fun t => decide (s.lodge < t + 100 * lodgePerUs) then s
    else modLink s l fun x => { x with step := BitVec.ofNat 2 step, retraining := true, changed := some s.lodge })

def satAdd32 (x n : Nat) : Nat := min (x + n) (2 ^ 32 - 1)

/-- An error register with n more corrected and m more uncorrectable errors; both saturate (R439). -/
def countErrors (w : DWord) (n m : Nat) : DWord :=
  BitVec.ofNat 64 (satAdd32 (w.toNat % 2 ^ 32) n + satAdd32 (w.toNat / 2 ^ 32) m * 2 ^ 32)

/-- FLIT_REPLAY: the replay is counted; eight failed ones of one flit take the link down. -/
def execFlitReplay (l : Nat) (ok : Bool) (s : State) : Host.Outcome State Fault Refusal :=
  let s := { s with boot := { s.boot with errLink := countErrors s.boot.errLink 1 0 } }
  event (
    if ok then modLink s l fun x => { x with replays := 0 }
    else if (linkAt s l).replays + 1 < 8 then modLink s l fun x => { x with replays := x.replays + 1 }
    else
      let s := modLink s l fun x => { x with replays := 0 }
      let s := { s with boot := { s.boot with errLink := countErrors s.boot.errLink 0 1 } }
      if l < 8 then (if (dieAt s l).state == .run then quiesce s l false else s) else enterSafe s 2)

/-- The incarnation the Lodge has recorded for a sender: dies 0-7, Gondolas 8 and 9. -/
def recordedInc (s : State) (sender : Nat) : Nat :=
  if sender < 8 then (dieInc s sender).toNat else ((s.gondolas[sender - 8]?).getD {}).inc.toNat

/-- The port's next request, served as HOME_REQUEST serves it. -/
def takeRequest (s : State) (port : Nat) : State :=
  let (c, s) := pickFree s (servableAt s port)
  match c with
  | some (o, x) => serve s o x
  | none => s

/-- UCIE_PACKET_RECEIVE: a packet of another incarnation than the recorded one has no effect (R417). -/
def execUciePacketReceive (sender inc : Nat) (pk : UciePayload) (s : State) : Host.Outcome State Fault Refusal :=
  if recordedInc s sender != inc then event s
  else match pk with
    | .request port => event (if port = sender then takeRequest s port else s)
    | .reply id => execLoadResultArrival id s
    | .other => event s

/-! ## Event queues (R424 to R427) -/

def gondolaAt (s : State) (g : Nat) : Gondola := (s.gondolas[g]?).getD {}

def modGondola (s : State) (g : Nat) (f : Gondola → Gondola) : State :=
  if h : g < 2 then { s with gondolas := s.gondolas.set g (f s.gondolas[g]) } else s

def evqLog2 (g : Gondola) : Nat := (g.evqctl.extractLsb' 0 5).toNat

/-- The Gondola that takes a source's records. -/
def gondolaOf (src : Nat) : Nat := if src < 4 || src = 8 || src = 9 then 0 else 1

/-- Room in the host's queue; a disabled queue counts as full. -/
def evqRoom (g : Gondola) : Bool := g.evqctl.getLsbD 31 && decide ((g.evqwidx - g.evqridx).toNat < 2 ^ evqLog2 g)

/-- The record's 32 bytes with PHASE. -/
def recordBytes (e : Event) (phase : Bool) : List Byte :=
  leBytes 8 (e.code + e.src % 256 * 2 ^ 8 + e.src / 256 * 2 ^ 16 + e.ctx * 2 ^ 24 + (if phase then 2 ^ 32 else 0)) ++
  leBytes 8 e.detail.toNat ++ leBytes 8 e.detail2.toNat ++ leBytes 8 e.time

/-- Key of an address in host memory, given with its owner. -/
def hostAddrKey (a : DWord) : Nat := hostKey (ownerOf a - 1) (a.toNat % 2 ^ 56)

/-- EVQCTL's VECTOR is raised once more (R427); an endpoint has 64 (R429). -/
def raised (g : Gondola) : Table Nat :=
  let v := (g.evqctl.extractLsb' 8 8).toNat
  if v < 64 then tset g.msix v ((tget g.msix v).getD 0 + 1) else g.msix

/-- A record goes into the host's ring, and the vector is raised. -/
def writeEvent (s : State) (g : Nat) (e : Event) : State :=
  let q := gondolaAt s g
  let i := q.evqwidx.toNat
  let a := hostAddrKey q.evqbase + i % 2 ^ evqLog2 q * 32
  let s := s.writeBytes a (recordBytes e (!(q.evqwidx.getLsbD (evqLog2 q))))
  modGondola s g fun x => { x with evqwidx := x.evqwidx + 1, msix := raised x }

def overflowEvent (s : State) (src : Nat) (o : Outbox) : Event :=
  { code := 13, src := src + 256 * sourceInc s src, ctx := 0xFF, time := s.lodge, detail := BitVec.ofNat 64 o.lost,
    detail2 := BitVec.ofNat 64 (o.firstCode + 256 * o.lastCode) }

/-- One OVERFLOW record for each source with lost records, in increasing source number, while there is room. -/
def writeOverflows (s : State) (g : Nat) : State :=
  (List.range 11).foldl (fun (s : State) src =>
    let o := (tget s.outbox src).getD {}
    if gondolaOf src = g && o.lost != 0 && evqRoom (gondolaAt s g) then
      { writeEvent s g (overflowEvent s src o) with
        outbox := tset s.outbox src { o with lost := 0, firstCode := 0, lastCode := 0 } }
    else s) s

/-- OVERFLOW (R426). -/
def execOverflow (g : Nat) (s : State) : Host.Outcome State Fault Refusal := event (writeOverflows s g)

/-- A Gondola accepts a record of a source: into the host's queue if there is room, else it is counted as lost (R426). -/
def acceptRecord (s : State) (src : Nat) (e : Event) : State :=
  let g := gondolaOf src
  if evqRoom (gondolaAt s g) then writeEvent s g e
  else
    let o := (tget s.outbox src).getD {}
    { s with outbox := tset s.outbox src { o with
        lost := o.lost + 1, firstCode := if o.lost = 0 then e.code else o.firstCode, lastCode := e.code } }

/-- EVENT_RECORD_ACCEPT: a Gondola takes a source's oldest record, while its link and the die's carry packets. -/
def execEventRecordAccept (src : Nat) (s : State) : Host.Outcome State Fault Refusal :=
  let g := gondolaOf src
  let o := (tget s.outbox src).getD {}
  event (match o.recs with
    | [] => s
    | e :: rest =>
      if (linkAt s (8 + g)).retraining || src < 8 && (linkAt s src).retraining then s
      else
        let s := writeOverflows s g
        let o := (tget s.outbox src).getD {}
        acceptRecord { s with outbox := tset s.outbox src { o with recs := rest } } src e)

/-- A Gondola posts a record of its own to its queue (R426). -/
def postGondola (s : State) (g code : Nat) (arg0 : Nat) : State :=
  let src := 9 + g
  acceptRecord (writeOverflows s g) src
    { code := code, src := src + 256 * sourceInc s src, ctx := 0xFF, time := s.lodge, detail := BitVec.ofNat 64 arg0, detail2 := 0 }

/-- EVQBASE, while ENABLE = 0; a value with reserved low bits or another owner is kept as written (R427). -/
def execEvqbaseWrite (g : Nat) (v : DWord) (s : State) : Host.Outcome State Fault Refusal :=
  event (modGondola s g fun x => if x.evqctl.getLsbD 31 then x else { x with evqbase := v })

/-- EVQCTL, discarded as a whole where a field is out of range or reserved, or LOG2N would change while ENABLE = 1. -/
def execEvqctlWrite (g : Nat) (v : DWord) (s : State) : Host.Outcome State Fault Refusal :=
  let n := (v.extractLsb' 0 5).toNat
  let bad := v &&& 0xFFFFFFFF7FFF00E0#64 != 0 || n < 6 || 16 < n
  event (modGondola s g fun x => if bad || (x.evqctl.getLsbD 31 && n != evqLog2 x) then x else { x with evqctl := v })

def execEvqridxWrite (g : Nat) (v : DWord) (s : State) : Host.Outcome State Fault Refusal :=
  event (modGondola s g fun x => { x with evqridx := v })

/-! ## The host, the pod and the network (R359, R364, R400, R401, R422, R430, R431, R433) -/

def extBytes : ExtReq → Nat
  | .read n => n
  | .write bs => bs.length
  | .atom _ ty _ _ _ => ty.bits / 8

def extWrites : ExtReq → Bool
  | .read _ => false
  | _ => true

/-- An atomic from outside at a key: one step of the line's tag, at home or at the holder; ATOMT at the home, whose line has no holder
afterwards (R226, R431). -/
def externalAtom (s : State) (port : Nat) (way : Way) (key : Nat) (op : AtomOp) (ty : Ty) (tagged : Bool) (b c : DWord) : State :=
  let s := if tagged then isolateNow (comesHome s port way key) key else atHolder s port way key
  (atomAt (dropStale (bumpTag s key) key) op ty key b c).2

/-- An access at a key in package memory that comes in at a port: one step of each line's tag for a write, at home or at the holder. -/
def external (s : State) (port key : Nat) (r : ExtReq) : State :=
  match r with
  | .read n => (List.range ((key % 128 + n + 127) / 128)).foldl (fun s i => comesHome s port .own (key / 128 * 128 + 128 * i)) s
  | .write bs => landAt s port key bs
  | .atom op ty tagged b c => externalAtom s port .own key op ty tagged b c

/-- The host writes its own memory. -/
def hostWrites (s : State) (key : Nat) (r : ExtReq) : State :=
  match r with
  | .read _ => s
  | .write bs => s.writeBytes key bs
  | .atom op ty _ b c => (atomAt s op ty key b c).2

def peerAt (s : State) (p : Nat) : Peer := (tget s.peers p).getD {}

/-- A peer's load of a line in a FROZEN .sys entry marks it in PEERS (R400). -/
def markPeer (s : State) (p ctx a n : Nat) : State :=
  let hit (e : FrtEntry) : Bool := e.state == .frozen && e.sys && e.ctx == ctx &&
    decide (e.base * 4096 < a + n) && decide (a < (e.base + e.len) * 4096)
  { s with frt := s.frt.map fun x =>
      if hit x.2 && !(x.2.peers.contains p) then (x.1, { x.2 with peers := x.2.peers ++ [p] }) else x }

/-- What has become of a request from outside. -/
inductive OuterEnd where
  /-- it waits for the MMP, or for a frozen line -/
  | waits
  /-- it is dropped -/
  | failed
  | served
deriving DecidableEq, Repr

/-- An access through a context's tables from outside, at a Gondola's port. -/
def accessFor (s : State) (agent port ctx : Nat) (a : DWord) (r : ExtReq) : OuterEnd × State :=
  let n := extBytes r
  if extWrites r && agentHeld s port ctx a n then (.waits, s)
  else match agentKeys s port ctx (extWrites r) a n with
    | .error (.missing c p) => (.waits, agentCalls s agent c p)
    | .error (.fails _ _) => (.failed, agentDone s agent)
    | .ok ks =>
      let s := agentDone s agent
      (.served, match r, ks with
        | .read _, _ => readAt s port ctx a n false
        | .write bs, _ => agentLand s port ctx a (ks.zip bs)
        | .atom op ty tagged b c, key :: _ => externalAtom (fillRange s port ctx a n) port (wayOf s port ctx a) key op ty tagged b c
        | _, [] => s)

/-- The port at which a request from outside comes in: its Gondola's. -/
def outerPort (s : State) : Instr → Nat
  | .hostAccess _ g _ _ | .ethernetTransfer g _ _ _ => 8 + g
  | .peerRequest peer _ _ _ => 8 + peerGondola s peer
  | _ => 8

/-- A request from outside, which reaches the Lodge over its Gondola's link (R422): whether it is over, and what it does. -/
def attemptOuter (s : State) (agent : Nat) (i : Instr) : Bool × State :=
  let port := outerPort s i
  if (linkAt s port).retraining then (false, s)
  else match i with
    | .hostAccess _ _ a r => (true, external s port (devKey a) r)
    | .ethernetTransfer _ ctx a r => ((accessFor s agent port ctx a r).1 != .waits, (accessFor s agent port ctx a r).2)
    | .peerRequest peer _ a r =>
      let (e, s) := accessFor s agent port s.boot.podCtx (BitVec.ofNat 64 a) r
      (e != .waits, if e = .served ∧ !(extWrites r) then markPeer s peer s.boot.podCtx a (extBytes r) else s)
    | _ => (true, s)

/-- A request comes in; one that is not over, or that cannot be made now, waits under a name. -/
def takeOuter (s : State) (i : Instr) : State :=
  let (id, s) := s.fresh
  let (over', t) := attemptOuter s (2 ^ 51 + id) i
  if t.blocked then { s with outer := s.outer ++ [(id, i)] }
  else if over' then t else { t with outer := t.outer ++ [(id, i)] }

/-- The waiting request of this name tries again. -/
def retryOuter (s : State) (id : Nat) : State :=
  match s.outer.find? fun x => x.1 == id with
  | some x =>
    let (over', s) := attemptOuter s (2 ^ 51 + id) x.2
    if over' then { s with outer := s.outer.erase x } else s
  | none => s

/-- RETRAINING_WINDOW_END: packets flow again, in their order, and a quiesce that waited for it begins (R422). -/
def execRetrainingWindowEnd (l : Nat) (s : State) : Host.Outcome State Fault Refusal :=
  let s := modLink s l fun x => { x with retraining := false }
  event (
    if l < 8 then (if (dieAt s l).resetPending then quiesce s l (dieAt s l).toAbsent else retryBlocked (deliverReady s))
    else (s.outer.filter fun x => outerPort s x.2 == l).foldl (fun s x => unlessBlocked s (retryOuter · x.1)) s)

/-- HOST_ACCESS: to device memory by physical address, less the areas that the firmware sets aside, once the package is ready (R430, R437);
the endpoint completes no atomics there (R429). Or to the host's own memory. -/
def execHostAccess (space : HostSpace) (g a : Nat) (r : ExtReq) (s : State) : Host.Outcome State Fault Refusal :=
  let atomic := match r with | .atom _ _ _ _ _ => true | _ => false
  event (
    if g < 2 then
      match space with
      | .hbm =>
        if !(ready s) || atomic || hbmBytes < a + extBytes r || meetsSetAside a (extBytes r) then s
        else takeOuter s (.hostAccess space g a r)
      | .host0 => if a + extBytes r ≤ 2 ^ 52 then hostWrites s (hostKey 0 a) r else s
      | .host1 => if a + extBytes r ≤ 2 ^ 52 then hostWrites s (hostKey 1 a) r else s
    else s)

/-- PEER_REQUEST: an incoming request of the recorded incarnation is performed through the pod context. -/
def execPeerRequest (peer inc a : Nat) (r : ExtReq) (s : State) : Host.Outcome State Fault Refusal :=
  let p := peerAt s peer
  event (if !(ready s) || !p.joined || p.inc.toNat != inc || 2 ^ 46 < a + extBytes r then s else takeOuter s (.peerRequest peer inc a r))

/-- ETHERNET_TRANSFER: it reaches package memory as a DMA engine does (R433). -/
def execEthernetTransfer (g ctx : Nat) (a : DWord) (r : ExtReq) (s : State) : Host.Outcome State Fault Refusal :=
  event (if ready s && decide (g < 2) then takeOuter s (.ethernetTransfer g ctx a r) else s)

/-! ## Peers (R400, R432) -/

/-- The access goes to the peer, or has gone there, as far as its port knows. -/
def goesToPeer (s : State) (p : Nat) (o : MemOp) (x : Access) : Bool :=
  x.waiting.isNone && (dieLine s o x).isNone &&
  match targetVia s { leaf := tlbHit s, answers := fun _ => true } o.port o.ctx (placeGlobal s x.addr) with
  | .at key _ _ _ => (peerOfKey key).any fun y => y.1 == p
  | _ => false

/-- The accesses to the peer that are pending fail. -/
def failPeer (s : State) (p : Nat) : State :=
  (s.reqs.flatMap fun o => (o.todo.filter (goesToPeer s p o)).map fun x => (o, x)).foldl
    (fun s y => accessDone s y.1 y.2 (.error mfLimit)) s

/-- Lines of a peer that were kept because they were frozen there go (R400): what the peer holds now is another run's. -/
def dropPeerLines (s : State) (p : Nat) : State :=
  let his (vline : Nat) : Bool := match placeGlobal s (BitVec.ofNat 64 (128 * vline)) with | .peer q _ => q == p | _ => false
  { s with dc := s.dc.filter fun l => !(l.replica && his l.vline), l1 := s.l1.filter fun l => !(l.replica && his l.vline) }

/-- A peer is lost (R432): its accesses fail with LIMIT, its replicas count as given up (R400), those of its lines here go, PEER_LOST is
posted. -/
def losePeer (s : State) (p : Nat) : State :=
  let s := postGondola (failPeer (dropPeerLines s p) p) (peerGondola s p) 11 p
  completeOps { s with
    peers := tset s.peers p { peerAt s p with joined := false, lost := true, since := none }
    frt := s.frt.map fun x => (x.1, { x.2 with peers := x.2.peers.filter (· != p) })
    frzOps := s.frzOps.map fun o => { o with stage := o.stage.without none (some p) } }

/-- PEER_LOST: the peer's routes report link down. -/
def execPeerLost (p : Nat) (s : State) : Host.Outcome State Fault Refusal :=
  event (if s.boot.podSize ≤ p || p = s.boot.peerNum then s else losePeer s p)

/-- A request to the peer has gone unanswered for the peer timeout (R432, R436). -/
def peerLate (s : State) (p : Nat) : Bool :=
  let late (t : Nat) : Bool := decide (t + s.boot.peerTmo * lodgePerUs ≤ s.lodge)
  (peerAt s p).since.any late || s.reqs.any fun o => o.todo.any fun x => x.sent.any late && goesToPeer s p o x

/-- PEER_TIMEOUT. -/
def execPeerTimeout (p : Nat) (s : State) : Host.Outcome State Fault Refusal :=
  event (if peerLate s p then losePeer s p else s)

/-- ARG0 of PEER_JOINED: the package incarnation in [15:8], and around it the peer number, whose two upper bits stand in [17:16]
(notes/assumptions/53.md). -/
def joinedArg (p inc : Nat) : Nat := p % 256 + 256 * (inc % 256) + 65536 * (p / 256)

/-- PEER_JOINED: the peer's incarnation is recorded, and PEER_JOINED posted. A package that is not READY does neither (R437). -/
def execPeerJoined (p inc : Nat) (s : State) : Host.Outcome State Fault Refusal :=
  event (
    if !(ready s) || s.boot.podSize ≤ p || p = s.boot.peerNum then s
    else
      let s := postGondola (dropPeerLines s p) (peerGondola s p) 12 (joinedArg p inc)
      { s with peers := tset s.peers p { joined := true, inc := BitVec.ofNat 8 inc, since := none, lost := false } })

end Sys2Proof.Machine
end

