-- ==== Sys2Proof/Machine/Boot.lean ====
section
/-! DEFINITION. Boot.lean: power-up, the images, the mailbox, power and heat, errors (R434 to R445). -/

namespace Sys2Proof.Machine

/-! ## Power -/

/-- Memory outside the package: host and peer memory keep their bytes when the package loses power. -/
def outsideKey (k : Nat) : Bool := (2 ^ 64 ≤ k && k < 3 * 2 ^ 64) || 0x40 * 2 ^ 64 ≤ k

/-- The package keeps nothing across a power-down; the model's own fields go on. -/
def cold (s : State) : State :=
  { State.reset with
    mem := s.mem.filter fun c => outsideKey c.1
    agenda := s.agenda, patience := s.patience, round := s.round, turn := s.turn, curGroup := s.curGroup, curLane := s.curLane, issued := s.issued,
    free := s.free, nextId := s.nextId }

/-- POWER_DOWN. -/
def execPowerDown (s : State) : Host.Outcome State Fault Refusal := event (cold s)

/-- What the boot ROM writes into the mailbox from step 1 on (R440). -/
def romMailbox (b : Boot) : Boot :=
  { b with mbVersion := 1, mbRomRev := Config.romRevision, mbKeyId := Config.romKeyId }

/-- LOG takes the text of a step that goes on or fails: which text is open (R440). -/
def logProgress (s : State) : State :=
  { s with boot := { s.boot with mbLog := Config.progressText s.free }, free := s.free + 1 }

/-- A step of R434 fails. -/
def failBoot (s : State) (step code : Nat) : State :=
  { s with boot := { s.boot with state := .failed, step := step, code := code, loading := none } }

/-- POWER_ON_RESET: steps 1 and 2. -/
def execPowerOnReset (sramOk linkOk : Bool) (s : State) : Host.Outcome State Fault Refusal :=
  let s := cold s
  let s := logProgress { s with boot := romMailbox s.boot }
  event (
    if !sramOk then failBoot s 1 1
    else
      let s := { s with boot := { s.boot with mbLinkOk := 0x100 } }
      if !linkOk then failBoot s 2 2
      else { s with boot := { s.boot with mbLinkOk := 0x300, state := .safe } })

/-! ## The images (R435, R436) -/

/-- An image as its bytes lay it out. -/
structure Image where
  bytes : List Byte
  magic : Nat
  version : Nat
  len : Nat
  partRev : Nat
  mcrev : Nat
  reservedZero : Bool
deriving DecidableEq, Repr

def imageOf (bs : List Byte) : Image where
  bytes := bs
  magic := fieldAt bs 0 4
  version := fieldAt bs 4 4
  len := fieldAt bs 8 8
  partRev := fieldAt bs 0x10 4
  mcrev := fieldAt bs 0x18 8
  reservedZero := fieldAt bs 0x14 4 == 0 && fieldAt bs 0x20 32 == 0

def Image.payload (i : Image) : List Byte := (i.bytes.drop 0x40).take i.len

/-- The FORMAT check: the header, and the length that FWLEN or CFGLEN gave, with its limit. -/
def Image.formatOk (i : Image) (magic limit given : Nat) : Bool :=
  i.magic == magic && i.version == 1 && i.reservedZero && i.len % 8 == 0 &&
  (i.partRev == 0 || i.partRev == Config.partRevision.toNat) && given == 0x40 + i.len + 1280 && given ≤ limit

/-- The SIG check, over bytes 0 to 0x3F + LEN. -/
def Image.sigOk (i : Image) : Bool := Config.signatureVerifies (i.bytes.take (0x40 + i.len)) (i.bytes.drop (0x40 + i.len))

/-- The blob's fields (R436). -/
structure Blob where
  ctxTable : Nat
  absent : Nat
  policy : Nat
  podSize : Nat
  peerNum : Nat
  pkgInc : Nat
  podCtx : Nat
  peerTmo : Nat
  powerCap : Nat
  routeOff : Nat
deriving DecidableEq, Repr

def blobOf (p : List Byte) : Blob where
  ctxTable := fieldAt p 0 8
  absent := fieldAt p 8 1
  policy := fieldAt p 9 1
  podSize := fieldAt p 0xA 2
  peerNum := fieldAt p 0xC 2
  pkgInc := fieldAt p 0xE 1
  podCtx := fieldAt p 0xF 1
  peerTmo := fieldAt p 0x10 4
  powerCap := fieldAt p 0x14 4
  routeOff := fieldAt p 0x18 8

/-- The table of R436: reserved bytes stand from 0x20 up to the route table. -/
def Blob.ok (b : Blob) (p : List Byte) : Bool :=
  b.ctxTable % 16384 == 0 && b.ctxTable < 2 ^ 56 && b.policy ≤ 1 && 1 ≤ b.podSize && b.podSize ≤ 1024 &&
  b.peerNum < b.podSize && (b.powerCap == 0 || (1000 ≤ b.powerCap && b.powerCap ≤ 3400)) &&
  0x2C ≤ b.routeOff && b.routeOff + 8 * b.podSize ≤ p.length && fieldAt p 0x20 (b.routeOff - 0x20) == 0

/-- Step 3: the firmware and the blob with the ROM's checks in order; a failure is its code. -/
def checkImages (s : State) (fetchOk : Bool) : Except Nat (Image × Image) :=
  let b := s.boot
  let there (a : DWord) : Bool := ownerOf a == 1 && a.toNat % 8 == 0
  if !fetchOk || !(there b.fwaddr) || !(there b.cfgaddr) then .error 3
  else if 2 ^ 25 < b.fwlen.toNat then .error 4
  else
    let fw := imageOf (s.readBytes (hostAddrKey b.fwaddr) b.fwlen.toNat)
    if !(fw.formatOk 0x0146574B (2 ^ 25) b.fwlen.toNat) then .error 4
    else if !fw.sigOk then .error 5
    else if 2 ^ 16 < b.cfglen.toNat then .error 6
    else
      let cfg := imageOf (s.readBytes (hostAddrKey b.cfgaddr) b.cfglen.toNat)
      if !(cfg.formatOk 0x0143574B (2 ^ 16) b.cfglen.toNat) || cfg.mcrev != 0 || !((blobOf cfg.payload).ok cfg.payload) then .error 6
      else if !cfg.sigOk then .error 7
      else .ok (fw, cfg)

/-! ## LOAD (R434, R437, R438) -/

/-- The blob's settings, the cleared tags and the cleared frozen-region table. -/
def applyBlob (s : State) (mcrev : Nat) (payload : List Byte) : State :=
  let b := blobOf payload
  { s with
    tags := [], frt := [], frtCopy := []
    boot := { s.boot with
      mcrev := BitVec.ofNat 64 mcrev
      ctxTable := BitVec.ofNat 64 b.ctxTable
      absentMask := BitVec.ofNat 8 b.absent
      policy := BitVec.ofNat 32 b.policy
      podSize := b.podSize
      peerNum := b.peerNum
      pkgInc := BitVec.ofNat 8 b.pkgInc
      podCtx := b.podCtx
      peerTmo := if b.peerTmo = 0 then 10000 else b.peerTmo
      powerCap := if b.powerCap = 0 then 3400 else b.powerCap
      routes := (List.range b.podSize).map fun i => BitVec.ofNat 64 (fieldAt payload (b.routeOff + 8 * i) 8) } }

/-- Step 5 of one die that the blob does not name absent, or its absence. -/
def releaseDie (pass : BitVec 8) (s : State) (d : Nat) : State :=
  if s.boot.absentMask.getLsbD d then postLodge (s.setDie d fun _ => { state := .absent }) 10 d 1
  else if pass.getLsbD d then s.setDie d fun _ => { state := .run }
  else postLodge (s.setDie d fun _ => { state := .absent }) 10 d 2

/-- Steps 5 and 6. -/
def releaseDies (s : State) (pass : BitVec 8) (linkOk : BitVec 8) : State :=
  let tried := ~~~s.boot.absentMask
  let good := tried &&& pass
  let s := { s with boot := { s.boot with
    mbDieOk := good, mbLinkOk := (s.boot.mbLinkOk &&& 0x300) ||| (tried &&& linkOk).setWidth 16 } }
  if tried &&& ~~~pass != 0 && (s.boot.policy.getLsbD 0 || good == 0) then failBoot (forgetHbm s) 5 9
  else
    let s := (List.range 8).foldl (releaseDie pass) s
    { s with boot := { s.boot with state := .ready, step := 0, code := 0, loading := none } }

/-- Whether a LOAD starts step 3 (R437, R439). -/
def loadTaken (s : State) (v : DWord) : Bool :=
  v == 1 && (s.boot.state == .safe || (s.boot.state == .failed && 3 ≤ s.boot.step))

/-- The context table lies in HBM that the firmware has not set aside: step 4's own CFGFORMAT (DEDUCED, notes/assumptions/47.md). -/
def tableOk (payload : List Byte) : Bool :=
  let a := (blobOf payload).ctxTable
  decide (a + 16384 ≤ hbmBytes) && !(meetsSetAside a 16384)

/-- The bring-up goes on with its next step. -/
def atStep (s : State) (l : LoadRun) (n : Nat) : State := { s with boot := { s.boot with loading := some { l with step := n } } }

/-- Step 3: Gondola 0 reads both images, and the ROM checks them. -/
def loadImages (s : State) (l : LoadRun) : State :=
  let r := checkImages s l.fetchOk
  let s := logProgress s
  match r with
  | .error code => failBoot (forgetHbm s) 3 code
  | .ok (fw, cfg) =>
    atStep { s with boot := { s.boot with mbFwMeas := shake64 fw.bytes, mbCfgMeas := shake64 cfg.bytes } }
      { l with mcrev := fw.mcrev, blob := cfg.payload } 4

/-- Step 4: the HBM stacks train, and the firmware takes the blob's settings. -/
def trainHbm (s : State) (l : LoadRun) : State :=
  let s := { s with boot := { s.boot with mbHbmOk := l.hbmStacks } }
  if !l.hbmOk || l.hbmStacks != 0xFF then failBoot (forgetHbm s) 4 8
  else if !(tableOk l.blob) then failBoot (forgetHbm s) 4 6
  else atStep (applyBlob s l.mcrev l.blob) l 5

/-- The next step of a bring-up that is under way. -/
def bringUp (s : State) : State :=
  match s.boot.loading with
  | none => s
  | some l =>
    if l.step = 3 then loadImages s l else if l.step = 4 then trainHbm s l else releaseDies s (l.dieOk &&& l.linkOk) l.linkOk

/-- LOAD: steps 3 to 6 begin, and BOOTSTAT reads LOADING. The outside decides whether the images can be read, which HBM stacks train, and
which dies pass their self-test and their link. -/
def execLoad (v : DWord) (fetchOk hbmOk : Bool) (hbmStacks dieOk linkOk : BitVec 8) (s : State) : Host.Outcome State Fault Refusal :=
  event (
    if !(loadTaken s v) then s
    else
      let l : LoadRun := { step := 3, fetchOk := fetchOk, hbmOk := hbmOk, hbmStacks := hbmStacks, dieOk := dieOk, linkOk := linkOk }
      { s with boot := { s.boot with state := .loading, cmd := 1, step := 0, code := 0, loading := some l } })

/-! ## Power, clocks and heat (R441) -/

def overLimits (s : State) (power temp : Nat) : Bool := s.boot.powerCap < power || 95 < temp

/-- The last 1 ms' power and hottest sensor, as 0x300 shows them. -/
def readings (s : State) (power temp : Nat) : State :=
  { s with boot := { s.boot with power := min power 65535, tmax := min temp 255 } }

/-- A sensor that reads 110 trips the package. -/
def trip (s : State) : State := enterSafe s 10

/-- THROTTLE: a limit was passed over 1 ms, and the arithmetic clock goes one step down. -/
def execThrottle (power temp : Nat) (s : State) : Host.Outcome State Fault Refusal :=
  let s := readings s power temp
  event (if 110 ≤ temp then trip s
    else if overLimits s power temp && ready s then
      { s with boot := { s.boot with throttle := true, cstep := if s.boot.cstep = 3 then 3 else s.boot.cstep + 1 } }
    else s)

/-- CLOCK_RAISE: after 10 ms within both limits the clock goes one step up. -/
def execClockRaise (power temp : Nat) (s : State) : Host.Outcome State Fault Refusal :=
  let s := readings s power temp
  event (if 110 ≤ temp then trip s
    else if overLimits s power temp || s.boot.cstep = 0 then s
    else { s with boot := { s.boot with throttle := s.boot.cstep != 1, cstep := s.boot.cstep - 1 } })

/-- THERMAL_TRIP: a sensor reads 110. -/
def execThermalTrip (temp : Nat) (s : State) : Host.Outcome State Fault Refusal :=
  let s := { s with boot := { s.boot with tmax := min temp 255 } }
  event (if 110 ≤ temp then trip s else s)

/-! ## Errors (R442 to R444) -/

def countSram (s : State) (ce ue : Nat) : State := { s with boot := { s.boot with errSram := countErrors s.boot.errSram ce ue } }

def countHbm (s : State) (ce ue : Nat) : State := { s with boot := { s.boot with errHbm := countErrors s.boot.errHbm ce ue } }

/-- SRAM_CORRECTED_ERROR: corrected in flight and counted. -/
def execSramCorrectedError (_key : Nat) (s : State) : Host.Outcome State Fault Refusal := event (countSram s 1 0)

/-- An aligned word is poisoned. No L1 keeps its line, so that the next read of it meets the poison. -/
def poisonWord (s : State) (w : Nat) : State :=
  let s := { s with l1 := s.l1.filter fun l => l.vline % 512 != lineOf (4 * w) % 512 }
  if s.poison.contains w then s else { s with poison := s.poison ++ [w] }

/-- A die cache holds a line of host memory or of a peer, by the line's key (R367). -/
def cachedOutside (s : State) (key : Nat) : Bool := s.dc.any fun l => l.key == key / 128 * 128

/-- The group slot and the register whose image lies at an address of the spill areas (R331). -/
def imageAt (a : Nat) : Option (Nat × Nat) :=
  let off := a - spillArea
  if spillArea ≤ a ∧ off / 33824 < 16384 ∧ off % 33824 < 32768 then some (off / 33824, off % 33824 / 256) else none

/-- The spilled register whose image is struck is poisoned (R330). -/
def poisonImage (s : State) (k r : Nat) : State :=
  s.modGroup k fun g => { g with regs := tmod g.regs r fun x => { x with poison := x.poison || x.away } }

/-- UNCORRECTABLE_ERROR: by where it lies. -/
def execUncorrectableError (w : UeWhere) (s : State) : Host.Outcome State Fault Refusal :=
  event (match w with
    | .word key => if outsideKey key && !(cachedOutside s key) then s else poisonWord (countSram s 0 1) (key / 4)
    | .register k r => (countSram s 0 1).modGroup k fun g =>
        { g with regs := tmod g.regs r fun x => { x with poison := x.poison || !x.away }
                 hregs := tmod g.hregs (r - 256) fun x => { x with poison := true } }
    | .tile key =>
      let s := countSram s 0 1
      if s.tilePoison.contains (key / 4) then s else { s with tilePoison := s.tilePoison ++ [key / 4] }
    | .icache core line => { countSram s 0 1 with ilines := s.ilines.filter fun l => l != (core, line) }
    | .hbmLine line => if outsideKey (line * 128) then s
        else (List.range 32).foldl (fun s i =>
          let s := poisonWord s (line * 32 + i)
          match imageAt (line * 128 + 4 * i) with
          | some (k, r) => poisonImage s k r
          | none => s) (countHbm s 0 1)
    | .spill k r => poisonImage (countHbm s 0 1) k r
    | .dieControl d =>
      let s := countSram s 0 1
      if (dieAt s d).state == .run then quiesce s d false else s
    | .lodgeControl => enterSafe (countSram s 0 1) 11)

/-- HBM_SCRUB: no value and no tag changes. Whether the stack corrects an error of the line meanwhile, which ERRHBM counts, is free (R439,
R444). -/
def execHbmScrub (_line : Nat) (s : State) : Host.Outcome State Fault Refusal :=
  let (w, s) := s.draw
  event (if w.getLsbD 0 then countHbm s 1 0 else s)

/-- ERROR_REGISTER_WRITE: any write clears both fields (R439). -/
def execErrorRegisterWrite (off : Nat) (_v : DWord) (s : State) : Host.Outcome State Fault Refusal :=
  event (match off with
    | 0x400 => { s with boot := { s.boot with errSram := 0 } }
    | 0x408 => { s with boot := { s.boot with errHbm := 0 } }
    | 0x410 => { s with boot := { s.boot with errLink := 0 } }
    | _ => s)

/-- REGISTER_WRITE: the image registers of Gondola 0; Gondola 1 discards writes there (R439). -/
def execRegisterWrite (gondola off : Nat) (v : DWord) (s : State) : Host.Outcome State Fault Refusal :=
  event (if gondola != 0 then s else match off with
    | 0x210 => { s with boot := { s.boot with fwaddr := v } }
    | 0x218 => { s with boot := { s.boot with fwlen := v } }
    | 0x220 => { s with boot := { s.boot with cfgaddr := v } }
    | 0x228 => { s with boot := { s.boot with cfglen := v } }
    | _ => s)

/-! ## What the host reads (R23, R423, R427, R439, R440) -/

def dieStateCode : DieState → Nat
  | .run => 0 | .resetting => 1 | .readmitting => 2 | .absent => 3 | .held => 4

def bootStateCode : BootState → Nat
  | .safe => 0 | .loading => 1 | .failed => 2 | .ready => 3 | .booting => 4

/-- The bytes of the diagnostic mailbox. -/
def mailbox (b : Boot) : List Byte :=
  let head := leBytes 8 b.mbVersion.toNat ++ leBytes 1 b.mbDieOk.toNat ++ leBytes 1 b.mbHbmOk.toNat ++ leBytes 2 b.mbLinkOk.toNat ++
    leBytes 4 b.mbRomRev.toNat ++ leBytes 8 b.mbKeyId.toNat ++ leBytes 8 b.mbFwMeas.toNat ++ leBytes 8 b.mbCfgMeas.toNat
  head ++ (b.mbLog ++ List.replicate 4056 0).take 4056

/-- The registers of both Gondolas: the event queue's. -/
def evqRead (q : Gondola) (off : Nat) : DWord :=
  match off with
  | 0x000 => q.evqbase
  | 0x008 => q.evqctl
  | 0x010 => q.evqridx
  | 0x018 => q.evqwidx
  | _ => 0

/-- BOOTSTAT and the register of power and clocks. -/
def bootStat (b : Boot) : DWord := BitVec.ofNat 64 (b.step % 256 * 2 ^ 16 + b.code % 256 * 2 ^ 8 + bootStateCode b.state)

def powerStat (b : Boot) : DWord :=
  BitVec.ofNat 64 (b.power % 2 ^ 16 * 2 ^ 48 + b.tmax % 256 * 2 ^ 40 + (if b.throttle then 4 else 0) + b.cstep.toNat)

/-- What a read of eight bytes of a Gondola's BAR 0 gives. Gondola 1 reads zero beyond its event queue. -/
def barRead (s : State) (g off : Nat) : DWord :=
  let b := s.boot
  if off < 0x20 then evqRead (gondolaAt s g) off
  else if g != 0 then 0
  else if 0x140 ≤ off ∧ off < 0x180 then
    let d := dieAt s ((off - 0x140) / 8)
    BitVec.ofNat 64 (d.inc.toNat * 256 + dieStateCode d.state)
  else if 0x1000 ≤ off ∧ off < 0x2000 then BitVec.ofNat 64 (fieldAt (mailbox b) (off - 0x1000) 8)
  else match off with
    | 0x100 => s.diectl.setWidth 64
    | 0x180 => s.cpcmd
    | 0x200 => b.cmd
    | 0x208 => bootStat b
    | 0x210 => b.fwaddr
    | 0x218 => b.fwlen
    | 0x220 => b.cfgaddr
    | 0x228 => b.cfglen
    | 0x300 => powerStat b
    | 0x400 => b.errSram
    | 0x408 => b.errHbm
    | 0x410 => b.errLink
    | _ => 0

/-- What a host's read of device memory returns: the bytes at the line's home or holder (R373, R430); none where it is not exposed. -/
def hostRead (s : State) (a n : Nat) : Option (List Byte) :=
  if ready s && decide (a + n ≤ hbmBytes) && !(meetsSetAside a n) then some (s.readBytes (devKey a) n) else none

end Sys2Proof.Machine
end

