-- ==== Sys2Proof/Machine/Lanes.lean ====
section
/-! DEFINITION. Lanes.lean: OPC 0x38 to 0x3C: exchange, polls, reductions, scans and broadcasts across the lanes of a
group (R177 to R184). -/

namespace Sys2Proof.Machine

/-! ## LXCH and BCAST (R179, R180) -/

/-- The source lane of LXCH, none where .edge takes the fill. -/
def lxchLane (mode : LxMode) (l : Nat) (d : Word) : Option Nat :=
  match mode with
  | .pick => some (d.toNat % 64)
  | .rot => some ((l + d.toNat) % 64)
  | .flip => some (l ^^^ (d.toNat % 64))
  | .edge =>
    let e : Int := l + d.toInt
    if e < 0 ∨ 63 < e then none else some e.toNat

def execLxch (mode : LxMode) (o : Op) (s : State) : Host.Outcome State Fault Refusal :=
  native (.lxch mode o) s fun o v s =>
    let nom := if mode != .edge && srcUniform v.g o.ty o.a then Nominal.uniform else .general
    .done (writeVal s v o.ty nom o.dst fun l =>
      match lxchLane mode l (srcB32 v.g o.imm o.b l) with
      | some src => srcAt v.g o.ty o.imm o.a src
      | none => srcAt v.g o.ty o.imm o.c l)

def execBcast (o : Op) (s : State) : Host.Outcome State Fault Refusal :=
  native (.bcast o) s fun o v s =>
    let f := (lowestLane v.act).getD 0
    let src := (srcB32 v.g o.imm o.b f).toNat % 64
    .done (writeVal s v o.ty .uniform o.dst fun _ => srcAt v.g o.ty o.imm o.a src)

/-! ## POLL (R181) -/

/-- The active lanes in which A reads 1. -/
def pollOnes (v : View) (o : Op) : Mask := v.act &&& maskOf fun l => srcPred v.g o.a l

def execPoll (mode : PollMode) (o : Op) (s : State) : Host.Outcome State Fault Refusal :=
  native (.poll mode o) s fun o v s =>
    let ones := pollOnes v o
    match mode with
    | .mask => .done (writeVal s v .b64 .uniform o.dst fun _ => ones)
    | .first => .done (writeVal s v .b32 .uniform o.dst fun _ => BitVec.ofNat 64 ((lowestLane ones).getD 64))
    | m => .done (writePred s v o.dst fun _ => pollBool m v.act ones)

/-! ## RED and SCAN (R182 to R184) -/

/-- One operation on two values of the type (R182). -/
def redOp (op : RedOp) (t : Ty) (a b : DWord) : DWord :=
  let w := t.bits; let sg := t.signed
  match op with
  | .add => BitVec.ofNat 64 ((a.toNat + b.toNat) % 2 ^ w)
  | .min => if readInt sg w a.toNat ≤ readInt sg w b.toNat then a else b
  | .max => if readInt sg w b.toNat ≤ readInt sg w a.toNat then a else b
  | .and => a &&& b
  | .or => a ||| b
  | .xor => a ^^^ b
  | .fadd => BitVec.ofNat 64 (fadd .f32 a.toNat b.toNat)
  | .fmin => BitVec.ofNat 64 (fminmax false false .f32 a.toNat b.toNat)
  | .fmax => BitVec.ofNat 64 (fminmax true false .f32 a.toNat b.toNat)

/-- The identity of an operation at a type (R182). -/
def redIdentity (op : RedOp) (t : Ty) : DWord :=
  let w := t.bits
  match op with
  | .add | .or | .xor => 0
  | .min => BitVec.ofNat 64 (wrap w (hiOf t.signed w))
  | .max => BitVec.ofNat 64 (wrap w (loOf t.signed w))
  | .and => BitVec.ofNat 64 (2 ^ w - 1)
  | .fadd => 0x80000000
  | .fmin => 0x7F800000
  | .fmax => 0xFF800000

/-- One level of the tree: neighbours combine, the left operand from the lower lane (R183). -/
def redLevel (f : DWord → DWord → DWord) : List DWord → List DWord
  | a :: b :: xs => f a b :: redLevel f xs
  | xs => xs

/-- The six levels over 64 values (R183). -/
def redTree (f : DWord → DWord → DWord) (xs : List DWord) : DWord :=
  let up := redLevel f
  ((up (up (up (up (up (up xs)))))).head?).getD 0

/-- Source A of every lane, the identity where the lane is not active. -/
def redInputs (op : RedOp) (o : Op) (v : View) : List DWord :=
  (List.range 64).map fun l => if v.act.getLsbD l then srcAt v.g o.ty o.imm o.a l else redIdentity op o.ty

def execRed (op : RedOp) (o : Op) (s : State) : Host.Outcome State Fault Refusal :=
  native (.red op o) s fun o v s =>
    let x := redTree (redOp op o.ty) (redInputs op o v)
    .done (writeVal s v o.ty .uniform o.dst fun _ => x)

/-- The results of the fold, lane 0 first: what stands before each lane's value, or after it (R184). -/
def scanFold (f : DWord → DWord → DWord) (excl : Bool) : DWord → List DWord → List DWord
  | _, [] => []
  | acc, x :: xs => (if excl then acc else f acc x) :: scanFold f excl (f acc x) xs

def execScan (op : RedOp) (excl : Bool) (o : Op) (s : State) : Host.Outcome State Fault Refusal :=
  native (.scan op excl o) s fun o v s =>
    let ys := scanFold (redOp op o.ty) excl (redIdentity op o.ty) (redInputs op o v)
    .done (writeVal s v o.ty .general o.dst fun l => (ys[l]?).getD 0)

end Sys2Proof.Machine
end

