-- ==== Sys2Proof/Machine/Mmp.lean ====
section
/-! DEFINITION. Mmp.lean: what the memory-management cores do: repair of an invalid page or the decision that it has none, PTFENCE,
migration, access counters (R360, R364 to R368). What firmware decides comes as the event's arguments. -/

namespace Sys2Proof.Machine

/-! ## PTFENCE (R365) -/

/-- A TLB entry of the context that meets the range. -/
def TlbEntry.meets (e : TlbEntry) (ctx base len : Nat) : Bool := e.ctx == ctx && e.base < base + len && base < e.base + e.size

/-- The key lies in a frame that a removed entry named. -/
def inFrames (es : List TlbEntry) (key : Nat) : Bool := es.any fun e => e.frame ≤ key && key < e.frame + e.size

/-- A copy's bytes that stand to land, or a forwarded write, went through the context's tables: its own, or, under a name of this package as
a peer, the pod context's (R362, R431). -/
def copyThrough (s : State) (ctx : Nat) (c : Copy) : Bool :=
  !c.cells.isEmpty && (c.ctx == ctx || ctx == s.boot.podCtx && c.ways.any fun w => w.2 == .pod)

def fwdThrough (s : State) (ctx : Nat) (f : Forwarded) : Bool := f.ctx == ctx || ctx == s.boot.podCtx && f.pod

/-- Accesses that were translated through a removed entry and wait at the home; a write whose holder cannot perform it yet; bytes of a copy
that cannot reach the Lodge (R422), that a frozen line holds (R401), or that are more than one event lands. -/
def fenceBlocked (s : State) (ctx : Nat) (es : List TlbEntry) : Bool :=
  let copies := s.copies.filter (copyThrough s ctx)
  (s.reqs.any fun o => o.todo.any fun x => x.queued.isSome && match resolved s o x with
    | some (.at key _ _ _) => inFrames es key
    | _ => false) ||
  (s.fwd.any fun f => fwdThrough s ctx f && (undrained s f.die || !linkOpen s f.die)) ||
  (copies.any fun c => !linkOpen s (dieOf c.grp) || copyHeld s c) || decide (32768 < (copies.map (·.cells.length)).sum)

/-- The bytes of a copy that stand to land have been translated: they land. -/
def landPlanned (s : State) (id : Nat) : State :=
  match findCopy s id with
  | none => s
  | some (c, b) => if c.cells.isEmpty then s else deliver (setCopy s { c with cells := [] }) { c with cells := [] } b c.cells

/-- PTFENCE over a range of a context's offsets; none: an access that it waits for cannot be performed yet. Which entry a copy or a
forwarded write went through is not kept: those of the context are performed, whatever the range. -/
def ptfence (s : State) (ctx base len : Nat) : Option State :=
  let es := s.tlb.filter (·.meets ctx base len)
  if fenceBlocked s ctx es then none
  else
    let s := { s with tlb := s.tlb.filter fun e => !(e.meets ctx base len) }
    let s := (s.fwd.filter (fwdThrough s ctx)).foldl landForwarded s
    some (((s.copies.filter (copyThrough s ctx)).map (·.id)).foldl landPlanned s)

/-- PTFENCE: one that has to wait is tried again after the other inputs. -/
def execPtfence (ctx base len : Nat) (s : State) : Host.Outcome State Fault Refusal :=
  event ((ptfence s ctx base len).getD { s with agenda := s.agenda ++ [.ptfence ctx base len] })

/-! ## Who waits for a page (R346, R364) -/

/-- The accesses that wait on a page stand to be replayed, as those of the leaf whose first page is lo. -/
def wakePage (s : State) (ctx page lo : Nat) : State :=
  let wake (x : Access) : Access := if x.waiting = some (ctx, page) then { x with waiting := none, replay := some (ctx, lo) } else x
  { s with reqs := s.reqs.map fun o => { o with todo := o.todo.map wake } }

/-- They fail (R364). -/
def failWaiting (s : State) (ctx page : Nat) : State :=
  (s.reqs.flatMap fun o => (o.todo.filter fun x => x.waiting == some (ctx, page)).map fun x => (o, x)).foldl
    (fun s y => accessDone s y.1 y.2 (.error mfInvalid)) s

/-- A split that waits on the page tries its instruction again, told of the decision if there is no mapping. -/
def tellSplit (ctx page : Nat) (fail : Bool) (p : Split) : Split :=
  if p.page != some (ctx, page) then p
  else
    let p := if p.wait == some (.text ctx page) then { p with wait := none } else p
    if fail then { p with denied := true } else { p with page := none }

def tellGroup (ctx page : Nat) (fail : Bool) (g : Group) : Group :=
  let f := tellSplit ctx page fail
  { g with active := g.active.map f, parked := g.parked.map f, suspActive := g.suspActive.map f, suspParked := g.suspParked.map f }

/-- Splits hear of the decision; blocks saved for the page's text may be bound again, and blocks that wait in place go on once no split
of theirs and of those that stopped with them waits for its text (R346). -/
def wakeText (s : State) (ctx page : Nat) (fail : Bool) : State :=
  let s : State := { s with
    saved := s.saved.map fun e =>
      let x := { e.2 with groups := e.2.groups.map (tellGroup ctx page fail) }
      (e.1, if x.blk.ctx == ctx && x.waitPage == some (ctx, page) then { x with waitPage := none } else x)
    groups := s.groups.map fun e => (e.1, tellGroup ctx page fail e.2) }
  { s with blocks := s.blocks.map fun e =>
      if e.2.phase == .waitingInPlace && (companions s e.1 e.2).all (fun k => (textPage s k).isNone) then (e.1, { e.2 with phase := .running })
      else e }

def afterwards (s : State) : Host.Outcome State Fault Refusal → State
  | .next t => t
  | _ => s

/-- An agent that waits on the page, because running it calls the MMP for the page, runs with the decision that there is none. -/
def denyRun (ctx page : Nat) (s : State) (f : State → Host.Outcome State Fault Refusal) : State :=
  let t := afterwards s (f s)
  if t.blocked then { s with blocked := true }
  else if t.mmp.contains (ctx, page) && !(s.mmp.contains (ctx, page)) then
    { afterwards s (f { s with denied := [(ctx, page)] }) with denied := [] }
  else s

/-- The agents other than lanes that may wait on a page, each with its name and what it does. -/
def agents (s : State) : List (Nat × (State → Host.Outcome State Fault Refusal)) :=
  (s.copies.map fun (c : Copy) => (c.id, execCopyBytesDelivered c.id 0)) ++
  (s.matq.map fun (o : MatOp) => (o.id, fun s => event (if (readyOps s o.part).contains o then runOp s o else s))) ++
  (s.queues.flatMap fun e => [execLaunchPacket e.1, execBarrierAnd e.1, execCopyPacket e.1, execSignalPacket e.1, execNopPacket e.1,
    execHeaderRecheck e.1, fun s => event (checkOverrun s e.1)].map fun f => (queueAgent e.1 e.2.read, f)) ++
  (s.works.flatMap fun (w : Work) => [(w.id, execPacketComplete w.id), (w.id, execDmaCopy w.id 0)]) ++
  (s.launches.zipIdx.reverse.map fun x => (launchAgent x.1, execLaunchRecord x.2)) ++ (s.grids.map fun e => (e.1, execGridBind e.1)) ++
  (s.tcache.map fun (e : TcEntry) => (e.id, execTranslationComplete e.id 0)) ++
  (s.blocks.map fun e => (e.1, execPreemptionSave e.1)) ++
  (s.binds.map fun e => (((savedAt s e.2).map (·.1)).getD 0, execRestore (e.1 / 64) (e.1 % 64))) ++
  [(cpcmdAgent, fun s => event (resumeCpcmd s))] ++ s.outer.map fun x => (2 ^ 51 + x.1, fun s => event (retryOuter s x.1))

/-- The MMP finds no mapping that it can make: everything that waits on the page fails (R364). -/
def denyPage (s : State) (ctx page : Nat) : State :=
  let s := wakeText (failWaiting s ctx page) ctx page true
  (agents s).foldl (fun s a => denyRun ctx page s a.2) s

/-! ## Repair (R359, R361, R364, R366) -/

/-- The memory key of the entry at which a walk ends, and whether it is a leaf; none: at a table in a package that does not answer (R361,
R362). -/
def lastSlot (s : State) (off : Nat) : Nat → Nat → Nat → Option (Nat × Bool)
  | 0, _, _ => none
  | fuel + 1, level, table =>
    let key := pteKey off level table
    match readPte s level off (s.readMem key 8) with
    | none => some (key, false)
    | some (.inr _) => some (key, true)
    | some (.inl next) => match tableAt s (podWalk s) next with
      | .ok t => lastSlot s off fuel (level + 1) t
      | .error _ => none

def ctxSlot (s : State) (ctx off : Nat) (leaf : Bool) : Option Nat :=
  (lastSlot s off 4 0 (devKey (ctxRoot s ctx))).bind fun x => if x.2 = leaf then some x.1 else none

/-- The entries that the MMP writes, each in place of the first invalid entry of the walk then. -/
def writeEntries (s : State) (ctx off : Nat) (es : List DWord) : State :=
  es.foldl (fun s v => match ctxSlot s ctx off false with
    | some key => landAt s 10 key (leBytes 8 v.toNat)
    | none => s) s

/-- A host page's leaf as the MMP gives it: an entry in the form of R362, and 0, 1 or 2 for its size; none: it gives none. -/
def hostPageLeaf (page : Nat) (es : List DWord) : Option TlbEntry :=
  let g := page / 2 ^ 48 - 1
  let v := ((es[0]?).getD 0).toNat
  let size := match ((es[1]?).getD 0).toNat with | 1 => 2 ^ 21 | 2 => 2 ^ 30 | _ => 2 ^ 16
  let frame := v / 2 ^ 12 % 2 ^ 40 * 2 ^ 12
  if es.isEmpty || v % 2 = 0 || frame % size != 0 then none
  else some { tlb := 12 + g, ctx := 0, base := page % 2 ^ 48 * 2 ^ 16 / size * size, size := size, frame := hostKey g frame,
              remote := true, w := v / 8 % 2 == 1, x := v / 16 % 2 == 1 }

/-- A replayed access comes to its home: its walk first, then its slice, once that serves its port. What its core's order, its link or its line
holds back stands in the queue for its line, or stays to be replayed. -/
def replayAccess (s : State) (id lane part : Nat) : State :=
  match (s.reqs.find? fun o => o.id == id).bind fun o =>
      (o.todo.find? fun x => x.lane == lane && x.part == part && x.replay.isSome).map fun x => (o, x) with
  | none => s
  | some (o, x) =>
    let s := match portTarget s o x with
      | .missing c p => if p < 2 ^ 48 then (walkFill s (if viaPod s o x then podPort s else o.port) c p).2 else s
      | _ => s
    let s := match resolved s o x with
      | some (.at key _ _ _) => untilTurn s o.port key
      | _ => s
    if portOpen s o.port && servable s o x then serve s o x else s

/-- Whatever waits on one of the pages, by its place among the arrivals, with what its replay does. -/
def replays (s : State) (here : Nat × Nat → Bool) : List (Nat × (State → State)) :=
  let runs := agents s
  let agent (name : Nat) (s : State) : State :=
    (runs.filter fun a => a.1 == name).foldl (fun s a => unlessBlocked s fun s => afterwards s (a.2 s)) s
  (s.reqs.flatMap fun o => (o.todo.filter fun x => x.waiting.any here).map fun x => (x.arrived, fun s => replayAccess s o.id x.lane x.part)) ++
  ((s.copies.filter fun c => c.stall.page.any here).map fun c => (c.stall.arrived, agent c.id)) ++
  ((s.matq.filter fun o => o.stall.page.any here).map fun o => (o.stall.arrived, agent o.id)) ++
  ((s.stalls.filter fun e => e.2.page.any here).map fun e => (e.2.arrived, agent e.1))

/-- The named page and all others from lo on, n of them, on which something waits: the replays come in the order in which the accesses
arrived, whoever they are from (R364). A split's own instruction is replayed as it issues again (notes/assumptions/12.md). -/
def wakePages (s : State) (ctx page lo n : Nat) : State :=
  let here (e : Nat × Nat) : Bool := e.1 == ctx && (e.2 == page || decide (lo ≤ e.2 ∧ e.2 < lo + n))
  let all := sortBy (fun (a b : Nat × (State → State)) => decide (a.1 < b.1)) (replays s here)
  let s := (s.mmp.filter here).foldl (fun s e => wakeText (wakePage { s with mmp := s.mmp.erase e } e.1 e.2 lo) e.1 e.2 false) s
  all.foldl (fun s f => unlessBlocked s f.2) s

/-- A repaired page of a context's tables: the entries are written, PTFENCE over the leaf's page, and the replays of all that waits on it.
With nothing written the replays overtake the MMP's write (R366). -/
def repairPage (s : State) (ctx page : Nat) (es : List DWord) : Option State :=
  let s := writeEntries s ctx (page * 2 ^ 16) es
  let (base, size) := match walk s ctx (page * 2 ^ 16) with | some l => (l.base, l.size) | none => (page * 2 ^ 16, 2 ^ 16)
  (ptfence s ctx base size).map fun s => wakePages s ctx page (base / 2 ^ 16) (size / 2 ^ 16)

/-- The same for a page of host memory, whose leaf goes into its Gondola's TLB. -/
def repairHost (s : State) (ctx page : Nat) (es : List DWord) : Option State :=
  match hostPageLeaf page es with
  | none => some (wakePages s ctx page page 1)
  | some e => (ptfence s ctx e.base e.size).map fun s =>
      wakePages (tlbPut s { e with ctx := ctx }) ctx page (page / 2 ^ 48 * 2 ^ 48 + e.base / 2 ^ 16) (e.size / 2 ^ 16)

/-- MMP_REPAIR: none where the MMP finds no mapping that it can make; else what it writes (R364). One whose PTFENCE has to wait is tried
again after the other inputs. -/
def execMmpRepair (ctx page : Nat) (es : Option (List DWord)) (s : State) : Host.Outcome State Fault Refusal :=
  event (
    if !(s.mmp.contains (ctx, page)) then s
    else match es with
      | none => denyPage { s with mmp := s.mmp.filter (· != (ctx, page)) } ctx page
      | some es =>
        (if 2 ^ 48 ≤ page then repairHost s ctx page es else repairPage s ctx page es).getD
          { s with agenda := s.agenda ++ [.mmpRepair ctx page (some es)] })

/-! ## Migration and counters (R367, R368) -/

/-- Bytes of a range at another one. -/
def copyRange (m : Memory) (src dst n : Nat) : Memory :=
  (m.filter fun c => src ≤ c.1 && c.1 < src + n).foldl (fun m c => memPut m (c.1 - src + dst) c.2) (memClear m dst n)

/-- The page's bytes and poison stand in the new frame; nothing of the old frame or of the new one is cached, held, counted or tagged. -/
def movePage (s : State) (l : Leaf) (frame : Nat) : State :=
  let old (k : Nat) : Bool := l.frame ≤ k && k < l.frame + l.size
  let new (k : Nat) : Bool := frame ≤ k && k < frame + l.size
  { s with
    mem := copyRange s.mem l.frame frame l.size
    poison := (s.poison.filter fun w => !(new (4 * w))) ++ (s.poison.filter fun w => old (4 * w)).map fun w => w - l.frame / 4 + frame / 4
    tags := s.tags.filter fun t => !(new (128 * t.1))
    remote := s.remote.filter fun e => !(old (65536 * e.1))
    dc := s.dc.filter fun x => !(old x.key || new x.key)
    regions := s.regions.filter fun r => !(old r.base || new r.base)
    resv := s.resv.filter fun r => !(old (128 * r.line) || new (128 * r.line)) }

/-- An engine is free for a migration, once the copies that wait for one have theirs (R428); the page's home, it and the Lodge are joined by
links that carry packets (R422). -/
def engineFree (s : State) (frame : Nat) : Bool :=
  let s := assignEngines s
  keyOpen s frame && (List.range 2).any fun g => enginesUsed s g < 16 && linkOpen s (8 + g)

/-- PAGE_MIGRATION: the remote page moves into HBM by a DMA engine, between two PTFENCEs; its lines start with tag 0. Not while an entry
that is FROZEN or THAWING covers it; it is tried again while a fence has to wait, a recall of its lines is under way, or every engine
runs or none can be reached. -/
def execPageMigration (ctx va frame : Nat) (s : State) : Host.Outcome State Fault Refusal :=
  let later : State := { s with agenda := s.agenda ++ [.pageMigration ctx va frame] }
  event (match walk s ctx va, ctxSlot s ctx va true with
    | some l, some slot =>
      let frozen := s.frt.any fun e => e.2.state != .live && e.2.ctx == ctx &&
        e.2.base * 4096 < l.base + l.size && l.base < (e.2.base + e.2.len) * 4096
      let recalled := s.recalls.any fun r => r.base < l.frame + l.size && l.frame < r.base + r.size
      if !l.remote || frame % l.size != 0 || hbmBytes < frame + l.size || frozen then s
      else if recalled || !(engineFree s l.frame) then later
      else match ptfence (landAt s 10 slot (leBytes 8 0)) ctx l.base l.size with
        | none => later
        | some t =>
          let pte := frame + (if l.w then 8 else 0) + (if l.x then 16 else 0) + 1
          let t := landAt (movePage t l (devKey frame)) 10 slot (leBytes 8 pte)
          match ptfence t ctx l.base l.size with
          | none => later
          | some t => wakePages t ctx (l.base / 2 ^ 16) (l.base / 2 ^ 16) (l.size / 2 ^ 16)
    | _, _ => s)

/-- The MMP reads a counter and clears it (R367). -/
def readCounter (s : State) (piece : Nat) : State := { s with remote := tdel s.remote piece }

end Sys2Proof.Machine
end

