-- ==== Sys2Proof/Machine/Dispatch.lean ====
section
/-! DEFINITION. Dispatch.lean: the meaning of every instruction and event. -/

namespace Sys2Proof.Machine

def exec (i : Instr) (s : State) : Host.Outcome State Fault Refusal :=
  match i with
  | .iadd sat o => Sys2Proof.Machine.execIadd sat o s
  | .isub sat o => Sys2Proof.Machine.execIsub sat o s
  | .imul o => Sys2Proof.Machine.execImul o s
  | .imulh o => Sys2Proof.Machine.execImulh o s
  | .imad sat o => Sys2Proof.Machine.execImad sat o s
  | .imadw o => Sys2Proof.Machine.execImadw o s
  | .imin o => Sys2Proof.Machine.execImin o s
  | .imax o => Sys2Proof.Machine.execImax o s
  | .iabs o => Sys2Proof.Machine.execIabs o s
  | .ineg o => Sys2Proof.Machine.execIneg o s
  | .and o => Sys2Proof.Machine.execAnd o s
  | .or o => Sys2Proof.Machine.execOr o s
  | .xor o => Sys2Proof.Machine.execXor o s
  | .andn o => Sys2Proof.Machine.execAndn o s
  | .not o => Sys2Proof.Machine.execNot o s
  | .bool3 o => Sys2Proof.Machine.execBool3 o s
  | .shl o => Sys2Proof.Machine.execShl o s
  | .shr o => Sys2Proof.Machine.execShr o s
  | .sar o => Sys2Proof.Machine.execSar o s
  | .funnel dir o => Sys2Proof.Machine.execFunnel dir o s
  | .rot right o => Sys2Proof.Machine.execRot right o s
  | .clz o => Sys2Proof.Machine.execClz o s
  | .popc o => Sys2Proof.Machine.execPopc o s
  | .brev o => Sys2Proof.Machine.execBrev o s
  | .bfe o => Sys2Proof.Machine.execBfe o s
  | .bfi o => Sys2Proof.Machine.execBfi o s
  | .isel o => Sys2Proof.Machine.execIsel o s
  | .icmp cond comb o => Sys2Proof.Machine.execIcmp cond comb o s
  | .lea t o => Sys2Proof.Machine.execLea t o s
  | .mov o => Sys2Proof.Machine.execMov o s
  | .movi o => Sys2Proof.Machine.execMovi o s
  | .icvt sat src o => Sys2Proof.Machine.execIcvt sat src o s
  | .plop op1 op2 o => Sys2Proof.Machine.execPlop op1 op2 o s
  | .pcnt o => Sys2Proof.Machine.execPcnt o s
  | .shapeq o => Sys2Proof.Machine.execShapeq o s
  | .forceu o => Sys2Proof.Machine.execForceu o s
  | .mkaff o => Sys2Proof.Machine.execMkaff o s
  | .mkgen o => Sys2Proof.Machine.execMkgen o s
  | .vkill o => Sys2Proof.Machine.execVkill o s
  | .fadd abs o => Sys2Proof.Machine.execFadd abs o s
  | .fsub abs o => Sys2Proof.Machine.execFsub abs o s
  | .fmul abs o => Sys2Proof.Machine.execFmul abs o s
  | .ffma abs o => Sys2Proof.Machine.execFfma abs o s
  | .fmin nan o => Sys2Proof.Machine.execFmin nan o s
  | .fmax nan o => Sys2Proof.Machine.execFmax nan o s
  | .fcmp cond comb o => Sys2Proof.Machine.execFcmp cond comb o s
  | .fclass o => Sys2Proof.Machine.execFclass o s
  | .frnd rnd o => Sys2Proof.Machine.execFrnd rnd o s
  | .fdiv o => Sys2Proof.Machine.execFdiv o s
  | .fdot2 half o => Sys2Proof.Machine.execFdot2 half o s
  | .frcp o => Sys2Proof.Machine.execFrcp o s
  | .frsq o => Sys2Proof.Machine.execFrsq o s
  | .fsqrt o => Sys2Proof.Machine.execFsqrt o s
  | .fex2 o => Sys2Proof.Machine.execFex2 o s
  | .flg2 o => Sys2Proof.Machine.execFlg2 o s
  | .fsinpi o => Sys2Proof.Machine.execFsinpi o s
  | .fcospi o => Sys2Proof.Machine.execFcospi o s
  | .f2i src sat rnd o => Sys2Proof.Machine.execF2i src sat rnd o s
  | .i2f src o => Sys2Proof.Machine.execI2f src o s
  | .f2f sat sr src o => Sys2Proof.Machine.execF2f sat sr src o s
  | .fpack sat sr hi fmt o => Sys2Proof.Machine.execFpack sat sr hi fmt o s
  | .lxch mode o => Sys2Proof.Machine.execLxch mode o s
  | .poll mode o => Sys2Proof.Machine.execPoll mode o s
  | .red op o => Sys2Proof.Machine.execRed op o s
  | .scan op excl o => Sys2Proof.Machine.execScan op excl o s
  | .bcast o => Sys2Proof.Machine.execBcast o s
  | .bra o => Sys2Proof.Machine.execBra o s
  | .brx o => Sys2Proof.Machine.execBrx o s
  | .call o => Sys2Proof.Machine.execCall o s
  | .ret o => Sys2Proof.Machine.execRet o s
  | .exit o => Sys2Proof.Machine.execExit o s
  | .yield o => Sys2Proof.Machine.execYield o s
  | .nop o => Sys2Proof.Machine.execNop o s
  | .sleep o => Sys2Proof.Machine.execSleep o s
  | .bar mode o => Sys2Proof.Machine.execBar mode o s
  | .cbar mode o => Sys2Proof.Machine.execCbar mode o s
  | .dbar mode o => Sys2Proof.Machine.execDbar mode o s
  | .swait cond o => Sys2Proof.Machine.execSwait cond o s
  | .sreg o => Sys2Proof.Machine.execSreg o s
  | .sset o => Sys2Proof.Machine.execSset o s
  | .trap o => Sys2Proof.Machine.execTrap o s
  | .tret o => Sys2Proof.Machine.execTret o s
  | .launch o => Sys2Proof.Machine.execLaunch o s
  | .signal isSt o => Sys2Proof.Machine.execSignal isSt o s
  | .ld loc w req o => Sys2Proof.Machine.execLd loc w req o s
  | .st loc w req o => Sys2Proof.Machine.execSt loc w req o s
  | .ldr wide o => Sys2Proof.Machine.execLdr wide o s
  | .stc wide o => Sys2Proof.Machine.execStc wide o s
  | .prf ex lvl o => Sys2Proof.Machine.execPrf ex lvl o s
  | .wbl o => Sys2Proof.Machine.execWbl o s
  | .atom op ord o => Sys2Proof.Machine.execAtom op ord o s
  | .atomt op ord o => Sys2Proof.Machine.execAtomt op ord o s
  | .fence scope ord o => Sys2Proof.Machine.execFence scope ord o s
  | .frz sys o => Sys2Proof.Machine.execFrz sys o s
  | .thaw o => Sys2Proof.Machine.execThaw o s
  | .fwait o => Sys2Proof.Machine.execFwait o s
  | .fqry o => Sys2Proof.Machine.execFqry o s
  | .cpy tb cv dim o => Sys2Proof.Machine.execCpy tb cv dim o s
  | .cpyg tb cv o => Sys2Proof.Machine.execCpyg tb cv o s
  | .cbatch o => Sys2Proof.Machine.execCbatch o s
  | .cwait o => Sys2Proof.Machine.execCwait o s
  | .tbinit o => Sys2Proof.Machine.execTbinit o s
  | .tbexp o => Sys2Proof.Machine.execTbexp o s
  | .tbarr o => Sys2Proof.Machine.execTbarr o s
  | .tbwait strict o => Sys2Proof.Machine.execTbwait strict o s
  | .ipf o => Sys2Proof.Machine.execIpf o s
  | .ipin o => Sys2Proof.Machine.execIpin o s
  | .iunpin o => Sys2Proof.Machine.execIunpin o s
  | .mclaim o => Sys2Proof.Machine.execMclaim o s
  | .mrel o => Sys2Proof.Machine.execMrel o s
  | .mzero o => Sys2Proof.Machine.execMzero o s
  | .mld src role o => Sys2Proof.Machine.execMld src role o s
  | .mst sat o => Sys2Proof.Machine.execMst sat o s
  | .mmov form o => Sys2Proof.Machine.execMmov form o s
  | .mma fmt o => Sys2Proof.Machine.execMma fmt o s
  | .mmas fmt o => Sys2Proof.Machine.execMmas fmt o s
  | .mwait o => Sys2Proof.Machine.execMwait o s
  | .mxv o => Sys2Proof.Machine.execMxv o s
  | .mcntRd o => Sys2Proof.Machine.execMcntRd o s
  | .mcntRr o => Sys2Proof.Machine.execMcntRr o s
  | .illegalEncoding w => Sys2Proof.Machine.execIllegalEncoding w s
  | .runCountRotation g => Sys2Proof.Machine.execRunCountRotation g s
  | .aging g => Sys2Proof.Machine.execAging g s
  | .shadowModeEntry p => Sys2Proof.Machine.execShadowModeEntry p s
  | .shadowModeEnd p => Sys2Proof.Machine.execShadowModeEnd p s
  | .sleepExpiry g lane => Sys2Proof.Machine.execSleepExpiry g lane s
  | .swaitSatisfied g lane => Sys2Proof.Machine.execSwaitSatisfied g lane s
  | .swaitTimeout g lane => Sys2Proof.Machine.execSwaitTimeout g lane s
  | .loadResultArrival id => Sys2Proof.Machine.execLoadResultArrival id s
  | .storeAcknowledge id scope => Sys2Proof.Machine.execStoreAcknowledge id scope s
  | .refillComplete g r => Sys2Proof.Machine.execRefillComplete g r s
  | .copyBytesDelivered id k => Sys2Proof.Machine.execCopyBytesDelivered id k s
  | .copyComplete id => Sys2Proof.Machine.execCopyComplete id s
  | .matrixOpComplete p => Sys2Proof.Machine.execMatrixOpComplete p s
  | .groupEnd g => Sys2Proof.Machine.execGroupEnd g s
  | .instructionFetchFault g lane => Sys2Proof.Machine.execInstructionFetchFault g lane s
  | .notifyWrite q off size v => Sys2Proof.Machine.execNotifyWrite q off size v s
  | .headerRecheck q => Sys2Proof.Machine.execHeaderRecheck q s
  | .launchPacket q => Sys2Proof.Machine.execLaunchPacket q s
  | .barrierAnd q => Sys2Proof.Machine.execBarrierAnd q s
  | .copyPacket q => Sys2Proof.Machine.execCopyPacket q s
  | .signalPacket q => Sys2Proof.Machine.execSignalPacket q s
  | .nopPacket q => Sys2Proof.Machine.execNopPacket q s
  | .packetComplete id => Sys2Proof.Machine.execPacketComplete id s
  | .qenable v => Sys2Proof.Machine.execQenable v s
  | .qdisable v => Sys2Proof.Machine.execQdisable v s
  | .teardown v => Sys2Proof.Machine.execTeardown v s
  | .contextFree ctx => Sys2Proof.Machine.execContextFree ctx s
  | .launchRecord ix => Sys2Proof.Machine.execLaunchRecord ix s
  | .gridBind grid => Sys2Proof.Machine.execGridBind grid s
  | .translationComplete id pick => Sys2Proof.Machine.execTranslationComplete id pick s
  | .blockDispatch => Sys2Proof.Machine.execBlockDispatch s
  | .admissionStarvation grid => Sys2Proof.Machine.execAdmissionStarvation grid s
  | .bindRecord core entry => Sys2Proof.Machine.execBindRecord core entry s
  | .preemptionSave blk => Sys2Proof.Machine.execPreemptionSave blk s
  | .restore core entry => Sys2Proof.Machine.execRestore core entry s
  | .homeRequest port => Sys2Proof.Machine.execHomeRequest port s
  | .forwardedWrite die => Sys2Proof.Machine.execForwardedWrite die s
  | .recallComplete line => Sys2Proof.Machine.execRecallComplete line s
  | .regionMerge base log2 => Sys2Proof.Machine.execRegionMerge base log2 s
  | .pageWalk port => Sys2Proof.Machine.execPageWalk port s
  | .mmpRepair ctx page entries => Sys2Proof.Machine.execMmpRepair ctx page entries s
  | .ptfence ctx base len => Sys2Proof.Machine.execPtfence ctx base len s
  | .pageMigration ctx va frame => Sys2Proof.Machine.execPageMigration ctx va frame s
  | .frzInstall die => Sys2Proof.Machine.execFrzInstall die s
  | .collectRequest die entry => Sys2Proof.Machine.execCollectRequest die entry s
  | .collectionComplete entry => Sys2Proof.Machine.execCollectionComplete entry s
  | .warmreset v => Sys2Proof.Machine.execWarmreset v s
  | .absent v => Sys2Proof.Machine.execAbsent v s
  | .present v => Sys2Proof.Machine.execPresent v s
  | .drain die bad => Sys2Proof.Machine.execDrain die bad s
  | .readmission die ok => Sys2Proof.Machine.execReadmission die ok s
  | .holderReset port => Sys2Proof.Machine.execHolderReset port s
  | .uciePacketReceive sender inc pk => Sys2Proof.Machine.execUciePacketReceive sender inc pk s
  | .linkStepChange link step => Sys2Proof.Machine.execLinkStepChange link step s
  | .retrainingWindowEnd link => Sys2Proof.Machine.execRetrainingWindowEnd link s
  | .flitReplay link ok => Sys2Proof.Machine.execFlitReplay link ok s
  | .eventRecordAccept source => Sys2Proof.Machine.execEventRecordAccept source s
  | .overflow gondola => Sys2Proof.Machine.execOverflow gondola s
  | .evqbaseWrite gondola v => Sys2Proof.Machine.execEvqbaseWrite gondola v s
  | .evqctlWrite gondola v => Sys2Proof.Machine.execEvqctlWrite gondola v s
  | .evqridxWrite gondola v => Sys2Proof.Machine.execEvqridxWrite gondola v s
  | .dmaCopy id k => Sys2Proof.Machine.execDmaCopy id k s
  | .hostAccess space gondola addr r => Sys2Proof.Machine.execHostAccess space gondola addr r s
  | .peerRequest peer inc addr r => Sys2Proof.Machine.execPeerRequest peer inc addr r s
  | .peerLost peer => Sys2Proof.Machine.execPeerLost peer s
  | .peerTimeout peer => Sys2Proof.Machine.execPeerTimeout peer s
  | .peerJoined peer inc => Sys2Proof.Machine.execPeerJoined peer inc s
  | .ethernetTransfer gondola ctx addr r => Sys2Proof.Machine.execEthernetTransfer gondola ctx addr r s
  | .powerOnReset sramOk linkOk => Sys2Proof.Machine.execPowerOnReset sramOk linkOk s
  | .load v fetchOk hbmOk hbmStacks dieOk linkOk => Sys2Proof.Machine.execLoad v fetchOk hbmOk hbmStacks dieOk linkOk s
  | .throttle power temp => Sys2Proof.Machine.execThrottle power temp s
  | .clockRaise power temp => Sys2Proof.Machine.execClockRaise power temp s
  | .thermalTrip temp => Sys2Proof.Machine.execThermalTrip temp s
  | .sramCorrectedError key => Sys2Proof.Machine.execSramCorrectedError key s
  | .uncorrectableError w => Sys2Proof.Machine.execUncorrectableError w s
  | .hbmScrub line => Sys2Proof.Machine.execHbmScrub line s
  | .errorRegisterWrite off v => Sys2Proof.Machine.execErrorRegisterWrite off v s
  | .registerWrite gondola off v => Sys2Proof.Machine.execRegisterWrite gondola off v s
  | .peerCollectRequest peer inc collect base len => Sys2Proof.Machine.execPeerCollectRequest peer inc collect base len s
  | .powerDown => Sys2Proof.Machine.execPowerDown s

end Sys2Proof.Machine
end

