-- ==== Sys2Proof/Machine/Select.lean ====
section
/-! DEFINITION. Select.lean: which split or event a step serves, and the time it takes (R288, R291, R293, R306, notes/assumptions/5.md
and 6.md). -/

namespace Sys2Proof.Machine

/-! ## Issue (R306) -/

/-- OPCs that issue on port M; the others issue on port V (R86 to R90). -/
def onPortM (opc : Nat) : Bool := opc == 0x4B || decide (0x50 ≤ opc ∧ opc ≤ 0x77) || opc == 0x7C || opc == 0x7D

/-- The OPC of what stands at a split's PC; 0 where nothing can be decoded. -/
def opcAt (s : State) (k : Nat) (sp : Split) : Nat :=
  match (s.group k).bind fun g => tget s.blocks g.blk with
  | none => 0
  | some b => match (s.group k).bind fun g => recordOf s b g sp.pc with
    | some (p, ix) => if (p.at ix).structural then 0 else (p.at ix).opc
    | none => match atPc s b sp.pc with
      | .instr i => (i.form.map (·.1)).getD 0
      | _ => 0

/-- The READY splits of a partition in the order in which they are offered the issue (R288, R306). -/
def offers (s : State) (p : Nat) : List (Nat × Split) :=
  ((issueOrder s p).filter fun e => mayIssue s e.1 e.2).flatMap fun e => (slalom e.2).map fun sp => (e.1, sp)

/-- In the order of the clocks at which their STALL spacing lets them issue, the present one for most (R79). -/
def spaced (s : State) (l : List (Nat × Split)) : List (Nat × Split) :=
  let wait (x : Nat × Split) : Nat := x.2.notBefore - dieClk s (dieOf x.1)
  sortBy (fun a b => decide (wait a < wait b)) l

/-- The port on which a split's next instruction issues: 0 V, 1 M. -/
def portOf (s : State) (x : Nat × Split) : Nat := if onPortM (opcAt s x.1 x.2) then 1 else 0

/-- Partitions with a group that may issue. -/
def busyParts (s : State) : List Nat :=
  ((s.groups.filter fun e => mayIssue s e.1 e.2 && e.2.active.any Split.ready).map fun e => partOf e.1).dedup

/-- What the split that State.curGroup and State.curLane name runs next. -/
def nextInstr (s : State) (k lane : Nat) : Instr :=
  match (s.group k).bind fun g => (splitAt g lane).bind fun sp => (tget s.blocks g.blk).map fun b => atPc s b sp.pc with
  | some (.instr i) => i
  | some (.illegal w) => .illegalEncoding w
  | _ => .instructionFetchFault k lane

/-- The lane that names a split. -/
def nameLane (sp : Split) : Nat := (lowestLane sp.mask).getD 0

/-- The partition of some groups that have issued passed over every other group of it that could issue (R293). -/
def markPassed (s : State) (ks : List Nat) : State :=
  { s with groups := s.groups.map fun e =>
      if ks.any (partOf e.1 == partOf ·) && !(ks.contains e.1) then
        let since := if couldIssue s e.1 e.2 then some (e.2.passedSince.getD (dieClk s (dieOf e.1))) else none
        (e.1, { e.2 with passedSince := since })
      else e }

/-! ## What has to happen before anything else -/

/-- A rotation that an issue brought about (R291), aging (R293), and the re-read of a held header (R16). These take no time. -/
def due (s : State) : Option Instr :=
  match s.groups.find? fun e => e.2.active.any fun p => 256 ≤ p.run with
  | some e => some (.runCountRotation e.1)
  | none =>
    match s.groups.find? fun e => !e.2.aged && (match e.2.passedSince with
        | some t => decide (t + 1024 ≤ dieClk s (dieOf e.1))
        | none => false) with
    | some e => some (.aging e.1)
    | none => (s.queues.find? fun e => recheckDue s e.2).map fun e => .headerRecheck e.1

/-! ## Events of the machine itself -/

/-- What a step may serve besides the issue: an event, or a waiting split's instruction once more. -/
inductive Pick where
  | event (i : Instr)
  | retry (k lane : Nat)
  /-- a die cache evicts a line (R369) -/
  | evict (die key : Nat)
  /-- the directory has no free entry (R372) -/
  | makeRoom
  /-- a partition in shadow mode runs ahead by n instructions (R308) -/
  | runAhead (p n : Nat)
  /-- the MMP reads and clears the access counter of a 64 KiB piece (R367) -/
  | readCounter (piece : Nat)
  /-- a peer acknowledges an FRZ or a collection (R232, R400) -/
  | peerAck (entry peer : Nat)
  /-- a queue whose halt waited for room goes on to it (R27, R426) -/
  | overrun (q : Nat)
  /-- the command processor goes on with a QENABLE that waited (R22, R23) -/
  | resumeCpcmd
  /-- a request from outside that waited, by its name, tries again (R364, R401) -/
  | outer (id : Nat)
  /-- a die's blocks have been dispatched again (R418) -/
  | redispatched (d : Nat)
  /-- the next step of the bring-up that a LOAD began (R434) -/
  | bringUp
deriving DecidableEq, Repr

def groupPicks (s : State) (k : Nat) (g : Group) : List Pick :=
  let ofSplit (sp : Split) : List Pick :=
    let l := nameLane sp
    let again : List Pick := if (splitRecord s k l).isSome then [.retry k l] else []
    match sp.wait with
    | none | some (.text _ _) | some .piece => []
    | some (.sleep _) => .event (.sleepExpiry k l) :: again
    | some (.swait _ _ _) => .event (.swaitSatisfied k l) :: .event (.swaitTimeout k l) :: again
    | some _ => [.retry k l]
  (g.active ++ g.parked).flatMap ofSplit ++
  (if g.ending || g.trapEvent.isSome then [.event (.groupEnd k)] else []) ++
  ((g.refills.take 1).map fun r => .event (.refillComplete k r))

/-- v: how far a partition runs ahead, 256 instructions at most (R308). -/
def shadowPicks (s : State) (v p : Nat) : List Pick :=
  match tget s.shadow p with
  | some k => if shadowGroup s p = some k then [.runAhead p (v % 257)] else [.event (.shadowModeEnd p)]
  | none => if (shadowGroup s p).isSome then [.event (.shadowModeEntry p)] else []

def corePicks (s : State) (v : Nat) : List Pick :=
  (s.groups.flatMap fun e => groupPicks s e.1 e.2) ++
  (((s.groups.map fun e => partOf e.1) ++ s.shadow.map (·.1)).dedup.flatMap (shadowPicks s v)) ++
  (s.matq.map fun (o : MatOp) => Pick.event (.matrixOpComplete o.part))

/-- A die cache may evict the line: any that `.loc` has not used, and one that it has where its set holds no other (R209). -/
def mayLeave (s : State) (l : DcLine) : Bool := !l.loc || (dcSetLines s l.die l.key).all (·.loc)

/-- v: a free value, for the amounts that the manual leaves open. -/
def memPicks (s : State) (v : Nat) : List Pick :=
  ((s.reqs.map fun (o : MemOp) => o.port).dedup.flatMap fun p =>
    [Pick.event (.homeRequest p), .event (.pageWalk p), .event (.holderReset p)]) ++
  (s.reqs.flatMap fun (o : MemOp) =>
    if o.kind.isLoad then [Pick.event (.loadResultArrival o.id)]
    else [Pick.event (.loadResultArrival o.id), .event (.storeAcknowledge o.id .dev), .event (.storeAcknowledge o.id .sys)]) ++
  (s.fwd.map fun (f : Forwarded) => Pick.event (.forwardedWrite f.die)) ++
  ((s.dc.filter (mayLeave s)).map fun (l : DcLine) => Pick.evict l.die l.key) ++
  (if s.regions.isEmpty then [] else [Pick.makeRoom]) ++
  (s.recalls.map fun (r : Recall) => Pick.event (.recallComplete (r.base / 128))) ++
  (s.regions.map fun (r : Region) => Pick.event (.regionMerge (r.base / (2 * r.size) * (2 * r.size)) (Nat.log2 (2 * r.size)))) ++
  (s.copies.flatMap fun (c : Copy) => [Pick.event (.copyBytesDelivered c.id v), .event (.copyComplete c.id)]) ++
  (s.frzOps.flatMap fun (o : FrzOp) => match o.stage with
    | .install _ ds ps => (ds.map fun d => Pick.event (.frzInstall d)) ++ ps.map fun p => .peerAck o.entry p
    | .collect _ ds ps =>
      .event (.collectionComplete o.entry) :: (ds.map fun d => Pick.event (.collectRequest d o.entry)) ++ ps.map fun p => .peerAck o.entry p
    | .counted => []) ++
  (s.remote.map fun e => Pick.readCounter e.1) ++ s.outer.map fun x => Pick.outer x.1

/-- Bind records whose block is not resident: those that the hardware has still to take, in their order (R276), then those that it has to take
once more. -/
def bindPicks (s : State) : List Pick :=
  ((s.agenda.filter isBind).map Pick.event) ++
  (s.binds.filter fun e => !(s.blocks.any fun x => x.2.core == e.1 / 64 && x.2.entry == e.1 % 64)).flatMap fun e =>
    [.event (.bindRecord (e.1 / 64) (e.1 % 64)), .event (.restore (e.1 / 64) (e.1 % 64))]

def queuePicks (s : State) (v : Nat) : List Pick :=
  (s.queues.flatMap fun e =>
    [Pick.event (.launchPacket e.1), .event (.barrierAnd e.1), .event (.copyPacket e.1), .event (.signalPacket e.1),
     .event (.nopPacket e.1)] ++ (if e.2.heldHeader then [.event (.headerRecheck e.1)] else []) ++
     (if e.2.overrun then [.overrun e.1] else [])) ++
  (if cpcmdBusy s then [.resumeCpcmd] else []) ++
  (s.works.flatMap fun (w : Work) => [Pick.event (.packetComplete w.id), .event (.dmaCopy w.id v)]) ++
  ((List.range s.launches.length).map fun i => Pick.event (.launchRecord i)) ++
  (s.teardowns.map fun c => Pick.event (.contextFree c)) ++
  (s.grids.flatMap fun e => [Pick.event (.gridBind e.1), .event (.admissionStarvation e.1)]) ++
  (s.tcache.filterMap fun (e : TcEntry) =>
    if e.state = .running then some (Pick.event (.translationComplete e.id (v / 2 ^ 29 * 2 ^ 29))) else none) ++
  (if s.grids.isEmpty && s.saved.isEmpty then [] else [.event .blockDispatch]) ++ bindPicks s ++
  ((s.blocks.filter fun e => e.2.phase == .draining || e.2.phase == .fetchDraining).map fun e => Pick.event (.preemptionSave e.1))

/-- Dies in a reset, links in their window, records to accept, peers that do not answer, a bring-up. A self-test's outcome is free. -/
def fabricPicks (s : State) (v : Nat) : List Pick :=
  ((List.range 8).flatMap fun d => match (dieAt s d).state with
    | .resetting => [Pick.event (.drain d []), .redispatched d]
    | .readmitting => [Pick.event (.readmission d (v % 2 == 0))]
    | _ => []) ++
  ((List.range 10).filterMap fun l => if (linkAt s l).retraining then some (Pick.event (.retrainingWindowEnd l)) else none) ++
  (s.outbox.flatMap fun e =>
    (if e.2.recs.isEmpty then [] else [Pick.event (.eventRecordAccept e.1)]) ++
    (if e.2.lost = 0 then [] else [.event (.overflow (gondolaOf e.1))])) ++
  (((List.range s.boot.podSize).filter (peerLate s)).map fun p => Pick.event (.peerTimeout p)) ++
  (if s.boot.loading.isSome then [.bringUp] else [])

/-- Everything that could happen next besides the issue of an instruction. -/
def picks (s : State) (v : Nat) : List Pick := corePicks s v ++ memPicks s v ++ queuePicks s v ++ fabricPicks s v

/-! ## Time -/

/-- a clocks of the Lodge and b of the running dies pass (R7, R8). -/
def elapse (s : State) (a b : Nat) : State :=
  { s with
    lodge := s.lodge + a
    portq := (s.portq + a) % 11
    served := if a = 0 then s.served else []
    dies := s.dies.map fun d => if d.state == .run then { d with clk := d.clk + b } else d }

/-- Lodge clocks until a held header is read again, for the first queue that comes to it (R16). -/
def headerSlack (s : State) : Option Nat :=
  minOf ((s.queues.filter fun e => headerWaits s e.2).map fun e => e.2.recheckAt - s.lodge)

/-- A step takes a free amount of time on each clock, none past the re-read of a held header, and what it leaves to the next one is
free. -/
def tick (s : State) : State :=
  let (a, s) := s.draw
  let (b, s) := s.draw
  let (c, s) := s.draw
  let a := match headerSlack s with | some n => min a.toNat n | none => a.toNat
  { elapse s a b.toNat with turn := c.getLsbD 0 }

/-- The partition that comes first from number r on, around all 1,024. -/
def firstFrom (r : Nat) (ps : List Nat) : Option Nat :=
  ((ps.map fun p => (p + 1024 - r % 1024) % 1024).foldl (fun m x => some (match m with | some y => min x y | none => x)) none).map
    fun d => (r + d) % 1024

/-! ## The program that a step fetches -/

/-- Where State.withFetchWord puts text. -/
def fetchTextAt : Nat := 0x100000

/-- A group of 64 lanes with one split at a PC. -/
def oneGroup (pc : DWord) : Group :=
  { blk := 0, idx := 0, preds := Vector.replicate 8 0, barPend := Vector.replicate 48 0,
    active := [{ pc := pc, mask := fullMask }], nextAge := 1 }

def oneBlock (text : DWord) : Block :=
  { grid := 0, lin := 0, x := 0, y := 0, z := 0, core := 0, entry := 0, baseP := 0, slots := [0], text := text,
    scrBase := 0, scrSize := 0, cluster := 0, member := 0, clusterSize := 1, span := none, ctx := 0, prio := 0, flags := 0,
    emu := false, translated := false, lanes := 64, regsHint := 0, bars := Vector.replicate 16 {} }

/-- A machine that is ready, with one block of one group on core 0 of die 0 in context 0, whose split stands at a text word:
what a launch through a queue would have made. -/
def loadWord (s : State) (w : IWord) : State :=
  { s with
    boot := { s.boot with state := .ready }
    dies := s.dies.set 0 { state := .run }
    groups := [(0, oneGroup (BitVec.ofNat 64 fetchTextAt))]
    blocks := [(0, oneBlock (BitVec.ofNat 64 fetchTextAt))]
    clusters := [(0, { grid := 0, members := [(0, 0, 0)], blocksLeft := 1, bars := Vector.replicate 16 {} })]
    tlb := [{ tlb := 11, ctx := 0, base := 0, size := 2 ^ 30, frame := 0, remote := false, w := true, x := true }]
    mem := memWrite s.mem (devKey fetchTextAt) (bytesOfWord w)
    agenda := []
    patience := 1
    turn := true }

end Sys2Proof.Machine
end

