-- ==== Sys2Proof/Machine/Shadow.lean ====
section
/-! DEFINITION. Shadow.lean: what a group does while it runs ahead (R308, R309). It runs on a copy of the machine that is thrown away;
the lines that its loads bring toward L1 are all that is left. -/

namespace Sys2Proof.Machine

/-- A group that runs ahead: the copy, the lanes in which each register's value is unknown, the registers that it has written, and the
loads so far. Registers are named vn as n, pk as 128 + k, and a virtual register of translated text as 512 and its number. -/
structure Ahead where
  copy : State
  unknown : Table Mask
  written : List Nat
  loads : List Access
deriving DecidableEq, Repr

/-- Lanes in which some register of a list is unknown. -/
def Ahead.dark (x : Ahead) (ns : List Nat) : Mask := ns.foldl (fun m n => m ||| (tget x.unknown n).getD 0) 0

/-- Registers are written in lanes: dark there in some of them, and known in the others. -/
def Ahead.wrote (x : Ahead) (ns : List Nat) (act dark : Mask) : Ahead :=
  { x with unknown := ns.foldl (fun t n => tset t n ((x.dark [n] &&& ~~~act) ||| (dark &&& act))) x.unknown }

/-- The kinds that run in shadow registers. -/
def runsAhead (opc : Nat) : Bool :=
  decide (opc ≤ 0x19) || decide (0x20 ≤ opc ∧ opc ≤ 0x2A) || decide (0x30 ≤ opc ∧ opc ≤ 0x34)

/-- What a split runs next: the instruction, what it reads and writes in the names of Ahead, and the translated record that it is. -/
structure AheadInstr where
  instr : Instr
  op : Op
  view : View
  reads : List Nat
  writes : List Nat
  guard : List Nat
  rec' : Option (ApfProg × Nat)

/-- The instruction of native text. -/
def aheadNative (s : State) (k lane : Nat) : Option AheadInstr := do
  let i := nextInstr s k lane
  let (o, f) ← i.fields
  let v ← viewOf (s.at k lane) i o f
  let shape := if readsNothing i then srcRegs f.a o.a else []
  return { instr := i, op := o, view := v, reads := v.uses.reads ++ shape ++ v.uses.predReads.map (128 + ·),
           writes := v.uses.writes ++ v.uses.predWrites.map (128 + ·), guard := if o.ctl.gp = 0 then [] else [128 + o.ctl.gp.val], rec' := none }

/-- The instruction that a record of translated text runs as, with its registers brought in; none at a structure record. -/
def aheadRecord (s : State) (k lane : Nat) (p : ApfProg) (ix : Nat) : Option (State × AheadInstr) := do
  let g ← s.group k
  let b ← tget s.blocks g.blk
  if (p.at ix).structural then none
  else
    let x := p.instr ix
    let pl ← planOf p x 16 20 5
    let s := pl.loads.foldl (fun s y => stage s k b y) (settleStaged p s k g.blk)
    let (o, f) ← pl.instr.fields
    let v ← viewOf (s.at k lane) pl.instr o f
    return (s, { instr := pl.instr, op := o, view := v, reads := (apfReads x).map (512 + ·), writes := (apfWrites x).map (512 + ·),
                 guard := if (p.at ix).grd = 0 then [] else [512 + (p.at ix).grd], rec' := some (p, ix) })

/-- Slabs and cells of one shadow register. -/
def shadowStorage (g : Group) (b : Block) (kinds : List (Nat × ApfKind)) (n : Nat) : Nat × Nat :=
  if 512 ≤ n then
    let m := match kindOf kinds (n - 512) with | some .pred => 0 | some .r64 => 2 | some .r128 => 4 | _ => 1
    if (List.range 64).all fun l => virtual b g (n - 512) l == virtual b g (n - 512) 0 then (0, (m + 1) / 2) else (m, 0)
  else match regOf g n with
    | some r => (if r.isSlab then 1 else 0, if r.isCell && !(r.joined && n % 2 == 1) then 1 else 0)
    | none => (0, 0)

/-- Slabs that are free beyond every reserve on group k's core, once ns slabs and nc cells more are taken: spare cells of the slabs that
are cut already come first (R316, R325). -/
def freeBeyond (s : State) (k ns nc : Nat) : Int :=
  let gs := coreGroups s (coreOf k)
  let slabs := gs.foldl (fun a e => a + max (slabsOf e.2) 6) ns
  let cells := gs.foldl (fun a e => a + max (cellsOf e.2) 16) nc
  2048 - (slabs : Int) - ((cells + 31) / 32 : Nat)

/-- Shadow registers come from storage that is free beyond every reserve; what the group maps itself stays as it is (R309). -/
def shadowFits (s : State) (x : Ahead) (k : Nat) (kinds : List (Nat × ApfKind)) : Bool :=
  match x.copy.group k with
  | none => false
  | some g => (tget x.copy.blocks g.blk).any fun b =>
    let n := x.written.foldl (fun a r => let d := shadowStorage g b kinds r; (a.1 + d.1, a.2 + d.2)) (0, 0)
    decide (0 ≤ freeBeyond s k n.1 n.2)

/-- An instruction whose result takes in more than its own lane: one lane that is unknown leaves every lane of the result so (R154 to
R156). -/
def readsAcross : Instr → Bool
  | .pcnt _ | .shapeq _ => true
  | i => writesAll i

/-- An instruction that runs; none where it ends shadow mode: a trap, or a register that finds no room. -/
def aheadRun (s : State) (k lane : Nat) (y : AheadInstr) (x : Ahead) : Option Ahead :=
  let ran := match y.rec' with
    | some (p, ix) => runRecord exec (x.copy.at k lane) p ix k lane
    | none => exec y.instr (x.copy.at k lane)
  match ran with
  | .next t =>
    let v := y.view
    let on := v.sp.pc + 12
    let t := match y.rec' with | some (p, _) => settleStaged p t k v.g.blk | none => t
    match (t.group k).bind fun h => splitAt h lane with
    | some sp =>
      let dark := if readsAcross y.instr && x.dark y.reads != 0 then fullMask else x.dark y.reads
      let act := if v.act != 0 && writesAll y.instr then fullMask else v.act
      let x := { (x.wrote y.writes act dark) with
        copy := t, written := if v.act = 0 then x.written else (y.writes.filter fun n => n < 128 || 512 ≤ n) ++ x.written |>.dedup }
      let kinds := match y.rec' with | some (p, _) => p.kinds | none => []
      if t.issued && (sp.pc == on || y.rec'.isSome && sp.pc == on + 12) && shadowFits s x k kinds then some x else none
    | none => none
  | _ => none

/-- The lines that a load of known address brings: those of paged owners with a valid mapping (R308). -/
def aheadLines (s : State) (v : View) (req : ReqTy) (o : Op) : List Access :=
  if req = .own || req = .wt || req = .si then
    (maskLanes v.act).filterMap fun l =>
      let a := laneAddr v.g o l
      let mapped := match targetFor s v.b a with | .at _ _ _ _ => true | _ => false
      if [0, 1, 2, 0x40].contains (ownerOf a) && fateOf s v.b 1 a == .away && mapped then some { lane := l, addr := a } else none
  else []

/-- The registers that hold a load's address, in the names of Ahead. -/
def addressRegs (y : AheadInstr) : List Nat :=
  match y.rec' with
  | some (p, ix) =>
    let f := (p.at ix).sa
    if f / 2 ^ 18 % 2 = 1 || f % 2 ^ 18 = 0 then [] else [512 + f % 2 ^ 18]
  | none => srcRegs .pair y.op.a

/-- The copy after a load: what it releases is gone, and its destination is mapped, so that no later read of it is a dead one. -/
def aheadLoaded (s : State) (v : View) : State :=
  (releaseUses s v).modGroup v.k fun g =>
    if v.act = 0 then g
    else v.uses.writes.foldl (fun g n => if (regOf g n).isSome then g else putReg g n (some { val := .uniform 0 })) g

/-- A load: its line is brought where the address is known, and its result is unknown. s: the copy with the address in its place. -/
def aheadLoad (s : State) (k : Nat) (req : ReqTy) (y : AheadInstr) (x : Ahead) : Ahead :=
  let v := y.view
  let known := x.dark (addressRegs y) &&& v.act == 0
  { (x.wrote y.writes v.act fullMask) with
    copy := (if y.rec'.isSome then x.copy else aheadLoaded x.copy v).modGroup k fun g => passImm x.copy v.b (updSplit g v.sp.mask fun p => { p with pc := p.pc + 12 })
    loads := if known then x.loads ++ aheadLines s v req y.op else x.loads }

/-- One shadow instruction; none ends shadow mode. -/
def aheadOne (s : State) (k lane : Nat) (x : Ahead) : Option Ahead := do
  let (c, y) ← match splitRecord x.copy k lane with
    | some (p, ix) => aheadRecord x.copy k lane p ix
    | none => (aheadNative x.copy k lane).map fun y => (x.copy, y)
  if x.dark y.guard &&& y.view.sp.mask != 0 then none
  else match y.instr with
    | .ld _ _ req _ =>
      if (illegalNow y.view y.instr).isSome || (stallReason y.view y.view.uses).isSome then none else some (aheadLoad c k req y x)
    | i => if runsAhead ((i.form.map (·.1)).getD 0x7F) then aheadRun s k lane y x else none

def aheadLoop (s : State) (k lane : Nat) : Nat → Ahead → Ahead
  | 0, x => x
  | n + 1, x => match aheadOne s k lane x with
    | some y => aheadLoop s k lane n y
    | none => x

/-- The copy: the held split alone, with nothing under way for it. Other groups are left out, so that no storage of theirs is taken. -/
def aheadFrom (s : State) (k : Nat) (g : Group) (sp : Split) : Ahead :=
  let clear (t : Table Reg) : Table Reg := t.map fun e => (e.1, { e.2 with away := false })
  let late := pendingRegs g ++ (g.staged.filter fun e => placeBusy g e.2).map fun e => 512 + e.1
  { copy := { s with groups := [(k, { g with active := [sp], parked := [], flight := [], refills := [], holder := none, regs := clear g.regs })] }
    unknown := late.foldl (fun t n => tset t n fullMask) []
    written := []
    loads := [] }

/-- The group of a partition in shadow mode runs n instructions ahead of its held split. Its loads bring lines as PRF.l1 does. -/
def runAhead (s : State) (p n : Nat) : State :=
  match tget s.shadow p with
  | none => s
  | some k => match s.group k with
    | none => s
    | some g => match slalomFirst g, tget s.blocks g.blk with
      | some sp, some b =>
        let x := aheadLoop s k (nameLane sp) n (aheadFrom s k g sp)
        if x.loads.isEmpty then s
        else
          let (id, s) := s.fresh
          let op : MemOp :=
            { id := id, grp := k, seq := id, pc := sp.pc, handler := g.handler, ctx := b.ctx, port := dieOf k,
              kind := .prf false .l1, size := 1, signed := false, req := .own, mask := sp.mask, dst := .none, uniform := false,
              todo := x.loads.map fun y => hintAccess s (dieOf k) b.ctx y.lane y.addr 0 }
          { s with reqs := s.reqs ++ [op] }
      | _, _ => s

end Sys2Proof.Machine
end

