-- ==== Sys2Proof/Machine/Ports.lean ====
section
/-! DEFINITION. Ports.lean: what a partition selects and issues on its two ports in one clock (R306, R339). -/

namespace Sys2Proof.Machine

/-- The lines of the table that a BRX reads through the fetch path (R187). -/
def tableLines (s : State) (k lane : Nat) : List Nat :=
  match nextInstr s k lane with
  | .brx o =>
    match (Instr.brx o).fields.bind fun x => viewOf (s.at k lane) (.brx o) x.1 x.2 with
    | some v =>
      let table := dispTarget v o
      match fetchWord s v.b table with
      | .bytes n => (table.toNat / 128) :: (maskLanes v.act).filterMap fun l =>
          let i := (srcB32 v.g o.imm o.a l).toNat
          if i < leNat n then some ((table.toNat + 4 * (i + 1)) / 128) else none
      | _ => []
    | none => []
  | _ => []

/-- The state in which a split's instruction issues: the lines of its text that the core's instruction cache does not hold are fetched
(R44, R360, R367). -/
def fetched (s : State) (k lane : Nat) : State :=
  match (s.group k).bind fun g => (splitAt g lane).bind fun sp => (tget s.blocks g.blk).map fun b => (sp.pc, b) with
  | some (pc, b) => match fetchWords s b pc 3 with
    | .bytes _ => (readText s b.core b.ctx ([pc.toNat / 128, (pc.toNat + 11) / 128] ++ tableLines s k lane).dedup).at k lane
    | _ => s.at k lane
  | none => s.at k lane

/-- An issue that meets a home, a holder or a link that cannot answer now has not been made: it is tried again (R419, R422). -/
def unlessHeld (s : State) (k lane : Nat) : Host.Outcome State Fault Refusal → Host.Outcome State Fault Refusal
  | .next t => if t.blocked then .next { s.at k lane with free := t.free } else .next t
  | o => o

/-- The instruction of one split: a record of translated text, or native text. -/
def issueAt (s : State) (k lane : Nat) : Host.Outcome State Fault Refusal :=
  unlessHeld s k lane (match splitRecord s k lane with
    | some (p, ix) => runRecord exec (s.at k lane) p ix k lane
    | none => exec (nextInstr s k lane) (fetched s k lane))

/-- The split issues if its turn comes: nothing holds its instruction. -/
def issues (s : State) (x : Nat × Split) : Bool :=
  match issueAt s x.1 (nameLane x.2) with
  | .next t => t.issued
  | _ => false

/-- An offered split stands where it stood, though another one has issued since. -/
def stands (s : State) (x : Nat × Split) : Bool :=
  (s.group x.1).any fun g =>
    mayIssue s x.1 g && g.active.any fun p => p.ready && p.mask == x.2.mask && p.pc == x.2.pc

/-- The issue of split a brings it to where b stands, so that they become one. -/
def wouldJoin (s : State) (a b : Nat × Split) : Bool :=
  match issueAt s a.1 (nameLane a.2) with
  | .next t => t.issued && (t.group a.1).any fun g => (splitAt g (nameLane a.2)).any fun q => q.mask.getLsbD (nameLane b.2)
  | _ => false

/-- Some group is offered on both ports. -/
def bothPorts (s : State) (l : List (Nat × Split)) : Bool :=
  l.any fun x => l.any fun y => x.1 == y.1 && x.2.mask != y.2.mask && portOf s x != portOf s y

/-- The port whose choice is taken first: V, but of two splits of one group the first in slalom order, since it is the one that traps where
both would (R339); unless its issue would join it to the other one, which issues in this clock as well (R289, R306). l: the offers, those
whose spacing has passed first. -/
def firstPort (s : State) (l : List (Nat × Split)) : Nat :=
  if !(bothPorts s l) then 0
  else match l.find? fun x => portOf s x == 0 && issues s x, l.find? fun x => portOf s x == 1 && issues s x with
    | some v, some m =>
      if v.1 ≠ m.1 then 0
      else if slalomBefore m.2 v.2 then (if wouldJoin s m v then 0 else 1)
      else if wouldJoin s v m then 1 else 0
    | _, _ => 0

/-- Both ports choose in each clock from the state at its start (R306): the offers of the port that comes first, in order, then the
others. -/
def byPort (s : State) (l : List (Nat × Split)) : List (Nat × Split) :=
  let port := firstPort s (spaced s l)
  spaced s (l.filter (fun x => portOf s x == port) ++ l.filter fun x => portOf s x != port)

/-- What an offered split runs has YL = 1 (R81). -/
def yields (s : State) (x : Nat × Split) : Bool :=
  (s.group x.1).any fun g => (tget s.blocks g.blk).any fun b => (textInstr s b g x.2.pc).any fun i => i.fields.any (·.1.ctl.yl)

/-- The end of a clock that began in state s and in which the splits xs have issued: their groups stand last in their levels, those with
YL behind the others (R81, R306), and the groups that were passed over are marked (R293). -/
def endClock (s : State) (xs : List (Nat × Split)) (t : State) : State :=
  markPassed ((xs.filter (yields s)).foldl (fun t x => toBack t x.1) t) (xs.map (·.1))

/-- The lowest register that an offered split's instruction reads unmapped. -/
def deadReadOf (s : State) (x : Nat × Split) : Option Nat := do
  let i := nextInstr s x.1 (nameLane x.2)
  let (o, f) ← i.fields
  let v ← viewOf (s.at x.1 (nameLane x.2)) i o f
  minOf (deadReads v v.uses)

/-- x and y have issued in one clock, y after x: where y is an SSET of sr.dead, a dead read of x is recorded (R198). -/
def keepDead (s : State) (x y : Nat × Split) (t : State) : State :=
  match nextInstr s y.1 (nameLane y.2), deadReadOf s x with
  | .sset o, some n => if x.1 = y.1 ∧ o.imm = 25 then t.modGroup y.1 fun g => { g with dead := deadAfter g.dead n } else t
  | _, _ => t

/-- The rest of a clock that began in state s and in which x has issued: the other port issues the first split of the list that it could
issue then. One that x's trap has suspended, or that x has joined, is not issued (R339). -/
def otherPort (s : State) (x : Nat × Split) : List (Nat × Split) → State → Host.Outcome State Fault Refusal
  | [], t => .next (endClock s [x] t)
  | y :: ys, t =>
    if portOf s y = portOf s x ∨ dieClk t (dieOf y.1) < y.2.notBefore then otherPort s x ys t
    else if stands t y then
      match issueAt t y.1 (nameLane y.2) with
      | .next u => if u.issued then .next (endClock s [x, y] (keepDead s x y u)) else otherPort s x ys u
      | o => o
    else if issues s y then .next (endClock s [x] t) else otherPort s x ys t

/-- A clock of a partition that began in state s: the first split of the list that is not held issues, then one on the other port. -/
def issueClock (s : State) : List (Nat × Split) → State → Host.Outcome State Fault Refusal
  | [], t => .next t
  | x :: xs, t =>
    match issueAt t x.1 (nameLane x.2) with
    | .next u => if u.issued then otherPort s x xs u else issueClock s xs u
    | o => o

/-- A partition selects and issues (R306). -/
def issuePart (p : Nat) (s : State) : Host.Outcome State Fault Refusal := issueClock s (byPort s (offers s p)) s

end Sys2Proof.Machine
end

