-- ==== Sys2Proof/Machine/Serving.lean ====
section
/-! DEFINITION. Serving.lean: the events of the machine that a step serves, and how a step in turn serves all of them (R273, R292,
notes/assumptions/59.md). -/

namespace Sys2Proof.Machine

/-- What met a home, a holder or a link that cannot answer now is not made, and is tried again later (R419, R422). -/
def settled (s : State) : Host.Outcome State Fault Refusal → Host.Outcome State Fault Refusal
  | .next t => if t.blocked then .next { s with free := t.free } else .next t
  | o => o

/-- A waiting split's instruction once more. -/
def retryAt (s : State) (k lane : Nat) : Host.Outcome State Fault Refusal :=
  match splitRecord s k lane with
  | some (p, ix) => if dieRuns s (dieOf k) then runRecord exec (s.at k lane) p ix k lane else .next s
  | none => match waitingInstr s k lane with
    | some i => exec i (s.at k lane)
    | none => .next s

/-- An event of the machine, or a waiting split's instruction once more. -/
def runPick (s : State) (p : Pick) : Host.Outcome State Fault Refusal :=
  settled s (match p with
    | .event i => exec i s
    | .retry k lane => retryAt s k lane
    | .evict die key => .next (Sys2Proof.Machine.evictLine s die key)
    | .makeRoom => .next (Sys2Proof.Machine.makeRoom s)
    | .runAhead p n => .next (Sys2Proof.Machine.runAhead s p n)
    | .readCounter piece => .next (Sys2Proof.Machine.readCounter s piece)
    | .peerAck entry peer => .next (Sys2Proof.Machine.peerAck s entry peer)
    | .overrun q => .next (Sys2Proof.Machine.checkOverrun s q)
    | .resumeCpcmd => .next (Sys2Proof.Machine.resumeCpcmd s)
    | .outer id => .next (Sys2Proof.Machine.retryOuter s id)
    | .redispatched d => .next (Sys2Proof.Machine.endRedispatch s d)
    | .bringUp => .next (Sys2Proof.Machine.bringUp s))

/-- Nothing waits for it: whether it happens at all is free. -/
def Pick.optional : Pick → Bool
  | .evict _ _ | .makeRoom | .runAhead _ _ | .readCounter _ => true
  | .event (.shadowModeEntry _) | .event (.regionMerge _ _) => true
  | _ => false

/-- What a step in turn makes of a choice: of a port's requests it serves the oldest that can be served (R273). -/
def runInTurn (s : State) : Pick → Host.Outcome State Fault Refusal
  | .event (.homeRequest port) => settled s (.next (serveOldest s port))
  | p => runPick s p

/-- Everything that something may wait for gets its turn once, so that no choice passes it over for ever. v: a free value. -/
def serveAll (s : State) (v : Nat) : State :=
  ((picks s v).filter fun p => !p.optional).foldl (fun s p => afterwards s (runInTurn s p)) s

end Sys2Proof.Machine
end

