-- ==== Sys2Proof/Machine/Step.lean ====
section
/-! DEFINITION. Step.lean: one step of the machine: an input, an event of the machine, or the issue of one instruction
(notes/assumptions/5.md). -/

namespace Sys2Proof.Machine

/-- The end of a step: barrier waits that are over end (R289), blocks of translated text whose lanes have come to the end of a part go on
(R48), a grid that stands first now is noted (R296), and the step took some time. -/
def andTick : Host.Outcome State Fault Refusal → Host.Outcome State Fault Refusal
  | .next s => .next (tick (noteFirst (advanceBlocks (endWaits s))))
  | o => o

/-- The end of what a step does at once, which takes no time. -/
def atOnce : Host.Outcome State Fault Refusal → Host.Outcome State Fault Refusal
  | .next s => .next (noteFirst (advanceBlocks (endWaits s)))
  | o => o

/-- One of the partitions with something to issue. -/
def issueStep (s : State) : Host.Outcome State Fault Refusal :=
  match busyParts s with
  | [] => .next s
  | [p] => issuePart p s
  | ps => match pickFree s ps with
    | (some p, s) => issuePart p s
    | (none, s) => .next s

def eventStep (s : State) : Host.Outcome State Fault Refusal :=
  let (v, s) := s.draw
  match pickFree s (picks s v.toNat) with
  | (some p, s) => runPick s p
  | (none, s) => .next s

/-- Inputs are taken in their order; native instructions come from text alone. One that cannot be made now is tried again after the
others. -/
def inputStep (i : Instr) (s : State) : Host.Outcome State Fault Refusal :=
  if i.fields.isSome then .next s else settled { s with agenda := s.agenda ++ [i] } (exec i s)

/-- A step in turn: alternately the next partition issues, and every event that something may wait for is served, so that none is passed over
for ever (R273, R292, notes/assumptions/59.md). -/
def fairStep (s : State) : Host.Outcome State Fault Refusal :=
  let r := s.round
  let (w, s) := (elapse s 1 1).draw
  let s := { s with patience := w.toNat, round := r + 1 }
  if r % 2 = 0 then
    match firstFrom (r / 2) (busyParts s) with
    | some p => issuePart p s
    | none => .next s
  else
    let (v, s) := s.draw
    .next (serveAll s v.toNat)

/-- What a step serves where nothing has to come first. -/
def freeStep (s : State) : Host.Outcome State Fault Refusal :=
  if s.patience = 0 then fairStep s
  else
    let s := { s with patience := s.patience - 1 }
    if s.turn then issueStep s
    else match s.agenda with
      | i :: rest => inputStep i { s with agenda := rest }
      | [] => eventStep s

/-- One step. What has to come first takes no time; where it cannot be made now, the machine goes on (R419, R422). -/
def step (s : State) : Host.Outcome State Fault Refusal :=
  match due s with
  | some i => match exec i s with
    | .next t => if t.blocked then andTick (freeStep { s with free := t.free }) else atOnce (.next t)
    | o => o
  | none => andTick (freeStep s)

/-- s with an instruction where step fetches: numbered as spec/opcode_table.json numbers bits, zeros above nbits. -/
def State.withFetchWord (s : State) (nbits w : Nat) : State := loadWord s (BitVec.ofNat 96 (w % 2 ^ nbits))

end Sys2Proof.Machine
end

