-- ==== Sys2Proof/Safety.lean ====
section
/-! DEFINITION. Safety.lean: the words that statements use: when a split's instruction goes through with its own effect, where
lanes stand afterwards, what a lane reads, and what every step keeps. -/

namespace Sys2Proof.Machine

/-! ## An instruction that goes through -/

/-- The split that State.curGroup and State.curLane name may issue i, and nothing stops it before its own effect: its block
runs (R347), its word is legal here (R77), STALLCHECK finds no early read (R80), no operand is pending (R79), every register it
reads is mapped (R323), it needs no register that is AWAY (R330) or poisoned (R443), no held fault is delivered at it (R344, R345), and
the MMP has not just told its split that a page has no mapping (R364). -/
structure Clear (i : Instr) (s : State) (o : Op) (f : Fields) (v : View) : Prop where
  fields : i.fields = some (o, f)
  view : viewOf s i o f = some v
  going : v.g.ending = false
  noRecord : v.g.trapEvent = none
  running : v.b.phase = .running
  legal : illegalNow v i = none
  spaced : stallReason v v.uses = none
  settled : scoreboardHolds v.g v.uses = false
  mapped : deadReads v v.uses = []
  clean : poisonedRegs i v v.uses = []
  quiet : delivers v i v.uses = none
  present : awayRegs i v v.uses = []
  untold : v.sp.denied = false

/-! ## Where lanes stand, what they read -/

/-- Every lane of m stands at pc, in one split or entry of the group. -/
def Standing (g : Group) (m : Mask) (pc : DWord) : Prop := ∃ p ∈ g.active ++ g.parked, p.mask &&& m = m ∧ p.pc = pc

/-- The lanes of m stand at pc in group k of a state. -/
def StandsAt (t : State) (k : Nat) (m : Mask) (pc : DWord) : Prop := ∃ g, t.group k = some g ∧ Standing g m pc

/-- Lane l of register vn of group k. -/
def laneReg (s : State) (k n l : Nat) : Word := ((s.group k).map fun g => readReg g n l).getD 0

/-- Lane l of the pair vn, vn+1 of group k. -/
def lanePair (s : State) (k n l : Nat) : DWord := laneReg s k (n + 1) l ++ laneReg s k n l

/-- Predicate p of lane l of group k. -/
def lanePred (s : State) (k : Nat) (p : Fin 8) (l : Nat) : Bool := ((s.group k).map fun g => readPred g p l).getD false

/-- Lane l of a value of type t in vn: the pair for a 64-bit type, else the register (R72). -/
def laneValue (s : State) (k : Nat) (t : Ty) (n l : Nat) : DWord :=
  if t.wide then lanePair s k n l else (laneReg s k n l).setWidth 64

/-- Element j of lane l of the destination vd, at the instruction's type (R130). -/
def dstElem (t : State) (v : View) (o : Op) (d l j : Nat) : Nat := elem (elemBits o.ty) j (laneValue t v.k o.ty d l)

/-- Element j of a source in lane l, at the instruction's type. -/
def srcElem (v : View) (o : Op) (x : Src) (l j : Nat) : Nat := elem (elemBits o.ty) j (srcAt v.g o.ty o.imm x l)

/-- The same, read as an exact integer: signed at i types, unsigned at b types (R136). -/
def srcInt (v : View) (o : Op) (x : Src) (l j : Nat) : Int := readInt o.ty.signed (elemBits o.ty) (srcElem v o x l j)

/-- An exact result at n bits: Sat(x, lo, hi) in the saturating forms, else the remainder modulo 2^n (R130). -/
def exactNarrow (satur signed : Bool) (n : Nat) (x : Int) : Nat :=
  ((if satur then max (loOf signed n) (min (hiOf signed n) x) else x) % 2 ^ n).toNat

/-- The exact value of element j of a float source, after ABS and NEG (R158, R162). -/
def srcReal (v : View) (o : Op) (x : Src) (abs : Bool) (l j : Nat) : FVal :=
  (fmtOf o.ty).decode (elem (elemBits o.ty) j (srcFloat v.g o.ty o.imm x abs l))

/-- A product in which an infinity meets a zero (R163). -/
def noProduct (a b : FVal) : Bool := (a.isInf && b.isZero) || (a.isZero && b.isInf)

/-- The cases of R163 for a sum of terms, of which a product may not exist: NaN, infinities of both signs, an infinite term, or
one rounding of the exact sum, whose zero is negative where every term is a negative zero (R160). -/
def sumCode (f : FloatFmt) (bad : Bool) (ts : List FVal) : Nat :=
  if ts.any FVal.isNan || bad then f.nan
  else if ts.contains (.inf false) && ts.contains (.inf true) then f.nan
  else if ts.contains (.inf false) then f.overflow false
  else if ts.contains (.inf true) then f.overflow true
  else f.rne (FVal.ofQ (ts.all fun t => t.isZero && t.sign) (ts.foldl (fun acc t => Rational.add acc t.q) ⟨0, 1⟩))

/-- x[k] of R183 after n levels. -/
def treeLevel (op : DWord → DWord → DWord) (x : Nat → DWord) : Nat → Nat → DWord
  | 0, k => x k
  | n + 1, k => op (treeLevel op x n (2 * k)) (treeLevel op x n (2 * k + 1))

/-- acc of R184 before lane k. -/
def foldBefore (op : DWord → DWord → DWord) (identity : DWord) (x : Nat → DWord) : Nat → DWord
  | 0 => identity
  | k + 1 => op (foldBefore op identity x k) (x k)

/-- What an instruction that goes through and hands on its lanes leaves: it has issued, and every lane of its split stands at
the next word. -/
def Advances (t : State) (v : View) : Prop := t.issued = true ∧ StandsAt t v.k v.sp.mask (v.sp.pc + 12)

/-! ## What an instruction leaves alone -/

/-- A group with its registers and their storage, its predicates, its splits and its place in the order of issue put aside: sr.dead, the
barriers' pending lanes, the trap state, held faults, claims and all else. -/
def SameGroup (g h : Group) : Prop :=
  h = { g with regs := h.regs, hregs := h.hregs, spill := h.spill, preds := h.preds, active := h.active, parked := h.parked,
               nextAge := h.nextAge, rr := h.rr, passedSince := h.passedSince, aged := h.aged, holder := h.holder }

/-- Every register of every group reads in every lane as before, but for those that the instruction writes, those that it
releases (LU), and those whose release was pending in its group. -/
def KeepsRegs (s t : State) (v : View) : Prop :=
  ∀ k n l, l < 64 → (k ≠ v.k ∨ (n ∉ v.uses.writes ∧ n ∉ v.uses.lus ∧ (regOf v.g n).any (·.pend) = false)) →
    laneReg t k n l = laneReg s k n l

/-- A written register reads as before in the lanes that are not active, unless the instruction releases it too. -/
def KeepsInactive (s t : State) (v : View) : Prop :=
  ∀ n l, l < 64 → v.act.getLsbD l = false → n ∈ v.uses.writes → n ∉ v.uses.lus → (regOf v.g n).any (·.pend) = false →
    laneReg t v.k n l = laneReg s v.k n l

/-- Every predicate of every lane reads as before, but for the destination in the active lanes. -/
def KeepsPreds (s t : State) (v : View) : Prop :=
  ∀ k (p : Fin 8) l, (k ≠ v.k ∨ p.val ∉ v.uses.predWrites ∨ v.act.getLsbD l = false) → lanePred t k p l = lanePred s k p l

/-- The groups that do not issue change in nothing but the storage of their registers (R326). -/
def KeepsOthers (s t : State) (v : View) : Prop :=
  ∀ k, k ≠ v.k → (s.group k = none → t.group k = none) ∧
    ∀ g, s.group k = some g → ∃ h, t.group k = some h ∧ h = { g with regs := h.regs, hregs := h.hregs, spill := h.spill }

/-- The dies change in nothing but their clocks. -/
def KeepsDies (s t : State) : Prop := ∀ d : Fin 8, t.dies[d] = { s.dies[d] with clk := (t.dies[d]).clk }

/-- No register or predicate but the destination changes, and no lane of it that is not active; the other groups and the dies are
as they were. -/
structure KeepsFile (s t : State) (v : View) : Prop where
  regs : KeepsRegs s t v
  inactive : KeepsInactive s t v
  preds : KeepsPreds s t v
  others : KeepsOthers s t v
  dies : KeepsDies s t

/-- The frame of an instruction that writes registers or predicates alone: memory, tile memory, blocks, barriers, queues and
every other part of the machine are as they were, and so is every special register of its group. The names and free values that
the model has given out are its own. -/
structure Frame (s t : State) (v : View) : Prop where
  rest : t = { s with groups := t.groups, dies := t.dies, issued := t.issued, nextId := t.nextId, free := t.free }
  dies : KeepsDies s t
  others : KeepsOthers s t v
  own : ∃ h, t.group v.k = some h ∧ SameGroup v.g h
  regs : KeepsRegs s t v
  preds : KeepsPreds s t v

/-! ## What every step keeps -/

/-- Memory and tile memory are in their canonical form: addresses rise, and no byte is listed that an unlisted one reads as. -/
def Inv (s : State) : Prop := Memory.wf s.mem = true ∧ Memory.wf s.tile = true

/-! ## Barriers -/

/-- The instruction of a kind of barrier. -/
def barrierInstr (kind : BarKind) (mode : BarMode) (o : Op) : Instr :=
  match kind with
  | .blk => .bar mode o | .cls => .cbar mode o | .die => .dbar mode o

/-- The barriers of a kind that a block's lanes take part in exist (R191). -/
def barrierThere (s : State) (kind : BarKind) (b : Block) : Prop :=
  match kind with
  | .blk => True
  | .cls => (tget s.clusters b.cluster).isSome = true
  | .die => ∃ k, b.span = some k ∧ (tget s.spans k).isSome = true

/-! ## Memory instructions -/

/-- The accesses of a memory instruction, as its meaning describes them. -/
def accessOf (v : View) : Instr → Option AccessSpec
  | .ld loc w req o => some (loadSpec v o loc w req)
  | .st loc w req o => some (storeSpec v o loc w req)
  | .ldr wide o => some (ldrSpec v o wide)
  | .stc wide o => some (stcSpec v o wide)
  | .atom op ord o => some (atomSpec v o op ord false)
  | .atomt op ord o => some (atomSpec v o op ord true)
  | .signal isSt o => some (signalSpec v o isSt)
  | _ => none

/-- Nothing holds the accesses: no acquiring atomic of the lanes is under way, what they release is done, no reservation is under
way (R217, R224). -/
structure Unheld (s : State) (v : View) (sp : AccessSpec) : Prop where
  acquire : acquirePending s v.k v.act = false
  release : ∀ sc, sp.rel = some sc → fenceReady s v.k v.act .rel sc = true
  resv : (sp.kind = .ldr ∨ sp.kind = .stc) → reservationBusy s v.k v.act = false

/-- No lane's address is of an owner that it must not name, or misaligned (R211), and no lane's write meets a frozen or thawing
range (R215). -/
structure Good (s : State) (v : View) (sp : AccessSpec) : Prop where
  lanes : ∀ l, v.act.getLsbD l = true → sp.owners (sp.addr l) = true ∧ ∀ r, fateOf s v.b sp.size (sp.addr l) ≠ .bad r
  thawed : sp.checked ≠ none → ∀ l, v.act.getLsbD l = true → ownerOf (sp.addr l) = 0 →
    isFrozen s (dieOf v.k) v.b.ctx (sp.addr l) = false ∧ isThawing s (dieOf v.k) v.b.ctx (sp.addr l) = false

/-- Every active lane's access is to a scratchpad or window, at the given key, and meets no poison. -/
def Local (s : State) (v : View) (sp : AccessSpec) (key : Nat → Nat) : Prop :=
  ∀ l, v.act.getLsbD l = true → fateOf s v.b sp.size (sp.addr l) = .here (key l) ∧ s.poisoned (key l) sp.size = false

/-- Every byte of memory outside the given ranges is as it was. -/
def KeepsMemory (s t : State) (m : Mask) (size : Nat) (key : Nat → Nat) : Prop :=
  ∀ a, (∀ l, m.getLsbD l = true → a < key l ∨ key l + size ≤ a) → memByte t.mem a = memByte s.mem a

/-! ## Signals -/

/-- Lane l's signal can be read and meets the condition (R206). -/
def signalMet (cond : Cond) (s : State) (v : View) (o : Op) (l : Nat) : Prop :=
  let a := srcPair v.g o.a l
  signalOwner a = true ∧ a.toNat % 8 = 0 ∧ ∃ key w x r, targetFor s v.b a = .at key w x r ∧ s.poisoned key 8 = false ∧
    condHolds cond (toSigned 64 (s.readMem key 8)) (srcSignal v.g true o l).toInt = true

/-! ## Homes and engines -/

/-- Nothing that the Lodge has accepted waits to be performed: no access is queued for a line, no write is on its way to a holder, and no
range is being given up. Every link carries packets, and no die is in a warm reset before its drain: homes and holders can answer
(R377, R418, R422). -/
def Quiet (s : State) : Prop :=
  s.fwd = [] ∧ s.recalls = [] ∧ (∀ o ∈ s.reqs, ∀ x ∈ o.todo, x.queued = none) ∧ (∀ port : Fin 10, linkOpen s port.val = true) ∧
  (∀ d : Fin 8, undrained s d.val = false) ∧ s.blocked = false

/-- No agent but lanes waits for the MMP, and no copy has bytes that stand to land (R364, R365). -/
def AgentsIdle (s : State) : Prop :=
  (∀ c ∈ s.copies, c.cells = [] ∧ c.stall.page = none) ∧ (∀ o ∈ s.matq, o.stall.page = none) ∧ ∀ e ∈ s.stalls, e.2.page = none

/-- s with what the reads of an agent that is no lane leave of it (R360, R367, R377): clocks and turns at the Lodge, entries in TLBs, lines in
die caches with the reservations that evicted ones take along, regions of drained holders, and counts of remote lines. -/
def afterReads (s t : State) : State :=
  { s with lodge := t.lodge, portq := t.portq, served := t.served, tlb := t.tlb, dc := t.dc, resv := t.resv, regions := t.regions,
           remote := t.remote }

/-- No COPY packet waits for a DMA engine (R428). -/
def NoneWaits (s : State) : Prop := ∀ w ∈ s.works, ∀ want src dst left carry, w.kind ≠ .copy want none src dst left carry

/-! ## Traps -/

/-- A trap's frame can be written at once, and its handler stands outside it: the frame's key and the handler's address. -/
def frameThere (s : State) (v : View) (key : Nat) (handler : DWord) : Prop :=
  Quiet s ∧ (∃ w x r, frameTarget s v.b v.k = .at key w x r) ∧ ctxHandler s v.b.ctx = handler ∧ handler ≠ 0 ∧
  (key + 256 ≤ s.boot.ctxTable.toNat + 64 * v.b.ctx ∨ s.boot.ctxTable.toNat + 64 * v.b.ctx + 64 ≤ key)

/-- What trap entry leaves (R335): the whole split is in the handler, the group's other splits are suspended, handler mode is on,
M0 holds the split, the handler's registers are unmapped, the group's reservations are gone, and the frame holds CAUSE, REASON,
PC, NEXTPC, ADDR, MASK and the predicates (R45); outside the frame no byte has changed. -/
structure Trapped (s t : State) (v : View) (key : Nat) (handler : DWord) (cause reason : Nat) (pc nextPc addr : DWord) : Prop where
  issued : t.issued = true
  group : ∃ h, t.group v.k = some h ∧ h.handler = true ∧ h.m0 = v.sp.mask ∧ h.hregs = [] ∧
    h.active.map (fun p => (p.pc, p.mask)) = [(handler, v.sp.mask)] ∧ h.parked = [] ∧
    h.suspActive.map (·.mask) = (v.g.active.filter fun p => p.mask != v.sp.mask).map (·.mask) ∧
    h.suspParked.map (·.mask) = (v.g.parked.filter fun p => p.mask != v.sp.mask).map (·.mask) ∧
    h.preds = v.g.preds ∧ h.ended = v.g.ended
  word : t.readMem key 8 = cause + 256 * reason + 2 ^ 24
  pcs : t.readMem (key + 8) 8 = pc.toNat ∧ t.readMem (key + 16) 8 = nextPc.toNat ∧ t.readMem (key + 24) 8 = addr.toNat
  mask : t.readMem (key + 32) 8 = v.sp.mask.toNat
  preds : ∀ i : Fin 7, t.readMem (key + 40 + 8 * i.val) 8 = (v.g.preds[i.val + 1]).toNat
  outside : ∀ a, a < key ∨ key + 192 ≤ a → memByte t.mem a = memByte s.mem a
  resv : ∀ r ∈ t.resv, r.grp ≠ v.k

/-! ## The matrix unit -/

/-- No operation of the partition's unit uses one of the slots (R264). -/
def SlotsFree (s : State) (v : View) (slots : List Nat) : Prop :=
  ∀ x ∈ s.matq, x.part = partOf v.k → x.slots &&& slotsMask slots = 0

/-- The conditions of R262 on the slots that MMA names: all of them are the group's; A is a stream tile of FN's format and B a station
tile of one that goes with it; C's slots, where it has some, are accumulators. -/
structure TilesReady (s : State) (v : View) (fmt : MmaFmt) (m : MmaSlots) : Prop where
  claimed : ∀ n ∈ m.named, v.g.claims.getLsbD n = true
  stream : (slotHdr s (partOf v.k) m.a).role = 0 ∧ (slotHdr s (partOf v.k) m.a).fmt = Ty.code (mmaTile fmt).1 ∧
    ((mmaTile fmt).1 = .mxf8 → (slotHdr s (partOf v.k) m.a).mxe = (mmaTile fmt).2)
  station : (slotHdr s (partOf v.k) m.b).role = 1 ∧ ∃ x ∈ mmaPairs v fmt, (slotHdr s (partOf v.k) m.b).fmt = Ty.code x
  acc : ∀ q, m.c = some q → ∀ n ∈ quad q, (slotHdr s (partOf v.k) n).role = 2 ∧ (slotHdr s (partOf v.k) n).fmt = Ty.code .f32

/-- n bytes of a slot from a place on; none: a word under them is poisoned (R443). -/
def slotBytes (s : State) (p slot off n : Nat) : Option Nat := if tilePoisoned s p slot off n then none else some (tileRead s p slot off n)

/-- What was read, as a value; a poisoned word reads as NaN (R443). -/
def readAs (x : Option Nat) (value : Nat → FVal) : FVal := (x.map value).getD .nan

/-- n bytes of the scale region that a slot's header names (R256). -/
def scaleAt (s : State) (p slot off n : Nat) : Option Nat :=
  let h := slotHdr s p slot
  slotBytes s p h.sslot (16 * h.soff + off) n

/-- Nibble k of a run of them: the even one low (R107). -/
def nibble (k x : Nat) : Nat := if k % 2 = 0 then x % 16 else x / 16

/-- The value of trit j of a byte (R120). -/
def tritVal (j x : Nat) : FVal := if 243 ≤ x ∨ x / 3 ^ j % 3 = 0 then .fin false 0 1 else .fin (x / 3 ^ j % 3 == 2) 1 1

/-- The operand formats of R256 but for the logarithmic ones, whose products R119 gives. -/
def linearTiles : List Ty := [.f32, .bf16, .f16, .e4m3, .e5m2, .i8, .mxf8, .mxi8, .kf4, .t3]

/-- Element k of stored row i of a tile of a format, alone: where R256 places it, and what its code stands for (R93, R104, R108, R120). -/
def slotElem (s : State) (p slot : Nat) (ty : Ty) (i k : Nat) : FVal :=
  let h := slotHdr s p slot
  match ty with
  | .f32 => readAs (slotBytes s p slot (128 * i + 4 * k) 4) FloatFmt.f32.decode
  | .bf16 => readAs (slotBytes s p slot (128 * i + 2 * k) 2) FloatFmt.bf16.decode
  | .f16 => readAs (slotBytes s p slot (128 * i + 2 * k) 2) FloatFmt.f16.decode
  | .e4m3 => readAs (slotBytes s p slot (128 * i + k) 1) FloatFmt.e4m3.decode
  | .e5m2 => readAs (slotBytes s p slot (128 * i + k) 1) FloatFmt.e5m2.decode
  | .mxf8 => readAs (slotBytes s p slot (128 * i + k) 1) (if h.mxe then FloatFmt.e5m2 else .e4m3).decode
  | .mxi8 => readAs (slotBytes s p slot (128 * i + k) 1) mxi8Elem
  | .i8 => readAs (slotBytes s p slot (128 * i + k) 1) fun x => .fin (decide (toSigned 8 x < 0)) (toSigned 8 x).natAbs 1
  | .t3 => readAs (slotBytes s p slot (26 * i + 13 * (k / 64) + k % 64 / 5) 1) (tritVal (k % 64 % 5))
  | .kf4 => readAs (slotBytes s p slot (128 * i + k / 2) 1) fun x => kf4Elem (FloatFmt.bf16.decode h.xv) (nibble k x)
  | _ => .nan

/-- The same times every scale that the format has (R104, R110, R111, R256, R263). -/
def slotScaled (s : State) (p slot : Nat) (ty : Ty) (i k : Nat) : FVal :=
  match ty with
  | .mxf8 | .mxi8 => (slotElem s p slot ty i k).mul (readAs (scaleAt s p slot (4 * i + k / 32) 1) e8m0)
  | .t3 => (slotElem s p slot ty i k).mul (readAs (scaleAt s p slot (4 * i + 2 * (k / 64)) 2) FloatFmt.bf16.decode)
  | .kf4 =>
    (match scaleAt s p slot (32 * i + k / 8) 1, slotBytes s p slot (128 * i + k / 2) 1 with
      | some sc, some x => kf4Scaled (FloatFmt.bf16.decode (slotHdr s p slot).xv) sc (nibble k x)
      | _, _ => .nan).mul (readAs (scaleAt s p slot (4096 + 2 * (i / 64)) 2) FloatFmt.bf16.decode)
  | _ => slotElem s p slot ty i k

/-- The code of an element of an L8 or L4 tile (R116, R117). -/
def lCodeAt (s : State) (p slot : Nat) (l8 : Bool) (i k : Nat) : Option Nat :=
  if l8 then slotBytes s p slot (128 * i + k) 1 else (slotBytes s p slot (128 * i + k / 2) 1).map (nibble k)

/-- t[k] of R263 for row i of A, whose format is ta, and stored row j of B; of two L tiles by R119. -/
def slotProduct (s : State) (p a b : Nat) (scaled : Bool) (ta tb : Ty) (i j k : Nat) : FVal :=
  if ta = .l8 ∨ ta = .l4 then
    let x := match lCodeAt s p a (ta == .l8) i k, lCodeAt s p b (ta == .l8) j k with
      | some x, some y => lProduct (ta == .l8) x y
      | _, _ => .nan
    let band (slot r : Nat) : FVal := readAs (scaleAt s p slot (2 * (r / 64)) 2) FloatFmt.bf16.decode
    if scaled then (x.mul (band a i)).mul (band b j) else x
  else if scaled then (slotScaled s p a ta i k).mul (slotScaled s p b tb j k)
  else (slotElem s p a ta i k).mul (slotElem s p b tb j k)

/-- The byte at an address can be read, and is x. -/
def ByteAt (s : State) (b : Block) (a : DWord) (x : Byte) : Prop :=
  ∃ k, vaKey s b false a = .ok k ∧ s.poisoned k 1 = false ∧ memByte s.mem k = x

/-- One operation of the group stands at the end of the matrix units' queue, for its partition's unit. -/
def Queued (s t : State) (v : View) (slots : List Nat) (work : MatWork) : Prop :=
  ∃ x, t.matq = s.matq ++ [x] ∧ x.grp = v.k ∧ x.part = partOf v.k ∧ x.pc = v.sp.pc ∧ x.ctx = v.b.ctx ∧ x.slots = slotsMask slots ∧
    x.work = work

/-! ## Copies -/

/-- A copy c₀ has read one more of its pieces, or found its band scales: c is the copy and u the state after. -/
def WentOn (s u : State) (c₀ : Copy) (b : Block) (c : Copy) : Prop :=
  let x := choosePiece s (beginCopy c₀)
  advanceCopy x.2 x.1 b = (u, .ok c)

/-- The Check of R250: where every arrival is in and no byte is missing, the phase ends, and OVER says whether there were too many. -/
def BarChecked (x y : ByteBar) : Prop :=
  if x.gota = x.expa ∧ x.bal.toInt ≤ 0 then
    y.over' = decide (x.bal.toInt < 0) ∧ y.bal = 0 ∧ y.gota = 0 ∧ y.expa = x.expa ∧ y.phase = (x.phase + 1) % 2 ^ 31
  else y = x

/-! ## Packets -/

/-- The next packet of a queue can be read and its header passes: VALID, TYPE, VERSION, PRIO and the reserved bits, and no BARRIER
bit waits (R16, R28, R29, R33). a is its address; what is read stands as the command processor finds it once it has come to the homes. -/
structure PacketThere (s : State) (q : Nat) (qu : Queue) (ctx : Nat) (a : DWord) (bs : List Byte) (kind : Nat) : Prop where
  queue : tget s.queues q = some qu
  context : qu.ctx = some ctx
  place : a = qu.ring + BitVec.ofNat 64 (qu.read.toNat % 2 ^ qu.log2n * 128)
  served : serves s q qu = true
  quiet : Quiet s
  control : ∃ ks, cpKeys (readAt s 10 ctx a 128 false) ctx true qu.ctrl 24 = .ok ks
  bytes : ∃ n, cpRead (readAt s 10 ctx a 128 false) ctx a 128 = .ok n ∧ bs = leBytes 128 n
  valid : (headerOf (fieldAt bs 0 8)).valid = true
  type' : (headerOf (fieldAt bs 0 8)).kind = kind
  known : 1 ≤ kind ∧ kind ≤ 5
  barrier : (headerOf (fieldAt bs 0 8)).barrier = true → s.works.all (fun w => w.queue != q) = true
  good : reasonsOf (headerReasons (headerOf (fieldAt bs 0 8)) qu.maxPrio) = []

/-- The queue has taken its packet: READIDX has gone up by one. -/
def Consumed (t : State) (q : Nat) (qu : Queue) : Prop := tget t.queues q = some { qu with read := qu.read + 1 }

/-! ## Dispatch -/

/-- The command processor has started n things one after the other, each the first that can start in pending order (R296). -/
def Starts : Nat → State → State → Prop
  | 0, s, t => t = s
  | n + 1, s, t => ∃ u, ((visited s).findSome? fun e => visit s e.1 e.2) = some u ∧ Starts n u t

/-! ## Group records of a save area (R350, R351) -/

/-- The bytes of a register image under a code of MAP. -/
def imageSize (code : Nat) : Nat := if code = 0 then 0 else if code = 3 then 256 else 8

/-- MAP's code of v0 to v127, then of the handler's v124 to v127. -/
def imageCode (rec' : List Byte) (i : Nat) : Nat :=
  if i < 128 then fieldAt rec' 8 32 / 4 ^ i % 4 else fieldAt rec' 0x78 1 / 4 ^ (i - 128) % 4

/-- Where the image stands: behind the splits, the failed batches and the images before it. -/
def imagePlace (rec' : List Byte) (i : Nat) : Nat :=
  0x2B0 + 24 * fieldAt rec' 0 1 + 16 * fieldAt rec' 0x79 1 + ((List.range i).map fun j => imageSize (imageCode rec' j)).sum

/-- A register is as its image has it: not mapped, uniform, affine, or lane by lane. -/
def RegBack (rec' : List Byte) (i : Nat) (x : Option Reg) : Prop :=
  let word (off : Nat) : Word := BitVec.ofNat 32 (fieldAt rec' (imagePlace rec' i + off) 4)
  (imageCode rec' i = 0 → x = none) ∧
  (imageCode rec' i ≠ 0 → ∃ r, x = some r ∧ ∀ l, l < 64 → r.val.lane l =
    if imageCode rec' i = 1 then word 0 else if imageCode rec' i = 2 then word 0 + word 4 * BitVec.ofNat 32 l else word (4 * l))

/-- Split entry i stands where it was: its lanes at its PC, or suspended with them where the handler's split is another. -/
def SplitBack (rec' : List Byte) (i : Nat) (h : Group) : Prop :=
  let e := rec'.drop (0x2B0 + 24 * i)
  let m : Mask := BitVec.ofNat 64 (fieldAt e 8 8)
  let pc : DWord := BitVec.ofNat 64 (fieldAt e 0 8 / 4 * 4)
  if h.handler = true ∧ m &&& ~~~h.m0 ≠ 0 then ∃ p ∈ h.suspActive ++ h.suspParked, p.mask = m ∧ p.pc = pc else Standing h m pc

/-! ## Families of the opcode table -/

/-- OPC 0x00 to 0x1E. -/
def Instr.isInteger : Instr → Bool
  | .iadd _ _ | .isub _ _ | .imul _ | .imulh _ | .imad _ _ | .imadw _ | .imin _ | .imax _ | .iabs _ | .ineg _ => true
  | .and _ | .or _ | .xor _ | .andn _ | .not _ | .bool3 _ | .shl _ | .shr _ | .sar _ | .funnel _ _ | .rot _ _ => true
  | .clz _ | .popc _ | .brev _ | .bfe _ | .bfi _ | .isel _ | .icmp _ _ _ | .lea _ _ | .mov _ | .movi _ | .icvt _ _ _ => true
  | .plop _ _ _ | .pcnt _ | .shapeq _ | .forceu _ | .mkaff _ | .mkgen _ | .vkill _ => true
  | _ => false

/-- OPC 0x20 to 0x34. -/
def Instr.isFloat : Instr → Bool
  | .fadd _ _ | .fsub _ _ | .fmul _ _ | .ffma _ _ | .fmin _ _ | .fmax _ _ | .fcmp _ _ _ | .fclass _ | .frnd _ _ => true
  | .fdiv _ | .fdot2 _ _ | .frcp _ | .frsq _ | .fsqrt _ | .fex2 _ | .flg2 _ | .fsinpi _ | .fcospi _ => true
  | .f2i _ _ _ _ | .i2f _ _ | .f2f _ _ _ _ | .fpack _ _ _ _ _ => true
  | _ => false

/-- OPC 0x38 to 0x3C. -/
def Instr.isLane : Instr → Bool
  | .lxch _ _ | .poll _ _ | .red _ _ | .scan _ _ _ | .bcast _ => true
  | _ => false

end Sys2Proof.Machine
end

