-- ==== Sys2Proof/Certificates/Slice0/Obligations.lean ====
section
/-! DEFINITION. Obligations.lean: what the model is claimed to do. OBLIGATIONS.json gives for each statement the rules that it
formalises; a statement says in its docstring where it rests on a choice of the model. -/

open Sys2Proof Sys2Proof.Machine

/-! ## Encoding -/

/-- Every well-formed native instruction has a word, and the decoder reads that word back with every operand as it was. -/
def Obligations.DecodeOfEncode : Prop :=
  ∀ i : Instr, i.wf = true → i.fields.isSome = true → ∃ w, encode i = some w ∧ decodeWord w = .ok i

/-- A word that decodes is the one word of its instruction, and that instruction keeps every rule on its fields. -/
def Obligations.EncodeOfDecode : Prop :=
  ∀ (w : IWord) (i : Instr), decodeWord w = .ok i → encode i = some w ∧ i.wf = true

/-- Words written out from the manual's encodings decode to the instructions they stand for. -/
def Obligations.WordsDecode : Prop :=
  let ctl : Ctl := { gp := 0, gn := false, stall := 0, yl := false }
  let reg (n : Fin 128) (lu : Bool := false) : Src := { sel := .reg n, neg := false, lu := lu }
  let imm : Src := { sel := .imm, neg := false, lu := false }
  decodeWord 0x00000001000089420612_01B8#96 =
    .ok (.lxch .flip { ctl := ctl, ty := .b32, dst := .vec 9, a := reg 8 true, b := imm, c := reg 0, imm := 1 }) ∧
  decodeWord 0x3F000000_02290280_56100123#96 =
    .ok (.ffma ⟨false, true, false⟩
      { ctl := ctl, ty := .f32, dst := .vec 8, a := { sel := .reg 1, neg := true, lu := false }, b := reg 2 true,
        c := { sel := .fimm, neg := false, lu := false }, imm := 0x3F000000 }) ∧
  decodeWord 0x00000064_20008941_CE0B6000#96 =
    .ok (.iadd false
      { ctl := { gp := 3, gn := true, stall := 2, yl := false }, ty := .i32, dst := .vec 5, a := reg 7 true, b := imm, c := reg 0,
        imm := 100 })

/-- R77: the first condition that holds decides. An OPC that the map leaves undefined is UNDEF, whatever else the word holds;
0x7F is a word of the portable form; any other word that is no instruction is RSVD. -/
def Obligations.IllegalWordReasons : Prop :=
  ∀ w : IWord,
    (opcUndef (unpack w).opc.toNat = true → decodeWord w = .error .undef) ∧
    ((unpack w).opc = 0x7F → decodeWord w = .error .apf) ∧
    (opcUndef (unpack w).opc.toNat = false → (unpack w).opc ≠ 0x7F →
      decodeWord w = .error .rsvd ∨ ∃ i, decodeWord w = .ok i ∧ i.wf = true ∧ i.fields.isSome = true)

/-! ## Reset, and what every step keeps -/

/-- What the manual says of the machine after power-up: BOOTING, every die held in reset with incarnation 0, incarnation 0 at
the Gondolas, empty event rings of 64 records, nothing resident, no bind record, no held region, and zero in health counters, tile
headers, frozen regions, CPCMD and DIECTL. -/
def Obligations.ResetValues : Prop :=
  State.reset.boot.state = .booting ∧ State.reset.boot.step = 0 ∧ State.reset.boot.code = 0 ∧
  (∀ d : Fin 8, State.reset.dies[d].state = .held ∧ State.reset.dies[d].inc = 0) ∧
  (∀ g : Fin 2, State.reset.gondolas[g].inc = 0 ∧ State.reset.gondolas[g].evqctl = 6 ∧ State.reset.gondolas[g].evqridx = 0 ∧
    State.reset.gondolas[g].evqwidx = 0) ∧
  State.reset.groups = [] ∧ State.reset.blocks = [] ∧ State.reset.binds = [] ∧ State.reset.frt = [] ∧ State.reset.frtCopy = [] ∧
  State.reset.regions = [] ∧ State.reset.health = [] ∧ State.reset.hdrs = [] ∧ State.reset.cpcmd = 0 ∧ State.reset.diectl = 0

/-- Memory and tile memory are in their canonical form after reset. -/
def Obligations.ResetInv : Prop := Inv State.reset

/-- Every step keeps the canonical form of memory and of tile memory. -/
def Obligations.StepKeepsInv : Prop := ∀ s t : State, Inv s → step s = .next t → Inv t

/-! ## A step -/

/-- Where nothing is due, it is the issuing side's turn and one partition can issue, the first split that it is offered runs the
instruction that its text holds, takes the exception of a word that is none, or runs the record of translated text at which it stands; if
that issues, the clock's other port has its turn, and the step ends with the end of the barrier waits that are over, the blocks of translated
text whose lanes have come to the end of a part, and the passage of time. An event of the outside that stands first in the agenda lands
between two instructions; one that meets a home, a holder or a link that cannot answer now stands last in the agenda again. A step in turn
lets the partition issue whose turn it is, or serves everything that waits once. The order of sides and the passage of time are the model's
choice (log entries 5, 6 and 59). What is due comes before all of this, and takes no time. -/
def Obligations.StepRuns : Prop :=
  (∀ (s : State) (p k lane : Nat) (sp : Split) (rest : List (Nat × Split)) (t : State),
      due s = none → s.patience ≠ 0 → s.turn = true →
      let u := { s with patience := s.patience - 1 }
      busyParts u = [p] → byPort u (offers u p) = (k, sp) :: rest → lane = nameLane sp → t.issued = true → t.blocked = false →
      let goesOn := step s = andTick (otherPort u (k, sp) rest t)
      (∀ (g : Group) (b : Block) (bs : List Byte), u.group k = some g → splitAt g lane = some sp → tget u.blocks g.blk = some b →
        splitRecord u k lane = none → fetchWords u b sp.pc 3 = .bytes bs →
        (∀ i, decode bs = .ok i → exec i (fetched u k lane) = .next t → goesOn) ∧
        (∀ r, decode bs = .error r → exec (.illegalEncoding (wordOfBytes bs)) (fetched u k lane) = .next t → goesOn)) ∧
      (∀ (q : ApfProg) (ix : Nat), splitRecord u k lane = some (q, ix) →
        runRecord exec (u.at k lane) q ix k lane = .next t → goesOn)) ∧
  (∀ (s : State) (i : Instr) (rest : List Instr) (t : State),
      due s = none → s.patience ≠ 0 → s.turn = false → s.agenda = i :: rest → i.fields = none →
      exec i { s with patience := s.patience - 1, agenda := rest } = .next t →
      step s = andTick (.next (if t.blocked then { s with patience := s.patience - 1, agenda := rest ++ [i], free := t.free } else t))) ∧
  (∀ (s : State), due s = none → s.patience = 0 →
      let u := { (elapse s 1 1).draw.2 with patience := (elapse s 1 1).draw.1.toNat, round := s.round + 1 }
      (∀ p, s.round % 2 = 0 → firstFrom (s.round / 2) (busyParts u) = some p → step s = andTick (issuePart p u)) ∧
      (s.round % 2 = 1 → step s = andTick (.next (serveAll u.draw.2 u.draw.1.toNat)))) ∧
  ∀ (s : State) (i : Instr) (t : State), due s = some i → exec i s = .next t → t.blocked = false →
    step s = .next (noteFirst (advanceBlocks (endWaits t)))

/-! ## Integer instructions -/

/-- Every integer, logic, predicate and shape instruction that nothing stops goes on to the next word, and changes nothing but
its destination and the registers it releases. -/
def Obligations.IntegerFrame : Prop :=
  ∀ (i : Instr) (s : State) (o : Op) (f : Fields) (v : View), Machine.Instr.isInteger i = true → Clear i s o f v →
    ∃ t, exec i s = .next t ∧ Advances t v ∧ Frame s t v ∧
      ((∀ o, i ≠ .forceu o ∧ i ≠ .mkaff o ∧ i ≠ .mkgen o) → KeepsInactive s t v)

/-- R136, R137: IADD, ISUB, IMIN, IMAX, IABS and INEG, each element on its own, exact and then wrapped or saturated. -/
def Obligations.AddSubMinMaxAbsNeg : Prop :=
  ∀ (i : Instr) (s : State) (o : Op) (f : Fields) (v : View) (d : Fin 128) (satur : Bool) (op : Int → Int → Int),
    (i, satur, op) ∈ [(.iadd false o, false, fun a b => a + b), (.iadd true o, true, fun a b => a + b),
      (.isub false o, false, fun a b => a - b), (.isub true o, true, fun a b => a - b),
      (.imin o, false, fun a b => min a b), (.imax o, false, fun a b => max a b),
      (.iabs o, false, fun a _ => |a|), (.ineg o, false, fun a _ => 0 - a)] →
    Clear i s o f v → o.dst = .vec d →
    ∃ t, exec i s = .next t ∧ Advances t v ∧ ∀ l, v.act.getLsbD l = true → ∀ j, j < elemCount o.ty →
      dstElem t v o d l j = exactNarrow satur o.ty.signed (elemBits o.ty) (op (srcInt v o o.a l j) (srcInt v o o.b l j))

/-- R138: IMUL gives the low half of the exact product, IMULH the high half, IMAD the product plus C, wrapped or saturated. -/
def Obligations.Multiply : Prop :=
  ∀ (i : Instr) (s : State) (o : Op) (f : Fields) (v : View) (d : Fin 128) (r : Nat → Int → Int → Nat),
    (i, r) ∈ [(.imul o, fun n x _ => exactNarrow false o.ty.signed n x),
      (.imulh o, fun n x _ => (x % 2 ^ (2 * n)).toNat / 2 ^ n),
      (.imad false o, fun n x c => exactNarrow false o.ty.signed n (x + c)),
      (.imad true o, fun n x c => exactNarrow true o.ty.signed n (x + c))] →
    Clear i s o f v → o.dst = .vec d →
    ∃ t, exec i s = .next t ∧ Advances t v ∧ ∀ l, v.act.getLsbD l = true → ∀ j, j < elemCount o.ty →
      dstElem t v o d l j = r (elemBits o.ty) (srcInt v o o.a l j * srcInt v o o.b l j) (srcInt v o o.c l j)

/-- R142: shifts by a count read as b32, which no form reduces modulo the width. -/
def Obligations.Shifts : Prop :=
  ∀ (i : Instr) (s : State) (o : Op) (f : Fields) (v : View) (d : Fin 128) (r : Nat → Nat → Int → Nat → Int),
    (i, r) ∈ ([(.shl o, fun n a _ k => if n ≤ k then 0 else (a : Int) * 2 ^ k),
      (.shr o, fun n a _ k => if n ≤ k then 0 else (a : Int) / 2 ^ k),
      (.sar o, fun n _ a k => if n ≤ k then (if a < 0 then -1 else 0) else a / 2 ^ k)] :
        List (Instr × (Nat → Nat → Int → Nat → Int))) →
    Clear i s o f v → o.dst = .vec d →
    ∃ t, exec i s = .next t ∧ Advances t v ∧ ∀ l, v.act.getLsbD l = true → ∀ j, j < elemCount o.ty →
      dstElem t v o d l j = exactNarrow false false (elemBits o.ty)
        (r (elemBits o.ty) (srcElem v o o.a l j) (toSigned (elemBits o.ty) (srcElem v o o.a l j)) (srcB32 v.g o.imm o.b l).toNat)

/-- R140: the logic instructions, bitwise over the whole operand, which fills the lane as R74 says. -/
def Obligations.BitwiseLogic : Prop :=
  ∀ (i : Instr) (s : State) (o : Op) (f : Fields) (v : View) (d : Fin 128) (op : Bool → Bool → Bool),
    (i, op) ∈ [(.and o, fun a b => a && b), (.or o, fun a b => a || b), (.xor o, fun a b => a != b),
      (.andn o, fun a b => a && !b), (.not o, fun a _ => !a)] →
    Clear i s o f v → o.dst = .vec d →
    ∃ t, exec i s = .next t ∧ Advances t v ∧ ∀ l, v.act.getLsbD l = true →
      let x := laneValue t v.k o.ty d l
      (∀ k, k < o.ty.bits →
        x.getLsbD k = op ((srcAt v.g o.ty o.imm o.a l).getLsbD k) ((srcAt v.g o.ty o.imm o.b l).getLsbD k)) ∧
      (∀ k, o.ty.bits ≤ k → k < 32 → x.getLsbD k = (o.ty.signed && x.getLsbD (o.ty.bits - 1)))

/-- R149: ICMP writes its condition, combined with C as COMB says, into the active lanes of its predicate; a write to p0 is
discarded. -/
def Obligations.Compare : Prop :=
  ∀ (cond : Cond) (comb : Comb) (s : State) (o : Op) (f : Fields) (v : View) (p : Fin 8),
    Clear (.icmp cond comb o) s o f v → o.dst = .pred p →
    ∃ t, exec (.icmp cond comb o) s = .next t ∧ Advances t v ∧ ∀ l, v.act.getLsbD l = true → lanePred t v.k p l =
      if p = 0 then true else
        let a := srcInt v o o.a l 0; let b := srcInt v o o.b l 0
        let x := match cond with
          | .eq => decide (a = b) | .ne => decide (a ≠ b) | .lt => decide (a < b)
          | .le => decide (a ≤ b) | .gt => decide (a > b) | .ge => decide (a ≥ b)
        match comb with
          | .none => x | .and => x && srcPred v.g o.c l | .or => x || srcPred v.g o.c l

/-- R156: with some lane active FORCEU, MKAFF and MKGEN write all 64 lanes, and store the shape that each states; f is the
lowest-numbered active lane. R134, R133: with all 64 lanes active, IADD of two uniform or affine sources stores the affine shape of
the table, or uniform where both are uniform; with some lanes inactive every other integer instruction stores a general register. -/
def Obligations.Shapes : Prop :=
  (∀ (i : Instr) (s : State) (o : Op) (f : Fields) (v : View) (d : Fin 128) (w : Nat) (x : Nat → DWord) (shape : RegVal → Bool),
      (i, x, shape) ∈ [
        (.forceu o, (fun _ => srcAt v.g o.ty o.imm o.a w), fun r => r.nominal == .uniform),
        (.mkaff o, (fun l => (srcB32 v.g o.imm o.a w + srcB32 v.g o.imm o.b w * BitVec.ofNat 32 l).setWidth 64),
          fun r => r.nominal == .affine (srcB32 v.g o.imm o.a w) (srcB32 v.g o.imm o.b w)),
        (.mkgen o, (fun l => srcAt v.g o.ty o.imm o.a l), fun r => r.nominal == .general)] →
      Clear i s o f v → o.dst = .vec d → lowestLane v.act = some w →
      ∃ t h, exec i s = .next t ∧ Advances t v ∧ t.group v.k = some h ∧
        (∀ l, l < 64 → laneValue t v.k o.ty d l = x l) ∧ (regOf h d).any (fun r => shape r.val) = true) ∧
  ((∀ (s : State) (o : Op) (f : Fields) (v : View) (d : Fin 128) (a b : Word × Word),
      Clear (.iadd false o) s o f v → o.dst = .vec d → o.ty = .i32 → v.act = fullMask →
      srcAffine v.g o.imm o.a = some a → srcAffine v.g o.imm o.b = some b →
      ∃ t h, exec (.iadd false o) s = .next t ∧ t.group v.k = some h ∧ ((regOf h d).map fun r => r.val.nominal) =
        some (if srcUniform v.g .i32 o.a = true ∧ srcUniform v.g .i32 o.b = true then .uniform else .affine (a.1 + b.1) (a.2 + b.2))) ∧
    (∀ (i : Instr) (s : State) (o : Op) (f : Fields) (v : View),
      Machine.Instr.isInteger i = true → (∀ o, i ≠ .forceu o ∧ i ≠ .mkaff o ∧ i ≠ .mkgen o) → Clear i s o f v →
      v.act ≠ 0 → v.act ≠ fullMask →
      ∃ t h, exec i s = .next t ∧ t.group v.k = some h ∧
        ∀ n ∈ v.uses.writes, ((regOf h n).map fun r => r.val.nominal) = some .general))

/-- R157, R321: VKILL releases its register whatever the guard: at once where the group is one split, else at reconvergence. -/
def Obligations.Vkill : Prop :=
  ∀ (s : State) (o : Op) (f : Fields) (v : View) (r : Fin 128), Clear (.vkill o) s o f v → o.a.sel = .reg r →
    ∃ t h, exec (.vkill o) s = .next t ∧ Advances t v ∧ t.group v.k = some h ∧
      ∀ n, (n = r.val ∨ (o.ty = .b64 ∧ n = r.val + 1)) →
        ((regOf v.g n).isNone → (regOf h n).isNone) ∧ (diverged v.g = false → (regOf h n).isNone) ∧
        ((regOf h n).isNone ∨ (regOf h n).any (·.pend) = true)

/-! ## Float instructions -/

/-- Every float, SFU and conversion instruction that nothing stops goes on to the next word, and changes nothing but its
destination and the registers it releases: no float event traps, sets a flag or moves a health counter. -/
def Obligations.FloatFrame : Prop :=
  ∀ (i : Instr) (s : State) (o : Op) (f : Fields) (v : View), Machine.Instr.isFloat i = true → Clear i s o f v →
    ∃ t, exec i s = .next t ∧ Advances t v ∧ Frame s t v ∧ KeepsInactive s t v

/-- R163: FADD, FSUB, FMUL and FFMA: NaNs, infinities, and one rounding of the exact result. -/
def Obligations.FloatArithmetic : Prop :=
  ∀ (i : Instr) (s : State) (o : Op) (f : Fields) (v : View) (d : Fin 128) (abs : Abs)
    (bad : FVal → FVal → Bool) (terms : FVal → FVal → FVal → List FVal),
    (i, bad, terms) ∈ ([(.fadd abs o, (fun _ _ => false), fun a b _ => [a, b]),
      (.fsub abs o, (fun _ _ => false), fun a b _ => [a, b.neg]),
      (.fmul abs o, noProduct, fun a b _ => [a.mul b]), (.ffma abs o, noProduct, fun a b c => [a.mul b, c])] :
        List (Instr × (FVal → FVal → Bool) × (FVal → FVal → FVal → List FVal))) →
    Clear i s o f v → o.dst = .vec d →
    ∃ t, exec i s = .next t ∧ Advances t v ∧ ∀ l, v.act.getLsbD l = true → ∀ j, j < elemCount o.ty →
      let a := srcReal v o o.a abs.a l j; let b := srcReal v o o.b abs.b l j; let c := srcReal v o o.c abs.c l j
      dstElem t v o d l j = sumCode (fmtOf o.ty) (bad a b) (terms a b c)

/-- R164: FMIN and FMAX give one of their operands, its bits unchanged, and order −0 below +0; .nan and .num differ where one
operand is a NaN. R165: FCMP's conditions, combined with C, in the active lanes. -/
def Obligations.FloatOrder : Prop :=
  (∀ (i : Instr) (s : State) (o : Op) (f : Fields) (v : View) (d : Fin 128) (isMax nan : Bool),
      i = (if isMax then .fmax nan o else .fmin nan o) → Clear i s o f v → o.dst = .vec d →
      ∃ t, exec i s = .next t ∧ Advances t v ∧ ∀ l, v.act.getLsbD l = true → ∀ j, j < elemCount o.ty →
        let a := elem (elemBits o.ty) j (srcAt v.g o.ty o.imm o.a l)
        let b := elem (elemBits o.ty) j (srcAt v.g o.ty o.imm o.b l)
        let x := (fmtOf o.ty).decode a; let y := (fmtOf o.ty).decode b
        let below := fLess x y || (x.isZero && y.isZero && x.sign && !y.sign)
        let above := fLess y x || (x.isZero && y.isZero && !x.sign && y.sign)
        let r := dstElem t v o d l j
        (x.isNan = true → y.isNan = true → r = (fmtOf o.ty).nan) ∧
        (x.isNan = true → y.isNan = false → r = if nan then (fmtOf o.ty).nan else b) ∧
        (x.isNan = false → y.isNan = true → r = if nan then (fmtOf o.ty).nan else a) ∧
        (x.isNan = false → y.isNan = false → (r = a ∨ r = b) ∧
          (below = true → r = if isMax then b else a) ∧ (above = true → r = if isMax then a else b))) ∧
  (∀ (cond : FCond) (comb : Comb) (s : State) (o : Op) (f : Fields) (v : View) (p : Fin 8),
      Clear (.fcmp cond comb o) s o f v → o.dst = .pred p →
      ∃ t, exec (.fcmp cond comb o) s = .next t ∧ Advances t v ∧ ∀ l, v.act.getLsbD l = true → lanePred t v.k p l =
        if p = 0 then true else
          let a := (fmtOf o.ty).decode (srcAt v.g o.ty o.imm o.a l).toNat
          let b := (fmtOf o.ty).decode (srcAt v.g o.ty o.imm o.b l).toNat
          let un := a.isNan || b.isNan; let lt := fLess a b; let gt := fLess b a
          let x := match cond with
            | .eq => !un && !lt && !gt | .ne => un || lt || gt | .lt => !un && lt | .le => !un && !gt
            | .gt => !un && gt | .ge => !un && !lt | .nan => un | .num => !un
          match comb with
            | .none => x | .and => x && srcPred v.g o.c l | .or => x || srcPred v.g o.c l)

/-- R172: F2I rounds in its direction; SAT clamps, its absence wraps; NaN gives 0. -/
def Obligations.FloatToInteger : Prop :=
  ∀ (src : FSrc) (satur : Bool) (r : Rnd) (s : State) (o : Op) (f : Fields) (v : View) (d : Fin 128),
    Clear (.f2i src satur r o) s o f v → o.dst = .vec d →
    ∃ t, exec (.f2i src satur r o) s = .next t ∧ Advances t v ∧ ∀ l, v.act.getLsbD l = true →
      dstElem t v o d l 0 = match (fmtOf src.ty).decode (srcAt v.g src.ty o.imm o.a l).toNat with
        | .nan => 0
        | .inf neg => if satur then exactNarrow false o.ty.signed o.ty.bits (if neg then loOf o.ty.signed o.ty.bits else hiOf o.ty.signed o.ty.bits) else 0
        | .fin neg n q => exactNarrow satur o.ty.signed o.ty.bits (roundInt r neg n q)

/-! ## Instructions across lanes -/

/-- Every instruction of OPC 0x38 to 0x3C that nothing stops goes on to the next word, and changes nothing but its destination and
the registers it releases. -/
def Obligations.LaneFrame : Prop :=
  ∀ (i : Instr) (s : State) (o : Op) (f : Fields) (v : View), Machine.Instr.isLane i = true → Clear i s o f v →
    ∃ t, exec i s = .next t ∧ Advances t v ∧ Frame s t v ∧ KeepsInactive s t v

/-- R179, R180: LXCH and BCAST copy A from the lane that the mode and the selector choose, active or not; .edge takes C in its
own lane where that lane would lie outside the group. R181: POLL counts the active lanes that read 1. -/
def Obligations.LaneMoves : Prop :=
  ((∀ (mode : LxMode) (s : State) (o : Op) (f : Fields) (v : View) (d : Fin 128),
      Clear (.lxch mode o) s o f v → o.dst = .vec d →
      ∃ t, exec (.lxch mode o) s = .next t ∧ Advances t v ∧ ∀ l, v.act.getLsbD l = true →
        let n := srcB32 v.g o.imm o.b l
        laneValue t v.k o.ty d l = match mode with
          | .pick => srcAt v.g o.ty o.imm o.a (n.toNat % 64)
          | .rot => srcAt v.g o.ty o.imm o.a ((l + n.toNat) % 64)
          | .flip => srcAt v.g o.ty o.imm o.a (l ^^^ (n.toNat % 64))
          | .edge => if 0 ≤ (l : Int) + n.toInt ∧ (l : Int) + n.toInt ≤ 63
              then srcAt v.g o.ty o.imm o.a ((l : Int) + n.toInt).toNat else srcAt v.g o.ty o.imm o.c l) ∧
    (∀ (s : State) (o : Op) (f : Fields) (v : View) (d : Fin 128) (w : Nat),
      Clear (.bcast o) s o f v → o.dst = .vec d → lowestLane v.act = some w →
      ∃ t, exec (.bcast o) s = .next t ∧ Advances t v ∧ ∀ l, v.act.getLsbD l = true →
        laneValue t v.k o.ty d l = srcAt v.g o.ty o.imm o.a ((srcB32 v.g o.imm o.b w).toNat % 64))) ∧
  (∀ (mode : PollMode) (s : State) (o : Op) (f : Fields) (v : View), Clear (.poll mode o) s o f v →
      let ones := (maskLanes v.act).filter fun l => srcPred v.g o.a l
      ∃ t, exec (.poll mode o) s = .next t ∧ Advances t v ∧ ∀ l, v.act.getLsbD l = true →
        (∀ p : Fin 8, o.dst = .pred p → p ≠ 0 → lanePred t v.k p l = match mode with
          | .some => decide (0 < ones.length)
          | .every => decide (ones.length = (maskLanes v.act).length)
          | _ => decide (ones.length = 0 ∨ ones.length = (maskLanes v.act).length)) ∧
        (∀ d : Fin 128, o.dst = .vec d → mode = .first → laneReg t v.k d l = BitVec.ofNat 32 (ones.head?.getD 64)) ∧
        (∀ d : Fin 128, o.dst = .vec d → mode = .mask → ∀ m, m < 64 → (lanePair t v.k d l).getLsbD m = decide (m ∈ ones)))

/-- R183, R184: RED combines the lanes in a tree of six levels; SCAN folds them in increasing order; a lane that is not active
contributes the identity of R182. RED's nominal shape is uniform and SCAN's general; with all lanes active it is the stored one (R134). -/
def Obligations.ReduceAndScan : Prop :=
  ∀ (op : RedOp) (s : State) (o : Op) (f : Fields) (v : View) (d : Fin 128), o.dst = .vec d →
    let x (l : Nat) : DWord := if v.act.getLsbD l then srcAt v.g o.ty o.imm o.a l else redIdentity op o.ty
    (Clear (.red op o) s o f v → ∃ t h, exec (.red op o) s = .next t ∧ Advances t v ∧ t.group v.k = some h ∧
      (∀ l, v.act.getLsbD l = true → laneValue t v.k o.ty d l = treeLevel (redOp op o.ty) x 6 0) ∧
      (v.act = fullMask → ((regOf h d).map fun r => r.val.nominal) = some .uniform)) ∧
    (∀ excl, Clear (.scan op excl o) s o f v → ∃ t h, exec (.scan op excl o) s = .next t ∧ Advances t v ∧ t.group v.k = some h ∧
      (∀ l, v.act.getLsbD l = true →
        laneValue t v.k o.ty d l = foldBefore (redOp op o.ty) (redIdentity op o.ty) x (if excl then l else l + 1)) ∧
      (v.act = fullMask → ((regOf h d).map fun r => r.val.nominal) = some .general) ∧ KeepsInactive s t v)

/-! ## Control flow -/

/-- R186, R185: BRA sends its active lanes to PC + 12 + IMM, and the others of its split to the next word. R187: BRX reads its
table through the fetch path: an index below the count leads to the entry's own address plus the entry, any other falls through. R188: CALL keeps PC + 12 in its pair and branches; RET sends
each lane to the address it holds, bits [1:0] cleared. -/
def Obligations.Branches : Prop :=
  (∀ (s : State) (o : Op) (f : Fields) (v : View), Clear (.bra o) s o f v →
      ∃ t, exec (.bra o) s = .next t ∧ t.issued = true ∧ Frame s t v ∧
        (v.act ≠ 0 → StandsAt t v.k v.act (v.sp.pc + 12 + o.imm.signExtend 64)) ∧
        (v.sp.mask &&& ~~~v.act ≠ 0 → StandsAt t v.k (v.sp.mask &&& ~~~v.act) (v.sp.pc + 12))) ∧
  (∀ (s : State) (o : Op) (f : Fields) (v : View) (count : List Byte) (target : Nat → DWord), Clear (.brx o) s o f v →
      let table := v.sp.pc + 12 + o.imm.signExtend 64
      fetchWord s v.b table = .bytes count →
      (∀ l, v.act.getLsbD l = true →
        let i := (srcB32 v.g o.imm o.a l).toNat
        let e := table + BitVec.ofNat 64 (4 * (i + 1))
        (leNat count ≤ i → target l = v.sp.pc + 12) ∧
        (i < leNat count → ∃ bs, fetchWord s v.b e = .bytes bs ∧
          target l = ((e + (BitVec.ofNat 32 (leNat bs)).signExtend 64) &&& ~~~3#64))) →
      ∃ t, exec (.brx o) s = .next t ∧ t.issued = true ∧ Frame s t v ∧
        (∀ l, v.act.getLsbD l = true → StandsAt t v.k (1#64 <<< l) (target l)) ∧
        (v.sp.mask &&& ~~~v.act ≠ 0 → StandsAt t v.k (v.sp.mask &&& ~~~v.act) (v.sp.pc + 12))) ∧
  (∀ (s : State) (o : Op) (f : Fields) (v : View) (d : Fin 128), Clear (.call o) s o f v → o.dst = .vec d → v.act ≠ 0 →
    ∃ t, exec (.call o) s = .next t ∧ t.issued = true ∧ Frame s t v ∧ StandsAt t v.k v.act (v.sp.pc + 12 + o.imm.signExtend 64) ∧
      (∀ l, v.act.getLsbD l = true → lanePair t v.k d l = v.sp.pc + 12) ∧
      (v.sp.mask &&& ~~~v.act ≠ 0 → StandsAt t v.k (v.sp.mask &&& ~~~v.act) (v.sp.pc + 12))) ∧
  (∀ (s : State) (o : Op) (f : Fields) (v : View), Clear (.ret o) s o f v →
    ∃ t, exec (.ret o) s = .next t ∧ t.issued = true ∧ Frame s t v ∧
      (∀ l, v.act.getLsbD l = true → StandsAt t v.k (1#64 <<< l) (srcPair v.g o.a l &&& ~~~3#64)) ∧
      (v.sp.mask &&& ~~~v.act ≠ 0 → StandsAt t v.k (v.sp.mask &&& ~~~v.act) (v.sp.pc + 12)))

/-- R189: EXIT ends its active lanes and the others of its split go on; in trap handler mode it ends every lane of the group.
A group whose lanes have all ended waits to end. -/
def Obligations.Exit : Prop :=
  ∀ (s : State) (o : Op) (f : Fields) (v : View), Clear (.exit o) s o f v →
    ∃ t h, exec (.exit o) s = .next t ∧ t.issued = true ∧ t.group v.k = some h ∧
      h.ended = (v.g.ended ||| if v.g.handler then fullMask else v.act) ∧
      (h.ended = fullMask → h.ending = true) ∧
      (v.g.handler = false → v.sp.mask &&& ~~~v.act &&& ~~~v.g.ended ≠ 0 →
        StandsAt t v.k (v.sp.mask &&& ~~~v.act &&& ~~~v.g.ended) (v.sp.pc + 12))

/-- R190: NOP has no effect; YIELD goes on; SLEEP 0 is a NOP; any other SLEEP keeps its split waiting
until IMM clocks of the die have passed since its issue, and then goes on. -/
def Obligations.NopYieldSleep : Prop :=
  (∀ (i : Instr) (s : State) (o : Op) (f : Fields) (v : View),
    (i = .nop o ∨ i = .yield o ∨ (i = .sleep o ∧ o.imm = 0) ∨
      (i = .sleep o ∧ ∃ till, v.sp.wait = some (.sleep till) ∧ till ≤ dieClk s (dieOf v.k))) → Clear i s o f v →
    ∃ t, exec i s = .next t ∧ Advances t v ∧ Frame s t v) ∧
  (∀ (s : State) (o : Op) (f : Fields) (v : View), Clear (.sleep o) s o f v → o.imm ≠ 0 → v.sp.wait = none →
    ∃ t h, exec (.sleep o) s = .next t ∧ t.group v.k = some h ∧
      ∃ p ∈ h.active ++ h.parked, p.mask = v.sp.mask ∧ p.pc = v.sp.pc ∧
        p.wait = some (.sleep (issueClk s v + o.imm.toNat))) ∧
  (∀ (s : State) (k lane till : Nat) (o : Op) (f : Fields) (v : View), waitingInstr s k lane = some (.sleep o) →
    Clear (.sleep o) (s.at k lane) o f v → v.sp.wait = some (.sleep till) → till ≤ dieClk s (dieOf k) →
    ∃ t, exec (.sleepExpiry k lane) s = .next t ∧ Advances t v)

/-- R192, R193: the arrival of lanes none of which is pending, and whose earlier accesses are done as far as the barrier's scope asks,
counts them; the last arrival ends the phase: P + 1, C = 0, nobody
pending, and .sync goes on with it, while it waits otherwise. .wait, or the Wait part of .sync, goes on once none of its active lanes
is pending; with no active lane a barrier instruction does nothing. -/
def Obligations.Barriers : Prop :=
  (∀ (kind : BarKind) (mode : BarMode) (s : State) (o : Op) (f : Fields) (v : View),
      Clear (barrierInstr kind mode o) s o f v → barrierThere s kind v.b → mode ≠ .wait → v.sp.wait = none → v.act ≠ 0 →
      let i := o.imm.toNat % 16
      let x := getBarrier s kind v.g.blk v.b i
      pendingAt s v.k kind i &&& v.act = 0 → arrivalReady s kind v.k v.act = true → x.count.toNat + maskCount v.act < 2 ^ 32 →
      ∃ t, exec (barrierInstr kind mode o) s = .next t ∧ t.issued = true ∧ t.mem = s.mem ∧ KeepsRegs s t v ∧ KeepsPreds s t v ∧
        (x.count.toNat + maskCount v.act = expected s kind v.g.blk v.b →
          getBarrier t kind v.g.blk v.b i = { phase := x.phase + 1, count := 0 } ∧ pendingAt t v.k kind i = 0 ∧ Advances t v) ∧
        (x.count.toNat + maskCount v.act ≠ expected s kind v.g.blk v.b →
          getBarrier t kind v.g.blk v.b i = { phase := x.phase, count := x.count + BitVec.ofNat 32 (maskCount v.act) } ∧
          pendingAt t v.k kind i = (pendingAt s v.k kind i ||| v.act) ∧
          (mode = .arrive → Advances t v) ∧
          (mode = .sync → ∃ h, t.group v.k = some h ∧ ∃ p ∈ h.active ++ h.parked,
            p.mask = v.sp.mask ∧ p.pc = v.sp.pc ∧ p.wait = some (.phase (kind.offset + i) v.act (o.ctl.stall.val + 1))))) ∧
  (∀ (kind : BarKind) (mode : BarMode) (s : State) (o : Op) (f : Fields) (v : View),
      Clear (barrierInstr kind mode o) s o f v →
      (v.act = 0 ∨ ((mode = .wait ∨ v.sp.arrived = true) ∧ pendingAt s v.k kind (o.imm.toNat % 16) &&& v.act = 0)) →
      ∃ t, exec (barrierInstr kind mode o) s = .next t ∧ Advances t v ∧ t.mem = s.mem ∧ KeepsFile s t v ∧
        ∀ j, j < 16 → getBarrier t kind v.g.blk v.b j = getBarrier s kind v.g.blk v.b j)

/-! ## Waiting for a signal -/

/-- R206: SWAIT goes on when every active lane's signal meets the condition, and then pd is true in those lanes; a waiting one reads
again, and goes on at its deadline, and then pd is true in the lanes whose read had met the condition; one that a trap had suspended reads
once more before it goes on (R353). A lane reads once no access of its core to the line is under way, and here nothing waits at a home. -/
def Obligations.SignalWait : Prop :=
  (∀ (cond : Cond) (s : State) (o : Op) (f : Fields) (v : View), Clear (.swait cond o) s o f v → v.sp.wait = none →
    acquirePending s v.k v.act = false → (∀ l, v.act.getLsbD l = true → signalMet cond s v o l ∧ linePending s (coreOf v.k) (srcPair v.g o.a l) = false) →
    Quiet s → ∃ t, exec (.swait cond o) s = .next t ∧ Advances t v ∧ t.mem = s.mem ∧ KeepsFile s t v ∧
      ∀ p : Fin 8, o.dst = .pred p → ∀ l, v.act.getLsbD l = true → lanePred t v.k p l = true) ∧
  (∀ (cond : Cond) (s : State) (k lane : Nat) (o : Op) (f : Fields) (v : View) (sat : Mask),
    waitingInstr s k lane = some (.swait cond o) → Clear (.swait cond o) (s.at k lane) o f v →
    v.sp.wait = some (.swait none sat 0) → acquirePending s k v.act = false → swaitBad v o = none → v.act ≠ 0 →
    (∀ l, v.act.getLsbD l = true → linePending s (coreOf k) (srcPair v.g o.a l) = false ∧ (sat.getLsbD l = false → signalMet cond s v o l)) →
    Quiet s → ∃ t, exec (.swaitSatisfied k lane) s = .next t ∧ Advances t v ∧
      ∀ p : Fin 8, o.dst = .pred p → ∀ l, v.act.getLsbD l = true → lanePred t v.k p l = true) ∧
  (∀ (cond : Cond) (s : State) (k lane till : Nat) (o : Op) (f : Fields) (v : View) (sat failed : Mask),
    waitingInstr s k lane = some (.swait cond o) → Clear (.swait cond o) (s.at k lane) o f v →
    v.sp.wait = some (.swait (some till) sat failed) → till ≤ s.lodge → acquirePending s k v.act = false →
    swaitBad v o = none → v.act ≠ 0 →
    (v.sp.reread = true → Quiet s ∧ ∀ l, v.act.getLsbD l = true → linePending s (coreOf k) (srcPair v.g o.a l) = false) →
    ∃ t, exec (.swaitTimeout k lane) s = .next t ∧ Advances t v ∧
      ∀ p : Fin 8, o.dst = .pred p → p ≠ 0 → ∀ l, v.act.getLsbD l = true →
        (v.sp.reread = false → lanePred t v.k p l = (sat.getLsbD l && !failed.getLsbD l)) ∧
        (v.sp.reread = true → failed.getLsbD l = false → (sat.getLsbD l = true ∨ signalMet cond s v o l) → lanePred t v.k p l = true))

/-! ## Special registers -/

/-- R196: what SREG reads, by the code of its name: the lane, which a full write stores as an affine register; the group, the
block's place and shape, the die, the core, the context, the priority, the flags, the die's clock, the launch's argument and data
addresses, the pool's free slabs with the group's cells and slabs (R197), sr.dead, sr.slots, sr.mode, and the trap registers. Of sr.dspan and
sr.dsblock: the die span's number, and the block's place in it (R284); without die spans the die's place among the present dies of the grid's
class, and the block's linear index (R283, log entry 55). R199: SSET gives sr.dead, sr.hscr0 or sr.hscr1 of its group the value of
the lowest active lane; sr.dead keeps bits 31 and 6 to 0 alone; with no active lane it writes nothing. -/
def Obligations.SpecialRegisters : Prop :=
  (∀ (s : State) (o : Op) (f : Fields) (v : View) (d : Fin 128) (x : DWord) (gr : Grid),
      Clear (.sreg o) s o f v → o.dst = .vec d → tget s.grids v.b.grid = some gr →
      (o.imm, x) ∈ ([(1, v.g.idx), (2, v.b.x), (3, v.b.y), (4, v.b.z), (5, gr.gx), (6, gr.gy), (7, gr.gz), (8, gr.bx), (9, gr.byy),
        (10, gr.bz), (11, v.b.lanes), (12, v.b.lin / v.b.clusterSize), (13, v.b.member), (16, v.b.core / 32), (17, v.b.core),
        (18, v.b.ctx), (19, v.b.prio), (20, v.b.flags.toNat), (21, issueClk s v), (22, gr.args.toNat), (23, gr.kdata.toNat),
        (14, match v.b.span.bind fun n => tget s.spans n with
          | some sp => sp.num
          | none => ((presentDies s (gr.cls.getD .m)).filter fun d => d < v.b.core / 32).length),
        (15, match v.b.span.bind fun n => tget s.spans n with | some sp => v.b.lin - sp.num * gr.spanSize | none => v.b.lin),
        (24, 2 ^ 16 * (freeSlabs s v.k % 2 ^ 12) + 2 ^ 8 * (cellsOf v.g % 2 ^ 8) + slabsOf v.g % 2 ^ 8),
        (25, v.g.dead.toNat), (26, v.g.claims.toNat), (27, if v.g.handler then 1 else 0), (28, (frameAddr s v.b.ctx v.k).toNat),
        (29, v.g.hscr0.toNat), (30, v.g.hscr1.toNat)] : List (Nat × Nat)).map (fun e => (BitVec.ofNat 32 e.1, BitVec.ofNat 64 e.2)) →
      ∃ t, exec (.sreg o) s = .next t ∧ Advances t v ∧ Frame s t v ∧
        ∀ l, v.act.getLsbD l = true → laneValue t v.k o.ty d l = (x.setWidth o.ty.bits).setWidth 64) ∧
  (∀ (s : State) (o : Op) (f : Fields) (v : View) (d : Fin 128), Clear (.sreg o) s o f v → o.dst = .vec d → o.imm = 0 →
      ∃ t h, exec (.sreg o) s = .next t ∧ Advances t v ∧ Frame s t v ∧ t.group v.k = some h ∧
        (∀ l, v.act.getLsbD l = true → laneReg t v.k d l = BitVec.ofNat 32 l) ∧
        (v.act = fullMask → ((regOf h d).map fun r => r.val.nominal) = some (.affine 0 1))) ∧
  (∀ (s : State) (o : Op) (f : Fields) (v : View), Clear (.sset o) s o f v →
      ∃ t h, exec (.sset o) s = .next t ∧ Advances t v ∧ t.group v.k = some h ∧
        (match lowestLane v.act with
          | none => h.dead = v.g.dead ∧ h.hscr0 = v.g.hscr0 ∧ h.hscr1 = v.g.hscr1
          | some w =>
            let x := srcAt v.g o.ty o.imm o.a w
            h.dead = (if o.imm = 25 then x.setWidth 32 &&& 0x8000007F#32 else v.g.dead) ∧
            h.hscr0 = (if o.imm = 29 then x else v.g.hscr0) ∧ h.hscr1 = (if o.imm = 30 then x else v.g.hscr1)) ∧
        t.mem = s.mem ∧ KeepsFile s t v)

/-! ## Traps -/

/-- R200, R335: TRAP with some lane active enters the handler with cause BREAK, its code as the reason, and NEXTPC behind it; with
no active lane it does nothing. -/
def Obligations.TrapInstruction : Prop :=
  (∀ (s : State) (o : Op) (f : Fields) (v : View) (key : Nat) (handler : DWord), Clear (.trap o) s o f v → v.act ≠ 0 →
    v.g.handler = false → frameThere s v key handler → Inv s →
    ∃ t, exec (.trap o) s = .next t ∧
      Trapped s t v key handler causeBreak (o.imm.toNat % 256) v.sp.pc (v.sp.pc + 12) 0) ∧
  (∀ (s : State) (o : Op) (f : Fields) (v : View), Clear (.trap o) s o f v → v.act = 0 →
    ∃ t, exec (.trap o) s = .next t ∧ Advances t v ∧ Frame s t v)

/-- R77, R78: a word that is no instruction traps its whole split with cause ILLEGAL: UNDEF, APF or, outside a handler for a word
of SSET or TRET, PRIV, else RSVD. It has no other effect: no register is released. R89: SSET and TRET outside trap handler mode raise
PRIV; SREG of a name that is the handler's there, DBAR in a grid without die spans, and a matrix form that the class of native text does not
run raise RSVD (whose class that is: log entry 34). -/
def Obligations.IllegalTraps : Prop :=
  (∀ (w : IWord) (s : State) (v : View) (key : Nat) (handler : DWord), bareView s = some v → v.g.ending = false →
      v.g.trapEvent = none → v.b.phase = .running → v.g.handler = false → frameThere s v key handler → Inv s →
      let opc := (unpack w).opc.toNat
      let reason := if opcUndef opc then 1 else if opc = 0x7F then 3 else if opc = 0x79 ∨ opc = 0x7B then 4 else 2
      ∃ t, exec (.illegalEncoding w) s = .next t ∧ Trapped s t v key handler causeIllegal reason v.sp.pc v.sp.pc 0 ∧
        ∃ h, t.group v.k = some h ∧ h.regs = v.g.regs) ∧
  (∀ (i : Instr) (s : State) (o : Op) (f : Fields) (v : View) (key : Nat) (handler : DWord) (reason : Nat),
      i.fields = some (o, f) → viewOf s i o f = some v → i.wf = true → v.g.ending = false → v.g.trapEvent = none →
      v.b.phase = .running → v.g.handler = false → frameThere s v key handler → Inv s →
      ((i, reason) ∈ [(.sset o, 4), (.tret o, 4)] ∨ (i = .sreg o ∧ 28 ≤ o.imm.toNat ∧ reason = 2) ∨
        (∃ mode, i = .dbar mode o ∧ v.b.span = none ∧ reason = 2) ∨
        (∃ fmt, (i = .mma fmt o ∨ i = .mmas fmt o) ∧ v.translated = false ∧ fmt ∉ nativeFmts (textClass v) ∧ reason = 2)) →
      ∃ t, exec i s = .next t ∧ Trapped s t v key handler causeIllegal reason v.sp.pc v.sp.pc 0 ∧
        ∃ h, t.group v.k = some h ∧ h.regs = v.g.regs)

/-- R201, R337: TRET leaves the handler: its registers are gone, the suspended splits resume, the lanes of M0 that the frame's MASK
keeps go on at NEXTPC with p1 to p7 of the frame, and the other lanes of M0 end. Nothing else waits at a home when the frame is read. -/
def Obligations.TrapReturnInstruction : Prop :=
  ∀ (s : State) (o : Op) (f : Fields) (v : View) (key : Nat) (w x r : Bool), Clear (.tret o) s o f v →
    handlerBusy s v.k = false → frameTarget s v.b v.k = .at key w x r → Quiet s →
    let live := v.g.m0 &&& ~~~v.g.ended
    let m := BitVec.ofNat 64 (s.readMem (key + 32) 8) &&& live
    ∃ t h, exec (.tret o) s = .next t ∧ t.issued = true ∧ t.group v.k = some h ∧ h.handler = false ∧ h.m0 = 0 ∧ h.hregs = [] ∧
      h.suspActive = [] ∧ h.suspParked = [] ∧ h.ended = (v.g.ended ||| (live &&& ~~~m)) ∧
      (m ≠ 0 → StandsAt t v.k m (BitVec.ofNat 64 (s.readMem (key + 16) 8) &&& ~~~3#64)) ∧
      (∀ p ∈ v.g.suspActive ++ v.g.suspParked, p.arrived = false → p.mask &&& ~~~(live &&& ~~~m) ≠ 0 →
        StandsAt t v.k (p.mask &&& ~~~(live &&& ~~~m)) p.pc) ∧
      (∀ (p : Fin 7) l, lanePred t v.k p.succ l =
        if m.getLsbD l then (BitVec.ofNat 64 (s.readMem (key + 40 + 8 * p.val) 8)).getLsbD l else lanePred s v.k p.succ l)

/-! ## Device-side launches -/

/-- R202: LAUNCH queues one launch for each active lane, with the lane's record and status addresses. They are independent, taken in no
stated order; that the queue lists them in increasing lane order is the model's bookkeeping (log entry 52). -/
def Obligations.DeviceLaunch : Prop :=
  ∀ (s : State) (o : Op) (f : Fields) (v : View), Clear (.launch o) s o f v →
    (v.act = 0 ∨ (acquirePending s v.k v.act = false ∧ fenceReady s v.k v.act .rel .dev = true ∧
      queuedLaunches s v.b.ctx + maskCount v.act ≤ 1024 ∧
      ∀ l, v.act.getLsbD l = true → ownerOf (srcPair v.g o.a l) = 0 ∧ ownerOf (srcPair v.g o.b l) = 0 ∧ (srcPair v.g o.b l).toNat % 8 = 0)) →
    ∃ t, exec (.launch o) s = .next t ∧ Advances t v ∧ t.mem = s.mem ∧ KeepsFile s t v ∧
      t.launches.map (fun x => (x.ctx, x.grp, x.record, x.status)) =
        s.launches.map (fun x => (x.ctx, x.grp, x.record, x.status)) ++
          (maskLanes v.act).map fun l => (v.b.ctx, v.k, srcPair v.g o.a l, srcPair v.g o.b l)

/-! ## Loads, stores, reservations, atomics -/

/-- A memory instruction that nothing holds issues: its split goes on, no register or predicate but its destination changes, and no
byte of memory but those that its lanes reach in a scratchpad or window. -/
def Obligations.MemoryIssue : Prop :=
  ∀ (i : Instr) (s : State) (o : Op) (f : Fields) (v : View) (sp : AccessSpec), Clear i s o f v → accessOf v i = some sp → Inv s →
    (v.act = 0 ∨ (Unheld s v sp ∧ Good s v sp)) →
    ∃ t, exec i s = .next t ∧ Advances t v ∧ KeepsRegs s t v ∧ KeepsInactive s t v ∧ KeepsPreds s t v ∧ KeepsOthers s t v ∧
      t.tile = s.tile ∧
      ∀ a, (∀ l key, v.act.getLsbD l = true → fateOf s v.b sp.size (sp.addr l) = .here key → a < key ∨ key + sp.size ≤ a) →
        memByte t.mem a = memByte s.mem a

/-- Accesses that have to leave the core are under way: their lanes, addresses and data are named, their destination stays pending, and
memory is as it was. That the accesses of one instruction stand in one request is the model's choice (DEDUCED, log entry 10). -/
def Obligations.MemoryRequest : Prop :=
  ∀ (i : Instr) (s : State) (o : Op) (f : Fields) (v : View) (sp : AccessSpec), Clear i s o f v → accessOf v i = some sp →
    v.act ≠ 0 → Unheld s v sp → Good s v sp →
    (∀ l, v.act.getLsbD l = true → fateOf s v.b sp.size (sp.addr l) = .away ∧
      (sp.kind = .load → sp.req = .uc ∨ sp.req = .wt ∨ l1Find s (coreOf v.k) v.b.ctx (sp.addr l) = none) ∧
      (sp.kind = .stc → grantsReservation (sp.addr l) = true ∧ reserved s v.k l (sp.addr l) sp.size = true)) →
    ∃ t q h old, exec i s = .next t ∧ Advances t v ∧ t.mem = s.mem ∧ t.reqs = old ++ [q] ∧
      old.map (fun x => { x with seen := [] }) = s.reqs.map (fun x => { x with seen := [] }) ∧ q.grp = v.k ∧ q.kind = sp.kind ∧
      q.size = sp.size ∧ q.mask = v.act ∧ q.dst = o.dst ∧ q.acq = sp.acq ∧ q.got = [] ∧ q.bad = [] ∧
      (∀ x ∈ q.todo, v.act.getLsbD x.lane = true ∧ x.addr = sp.addr x.lane + BitVec.ofNat 64 (8 * x.part) ∧
        x.data = (sp.data x.lane >>> (64 * x.part)).setWidth 64) ∧
      (∀ l, v.act.getLsbD l = true → q.uniform = false → (∀ j, v.act.getLsbD j = true → l < j → sp.addr j ≠ sp.addr l) →
        ∃ x ∈ q.todo, x.lane = l ∧ x.part = 0) ∧
      t.group v.k = some h ∧ ∀ c ∈ flightsOf v.g.handler sp.kind sp.size o.dst, c ∈ h.flight

/-- R213, R210: an LD from a scratchpad or window reads its bytes there, and a narrow one is extended as its type says; nothing
else changes but who knows of writes under way (log entry 10). R213, R214: an ST writes the low bytes of its data there; where lanes overlap, the highest one's bytes stand; every
other byte is as it was. -/
def Obligations.LocalLoadStore : Prop :=
  (∀ (loc : Bool) (w : MemW) (req : ReqTy) (s : State) (o : Op) (f : Fields) (v : View) (d : Fin 128) (key : Nat → Nat),
      Clear (.ld loc w req o) s o f v → o.dst = .vec d → Unheld s v (loadSpec v o loc w req) → Good s v (loadSpec v o loc w req) →
      Local s v (loadSpec v o loc w req) key →
      ∃ t, exec (.ld loc w req o) s = .next t ∧ Advances t v ∧ Frame { s with reqs := t.reqs } t v ∧
        t.reqs.map (fun q => { q with seen := [] }) = s.reqs.map (fun q => { q with seen := [] }) ∧ ∀ l, v.act.getLsbD l = true → ∀ i, i < w.regs →
        let x := BitVec.ofNat (8 * w.bytes) (s.readMem (key l) w.bytes)
        laneReg t v.k (d + i) l = ((if o.ty.signed then x.signExtend 128 else x.setWidth 128) >>> (32 * i)).setWidth 32) ∧
  (∀ (loc : Bool) (w : MemW) (req : ReqTy) (s : State) (o : Op) (f : Fields) (v : View) (key : Nat → Nat),
      Clear (.st loc w req o) s o f v → v.act ≠ 0 → Inv s → Unheld s v (storeSpec v o loc w req) → Good s v (storeSpec v o loc w req) →
      Local s v (storeSpec v o loc w req) key →
      ∃ t, exec (.st loc w req o) s = .next t ∧ Advances t v ∧ KeepsMemory s t v.act w.bytes key ∧
        ∀ l, v.act.getLsbD l = true →
          (∀ j, v.act.getLsbD j = true → l < j → key j + w.bytes ≤ key l ∨ key l + w.bytes ≤ key j) →
          ∀ m, m < w.bytes → memByte t.mem (key l + m) = (srcData v.g w.regs o.b l).extractLsb' (8 * m) 8)

/-- R223, R224: the new value of memory by the operation, and the old value in the destination, for one active lane whose address is
in a scratchpad or window, where the atomic is performed at once. -/
def Obligations.LocalAtomic : Prop :=
  ∀ (op : AtomOp) (ord : AtomOrd) (s : State) (o : Op) (f : Fields) (v : View) (l key : Nat) (new : Nat → Nat → Nat → Nat),
    let n := o.ty.bits
    let sgn := readInt o.ty.signed n
    (op, new) ∈ ([(.add, fun a b _ => (a + b) % 2 ^ n), (.fadd, fun a b _ => sumCode .f32 false [FloatFmt.f32.decode a, FloatFmt.f32.decode b]),
      (.min, fun a b _ => if sgn a ≤ sgn b then a else b), (.max, fun a b _ => if sgn a ≥ sgn b then a else b),
      (.and, fun a b _ => a &&& b), (.or, fun a b _ => a ||| b), (.xor, fun a b _ => a ^^^ b), (.xchg, fun _ b _ => b),
      (.cas, fun a b c => if a = b then c else a), (.inc, fun a b _ => if a ≥ b then 0 else a + 1),
      (.dec, fun a b _ => if a = 0 ∨ a > b then b else a - 1)] : List (AtomOp × (Nat → Nat → Nat → Nat))) →
    Clear (.atom op ord o) s o f v → Inv s → maskLanes v.act = [l] → Unheld s v (atomSpec v o op ord false) →
    Good s v (atomSpec v o op ord false) → Local s v (atomSpec v o op ord false) (fun _ => key) →
    ∃ t, exec (.atom op ord o) s = .next t ∧ Advances t v ∧ KeepsMemory s t v.act (n / 8) (fun _ => key) ∧
      t.readMem key (n / 8) = new (s.readMem key (n / 8)) ((srcData v.g o.ty.regs o.b l).toNat % 2 ^ n)
        ((srcData v.g o.ty.regs o.c l).toNat % 2 ^ n) ∧
      ∀ d : Fin 128, o.dst = .vec d → laneValue t v.k o.ty d l = BitVec.ofNat 64 (s.readMem key (n / 8))

/-- R217, R219: LDR gives each lane its reservation; STC stores and is true where the lane holds one of the same address and width,
is false and stores nothing otherwise, and clears it. -/
def Obligations.LocalReservation : Prop :=
  (∀ (wide : Bool) (s : State) (o : Op) (f : Fields) (v : View) (key : Nat → Nat), Clear (.ldr wide o) s o f v →
    Unheld s v (ldrSpec v o wide) → Good s v (ldrSpec v o wide) → Local s v (ldrSpec v o wide) key →
    ∃ t, exec (.ldr wide o) s = .next t ∧ Advances t v ∧ t.mem = s.mem ∧
      ∀ l, v.act.getLsbD l = true → reserved t v.k l (laneAddr v.g o l) (wideSize wide) = true) ∧
  (∀ (wide : Bool) (s : State) (o : Op) (f : Fields) (v : View) (l key : Nat) (p : Fin 8), Clear (.stc wide o) s o f v → Inv s →
    o.dst = .pred p → p ≠ 0 → maskLanes v.act = [l] → Unheld s v (stcSpec v o wide) → Good s v (stcSpec v o wide) →
    Local s v (stcSpec v o wide) (fun _ => key) →
    ∃ t, exec (.stc wide o) s = .next t ∧ Advances t v ∧
      lanePred t v.k p l = reserved s v.k l (laneAddr v.g o l) (wideSize wide) ∧
      reserved t v.k l (laneAddr v.g o l) (wideSize wide) = false ∧ KeepsMemory s t v.act (wideSize wide) (fun _ => key) ∧
      t.readMem key (wideSize wide) = if reserved s v.k l (laneAddr v.g o l) (wideSize wide)
        then (srcData v.g (if wide then 2 else 1) o.b l).toNat % 2 ^ (8 * wideSize wide) else s.readMem key (wideSize wide))

/-- R215: a store, STC or atomic that meets a FROZEN range traps at issue for the whole split, with the lowest such lane's
address; no lane writes. R211, R343: an LD of an address that is misaligned, or of an owner that does not exist, raises MEMFAULT for
the lowest such lane; the instruction is behind the split, and memory is as it was but for the frame. -/
def Obligations.MemoryTraps : Prop :=
  (∀ (i : Instr) (s : State) (o : Op) (f : Fields) (v : View) (sp : AccessSpec) (l reason key : Nat) (handler : DWord),
      Clear i s o f v → accessOf v i = some sp → sp.checked = some reason → Unheld s v sp →
      v.act.getLsbD l = true → ownerOf (sp.addr l) = 0 → fateOf s v.b sp.size (sp.addr l) = .away →
      isFrozen s (dieOf v.k) v.b.ctx (sp.addr l) = true →
      (∀ j, j < l → v.act.getLsbD j = true → ownerOf (sp.addr j) = 0 → isFrozen s (dieOf v.k) v.b.ctx (sp.addr j) = false) →
      v.g.handler = false → frameThere s v key handler → Inv s →
      ∃ t, exec i s = .next t ∧ Trapped s t v key handler causeFrozen reason v.sp.pc v.sp.pc (sp.addr l) ∧ t.reqs.length = s.reqs.length) ∧
  (∀ (loc : Bool) (w : MemW) (req : ReqTy) (s : State) (o : Op) (f : Fields) (v : View) (l reason key : Nat) (handler : DWord),
      Clear (.ld loc w req o) s o f v → Unheld s v (loadSpec v o loc w req) → v.act.getLsbD l = true →
      fateOf s v.b w.bytes (laneAddr v.g o l) = .bad reason →
      (∀ j, j < l → v.act.getLsbD j = true → ∀ r, fateOf s v.b w.bytes (laneAddr v.g o j) ≠ .bad r) →
      v.g.handler = false → frameThere s v key handler → Inv s →
      (ownerKnown (laneAddr v.g o l) = false → reason = mfOwner) ∧
      (ownerKnown (laneAddr v.g o l) = true → (laneAddr v.g o l).toNat % w.bytes ≠ 0 → reason = mfAlign) ∧
      ∃ t, exec (.ld loc w req o) s = .next t ∧
        Trapped s t v key handler causeMemfault reason v.sp.pc (v.sp.pc + 12) (laneAddr v.g o l))

/-- R220, R221: PRF and WBL ask for lines and go on: they write no register and no byte of memory. R227: a FENCE goes on when what
it waits for is done; .acq and .sc at .cls or wider leave no line in the core's L1 but replicas of frozen ranges; registers and memory
are as they were. A release at .grp or .blk marks who knows of the writes under way, and an acquire the atomics that it does not wait for
(DEDUCED, log entry 10). -/
def Obligations.PrefetchAndFence : Prop :=
  (∀ (i : Instr) (s : State) (o : Op) (f : Fields) (v : View),
      ((∃ ex lvl, i = .prf ex lvl o) ∨ (i = .wbl o ∧ acquirePending s v.k v.act = false)) → Clear i s o f v →
      ∃ t, exec i s = .next t ∧ Advances t v ∧ Frame { s with reqs := t.reqs } t v ∧
        (t.reqs = s.reqs ∨ ∃ q, t.reqs = s.reqs ++ [q] ∧ q.grp = v.k ∧
          ∀ x ∈ q.todo, v.act.getLsbD x.lane = true ∧ x.addr = laneAddr v.g o x.lane ∧ fateOf s v.b 1 x.addr = .away)) ∧
  (∀ (scope : Scope) (ord : FenceOrd) (s : State) (o : Op) (f : Fields) (v : View), Clear (.fence scope ord o) s o f v →
      (v.act = 0 ∨ fenceReady s v.k v.act ord scope = true) →
      ∃ t, exec (.fence scope ord o) s = .next t ∧ Advances t v ∧ Frame { s with l1 := t.l1, reqs := t.reqs } t v ∧
        t.reqs.map (fun q => { q with seen := [], fenced := 0, fencedWide := false }) =
          s.reqs.map (fun q => { q with seen := [], fenced := 0, fencedWide := false }) ∧
        t.l1 = (if v.act ≠ 0 ∧ ord ≠ .rel ∧ scope ≠ .grp ∧ scope ≠ .blk then
          s.l1.filter fun x => x.core != coreOf v.k || x.replica else s.l1))

/-! ## Frozen regions -/

/-- R229 to R231, R233: what FRZ and THAW do when nothing holds them, f being the lowest active lane's range: an FRZ of an invalid
range is refused with ticket reason 2; of a range that is FROZEN in its context it counts up; of a new one it takes the lowest LIVE
entry; a THAW of a range that is not FROZEN is refused with reason 4; one that leaves a count counts down; the last one makes the
entry THAWING. A refusal's ticket has FAIL and the reason, with pd false. One that succeeds has pd true and the ticket of its entry and its
number there, ISSUED + 1; an FRZ of a range that is THAWING waits. That the Lodge applies an FRZ or THAW when it issues, that refusals come
back at once, and a success once the issuing die's copy agrees on the entry, is the model's choice (DEDUCED, log entry 26). -/
def Obligations.FreezeAndThaw : Prop :=
  ∀ (thaw sys : Bool) (i : Instr) (s : State) (o : Op) (f : Fields) (v : View) (d : Fin 8) (w : Nat),
    i = (if thaw then .thaw o else .frz sys o) → Clear i s o f v → lowestLane v.act = some w → o.dst = .pred d → d ≠ 0 →
    acquirePending s v.k v.sp.mask = false → frzLate s v.k = false → linkOpen s (dieOf v.k) = true → (thaw = false → fenceReady s v.k v.sp.mask .rel (if sys then .sys else .dev) = true) →
    let base := srcPair v.g o.a w
    let len := srcPair v.g o.b w
    let ctx := v.b.ctx
    let refused (t : State) (ticket : Word) : Prop := t.frt = s.frt ∧ ∀ l, v.act.getLsbD l = true →
      lanePred t v.k d l = false ∧ laneReg t v.k (o.imm.toNat % 128) l = ticket
    let waits (t : State) (result : Option (Bool × Word × Nat)) : Prop :=
      ∃ r ∈ t.frzReqs, r.grp = v.k ∧ r.mask = v.act ∧ r.pd = d ∧ r.vt = o.imm.toNat % 128 ∧ r.thaw = thaw ∧ r.result = result
    let granted (t : State) (e : Nat) : Prop :=
      let ticket : Word := BitVec.ofNat 32 (e * 2 ^ 23 + ((frtEntry s e).issued + 1).toNat)
      ((copyAgrees t (dieOf v.k) e = true ∨ (thaw = true ∧ 1 < (frtEntry s e).count)) →
        ∀ l, v.act.getLsbD l = true → lanePred t v.k d l = true ∧ laneReg t v.k (o.imm.toNat % 128) l = ticket) ∧
      (copyAgrees t (dieOf v.k) e = false → (thaw = true → (frtEntry s e).count ≤ 1) → waits t (some (true, ticket, e)))
    let frozen := frtMatch s .frozen ctx base.toNat len.toNat
    ∃ t, exec i s = .next t ∧ Advances t v ∧ t.mem = s.mem ∧ KeepsFile s t v ∧
      (thaw = false → rangeOk base len = false → refused t 0x80000002) ∧
      (thaw = false → rangeOk base len = true → frtMatch s .thawing ctx base.toNat len.toNat = none →
        (∀ e, frozen = some e → (frtEntry s e).count < 255 → (frtEntry t e).state = .frozen ∧
          (frtEntry t e).count = (frtEntry s e).count + 1 ∧ (frtEntry t e).issued = (frtEntry s e).issued + 1 ∧
          (frtEntry t e).sys = ((frtEntry s e).sys || sys) ∧ granted t e) ∧
        (∀ e, frozen = some e → (frtEntry s e).count = 255 → refused t 0x80000003) ∧
        (frozen = none → ∀ e, lowestLive s = some e → (frtEntry t e).state = .frozen ∧ (frtEntry t e).count = 1 ∧
          (frtEntry t e).ctx = ctx ∧ (frtEntry t e).base * 4096 = base.toNat ∧ (frtEntry t e).len * 4096 = len.toNat ∧
          (frtEntry t e).sys = sys ∧ (frtEntry t e).issued = (frtEntry s e).issued + 1 ∧ granted t e) ∧
        (frozen = none → lowestLive s = none → refused t 0x80000001)) ∧
      (thaw = false → rangeOk base len = true → frtMatch s .thawing ctx base.toNat len.toNat ≠ none → t.frt = s.frt ∧ waits t none) ∧
      (thaw = true → (frozen = none → refused t 0x80000004) ∧
        ∀ e, frozen = some e → granted t e ∧
          (1 < (frtEntry s e).count → (frtEntry t e).state = .frozen ∧ (frtEntry t e).count = (frtEntry s e).count - 1) ∧
          ((frtEntry s e).count ≤ 1 → (frtEntry t e).state = .thawing ∧ (frtEntry t e).count = 0))

/-- R234, R235: FWAIT goes on when every active lane's ticket is complete or failed, and acquires; FQRY gives the entry, scope and state that
the issuing die's copy of the table holds for the address, with the count that the Lodge holds for that entry (the copy has none: DEDUCED, log
entry 26), and changes nothing but its destination. -/
def Obligations.FreezeWaitAndQuery : Prop :=
  (∀ (s : State) (o : Op) (f : Fields) (v : View), Clear (.fwait o) s o f v →
    (∀ l, v.act.getLsbD l = true →
      let t : Word := (srcData v.g 1 o.a l).setWidth 32
      t.getLsbD 31 = true ∨ ((frtEntry s (t.toNat / 2 ^ 23 % 256)).done - t.setWidth 23).toNat < 2 ^ 22) →
    ∃ t, exec (.fwait o) s = .next t ∧ Advances t v ∧ Frame { s with l1 := t.l1 } t v ∧
      (v.act ≠ 0 → t.l1 = s.l1.filter fun x => x.core != coreOf v.k || x.replica)) ∧
  (∀ (s : State) (o : Op) (f : Fields) (v : View) (d : Fin 128), Clear (.fqry o) s o f v → o.dst = .vec d →
    ∃ t, exec (.fqry o) s = .next t ∧ Advances t v ∧ Frame s t v ∧ ∀ l, v.act.getLsbD l = true →
      laneReg t v.k d l = if 2 ^ 48 ≤ (laneAddr v.g o l).toNat then 0
        else match (frtCovers s (dieOf v.k) v.b.ctx (laneAddr v.g o l)).head? with
        | none => 0
        | some (e, c) => BitVec.ofNat 32 (e * 2 ^ 24 + 2 ^ 11 + (if c.sys then 2 ^ 10 else 0) + (if c.state = .frozen then 1 else 2) * 2 ^ 8 +
            (if c.state = .frozen then (frtEntry s e).count % 256 else 0)))

/-- R232, R233, R398: a die installs, in its copy, the change of the first operation that waits for it, and acknowledges it once its
writes to the range are acknowledged; a die that collects leaves the FROZEN state in its copy, keeps no replica of a line of the range that
no other entry spares, and acknowledges (nothing else waits at a home then); when every die and peer has acknowledged the collection that comes first of an entry, the
entry is LIVE in every copy and its ticket is complete. -/
def Obligations.FreezeInstalls : Prop :=
  (∀ (s : State) (die : Nat) (before after : List FrzOp) (q : FrzOp) (f : FrtCopy) (ds ps : List Nat),
    s.frzOps = before ++ q :: after → (∀ o ∈ before, die ∉ o.stage.awaits.1) → q.stage = .install f ds ps → die ∈ ds →
    linkOpen s die = true → (∀ w ∈ s.fwd, w.die ≠ die) →
    ∃ t, exec (.frzInstall die) s = .next t ∧ tget t.frtCopy (die * 256 + q.entry) = some f ∧ t.mem = s.mem ∧
      (writesUnder s die f = true → q ∈ t.frzOps) ∧
      (writesUnder s die f = false → (∀ o ∈ before ++ after, o.entry = q.entry → o.seq ≠ q.seq) →
        ∀ o ∈ t.frzOps, o.entry = q.entry → o.seq = q.seq → die ∉ o.stage.awaits.1)) ∧
  (∀ (s : State) (die entry : Nat) (before after : List FrzOp) (q : FrzOp) (spared : List (Nat × Nat)) (ds ps : List Nat) (c : FrtCopy),
    s.frzOps = before ++ q :: after → (∀ o ∈ before, o.entry = entry → die ∉ o.stage.awaits.1) → q.entry = entry →
    q.stage = .collect spared ds ps → die ∈ ds → Quiet s → tget s.frtCopy (die * 256 + entry) = some c →
    ∃ t, exec (.collectRequest die entry) s = .next t ∧ tget t.frtCopy (die * 256 + entry) = some { c with state := .thawing } ∧
      t.mem = s.mem ∧
      (∀ l ∈ t.dc, l.die = die → l.replica = true → l.ctx = (frtEntry s entry).ctx →
        l.vline * 128 < (frtEntry s entry).base * 4096 ∨
          ((frtEntry s entry).base + (frtEntry s entry).len) * 4096 ≤ l.vline * 128 ∨
          ∃ x ∈ spared, x.1 * 4096 ≤ l.vline * 128 ∧ l.vline * 128 < (x.1 + x.2) * 4096) ∧
      ((∀ o ∈ before ++ after, o.entry = entry → o.seq ≠ q.seq) →
        ∀ o ∈ t.frzOps, o.entry = entry → o.seq = q.seq → die ∉ o.stage.awaits.1)) ∧
  (∀ (s : State) (entry : Nat) (q : FrzOp) (spared : List (Nat × Nat)), entry < 256 →
    s.frzOps.find? (fun o => o.entry == entry) = some q → q.stage = .collect spared [] [] → (∀ r ∈ s.frzReqs, r.result ≠ none) →
    ∃ t, exec (.collectionComplete entry) s = .next t ∧ (frtEntry t entry).state = .live ∧ (frtEntry t entry).count = 0 ∧
      (∀ die, tget t.frtCopy (die * 256 + entry) = none) ∧
      (q.seq.isSome = true → (∀ o ∈ s.frzOps, o.entry = entry → o = q) → s.frzOps.count q = 1 →
        (frtEntry t entry).done = (frtEntry s entry).done + 1 ∧ ∀ o ∈ t.frzOps, o.entry ≠ entry))

/-! ## Lift copies, byte barriers, pinning -/

/-- R239, R241, R243, R246 to R248, R250: a CPY or CPYG of a good descriptor starts one copy, which holds the descriptor's bytes and
the rows of its active lanes, and moves no byte yet. CBATCH gives the group's open copies the next batch number, which it returns.
CWAIT goes on when no copy that it covers is under way, and its pd says whether they all succeeded. A delivery reads one of the pieces
left, if one is left, and lands some of the bytes that stand to land and no other byte, and the byte barrier counts them, with the Check of
R250; the read itself changes no byte. A piece without a conversion writes the bytes of its source, byte for byte; one with a conversion
between unblocked float formats writes each element's value, read exactly, rounded once as the descriptor says (R97 to R99) under the random
bits of its place (R100); each byte lands at its address, but where a word is shared with a piece still to be read it waits for the rest. A
copy with nothing left is complete. How a copy is cut into pieces is log entry 28's; nothing else waits at a home meanwhile. -/
def Obligations.LiftCopies : Prop :=
  (∀ (i : Instr) (tb cv : Bool) (dim : Option CpyDim) (s : State) (o : Op) (f : Fields) (v : View) (w : Nat) (bs : List Byte),
    i = (match dim with | some d => .cpy tb cv d o | none => .cpyg tb cv o) → Clear i s o f v → lowestLane v.act = some w →
    let rows := if dim.isSome then [] else (maskLanes v.act).map fun l => (l, (srcData v.g 1 o.b l).toNat % 2 ^ 32)
    acquirePending s v.k v.sp.mask = false → lanesSettled s v.k v.sp.mask = true →
    (s.copies.filter fun c => c.grp == v.k).length < 64 → (srcPair v.g o.a w).toNat % 8 = 0 →
    readDesc s v.b (srcPair v.g o.a w) = .ok bs → descOk cv tb dim.isNone dim (descOf bs) = true →
    frozenRanges s (dieOf v.k) v.b.ctx (destRanges (descOf bs) cv (copyRows (descOf bs) dim.isNone rows)) = .clear → Quiet s →
    ∃ t c, exec i s = .next t ∧ Advances t v ∧ Frame { afterReads s t with copies := t.copies } t v ∧ t.copies = s.copies ++ [c] ∧
      c.grp = v.k ∧ c.ctx = v.b.ctx ∧ c.desc = srcPair v.g o.a w ∧ c.bytes = bs ∧ c.cv = cv ∧ c.tb = tb ∧ c.dim = dim ∧
      c.rows = rows ∧ c.batch = none ∧ c.units = none ∧ c.cells = []) ∧
  (∀ (s : State) (o : Op) (f : Fields) (v : View), Clear (.cbatch o) s o f v → v.act ≠ 0 →
    ∃ t h, exec (.cbatch o) s = .next t ∧ Advances t v ∧ t.mem = s.mem ∧ KeepsFile s t v ∧ t.group v.k = some h ∧ h.batch = v.g.batch + 1 ∧
      t.copies = s.copies.map (fun c => if c.grp = v.k ∧ c.batch = none then { c with batch := some (v.g.batch + 1) } else c) ∧
      ∀ d : Fin 128, o.dst = .vec d → ∀ l, v.act.getLsbD l = true → laneReg t v.k d l = (v.g.batch + 1).setWidth 32) ∧
  (∀ (s : State) (o : Op) (f : Fields) (v : View) (w : Nat), Clear (.cwait o) s o f v → lowestLane v.act = some w →
    (∀ c ∈ s.copies, c.grp = v.k → batchCovered (srcBatch v.g o w) c.batch = false) →
    (∀ p : Fin 8, o.dst = .pred p → p ≠ 0 → ∃ t, exec (.cwait o) s = .next t ∧ Advances t v ∧ t.mem = s.mem ∧
      KeepsFile s t v ∧ ∀ l, v.act.getLsbD l = true → lanePred t v.k p l = !(v.g.copyFails.any fun x => batchCovered (srcBatch v.g o w) x.batch)) ∧
    ((∀ x ∈ v.g.copyFails, batchCovered (srcBatch v.g o w) x.batch = false) →
      ∃ t, exec (.cwait o) s = .next t ∧ Advances t v ∧ t.mem = s.mem ∧ KeepsFile s t v)) ∧
  (∀ (s u : State) (id k : Nat) (c₀ c : Copy) (b : Block), findCopy s id = some (c₀, b) → copyRuns s c₀ = true → barLost s c₀ b = false →
    WentOn s u c₀ b c → Quiet u → Inv u → copyHeld u c = false →
    (c.tb = true → ∃ key, placeOf u b (descOf c.bytes).tbar = .local key ∧ u.poisoned key 16 = false) → (c.cells.map (·.1)).Nodup →
    (∀ key, c.tb = true → placeOf u b (descOf c.bytes).tbar = .local key → ∀ x ∈ c.cells, x.1 < key ∨ key + 16 ≤ x.1) →
    ∃ t now rest x, exec (.copyBytesDelivered id k) s = .next t ∧ (now ++ rest).Perm c.cells ∧ (c.cells ≠ [] → now ≠ []) ∧
      x ∈ t.copies ∧ x.id = id ∧ x.cells = rest ∧ x.units = c.units ∧
      (∀ y ∈ now, memByte t.mem y.1 = y.2) ∧
      (∀ a, a ∉ now.map (·.1) → (∀ key, c.tb = true → placeOf u b (descOf c.bytes).tbar = .local key → a < key ∨ key + 12 ≤ a) →
        memByte t.mem a = memByte u.mem a) ∧
      ∀ key, c.tb = true → placeOf u b (descOf c.bytes).tbar = .local key →
        BarChecked { readBar u key with bal := (readBar u key).bal - BitVec.ofNat 32 now.length } (readBar t key)) ∧
  (∀ (s u : State) (c₀ c : Copy) (b : Block), Quiet s → WentOn s u c₀ b c → u.mem = s.mem ∧ u.tile = s.tile ∧ Quiet u) ∧
  (∀ (s t : State) (c c' : Copy) (b : Block) (row : CopyRow) (u : Nat × Nat), Quiet s → c.buf = [] → c.part = [] →
    readUnit s c b row u = (t, .ok c') →
    ∃ (v : State) (ps : List Piece) (ev : Counts), v.mem = s.mem ∧ unitPieces v b c (descOf c.bytes) row u.2 = .ok (ps, ev) ∧
      c'.units = some ((c.units.getD []).filter (· != u)) ∧
      (∀ y ∈ c'.cells, y ∈ c.cells ∨ ∃ w p i, w.mem = s.mem ∧ p ∈ ps ∧ p.2[i]? = some y.2 ∧ vaKey w b true (addr p.1 i) = .ok y.1) ∧
      ∀ p ∈ ps, ∀ i x, p.2[i]? = some x → ((addr p.1 i).toNat, x) ∈ c'.part ∨ ∃ key, (key, x) ∈ c'.cells) ∧
  (∀ (s : State) (b : Block) (c : Copy) (row : CopyRow) (x0 : Nat) (src : Nat → Byte), c.cv = false →
    let d := descOf c.bytes
    let n := min 128 (d.nx - x0)
    (∀ i, i < n → ByteAt s b (addr row.srcAddr (x0 + i)) (src i)) →
    ∃ ev, unitPieces s b c d row x0 = .ok ([(addr row.dstAddr x0, (List.range n).map src)], ev)) ∧
  (∀ (s : State) (b : Block) (c : Copy) (row : CopyRow) (x0 : Nat) (src : Nat → List Byte) (st dt : Ty), c.cv = true →
    let d := descOf c.bytes
    st ∈ [Ty.f32, .f16, .bf16, .e4m3, .e5m2] → dt ∈ [Ty.f32, .f16, .bf16, .e4m3, .e5m2] → d.sfmt = some st → d.dfmt = some dt →
    let n := min (1024 / st.bits) (d.nx - x0)
    (∀ i, i < n → (src i).length = st.bits / 8 ∧
      ∀ j x, (src i)[j]? = some x → ByteAt s b (addr row.srcAddr ((x0 + i) * (st.bits / 8) + j)) x) →
    let mode (i : Nat) : RoundMode := if d.rnd = 1 then .sr (srBits d.seed (BitVec.ofNat 32 (row.dst * d.nx + x0 + i))) else .rne
    ∃ ev, unitPieces s b c d row x0 = .ok ([(addr row.dstAddr (x0 * (dt.bits / 8)), (List.range n).flatMap fun i =>
      leBytes (dt.bits / 8) ((fmtOf dt).round (mode i) d.sat ((fmtOf st).decode (leNat (src i)))).code)], ev)) ∧
  (∀ (s : State) (id : Nat) (c : Copy) (b : Block), findCopy s id = some (c, b) → copyRuns s c = true → c.units = some [] → c.cells = [] →
    exec (.copyComplete id) s = .next { s with copies := s.copies.filter fun x => x.id != id })

/-- R249 to R252, at a byte barrier whose address names a scratchpad: TBINIT makes one with no bytes, no arrivals, the expected count
clamped to 1 … 65535, and phase 0; TBEXP adds to the balance; TBARR adds to it, counts an arrival and returns the phase it found;
each then makes the Check: where GOTA = EXPA and BAL ≤ 0, OVER says whether BAL < 0, BAL and GOTA are 0 and PHASE is one more; else the
barrier stays as it is. TBWAIT goes on when the phase is another than the one it names. TBINIT alone goes through where the
barrier is poisoned. -/
def Obligations.ByteBarriers : Prop :=
  ∀ (s : State) (o : Op) (f : Fields) (v : View) (w key : Nat), lowestLane v.act = some w → Inv s →
    barFate s v (laneAddr v.g o w) = .here key →
    let n : Word := (srcData v.g 1 o.b w).setWidth 32
    let x := readBar s key
    let one : Nat → Nat := fun _ => key
    (Clear (.tbinit o) s o f v → ∃ t, exec (.tbinit o) s = .next t ∧ Advances t v ∧ KeepsMemory s t v.act 16 one ∧ KeepsFile s t v ∧
      readBar t key = { bal := 0, gota := 0, expa := max 1 (min n.toNat 65535), phase := 0, over' := false }) ∧
    (Clear (.tbexp o) s o f v → s.poisoned key 16 = false → ∃ t, exec (.tbexp o) s = .next t ∧ Advances t v ∧ KeepsMemory s t v.act 16 one ∧ KeepsFile s t v ∧
      BarChecked { x with bal := x.bal + n } (readBar t key)) ∧
    (Clear (.tbarr o) s o f v → s.poisoned key 16 = false → lanesSettled s v.k v.sp.mask = true →
      ∃ t, exec (.tbarr o) s = .next t ∧ Advances t v ∧ KeepsMemory s t v.act 16 one ∧ KeepsFile s t v ∧
        BarChecked { x with bal := x.bal + n, gota := (x.gota + 1) % 65536 } (readBar t key) ∧
        ∀ d : Fin 128, o.dst = .vec d → ∀ l, v.act.getLsbD l = true → laneReg t v.k d l = BitVec.ofNat 32 x.phase) ∧
    (∀ strict, Clear (.tbwait strict o) s o f v → s.poisoned key 16 = false → x.phase ≠ n.toNat % 2 ^ 31 → (strict = true → x.over' = false) →
      ∃ t, exec (.tbwait strict o) s = .next t ∧ Advances t v ∧ Frame { s with l1 := t.l1 } t v)

/-- R253: IPF asks for text lines and changes nothing else but what the reads leave at the Lodge, in TLBs and in die caches; IPIN pins the lines of its range where all are mapped and the core has
room for them, and its pd says so; IUNPIN takes away the block's pins that touch its range, where all of it is mapped. -/
def Obligations.PrefetchAndPinning : Prop :=
  (∀ (s : State) (o : Op) (f : Fields) (v : View), Clear (.ipf o) s o f v → Quiet s →
    ∃ t, exec (.ipf o) s = .next t ∧ Advances t v ∧ Frame { afterReads s t with ilines := t.ilines } t v) ∧
  (∀ (s : State) (o : Op) (f : Fields) (v : View) (w : Nat), Clear (.ipin o) s o f v → lowestLane v.act = some w → Quiet s →
    let ls := textLines v o w
    let news := (ls.map fun n => (v.b.ctx, n)).filter fun x => !((pinnedOn s v.b.core).contains x)
    let ok := textMapped s v o w && decide ((textRange v o w).2 ≤ 128) && decide ((pinnedOn s v.b.core).length + news.length ≤ 128)
    ∃ t b, exec (.ipin o) s = .next t ∧ Advances t v ∧ t.mem = s.mem ∧ KeepsFile s t v ∧ tget t.blocks v.g.blk = some b ∧
      b.pins = (if ok then v.b.pins ++ ls.filter (fun n => !(v.b.pins.contains n)) else v.b.pins) ∧
      ∀ p : Fin 8, o.dst = .pred p → p ≠ 0 → ∀ l, v.act.getLsbD l = true → lanePred t v.k p l = ok) ∧
  (∀ (s : State) (o : Op) (f : Fields) (v : View) (w : Nat), Clear (.iunpin o) s o f v → lowestLane v.act = some w →
    let first := (textRange v o w).1
    let n := (textRange v o w).2
    ∃ t b, exec (.iunpin o) s = .next t ∧ Advances t v ∧ t.mem = s.mem ∧ KeepsFile s t v ∧ tget t.blocks v.g.blk = some b ∧
      b.pins = if textMapped s v o w then v.b.pins.filter fun x => !(decide (first ≤ x) && decide (x < first + n)) else v.b.pins)

/-! ## Tile slots and the matrix unit -/

/-- R255 to R257, R261, R264 to R267: claims, of which no group of a lower slot has one to be served first, releases and zeroed slots,
MMOV between lanes and a slot, MWAIT, MXV and MCNT, for slots that no operation uses. -/
def Obligations.TileSlots : Prop :=
  ∀ (s : State) (o : Op) (f : Fields) (v : View), v.act ≠ 0 → Inv s →
    let m : BitVec 16 := o.imm.setWidth 16
    let slot := o.imm.toNat % 16
    let part := partOf v.k
    let base := o.imm.toNat / 16 % 64 * 256
    (Clear (.mclaim o) s o f v → slotsBusy s part m = false → claimedFirst s v.k m = false → (othersClaims s v.k &&& m = 0 ∨ ∃ p, o.dst = .pred p) →
      ∃ t h, exec (.mclaim o) s = .next t ∧ Advances t v ∧ t.mem = s.mem ∧ KeepsFile s t v ∧ t.group v.k = some h ∧
        h.claims = (if othersClaims s v.k &&& m = 0 then v.g.claims ||| m else v.g.claims) ∧
        ∀ p : Fin 8, o.dst = .pred p → p ≠ 0 → ∀ l, v.act.getLsbD l = true →
          lanePred t v.k p l = decide (othersClaims s v.k &&& m = 0)) ∧
    (Clear (.mrel o) s o f v → slotsBusy s part m = false →
      ∃ t h, exec (.mrel o) s = .next t ∧ Advances t v ∧ t.mem = s.mem ∧ KeepsFile s t v ∧ t.group v.k = some h ∧ h.claims = v.g.claims &&& ~~~m) ∧
    (Clear (.mzero o) s o f v → slotsBusy s part m = false → m &&& ~~~v.g.claims = 0 →
      ∃ t, exec (.mzero o) s = .next t ∧ Advances t v ∧ t.mem = s.mem ∧ KeepsFile s t v ∧
        (∀ n, n < 16 → m.getLsbD n = true → slotHdr t part n = accHdr ∧ ∀ off, off < 16384 → tileByte t part n off = 0) ∧
        ∀ n, n < 16 → m.getLsbD n = false → slotHdr t part n = slotHdr s part n ∧
          ∀ off, off < 16384 → tileByte t part n off = tileByte s part n off) ∧
    (∀ form, Clear (.mmov form o) s o f v → slotsBusy s part (slotBit slot) = false → v.g.claims.getLsbD slot = true →
      ∃ t, exec (.mmov form o) s = .next t ∧ Advances t v ∧ t.mem = s.mem ∧ KeepsFile s t v ∧
        (form = .from → t.tile = s.tile ∧ ∀ d : Fin 128, o.dst = .vec d → ∀ l, v.act.getLsbD l = true →
          laneReg t v.k d l = BitVec.ofNat 32 (tileRead s part slot (base + 4 * l) 4)) ∧
        (form ≠ .from →
          (∀ l, v.act.getLsbD l = true → tileRead t part slot (base + 4 * l) 4 = (srcData v.g 1 o.a l).toNat % 2 ^ 32) ∧
          (∀ a, (∀ l, v.act.getLsbD l = true → a < tileKey part slot (base + 4 * l) ∨ tileKey part slot (base + 4 * l) + 4 ≤ a) →
            memByte t.tile a = memByte s.tile a)) ∧
        slotHdr t part slot = match form with
          | .toa => { fmt := Ty.code o.ty, role := 0, rows := 128, cols := tileCols o.ty }
          | .tob => { fmt := Ty.code o.ty, role := 1, rows := 128, cols := tileCols o.ty }
          | _ => slotHdr s part slot) ∧
    (Clear (.mwait o) s o f v → (∀ x ∈ s.matq, x.grp = v.k → o.imm ≠ 0 ∧ x.slots &&& m = 0) →
      ∃ t, exec (.mwait o) s = .next t ∧ Advances t v ∧ Frame s t v) ∧
    (∀ w, lowestLane v.act = some w → Clear (.mxv o) s o f v → slotsBusy s part (slotBit slot) = false →
      v.g.claims.getLsbD slot = true →
      ∃ t, exec (.mxv o) s = .next t ∧ Advances t v ∧ t.mem = s.mem ∧ KeepsFile s t v ∧ t.tile = s.tile ∧
        slotHdr t part slot = { slotHdr s part slot with xv := (srcData v.g 1 o.a w).toNat % 65536 }) ∧
    (∀ i d, (i = .mcntRd o ∨ i = .mcntRr o) → o.dst = .vec d → Clear i s o f v →
      ∃ t, exec i s = .next t ∧ Advances t v ∧ t.mem = s.mem ∧ KeepsFile s t v ∧ (∀ l, v.act.getLsbD l = true → laneReg t v.k d l = counter s part o.imm.toNat) ∧
        counter t part o.imm.toNat = if i = .mcntRr o then 0 else counter s part o.imm.toNat)

/-- R259, R260, R262 to R264, R447: MLD, MST, MMA and MMAS complete: where none of the slots that they name is in use, all of them are
the group's own, and their headers and operands are as the rule of each asks, each puts one operation at the end of the matrix units'
queue and goes on, and changes nothing else. With no active lane they do nothing (R237). -/
def Obligations.MatrixWork : Prop :=
  (∀ (src : MldSrc) (role : Role) (s : State) (o : Op) (f : Fields) (v : View) (w : Nat),
    Clear (.mld src role o) s o f v → lowestLane v.act = some w →
    let slot := o.imm.toNat % 16
    let pitch := (srcData v.g 1 o.b w).toNat % 2 ^ 32
    SlotsFree s v [slot] → v.g.claims.getLsbD slot = true → (role = .scale → 16 * (o.imm.toNat / 256 % 1024) + pitch ≤ 16384) →
    acquirePending s v.k v.sp.mask = false → lanesSettled s v.k v.sp.mask = true →
    ∃ t, exec (.mld src role o) s = .next t ∧ Advances t v ∧ Frame { s with matq := t.matq } t v ∧
      Queued s t v [slot] (.mld src role o.ty o.imm (srcPair v.g o.a w) pitch)) ∧
  (∀ (satur : Bool) (s : State) (o : Op) (f : Fields) (v : View) (w : Nat),
    Clear (.mst satur o) s o f v → lowestLane v.act = some w →
    let slot := o.imm.toNat % 16
    let pitch := (srcData v.g 1 o.b w).toNat % 2 ^ 32
    let a := srcPair v.g o.a w
    let h := slotHdr s (partOf v.k) slot
    SlotsFree s v [slot] → v.g.claims.getLsbD slot = true →
    ((Ty.code o.ty = h.fmt ∧ satur = false) ∨
      (Ty.code o.ty ≠ h.fmt ∧ h.fmt = Ty.code .f32 ∧ o.ty.oneOf [.bf16, .f16, .e4m3, .e5m2] = true)) →
    frozenRanges s (dieOf v.k) v.b.ctx ((List.range h.rows).map fun r => (addr a (r * pitch), mstRowBytes h o.ty)) = .clear →
    acquirePending s v.k v.sp.mask = false → lanesSettled s v.k v.sp.mask = true →
    ∃ t, exec (.mst satur o) s = .next t ∧ Advances t v ∧ Frame { s with matq := t.matq } t v ∧
      Queued s t v [slot] (.mst satur o.ty slot a pitch)) ∧
  (∀ (fmt : MmaFmt) (s : State) (o : Op) (f : Fields) (v : View),
    Clear (.mma fmt o) s o f v → v.act ≠ 0 → SlotsFree s v (mmaSlots o.imm).named → TilesReady s v fmt (mmaSlots o.imm) →
    ∃ t, exec (.mma fmt o) s = .next t ∧ Advances t v ∧ Frame { s with matq := t.matq } t v ∧
      Queued s t v (mmaSlots o.imm).named (.mma false fmt o.imm)) ∧
  (∀ (fmt : MmaFmt) (s : State) (o : Op) (f : Fields) (v : View),
    Clear (.mmas fmt o) s o f v → v.act ≠ 0 →
    let scales := scaleSlots s (partOf v.k) (mmaSlots o.imm)
    let named := (mmaSlots o.imm).named ++ scales.map (·.1)
    SlotsFree s v named → TilesReady s v fmt (mmaSlots o.imm) →
    (∀ x ∈ scales, 16 * x.2.2.soff + scaleBytes x.2.1 ≤ 16384 ∧ v.g.claims.getLsbD x.1 = true ∧ x.1 / 4 ≠ (mmaSlots o.imm).d / 4) →
    ∃ t, exec (.mmas fmt o) s = .next t ∧ Advances t v ∧ Frame { s with matq := t.matq } t v ∧
      Queued s t v named (.mma true fmt o.imm)) ∧
  (∀ (i : Instr) (s : State) (o : Op) (f : Fields) (v : View),
    ((∃ src role, i = .mld src role o) ∨ (∃ satur, i = .mst satur o) ∨ (∃ fmt, i = .mma fmt o ∨ i = .mmas fmt o)) →
    Clear i s o f v → v.act = 0 → ∃ t, exec i s = .next t ∧ Advances t v ∧ Frame s t v)

/-- R259, R260, R263, R264: MATRIX_OP_COMPLETE completes: the one operation of a partition is done and leaves the queue. An MMA or MMAS
writes, at every place of its result quad, C and the exact products of its operands' elements, with their scales for MMAS, added exactly and
rounded once (R123 to R125), and its slots are accumulators. An MLD whose bytes can be read writes them, or each element rounded once into
the tile's format, row by row into its slot, and its header, and no other byte of tile memory. An MST writes its slot's rows, or each element
rounded once, row by row to memory, and no other byte. For MLD and MST nothing else waits at a home; MST's slot here has no poisoned word. -/
def Obligations.MatrixOpComplete : Prop :=
  ∀ (s : State) (p : Nat) (x : MatOp) (g : Group) (b : Block), s.matq.filter (fun y => y.part == p) = [x] →
    dieRuns s (dieOf x.grp) = true → s.group x.grp = some g → tget s.blocks g.blk = some b → Inv s →
    (∀ (scaled : Bool) (fmt : MmaFmt) (imm : Word) (ta tb : Ty), x.work = .mma scaled fmt imm →
      let m := mmaSlots imm
      (slotHdr s p m.a).fmt = Ty.code ta → (slotHdr s p m.b).fmt = Ty.code tb →
      (ta ∈ linearTiles ∧ tb ∈ linearTiles) ∨ (ta ∈ [Ty.l8, .l4] ∧ tb = ta) →
      ∃ t, exec (.matrixOpComplete p) s = .next t ∧ t.matq = s.matq.filter (fun y => y.id != x.id) ∧ t.mem = s.mem ∧
        (∀ n, n < 4 → slotHdr t p (m.d + n) = { fmt := Ty.code .f32, role := 2, rows := 32, cols := 128 }) ∧
        ∀ i j, i < 128 → j < 128 →
          let place := (i % 32 * 128 + j) * 4
          let c := match m.c with
            | none => .fin false 0 1
            | some q => readAs (slotBytes s p (q + i / 32) place 4) FloatFmt.f32.decode
          tileRead t p (m.d + i / 32) place 4 =
            sumCode .f32 false (c :: (List.range (tileCols ta)).map (slotProduct s p m.a m.b scaled ta tb i j))) ∧
    (∀ (src : MldSrc) (role : Role) (ty : Ty) (imm : Word) (a : DWord) (q : Nat) (bytes : Nat → Nat → Byte),
      x.work = .mld src role ty imm a q → Quiet s → role ≠ .scale → (role = .accum → ty = .f32) →
      (ty ∈ linearTiles ++ [.l8, .l4] ∧ src = .same) ∨ ty ∈ [Ty.f32, .bf16, .f16, .e4m3, .e5m2] →
      let slot := imm.toNat % 16
      let rows := if role = .accum then 32 else 128
      let cols := if role = .accum then 128 else tileCols ty
      let rowBytes := if role = .accum then 512 else tileRowBytes ty
      let w := src.ty.bits / 8
      (∀ r j, r < rows → j < (if src = .same then rowBytes else cols * w) → ByteAt s b (addr a (r * q + j)) (bytes r j)) →
      ∃ t, exec (.matrixOpComplete p) s = .next t ∧ t.matq = s.matq.filter (fun y => y.id != x.id) ∧ t.mem = s.mem ∧
        slotHdr t p slot = { fmt := Ty.code ty, mxe := imm.getLsbD 19, rows := rows, cols := cols,
                             role := (match role with | .stream => 0 | .station => 1 | _ => 2),
                             sslot := imm.toNat / 16 % 16, soff := imm.toNat / 256 % 1024 } ∧
        (src = .same → ∀ r j, r < rows → j < rowBytes →
          tileByte t p slot (r * rowBytes + j) = if ty = .t3 ∧ 243 ≤ (bytes r j).toNat then 0 else (bytes r j).toNat) ∧
        (src ≠ .same → ∀ r k, r < rows → k < cols →
          tileRead t p slot (r * rowBytes + k * (ty.bits / 8)) (ty.bits / 8) = ((fmtOf ty).round .rne (imm.getLsbD 18)
            ((fmtOf src.ty).decode (leNat ((List.range w).map fun j => bytes r (k * w + j))))).code) ∧
        ∀ key, key < tileKey p slot 0 ∨ tileKey p slot (rows * rowBytes) ≤ key → memByte t.tile key = memByte s.tile key) ∧
    (∀ (src : MldSrc) (ty : Ty) (imm : Word) (a : DWord) (q : Nat) (bytes : Nat → Byte), x.work = .mld src .scale ty imm a q → Quiet s →
      let slot := imm.toNat % 16
      let first := 16 * (imm.toNat / 256 % 1024)
      first + q ≤ 16384 → (∀ j, j < q → ByteAt s b (addr a j) (bytes j)) →
      ∃ t, exec (.matrixOpComplete p) s = .next t ∧ t.matq = s.matq.filter (fun y => y.id != x.id) ∧ t.mem = s.mem ∧
        slotHdr t p slot = { role := 3, soff := imm.toNat / 256 % 1024 } ∧
        (∀ j, j < q → tileByte t p slot (first + j) = (bytes j).toNat) ∧
        ∀ key, key < tileKey p slot first ∨ tileKey p slot (first + q) ≤ key → memByte t.tile key = memByte s.tile key) ∧
    (∀ (satur : Bool) (ty : Ty) (slot : Nat) (a : DWord) (q : Nat) (key : Nat → Nat → Nat), x.work = .mst satur ty slot a q → Quiet s →
      let h := slotHdr s p slot
      let own := decide (Ty.code ty = h.fmt)
      (own = true ∧ ty ∈ linearTiles ++ [.l8, .l4]) ∨ (h.fmt = Ty.code .f32 ∧ ty ∈ [Ty.bf16, .f16, .e4m3, .e5m2]) →
      tilePoisoned s p slot 0 16384 = false →
      let n := mstRowBytes h ty
      (if own then h.rows * n else h.rows * h.cols * 4) ≤ 16384 →
      let byte (r j : Nat) : Nat :=
        if own then tileByte s p slot (r * n + j)
        else
          let w := ty.bits / 8
          ((fmtOf ty).round .rne satur (FloatFmt.f32.decode (tileRead s p slot ((r * h.cols + j / w) * 4) 4))).code / 256 ^ (j % w) % 256
      (∀ r j, r < h.rows → j < n → vaKey s b true (addr a (r * q + j)) = .ok (key r j)) →
      (∀ r j r' j', r < h.rows → j < n → r' < h.rows → j' < n → key r j = key r' j' → r = r' ∧ j = j') →
      (∀ r, r < h.rows → heldAtPod s (dieOf x.grp) b.ctx (addr a (r * q)) n = false) →
      ∃ t, exec (.matrixOpComplete p) s = .next t ∧ t.matq = s.matq.filter (fun y => y.id != x.id) ∧ t.tile = s.tile ∧
        (∀ r j, r < h.rows → j < n → (memByte t.mem (key r j)).toNat = byte r j) ∧
        ∀ k, (∀ r j, r < h.rows → j < n → key r j ≠ k) → memByte t.mem k = memByte s.mem k)

/-! ## Events of a core -/

/-- R291, R293, R308, R330, R189, R346: rotation leaves every lane where it stands but those
whose barrier wait it ends; a group passed over for 1,024 clk is aged; shadow mode
begins and ends as a mode alone; the first register that a group refills is back with the value of its image; a group that waits for
nothing leaves its slot, and its block with the last group; a split whose text has no mapping calls the MMP and its block drains, and one
whose text can never be fetched traps. -/
def Obligations.CoreEvents : Prop :=
  (∀ (s : State) (k : Nat) (g : Group) (p : Split), s.group k = some g → p ∈ g.active → 256 ≤ p.run →
    ∃ t h, exec (.runCountRotation k) s = .next t ∧ t.group k = some h ∧ t = { s with groups := t.groups } ∧
      (∀ q ∈ g.active ++ g.parked, q.arrived = false → Standing h q.mask q.pc) ∧
      (g.parked.any Split.ready = false → (∀ q ∈ g.active ++ g.parked, q.arrived = false ∧ (q ≠ p → q.pc ≠ p.pc ∧ q.mask ≠ p.mask)) →
        (∀ q ∈ g.active, 256 ≤ q.run → q = p) → ∃ q ∈ h.active, q.mask = p.mask ∧ q.deferred = true ∧ q.run = 0)) ∧
  (∀ (s : State) (k since : Nat) (g : Group), s.group k = some g → g.passedSince = some since →
    since + 1024 ≤ dieClk s (dieOf k) → exec (.aging k) s = .next (s.setGroup k { g with aged := true })) ∧
  (∀ (s : State) (p k : Nat), tget s.shadow p = none → shadowGroup s p = some k →
    exec (.shadowModeEntry p) s = .next { s with shadow := tset s.shadow p k }) ∧
  (∀ (s : State) (p : Nat), exec (.shadowModeEnd p) s = .next { s with shadow := tdel s.shadow p }) ∧
  (∀ (s : State) (k r : Nat) (g : Group) (x : Reg), s.group k = some g → g.refills.head? = some r → tget g.regs r = some x →
    ∃ t h, exec (.refillComplete k r) s = .next t ∧ t = { s with groups := t.groups } ∧ t.group k = some h ∧
      h.refills = g.refills.tail ∧ tget h.regs r = some { x with val := imageVal g.spill r, away := false } ∧
      (∀ n, n ≠ r → tget h.regs n = tget g.regs n) ∧ ∀ j, j ≠ k → t.group j = s.group j) ∧
  (∀ (s : State) (k : Nat) (g : Group), s.group k = some g → g.ending = true → g.trapEvent = none → dieRuns s (dieOf k) = true →
    groupQuiet s k = true →
    ∃ t, exec (.groupEnd k) s = .next t ∧ t.group k = none ∧
      ((s.groups.any fun e => e.1 != k && e.2.blk == g.blk) = true → t.blocks = s.blocks ∧ t.groups = tdel s.groups k) ∧
      ((s.groups.any fun e => e.1 != k && e.2.blk == g.blk) = false → tget t.blocks g.blk = none)) ∧
  (∀ (s : State) (k lane : Nat) (v : View), bareView (s.at k lane) = some v → mayIssue s k v.g = true → v.sp.wait = none →
    v.sp.denied = false →
    (∀ c page, fetchWords s v.b v.sp.pc 3 = .missing c page → page < peerPage 0 →
      ∃ t h b, exec (.instructionFetchFault k lane) s = .next t ∧ (c, page) ∈ t.mmp ∧ t.group k = some h ∧
        (∃ p ∈ h.active ++ h.parked, p.mask = v.sp.mask ∧ p.pc = v.sp.pc ∧ p.wait = some (.text c page)) ∧
        tget t.blocks v.g.blk = some b ∧ b.phase = .fetchDraining) ∧
    (∀ key handler, fetchWords s v.b v.sp.pc 3 = .bad → v.g.handler = false → frameThere s v key handler → Inv s →
      ∃ t, exec (.instructionFetchFault k lane) s = .next t ∧
        Trapped s t v key handler causeMemfault mfFetch v.sp.pc v.sp.pc (badWord s v.b v.sp.pc)))

/-! ## Accesses on their way -/

/-- R329, R373 to R375, R378, R419: a port's one servable access that asks for no ownership is performed at its home: a .uc load brings
the bytes back, a store puts them in memory; a result lands in the lanes of its instruction; an acknowledgement at .sys ends a store; a
forwarded write is performed at its holder, and the line is dirty that it has there or may keep under the write's name; a recall takes the lines from the holder; two quiet siblings become
their parent; a region whose holder was drained is found NONE. -/
def Obligations.MemoryEvents : Prop :=
  (∀ (s : State) (port key : Nat) (q : MemOp) (x : Access) (w ex : Bool), servableAt s port = [(q, x)] → 0 < q.size →
    resolved s q x = some (.at key w ex false) → (regionAt s key).holder = none → lineClear s q x key = true → queueTurn s q x key = true →
    (q.kind = .load → q.req = .uc → s.poisoned key (min q.size 8) = false →
      ∃ t, exec (.homeRequest port) s = .next t ∧ t.mem = s.mem ∧ ∃ r ∈ t.reqs, r.id = q.id ∧
        r.todo = q.todo.filter (fun y => y != x) ∧
        r.got = q.got ++ [(x.lane, x.part, BitVec.ofNat 64 (s.readMem key (min q.size 8)), 0)]) ∧
    (q.kind = .store → q.req ≠ .own → w = true → overwritten s q x key = false →
      ∃ t, exec (.homeRequest port) s = .next t ∧ t.mem = memWrite s.mem key (leBytes (min q.size 8) (x.data.toNat % 2 ^ (8 * min q.size 8))) ∧
        ∃ r ∈ t.reqs, r.id = q.id ∧ r.todo = q.todo.filter (fun y => y != x))) ∧
  (∀ (s : State) (id : Nat) (q : MemOp) (g : Group) (n : Fin 128), s.reqs.find? (fun o => o.id == id) = some q →
    opPerformed s q = true → linkOpen s q.port = true → q.dst = .vec n → q.bad = [] → q.uniform = false → s.group q.grp = some g →
    q.handler = g.handler →
    (∀ i, i < resultRegs q.kind q.size → (regOf g (n + i)).isSome = true) →
    ∃ t, exec (.loadResultArrival id) s = .next t ∧ t.reqs = s.reqs.filter (fun o => o.id != id) ∧ t.mem = s.mem ∧
      ∀ i l, i < resultRegs q.kind q.size → l < 64 → laneReg t q.grp (n + i) l =
        if q.mask.getLsbD l then (resultValue q.kind q.size q.signed q.got l >>> (32 * i)).setWidth 32 else laneReg s q.grp (n + i) l) ∧
  (∀ (s : State) (id : Nat) (scope : Scope) (q : MemOp), s.reqs.find? (fun o => o.id == id) = some q → q.kind.isLoad = false →
    opPerformed s q = true → linkOpen s q.port = true → q.returns = false → ∃ t, exec (.storeAcknowledge id scope) s = .next t ∧ t.mem = s.mem ∧
      (scope = .sys → t.reqs = s.reqs.filter fun o => o.id != id) ∧
      (scope ≠ .sys → ∃ r ∈ t.reqs, r.id = id ∧ r.acked.isSome = true)) ∧
  (∀ (s : State) (die : Nat) (w : Forwarded), s.fwd.find? (fun y => y.die == die) = some w → undrained s die = false → holderGone s die = false →
    linkOpen s die = true → (regionAt s w.key).holder = some die →
    ∃ t, exec (.forwardedWrite die) s = .next t ∧ t.mem = memWrite s.mem w.key w.bytes ∧ t.fwd = s.fwd.erase w ∧
      ((inDc s die w.key = true ∨ (w.pod = false ∧ ownerOf w.addr = 0)) →
        ∃ l ∈ t.dc, l.die = die ∧ l.key = w.key / 128 * 128 ∧ l.dirty = true)) ∧
  (∀ (s : State) (line : Nat) (r : Recall), s.recalls.find? (fun y => y.base / 128 == line) = some r →
    linkOpen s r.die = true → (∀ w ∈ s.fwd, w.die = r.die → w.key < r.base ∨ r.base + r.size ≤ w.key) →
    ∃ t, exec (.recallComplete line) s = .next t ∧ t.recalls = s.recalls.erase r ∧ t.mem = s.mem ∧
      (∃ x ∈ t.regions, x.base = (regionAt s r.base).base ∧ x.size = (regionAt s r.base).size ∧ x.holder = r.heir) ∧
      ∀ l ∈ t.dc, l.die = r.die → l.replica = false → l.key < r.base ∨ r.base + r.size ≤ l.key) ∧
  (∀ (s : State) (base log2 : Nat) (a b : Region), 8 ≤ log2 → log2 ≤ 16 → base % 2 ^ log2 = 0 →
    s.regions.find? (fun r => r.base == base && r.size == 2 ^ log2 / 2) = some a →
    s.regions.find? (fun r => r.base == base + 2 ^ log2 / 2 && r.size == 2 ^ log2 / 2) = some b →
    a.holder = b.holder → a.holder.isSome = true → a.conflict + 2 ^ 20 ≤ s.lodge → b.conflict + 2 ^ 20 ≤ s.lodge →
    (∀ r ∈ s.recalls, base + 2 ^ log2 ≤ r.base ∨ r.base + r.size ≤ base) →
    ∃ t, exec (.regionMerge base log2) s = .next t ∧ a ∉ t.regions ∧ b ∉ t.regions ∧
      ∃ x ∈ t.regions, x.base = base ∧ x.size = 2 ^ log2 ∧ x.holder = a.holder) ∧
  (∀ (s : State) (port key die : Nat) (q : MemOp) (x : Access) (w ex re : Bool), s.reqs.filter (fun o => o.port == port) = [q] →
    q.todo = [x] → resolved s q x = some (.at key w ex re) → (regionAt s key).holder = some die → holderGone s die = true →
    exec (.holderReset port) s = .next (replaceRegion s (regionAt s key) [{ regionAt s key with holder := none }]))

/-- R360, R361, R364 to R366, R368: a walk that finds a leaf puts it into the port's TLB and the shared one, and one that finds none calls
the MMP, and its access waits; every third refault of an access is a REPLAYSTORM; the MMP's decision that there is no mapping fails the
accesses that wait; its repair writes the entry, and a load that waited for the page is replayed through it; a host page gets its entry;
after a PTFENCE no TLB holds an entry of the range, nor is a write that went through the context on its way to a holder; a migrated page's
bytes stand in its frame, which its entry names, with tags of 0. Walks, repairs and a migration are stated where nothing is queued at a
home or forwarded, and no copy has bytes that stand to land. -/
def Obligations.TranslationEvents : Prop :=
  (∀ (s : State) (port c p : Nat) (q : MemOp) (x : Access), needsWalk s port = some (q, x, c, p) → p < 2 ^ 48 → Quiet s →
    (∀ l, walk s c (p * 2 ^ 16) = some l → viaPod s q x = false → ∃ t, exec (.pageWalk port) s = .next t ∧
      leafEntry port c l ∈ t.tlb ∧ leafEntry 11 c l ∈ t.tlb ∧ t.mem = s.mem) ∧
    (∀ c' p', walked s c (p * 2 ^ 16) = .invalid c' p' → (∀ ex lvl, q.kind ≠ .prf ex lvl) → ∃ t, exec (.pageWalk port) s = .next t ∧
      (c', p') ∈ t.mmp ∧ (x.faults ≠ 0 → x.faults % 3 = 0 → (q.id, x.lane) ∈ t.storms) ∧
      ∃ r ∈ t.reqs, r.id = q.id ∧ ∃ y ∈ r.todo, y.lane = x.lane ∧ y.addr = x.addr ∧ y.faults = x.faults + 1 ∧
        y.waiting = some (c', p'))) ∧
  (∀ (s : State) (ctx page : Nat), (ctx, page) ∈ s.mmp →
    let s0 := { s with mmp := s.mmp.filter (· != (ctx, page)) }
    (let u := wakeText (failWaiting s0 ctx page) ctx page true
     (∀ f ∈ agents u, (ctx, page) ∉ (afterwards u (f.2 u)).mmp ∧ (afterwards u (f.2 u)).blocked = false) →
      ∃ t, exec (.mmpRepair ctx page none) s = .next t ∧ (ctx, page) ∉ t.mmp ∧ t.mem = s.mem ∧
        (∀ r ∈ t.reqs, ∀ y ∈ r.todo, y.waiting ≠ some (ctx, page)) ∧
        (∀ e ∈ t.groups, ∀ p ∈ e.2.active ++ e.2.parked, p.page = some (ctx, page) → p.denied = true) ∧
        ∀ o ∈ s.reqs, (∀ ex lvl, o.kind ≠ .prf ex lvl) → ∀ x ∈ o.todo, x.waiting = some (ctx, page) →
          ∃ r ∈ t.reqs, r.id = o.id ∧ (x.lane, mfInvalid, x.addr - BitVec.ofNat 64 (8 * x.part)) ∈ r.bad) ∧
    (∀ es, page < 2 ^ 48 → Quiet s → AgentsIdle s → (∀ o ∈ s.reqs, ∀ x ∈ o.todo, x.waiting = none) →
      ∃ t, exec (.mmpRepair ctx page (some es)) s = .next t ∧ (ctx, page) ∉ t.mmp ∧
        (∀ e ∈ t.groups, ∀ p ∈ e.2.active ++ e.2.parked, p.page ≠ some (ctx, page)) ∧
        ∀ v slot, es = [v] → ctxSlot s ctx (page * 2 ^ 16) false = some slot → Inv s →
          t.readMem slot 8 = v.toNat ∧ ∀ a, a < slot ∨ slot + 8 ≤ a → memByte t.mem a = memByte s.mem a) ∧
    (∀ (v : DWord) (slot a : Nat) (q : MemOp) (x : Access) (l : Leaf), page < 2 ^ 48 → Quiet s → AgentsIdle s → s.dc = [] →
      s.denied = [] → s.reqs = [q] → q.todo = [x] → x.waiting = some (ctx, page) → q.ctx = ctx → q.kind = .load → q.req = .uc →
      portOpen s q.port = true → placeGlobal s x.addr = .device a → a / 2 ^ 16 = page → ctxSlot s ctx (page * 2 ^ 16) false = some slot →
      let u := { s with mem := memWrite s.mem slot (leBytes 8 v.toNat) }
      walk u ctx (page * 2 ^ 16) = some l → peerOfKey (l.key a) = none → (regionAt s (l.key a)).holder = none →
      s.poisoned (l.key a) (min q.size 8) = false →
      ∃ t r, exec (.mmpRepair ctx page (some [v])) s = .next t ∧ (ctx, page) ∉ t.mmp ∧ t.mem = u.mem ∧ r ∈ t.reqs ∧ r.id = q.id ∧
        r.todo = [] ∧ r.got = q.got ++ [(x.lane, x.part, BitVec.ofNat 64 (u.readMem (l.key a) (min q.size 8)), 0)]) ∧
    (∀ (v : DWord) (es : List DWord), 2 ^ 48 ≤ page → v.toNat % 2 = 1 → Quiet s → AgentsIdle s →
      (∀ o ∈ s.reqs, ∀ x ∈ o.todo, x.waiting = none) →
      let size := match ((es[0]?).getD 0).toNat with | 1 => 2 ^ 21 | 2 => 2 ^ 30 | _ => 2 ^ 16
      let frame := v.toNat / 2 ^ 12 % 2 ^ 40 * 2 ^ 12
      frame % size = 0 → ∃ t, exec (.mmpRepair ctx page (some (v :: es))) s = .next t ∧ (ctx, page) ∉ t.mmp ∧
        ∃ e ∈ t.tlb, e.tlb = 12 + (page / 2 ^ 48 - 1) ∧ e.ctx = ctx ∧ e.base = page % 2 ^ 48 * 2 ^ 16 / size * size ∧ e.size = size ∧
          e.frame = hostKey (page / 2 ^ 48 - 1) frame ∧ e.w = (v.toNat / 8 % 2 == 1) ∧ e.x = (v.toNat / 16 % 2 == 1))) ∧
  (∀ (s : State) (ctx base len : Nat),
    let es := s.tlb.filter (·.meets ctx base len)
    (fenceBlocked s ctx es = true →
      exec (.ptfence ctx base len) s = .next { s with agenda := s.agenda ++ [.ptfence ctx base len] }) ∧
    (fenceBlocked s ctx es = false → (∀ c ∈ s.copies, c.cells = []) → ∃ t, exec (.ptfence ctx base len) s = .next t ∧
      t.tlb = s.tlb.filter (fun e => !(e.meets ctx base len)) ∧ (∀ w ∈ t.fwd, fwdThrough s ctx w = false) ∧
      (s.fwd = [] → t = { s with tlb := t.tlb }))) ∧
  (∀ (s : State) (ctx va frame slot : Nat) (l : Leaf), walk s ctx va = some l → ctxSlot s ctx va true = some slot →
    l.remote = true → frame % l.size = 0 → frame + l.size ≤ hbmBytes → Inv s →
    (slot + 8 ≤ l.frame ∨ l.frame + l.size ≤ slot) → (slot + 8 ≤ devKey frame ∨ devKey frame + l.size ≤ slot) →
    (∀ e ∈ s.frt, e.2.state = .live ∨ e.2.ctx ≠ ctx ∨ l.base + l.size ≤ e.2.base * 4096 ∨ (e.2.base + e.2.len) * 4096 ≤ l.base) →
    engineFree s l.frame = true → Quiet s → AgentsIdle s → (∀ o ∈ s.reqs, ∀ x ∈ o.todo, x.waiting = none) →
    ∃ t, exec (.pageMigration ctx va frame) s = .next t ∧
      (∀ i, i < l.size → memByte t.mem (devKey frame + i) = memByte s.mem (l.frame + i) ∧ tagOf t (devKey frame + i) = 0) ∧
      t.readMem slot 8 = frame + (if l.w then 8 else 0) + (if l.x then 16 else 0) + 1)

/-! ## Queues and the command processor -/

/-- R16, R22, R23, R26, R334, R402: a notify write raises the queue's index and makes a held header be read again, as
the 64 µs do, and the queue stays held while VALID is 0; QENABLE puts a queue into
service at READIDX as its control block holds it; QDISABLE takes it out; TEARDOWN leaves nothing of the context resident or pending,
and stays BUSY until nothing of it is under way, and CONTEXT_FREE clears VALID and is posted. What the command processor reads is stated of
the state that its coming to the homes leaves (afterReads), and where nothing waits there. -/
def Obligations.QueueCommands : Prop :=
  (∀ (s : State) (q : Nat) (v : DWord), ready s = true → q < 4096 →
    let x := (tget s.queues q).getD {}
    let n := if x.notify.toNat < v.toNat then v else x.notify
    (x.ctx = none ∨ x.halted = true ∨ n.toNat ≤ x.read.toNat + 2 ^ x.log2n) →
    (x.heldHeader = false →
      ∃ t, exec (.notifyWrite q 0 8 v) s = .next t ∧ tget t.queues q = some { x with notify := n } ∧ t.mem = s.mem) ∧
    ∀ w, x.heldHeader = true → Quiet s →
      cpRead (readAt s 10 (x.ctx.getD 0) x.packetAt 8 false) (x.ctx.getD 0) x.packetAt 8 = .ok w →
      ∃ t, exec (.notifyWrite q 0 8 v) s = .next t ∧ t.mem = s.mem ∧
        tget t.queues q = some { x with notify := n, headerAt := s.lodge, heldHeader := !(headerOf w).valid }) ∧
  (∀ (s : State) (q w : Nat) (x : Queue), tget s.queues q = some x → x.heldHeader = true → Quiet s →
    cpRead (readAt s 10 (x.ctx.getD 0) x.packetAt 8 false) (x.ctx.getD 0) x.packetAt 8 = .ok w →
    ∃ t, exec (.headerRecheck q) s = .next t ∧ t.mem = s.mem ∧
      tget t.queues q = some { x with headerAt := s.lodge, heldHeader := !(headerOf w).valid }) ∧
  (∀ (s : State) (v : DWord), ready s = true → cpcmdBusy s = false → v &&& cpCmdReserved = 0 →
    let c := cpCmdOf v
    let owner := (tget s.queues c.queue).bind (·.ctx)
    (∀ n r, c.cmd = 1 → ctxValid s c.ctx = true → (owner = none ∨ owner = some c.ctx) → Quiet s →
      let begun : State := { s with cpcmd := 0x8000000000000000#64 ||| (s.cpcmd &&& 0x00FF000000000000#64) ||| (v &&& cpCmdMask) }
      let desc := ctxQtable s c.ctx + BitVec.ofNat 64 (64 * c.queue)
      let ctrl : DWord := BitVec.ofNat 64 (fieldAt (leBytes 64 n) 8 8)
      let u := readAt begun 10 c.ctx desc 64 false
      cpRead u c.ctx desc 64 = .ok n → descriptorOk (leBytes 64 n) c.ctx = true →
      cpRead (readAt u 10 c.ctx ctrl 8 false) c.ctx ctrl 8 = .ok r →
      ((tget s.queues c.queue).getD {}).notify.toNat ≤ r % 2 ^ 64 + 2 ^ (fieldAt (leBytes 64 n) 0x10 4 % 32) →
      ∃ t x, exec (.qenable v) s = .next t ∧ cpcmdBusy t = false ∧ (t.cpcmd.extractLsb' 48 8).toNat = 0 ∧
        tget t.queues c.queue = some x ∧ x.ctx = some c.ctx ∧ x.ring = BitVec.ofNat 64 (fieldAt (leBytes 64 n) 0 8) ∧
        x.ctrl = ctrl ∧ x.read = BitVec.ofNat 64 r ∧ x.halted = false) ∧
    (c.cmd = 2 → owner = some c.ctx → ∃ t x, exec (.qdisable v) s = .next t ∧ cpcmdBusy t = false ∧
      (t.cpcmd.extractLsb' 48 8).toNat = 0 ∧ tget t.queues c.queue = some x ∧ x.ctx = none) ∧
    (c.cmd = 3 → ctxValid s c.ctx = true → ∃ t, exec (.teardown v) s = .next t ∧ cpcmdBusy t = true ∧ c.ctx ∈ t.teardowns ∧
      (∀ e ∈ t.blocks, e.2.ctx ≠ c.ctx) ∧ (∀ e ∈ t.grids, e.2.ctx ≠ c.ctx) ∧ (∀ e ∈ t.saved, e.2.blk.ctx ≠ c.ctx) ∧
      (∀ x ∈ t.works, x.ctx = c.ctx → ∀ key, x.kind ≠ .launch key) ∧ (∀ x ∈ t.launches, x.ctx = c.ctx → x.dead = true) ∧ (∀ e ∈ t.queues, e.2.ctx ≠ some c.ctx) ∧
      ∀ e ∈ t.tlb, e.ctx ≠ c.ctx)) ∧
  (∀ (s : State) (ctx : Nat), ctx ∈ s.teardowns → contextBusy s ctx = false → Inv s → Quiet s →
    ((tget s.outbox 8).getD {}).recs.length < 32 →
    ∃ t, exec (.contextFree ctx) s = .next t ∧ ctxValid t ctx = false ∧ ctx ∉ t.teardowns ∧
      ∃ e, ((tget t.outbox 8).getD {}).recs = ((tget s.outbox 8).getD {}).recs ++ [e] ∧ e.code = 4 ∧ e.ctx = ctx)

/-- R17, R18, R30 to R33, R35, R202, R428: each packet that passes its checks is consumed and starts its work: a LAUNCH makes a pending
grid; a BARRIER_AND waits for its signals; a COPY of bytes takes an engine or waits for one, and one of no bytes is complete; a SIGNAL and a
NOP go to their completion; a DMA engine lands the bytes it read, and keeps what its words hold beyond them; a finished packet takes 1 from
its completion signal; a device-side launch that passes becomes a grid. What is read is stated of the state that the reader's coming to
the homes leaves (afterReads), and where nothing waits there. -/
def Obligations.Packets : Prop :=
  (∀ (s : State) (q ctx : Nat) (qu : Queue) (a : DWord) (bs : List Byte) (kind : Nat), PacketThere s q qu ctx a bs kind →
    let signal : DWord := BitVec.ofNat 64 (fieldAt bs 0x28 8)
    let v := readAt s 10 ctx a 128 false
    let u := visitLaunch v ctx bs
    (∀ (i : Instr) (w : WorkKind),
      ((kind = 2 ∧ i = .barrierAnd q ∧ checkBarrierAnd s ctx bs = .good () ∧ w = .barrierAnd (depsOf bs)) ∨
       (kind = 3 ∧ i = .copyPacket q ∧ checkCopy s ctx bs = .good () ∧ fieldAt bs 0x18 8 = 0 ∧ w = .finished) ∨
       (kind = 3 ∧ i = .copyPacket q ∧ checkCopy s ctx bs = .good () ∧ fieldAt bs 0x18 8 ≠ 0 ∧ NoneWaits s ∧ (∀ y ∈ s.works, y.id ≠ v.nextId) ∧
          let g := if fieldAt bs 0x20 8 = 0xFF then (if enginesUsed s 1 < enginesUsed s 0 then 1 else 0) else fieldAt bs 0x20 8
          w = .copy (fieldAt bs 0x20 8) (if enginesUsed s g < 16 then some g else none) (BitVec.ofNat 64 (fieldAt bs 8 8))
            (BitVec.ofNat 64 (fieldAt bs 0x10 8)) (fieldAt bs 0x18 8) []) ∨
       (kind = 4 ∧ i = .signalPacket q ∧ checkSignal s ctx bs = .good () ∧
          w = .signal (BitVec.ofNat 64 (fieldAt bs 8 8)) (BitVec.ofNat 64 (fieldAt bs 0x10 8)) (fieldAt bs 0x18 8 == 1)) ∨
       (kind = 5 ∧ i = .nopPacket q ∧ checkNop s ctx bs = .good () ∧ w = .finished)) →
      ∃ t x, exec i s = .next t ∧ Consumed t q qu ∧ t.works = s.works ++ [x] ∧ x.queue = q ∧ x.index = qu.read ∧ x.ctx = ctx ∧
        x.signal = signal ∧ x.kind = w) ∧
    (∀ info, kind = 1 → checkLaunchArgs u ctx bs = .good info →
      ∃ t x key g, exec (.launchPacket q) s = .next t ∧ Consumed t q qu ∧ t.works = s.works ++ [x] ∧ x.queue = q ∧ x.ctx = ctx ∧
        x.signal = signal ∧ x.kind = .launch key ∧ tget t.grids key = some g ∧ g.origin = .packet x.id ∧ g.ctx = ctx ∧
        s.lodge ≤ g.stamp ∧ g.stampMinor = q ∧ g.cls = none ∧ g.next = 0 ∧ g.prio = info.rec'.hdr.prio ∧
        (g.gx, g.gy, g.gz) = (info.rec'.gx, info.rec'.gy, info.rec'.gz))) ∧
  (∀ (s : State) (id key : Nat) (w : Work), s.works.find? (fun x => x.id == id) = some w → w.kind = .finished → Inv s → Quiet s →
    (w.signal = 0 → exec (.packetComplete id) s = .next (dropWork s id)) ∧
    (w.signal ≠ 0 → agentHeld s 10 w.ctx w.signal 8 = false → cpKey s w.ctx true w.signal = .ok key → s.poisoned key 8 = false →
      ∃ t, exec (.packetComplete id) s = .next t ∧ t.works = s.works.filter (fun x => x.id != id) ∧
        t.readMem key 8 = (BitVec.ofNat 64 (s.readMem key 8) - 1#64).toNat ∧
        ∀ a, a < key ∨ key + 8 ≤ a → memByte t.mem a = memByte s.mem a)) ∧
  (∀ (s : State) (id k g left : Nat) (want : Nat) (src dst : DWord) (carry rest : List Byte) (w : Work) (cells : List Host.Cell),
    let n := min left (128 * (k % 512 + 1) - dst.toNat % 128)
    let m := wordsFor src carry.length left n
    s.works.find? (fun x => x.id == id) = some w → w.kind = .copy want (some g) src dst left carry → 0 < left → Inv s → Quiet s →
    NoneWaits s → portOpen s (8 + g) = true → agentHeld s (8 + g) w.ctx dst n = false →
    copyPiece (readAt s (8 + g) w.ctx src m false) g w.ctx src dst carry m n = .good (rest, cells) → (cells.map (·.1)).Nodup →
    ∃ t, exec (.dmaCopy id k) s = .next t ∧ (∀ x ∈ cells, memByte t.mem x.1 = x.2) ∧
      (∀ a, a ∉ cells.map (·.1) → memByte t.mem a = memByte s.mem a) ∧
      ∃ x ∈ t.works, x.id = id ∧ x.kind = .copy want (some g) (addr src m) (addr dst n) (left - n) rest) ∧
  (∀ (s r : State) (ix key n : Nat) (x : DevLaunch) (info : LaunchInfo), s.launches[ix]? = some x → x.dead = false → Quiet s →
    let v := readAt s 10 x.ctx x.record 128 false
    cpRead v x.ctx x.record 128 = .ok n →
    let u := visitLaunch v x.ctx (leBytes 128 n)
    let h := headerOf (fieldAt (leBytes 128 n) 0 8)
    checkLaunchArgs u x.ctx (leBytes 128 n) = .good info →
    (h.kind = 1 ∧ h.version = 1 ∧ h.reserved = false ∧ h.valid = true ∧ h.prio ≤ x.prio) →
    acceptGrid u x.ctx h.prio (.device x.status) (4096 + x.core) info = some (key, r) → (writeStatus r x.ctx x.status 1 0).isSome = true →
    ∃ t g, exec (.launchRecord ix) s = .next t ∧ t.launches = removeAt s.launches ix ∧ tget t.grids key = some g ∧ g.ctx = x.ctx ∧
      g.origin = .device x.status ∧ s.lodge ≤ g.stamp ∧ g.stampMinor = 4096 + x.core)

/-! ## From a pending grid to running blocks, and back -/

/-- R41, R42, R64, R276, R296 to R303: binding gives a grid its class and finds native text; a completed translation has a place of its
own in the area set aside, or is recorded as failed, and no grid waits for it, or it waits for room; dispatch starts one unit after the other, each the first in
pending order that can start, until none can; a unit that starts has a bind record for each of its blocks; a grid that stood first for 100
µs is starving; a good record starts its block, every group at the first instruction with its own lanes, and the scratchpad reads zero. -/
def Obligations.Dispatch : Prop :=
  (∀ (s : State) (key : Nat) (g : Grid) (c : Machine.Class),
    tget s.grids key = some g → ready s = true → Quiet s → bindClass s g = some (some c) →
    (g.cls = none → ∀ e ∈ (pendingGrids s).takeWhile fun e => e.1 != key, e.2.cls.isSome = true ∧ visit s e.1 e.2 = none) →
    (presentDies s c).isEmpty = false → (g.next = 0 → neverResident s g c = false) →
    let u := visitText s g c
    let bound (t : State) (x : TextState) : Prop := ∃ h, tget t.grids key = some h ∧ h.cls = some c ∧ h.starved = false ∧
      tget h.texts c.code = some x
    ∃ t, exec (.gridBind key) s = .next t ∧ match findText u g c with
      | .native a => bound t (textReady g c a false)
      | .cached _ a => bound t (textReady g c a true)
      | .running id => bound t (.translating id)
      | .translate hash => ∃ e ∈ t.tcache, e.hash = hash ∧ e.state = .running ∧ bound t (.translating e.id)
      | .missing ctx page => (page < peerPage 0 → (ctx, page) ∈ t.mmp) ∧ bound t .unbound
      | .reject _ => ∀ e ∈ t.blocks, e ∈ s.blocks) ∧
  (∀ (s : State) (id pick : Nat) (e : TcEntry) (k : Nat) (g : Grid) (rs : List Nat),
    let waiting := s.grids.filter fun e => e.2.texts.any fun t => t.2 == .translating id
    s.tcache.find? (fun e => e.id == id && e.state == .running) = some e →
    ((waiting.find? fun x => x.1 == e.starter).orElse fun _ => waiting.head?) = some (k, g) →
    apfRecords s g (k != e.starter) = .good rs →
    let nobody (t : State) : Prop := ∀ e ∈ t.grids, ∀ x ∈ e.2.texts, x.2 ≠ .translating id
    let failed : Prop := ∃ t, exec (.translationComplete id pick) s = .next t ∧ (∃ x ∈ t.tcache, x.id = id ∧ x.state = .failed) ∧ nobody t
    (apfKernel rs = none → failed) ∧
    ∀ ker, apfKernel rs = some ker →
      let n := (max (pick % 2 ^ 29) (12 * ker.recs.length) + 255) / 256 * 256
      (ker.ok rs = false ∨ 2 ^ 28 < n → failed) ∧
      (ker.ok rs = true → n ≤ 2 ^ 28 → tcRoom s n (s.tcache.length + 1) s.tcache = none →
        ∃ t, exec (.translationComplete id pick) s = .next t ∧ t.grids = s.grids ∧ t.mem = s.mem ∧
          ∃ x ∈ t.tcache, x.id = id ∧ x.state = .running ∧ x.noRoom = true) ∧
      ∀ a l, ker.ok rs = true → n ≤ 2 ^ 28 → tcRoom s n (s.tcache.length + 1) s.tcache = some (a, l) →
        a + n ≤ textArea + 2 ^ 28 ∧ ∃ t, exec (.translationComplete id pick) s = .next t ∧ t.mem = s.mem ∧ nobody t ∧
          (∃ x ∈ t.tcache, x.id = id ∧ x.state = .text (BitVec.ofNat 64 a) n (apfProg ker rs (pick / 2 ^ 29))) ∧
          ∀ x ∈ t.tcache, x.id ≠ id → ∀ b m q, x.state = .text b m q → a + n ≤ b.toNat ∨ b.toNat + m ≤ a) ∧
  (∀ s : State, ready s = true → ∃ n t, exec .blockDispatch s = .next t ∧ n ≤ 20000 ∧ Starts n s t ∧
    (n < 20000 → ∀ e ∈ visited t, visit t e.1 e.2 = none)) ∧
  (∀ (s : State) (key lin : Nat) (g : Grid) (c : Machine.Class) (a : DWord) (emu tr : Bool) (ps : List Berth),
    tget s.grids key = some g → g.cls = some c → nextUnits s key g = [.fresh lin] → heldOn s key c = false →
    textOf g c = some (a, emu, tr) → placeUnit s c (unitOf g (unitBlocks g lin)) = some ps →
    ∃ t h, visit s key g = some t ∧ tget t.grids key = some h ∧ h.next = lin + unitBlocks g lin ∧
      t.agenda.length = ps.length + s.agenda.length ∧
      h.starved = false ∧ h.firstSince = none ∧ ∀ p ∈ ps, ∃ r, tget t.binds (p.core * 64 + p.entry) = some r ∧ r.text = a ∧ r.grid = BitVec.ofNat 64 key) ∧
  (∀ (s : State) (key since : Nat) (g : Grid) (c : Machine.Class), tget s.grids key = some g → g.cls = some c →
    (firstOf s c).map (·.1) = some key → g.firstSince = some since → since + 100 * lodgePerUs ≤ s.lodge →
    ∃ t, exec (.admissionStarvation key) s = .next t ∧ tget t.grids key = some { g with starved := true }) ∧
  (∀ (s : State) (core entry : Nat) (r : BindRec) (b : Block), tget s.binds (core * 64 + entry) = some r → Inv s →
    BindRec.field r.ctrl 63 1 = 1 → BindRec.field r.ctrl 62 1 = 0 → dieRuns s (core / 32) = true → (∀ e ∈ s.blocks, e.2.core ≠ core ∨ e.2.entry ≠ entry) →
    bindOk s core r = true → unitOk s core entry r = true → blockOf s core entry r = some b →
    ∃ t c, exec (.bindRecord core entry) s = .next t ∧ tget t.blocks s.nextId = some c ∧ c = { b with phase := c.phase } ∧
      c.phase = (if (unitBinds t b).isEmpty then .running else .arriving) ∧
      (∀ a, scratchKey core b.scrBase ≤ a → a < scratchKey core b.scrBase + b.scrSize → memByte t.mem a = 0) ∧
      ∀ idx k, b.slots[idx]? = some k → ∃ h, t.group k = some h ∧ h.blk = s.nextId ∧ h.idx = idx ∧ h.regs = [] ∧
        h.active.map (fun p => (p.pc, p.mask)) = [(r.text, groupLanes b.lanes idx)] ∧ h.parked = [] ∧
        h.ended = ~~~groupLanes b.lanes idx ∧ h.handler = false)

/-- R347 to R350, R353: a drained block, with all of its cluster or die span, is written to its save area and leaves its place, and what is
not of the unit stays; with no room in the save pool nothing is saved, and the blocks go on or wait in place; a bind record that says
RESTORE brings its block back as its save area has it: its barriers, its scratchpad, and each group's mode, M0, hscr0 and hscr1, dead
register, claims, predicates, registers v0 to v127 whose release is not pending, handler registers v124 to v127, and splits. The area is
read at its homes, where nothing waits (afterReads). -/
def Obligations.SaveAndRestore : Prop :=
  (∀ (s : State) (bk : Nat) (b : Block), tget s.blocks bk = some b → (b.phase = .draining ∨ b.phase = .fetchDraining) →
    dieRuns s (b.core / 32) = true → (companions s bk b).all (drained s) = true →
    let bks := companions s bk b
    let u := { s with resv := s.resv.filter fun r => !(s.groups.any fun e => e.1 == r.grp && bks.contains e.2.blk) }
    let bs := sortBy (fun (a b : Nat × Block) => decide (a.2.lin < b.2.lin)) (s.blocks.filter fun e => bks.contains e.1)
    let ims := bs.map fun e => saveImage u e.1 e.2
    (saveAreas u b.ctx ims [] = none → ∃ t, exec (.preemptionSave bk) s = .next t ∧ t.mem = s.mem ∧
      ∀ k ∈ bks, ∀ x, tget s.blocks k = some x → ∃ y, tget t.blocks k = some y ∧ y.unsavable = true ∧
        y.phase = if bks.any fun j => (textPage s j).isSome then .waitingInPlace else .running) ∧
    (∀ areas, Quiet s → saveAreas u b.ctx ims [] = some areas → missingArea u b.ctx (areas.zip ims) = none →
      ∃ t, exec (.preemptionSave bk) s = .next t ∧ (∀ k ∈ bks, tget t.blocks k = none) ∧
        (∀ k, k ∉ bks → tget t.blocks k = tget s.blocks k) ∧
        ∀ e ∈ s.blocks, e.1 ∈ bks → ∃ x ∈ t.saved, x.2.blk = e.2)) ∧
  (∀ (s : State) (bk area : Nat) (b : Block) (cells : List Host.Cell), s.blocks.filter (fun e => e.1 == bk) = [(bk, b)] →
    companions s bk b = [bk] → (b.phase = .draining ∨ b.phase = .fetchDraining) → dieRuns s (b.core / 32) = true →
    drained s bk = true → Inv s → Quiet s →
    let u := { s with resv := s.resv.filter fun r => !(s.groups.any fun e => e.1 == r.grp && [bk].contains e.2.blk) }
    saveAreas u b.ctx [saveImage u bk b] [] = some [area] →
    cpCells s b.ctx (BitVec.ofNat 64 area) (saveImage u bk b) = .ok cells → (cells.map (·.1)).Nodup →
    ∃ t id sv, exec (.preemptionSave bk) s = .next t ∧ tget t.blocks bk = none ∧ tget t.saved id = some sv ∧ sv.blk = b ∧
      sv.area = BitVec.ofNat 64 area ∧ sv.size = (saveImage u bk b).length ∧ sv.waitPage = textPage s bk ∧
      (∀ e ∈ t.groups, e.2.blk ≠ bk) ∧ (∀ k, (∀ e ∈ s.groups, e.2.blk = bk → e.1 ≠ k) → t.group k = s.group k) ∧
      (∀ x ∈ cells, memByte t.mem x.1 = x.2) ∧ ∀ a, a ∉ cells.map (·.1) → memByte t.mem a = memByte s.mem a) ∧
  (∀ (s : State) (core entry : Nat) (r : BindRec) (sv : Nat × Saved) (im : List Byte) (bad : List Nat) (b : Block),
    tget s.binds (core * 64 + entry) = some r → BindRec.field r.ctrl 63 1 = 1 → BindRec.field r.ctrl 62 1 = 1 → Inv s → Quiet s → core < 256 →
    dieRuns s (core / 32) = true → claimsClash s core entry r = false →
    (∀ e ∈ s.blocks, e.2.core ≠ core ∨ e.2.entry ≠ entry) → bindOk s core r = true → unitOk s core entry r = true →
    restoresAfter s core entry r = false → savedAt s r = some sv →
    readArea (readAt s 10 sv.2.blk.ctx sv.2.area sv.2.size false) sv.2 = .ok (im, bad) → blockOf s core entry r = some b →
    ∃ t c, exec (.restore core entry) s = .next t ∧ tget t.saved sv.1 = none ∧ tget t.blocks s.nextId = some c ∧
      c.core = core ∧ c.entry = entry ∧ c.slots = b.slots ∧ c.text = r.text ∧ c.bars = barsOfImage (im.drop 0x20) ∧
      c.apf = sv.2.blk.apf ∧ c.translated = sv.2.blk.translated ∧
      (∀ i x, i < b.scrSize → im[fieldAt im 0x18 8 + i]? = some x → memByte t.mem (scratchKey core b.scrBase + i) = x) ∧
      ∀ idx k old, b.slots[idx]? = some k → fieldAt im (0xA0 + 4 * idx) 4 ≠ 0 →
        sv.2.groups.find? (fun g => g.idx == idx) = some old →
        let rec' := im.drop (fieldAt im (0xA0 + 4 * idx) 4)
        ∃ h, t.group k = some h ∧ h.blk = s.nextId ∧ h.idx = idx ∧ h.handler = (fieldAt rec' 1 1 % 2 == 1) ∧
          h.m0 = BitVec.ofNat 64 (fieldAt rec' 0x38 8) ∧ h.hscr0 = BitVec.ofNat 64 (fieldAt rec' 0x200 8) ∧
          h.hscr1 = BitVec.ofNat 64 (fieldAt rec' 0x208 8) ∧ h.dead = BitVec.ofNat 32 (fieldAt rec' 0x210 4) ∧
          h.claims = BitVec.ofNat 16 (fieldAt rec' 0x7C 2) ∧
          (∀ i : Fin 7, h.preds[i.val + 1] = BitVec.ofNat 64 (fieldAt rec' (0x40 + 8 * i.val) 8)) ∧
          (∀ n, n < 128 → fieldAt rec' 0x28 16 / 2 ^ n % 2 = 0 → RegBack rec' n (tget h.regs n)) ∧
          (∀ i, i < 4 → RegBack rec' (128 + i) (tget h.hregs (124 + i))) ∧ ∀ i, i < fieldAt rec' 0 1 → SplitBack rec' i h)

/-! ## Dies and links -/

/-- R417 to R423: DIECTL starts a warm reset, an absence or a readmission; a drain leaves no block of the die and no line in its caches,
and posts DIE_RESET; once its blocks have been dispatched again that is posted, and the die is readmitted or goes absent; readmission counts the incarnation up, or the die goes absent; packets of another incarnation have
no effect; a link step, at most one in 100 µs, opens a retraining window, whose end lets a waiting reset begin; replays are counted. -/
def Obligations.DiesAndLinks : Prop :=
  (∀ (s : State) (v : DWord), ready s = true → dieCtlBusy s = false → v.setWidth 32 &&& 0x7FFFFCF8#32 = 0 →
    let d := v.toNat % 8
    let cmd := v.toNat / 256 % 4
    (cmd = 1 → (dieAt s d).state = .run → (linkAt s d).retraining = false →
      ∃ t, exec (.warmreset v) s = .next t ∧ dieCtlBusy t = true ∧
        dieAt t d = { dieAt s d with state := .resetting, drained := false, resetPending := false }) ∧
    (cmd = 2 → (dieAt s d).state = .run → (linkAt s d).retraining = false →
      ∃ t, exec (.absent v) s = .next t ∧ dieCtlBusy t = true ∧
        dieAt t d = { dieAt s d with state := .resetting, drained := false, resetPending := false, toAbsent := true }) ∧
    (cmd = 3 → (dieAt s d).state = .absent →
      ∃ t, exec (.present v) s = .next t ∧ dieCtlBusy t = true ∧ dieAt t d = { dieAt s d with state := .readmitting })) ∧
  (∀ (s : State) (d : Nat) (bad : List Nat), d < 8 → (dieAt s d).state = .resetting → (dieAt s d).drained = false → 1 ≤ lodgeRoom s →
    (∀ x ∈ acceptedOf s d, comesFirst s x.2.2 = false) → forwardsOf s d = [] → Inv s →
    ∃ t n, exec (.drain d bad) s = .next t ∧
      dieAt t d = { dieAt s d with drained := true, redone := some n, poisoned := (dieAt t d).poisoned } ∧
      (∀ e ∈ t.blocks, e.2.core / 32 ≠ d) ∧ (∀ l ∈ t.dc, l.die ≠ d) ∧ (∀ l ∈ t.l1, l.core / 32 ≠ d) ∧
      ((tget t.outbox 8).getD {}).recs.map (·.code) = ((tget s.outbox 8).getD {}).recs.map (·.code) ++ [7]) ∧
  (∀ (s : State) (d n : Nat), d < 8 → (dieAt s d).state = .resetting → (dieAt s d).redone = some n → redoOpen s = false → 2 ≤ lodgeRoom s →
    ∃ t, runPick s (.redispatched d) = .next t ∧ (dieAt t d).redone = none ∧
      (dieAt t d).state = (if (dieAt s d).toAbsent then .absent else .readmitting) ∧
      ((tget t.outbox 8).getD {}).recs.map (·.code) = ((tget s.outbox 8).getD {}).recs.map (·.code) ++
        if (dieAt s d).toAbsent then [8, 10] else [8]) ∧
  (∀ (s : State) (d : Nat) (ok : Bool), d < 8 → (dieAt s d).state = .readmitting → 1 ≤ lodgeRoom s → (dieAt s d).toAbsent = false →
    (∀ w ∈ s.fwd, w.core / 32 ≠ d) →
    ∃ t e, exec (.readmission d ok) s = .next t ∧ ((tget t.outbox 8).getD {}).recs = ((tget s.outbox 8).getD {}).recs ++ [e] ∧
      (ok = true → (dieAt t d).state = .run ∧ (dieAt t d).inc = (dieAt s d).inc + 1 ∧ (dieAt t d).clk = 0 ∧ e.code = 9) ∧
      (ok = false → (dieAt t d).state = .absent ∧ e.code = 10)) ∧
  (∀ (s : State) (sender inc : Nat) (pk : UciePayload),
    (recordedInc s sender ≠ inc → exec (.uciePacketReceive sender inc pk) s = .next s) ∧
    (recordedInc s sender = inc → ∃ t, exec (.uciePacketReceive sender inc pk) s = .next t ∧
      (∀ port, pk = .request port → port = sender → exec (.homeRequest port) s = .next t) ∧
      (∀ id, pk = .reply id → exec (.loadResultArrival id) s = .next t) ∧ (pk = .other → t = s))) ∧
  (∀ (s : State) (l step : Nat), l < 10 → (l < 8 → (dieAt s l).state = .run) → (linkAt s l).retraining = false →
    ((linkAt s l).changed.any fun t => decide (s.lodge < t + 100 * lodgePerUs)) = false →
    ∃ t, exec (.linkStepChange l step) s = .next t ∧
      linkAt t l = { linkAt s l with step := BitVec.ofNat 2 step, retraining := true, changed := some s.lodge }) ∧
  (∀ (s : State) (l : Nat), l < 10 → ∃ t, exec (.retrainingWindowEnd l) s = .next t ∧ (linkAt t l).retraining = false ∧
    (l < 8 → (dieAt s l).resetPending = true → (dieAt t l).state = .resetting)) ∧
  (∀ (s : State) (l : Nat) (ok : Bool), l < 10 → (ok = false → (linkAt s l).replays < 7) →
    ∃ t, exec (.flitReplay l ok) s = .next t ∧ t.boot.errLink = countErrors s.boot.errLink 1 0 ∧
      (linkAt t l).replays = if ok then 0 else (linkAt s l).replays + 1)

/-! ## The event queues -/

/-- R424 to R427: a record goes into its slot of the host's ring with the ring's phase, and the message goes out; with no room it is
counted as lost; lost records are reported by one OVERFLOW record of their source; the registers take the host's writes. -/
def Obligations.EventQueues : Prop :=
  (∀ (s : State) (src : Nat) (e : Event) (rest : List Event),
    let g := gondolaOf src
    let q := gondolaAt s g
    let o := (tget s.outbox src).getD {}
    (∀ x, ((tget s.outbox x).getD {}).lost = 0) → o.recs = e :: rest → (linkAt s (8 + g)).retraining = false → (src < 8 → (linkAt s src).retraining = false) →
    (evqRoom q = true → ∃ t, exec (.eventRecordAccept src) s = .next t ∧ tget t.outbox src = some { o with recs := rest } ∧
      gondolaAt t g = { q with evqwidx := q.evqwidx + 1, msix := raised q } ∧
      t.mem = memWrite s.mem (hostAddrKey q.evqbase + q.evqwidx.toNat % 2 ^ evqLog2 q * 32)
        (recordBytes e (!(q.evqwidx.getLsbD (evqLog2 q))))) ∧
    (evqRoom q = false → ∃ t, exec (.eventRecordAccept src) s = .next t ∧ t.mem = s.mem ∧
      tget t.outbox src = some { recs := rest, lost := 1, firstCode := e.code, lastCode := e.code })) ∧
  (∀ (s : State) (src : Nat), src ≤ 10 →
    let g := gondolaOf src
    let q := gondolaAt s g
    let o := (tget s.outbox src).getD {}
    o.lost ≠ 0 → (∀ x, x ≠ src → ((tget s.outbox x).getD {}).lost = 0) → evqRoom q = true →
    ∃ t, exec (.overflow g) s = .next t ∧ tget t.outbox src = some { recs := o.recs } ∧
      t.mem = memWrite s.mem (hostAddrKey q.evqbase + q.evqwidx.toNat % 2 ^ evqLog2 q * 32)
        (recordBytes (overflowEvent s src o) (!(q.evqwidx.getLsbD (evqLog2 q))))) ∧
  (∀ (s : State) (g : Nat) (v : DWord), g < 2 →
    let q := gondolaAt s g
    let n := (v.extractLsb' 0 5).toNat
    (q.evqctl.getLsbD 31 = false → ∃ t, exec (.evqbaseWrite g v) s = .next t ∧ gondolaAt t g = { q with evqbase := v }) ∧
    (v &&& 0xFFFFFFFF7FFF00E0#64 = 0 → 6 ≤ n → n ≤ 16 → (q.evqctl.getLsbD 31 = false ∨ n = evqLog2 q) →
      ∃ t, exec (.evqctlWrite g v) s = .next t ∧ gondolaAt t g = { q with evqctl := v }) ∧
    ∃ t, exec (.evqridxWrite g v) s = .next t ∧ gondolaAt t g = { q with evqridx := v })

/-! ## The outside -/

/-- R400, R422, R430 to R433: writes of the host, of a joined peer and of the network land where they are addressed, and no other byte
changes, where nothing else waits at a home; a peer joins with its incarnation, and is lost when its routes fail or it leaves a request unanswered for the peer timeout, and the
Gondola's own record of it goes into its ring; a collection drops the replicas of the peer's lines. That a host's write waits for no
frozen entry is the model's choice (notes/assumptions/50.md), as are the layout of ARG0 of PEER_JOINED, with the number's two upper bits above the
incarnation (53.md), and which Gondola posts the peer's records (49.md, 53.md). -/
def Obligations.Outside : Prop :=
  (∀ (s : State) (space : HostSpace) (g a : Nat) (bs : List Byte), g < 2 → Inv s → Quiet s →
    (match space with
      | .hbm => ready s = true ∧ a + bs.length ≤ hbmBytes ∧ meetsSetAside a bs.length = false ∧ (linkAt s (8 + g)).retraining = false
      | .host0 | .host1 => a + bs.length ≤ 2 ^ 52) →
    let key := match space with | .hbm => devKey a | .host0 => hostKey 0 a | .host1 => hostKey 1 a
    ∃ t, exec (.hostAccess space g a (.write bs)) s = .next t ∧ t.readBytes key bs.length = bs ∧
      ∀ k, k < key ∨ key + bs.length ≤ k → memByte t.mem k = memByte s.mem k) ∧
  (∀ (s : State) (i : Instr) (peer inc g ctx a port : Nat) (va : DWord) (bs : List Byte) (ks : List Nat),
    ((i = .peerRequest peer inc a (.write bs) ∧ (peerAt s peer).joined = true ∧ (peerAt s peer).inc.toNat = inc ∧ a + bs.length ≤ 2 ^ 46 ∧
        ctx = s.boot.podCtx ∧ va = BitVec.ofNat 64 a ∧ port = 8 + peerGondola s peer) ∨
      (i = .ethernetTransfer g ctx va (.write bs) ∧ g < 2 ∧ port = 8 + g)) →
    (linkAt s port).retraining = false → agentHeld s port ctx va bs.length = false → agentKeys s port ctx true va bs.length = .ok ks →
    ks.Nodup → Inv s → Quiet s → ready s = true →
    ∃ t, exec i s = .next t ∧ (∀ x ∈ ks.zip bs, memByte t.mem x.1 = x.2) ∧ ∀ k, k ∉ ks → memByte t.mem k = memByte s.mem k) ∧
  (∀ (s : State) (p inc : Nat), p < s.boot.podSize → p ≠ s.boot.peerNum →
    let g := peerGondola s p
    let q := gondolaAt s g
    let posted (t : State) (code arg : Nat) : Prop := (∀ x, ((tget s.outbox x).getD {}).lost = 0) → evqRoom q = true →
      t.mem = memWrite s.mem (hostAddrKey q.evqbase + q.evqwidx.toNat % 2 ^ evqLog2 q * 32)
        (recordBytes { code := code, src := 9 + g + 256 * sourceInc s (9 + g), ctx := 0xFF, time := s.lodge, detail := BitVec.ofNat 64 arg,
                       detail2 := 0 } (!(q.evqwidx.getLsbD (evqLog2 q))))
    (ready s = true → ∃ t, exec (.peerJoined p inc) s = .next t ∧
      peerAt t p = { joined := true, inc := BitVec.ofNat 8 inc, since := none, lost := false } ∧ posted t 12 (p % 256 + 256 * (inc % 256) + 65536 * (p / 256))) ∧
    ∀ i, (i = .peerLost p ∨ (i = .peerTimeout p ∧ peerLate s p = true)) →
      ∃ t, exec i s = .next t ∧ peerAt t p = { peerAt s p with joined := false, lost := true, since := none } ∧ posted t 11 p) ∧
  (∀ (s : State) (peer inc base len : Nat), (peerAt s peer).joined = true → (peerAt s peer).inc.toNat = inc →
    ∃ t, exec (.peerCollectRequest peer inc true base len) s = .next t ∧ t.mem = s.mem ∧
      ∀ l ∈ t.dc, l.replica = true → l.vline * 128 / 2 ^ 56 = 0x40 → l.vline * 128 / 2 ^ 46 % 1024 = peer →
        l.vline * 128 % 2 ^ 46 < base ∨ base + len ≤ l.vline * 128 % 2 ^ 46)

/-! ## Bring-up, power, errors -/

/-- R434 to R445: power-up ends in the safe state or at the step that failed; a LOAD starts the steps 3 to 6, which one after the other
bring the package to READY with its passing dies running, or end at the step that failed (the check of the context table's place in step 4,
and that step 5 reports a die whose link fails with code 9, are the model's: notes/assumptions/47.md); heat and power move the clock and the throttle mark; a thermal trip is a failure; errors are
counted and leave poison; the image registers take writes; a power-down leaves BOOTSTAT, dies, groups, blocks,
queues and requests as at reset, and of memory only what lies outside the package: that the package's own reads 0 afterwards is the
model's choice (notes/assumptions/1.md). -/
def Obligations.BringUp : Prop :=
  (∀ (s : State) (sram link : Bool), ∃ t, exec (.powerOnReset sram link) s = .next t ∧ t.groups = [] ∧
    (sram = false → t.boot.state = .failed ∧ t.boot.step = 1 ∧ t.boot.code = 1) ∧
    (sram = true → link = false → t.boot.state = .failed ∧ t.boot.step = 2 ∧ t.boot.code = 2) ∧
    (sram = true → link = true → t.boot.state = .safe ∧ t.boot.step = 0 ∧ t.boot.code = 0)) ∧
  (∀ (s : State) (v : DWord) (fetchOk hbmOk : Bool) (hbm dieOk linkOk : BitVec 8), loadTaken s v = true →
    ∃ t, exec (.load v fetchOk hbmOk hbm dieOk linkOk) s = .next t ∧ t.boot.state = .loading ∧ t.boot.cmd = 1 ∧ t.boot.step = 0 ∧
      t.boot.code = 0 ∧ t.boot.loading =
        some { step := 3, fetchOk := fetchOk, hbmOk := hbmOk, hbmStacks := hbm, dieOk := dieOk, linkOk := linkOk }) ∧
  (∀ (s : State) (l : LoadRun), s.boot.loading = some l →
    let failed (t : State) (code : Nat) : Prop := t.boot.state = .failed ∧ t.boot.step = l.step ∧ t.boot.code = code ∧ t.boot.loading = none
    let cfg := blobOf l.blob
    let tried := ~~~s.boot.absentMask
    let pass := l.dieOk &&& l.linkOk
    ∃ t, runPick s .bringUp = .next t ∧
      (l.step = 3 → match checkImages s l.fetchOk with
        | .error code => failed t code
        | .ok (fw, im) => t.boot.state = s.boot.state ∧ t.boot.loading = some { l with step := 4, mcrev := fw.mcrev, blob := im.payload }) ∧
      (l.step = 4 →
        (l.hbmOk = false ∨ l.hbmStacks ≠ 0xFF → failed t 8) ∧
        (l.hbmOk = true → l.hbmStacks = 0xFF → tableOk l.blob = false → failed t 6) ∧
        (l.hbmOk = true → l.hbmStacks = 0xFF → tableOk l.blob = true → t.boot.loading = some { l with step := 5 } ∧ t.frt = [] ∧ t.tags = [] ∧
          t.boot.ctxTable = BitVec.ofNat 64 cfg.ctxTable ∧ t.boot.absentMask = BitVec.ofNat 8 cfg.absent)) ∧
      (l.step = 5 →
        (tried &&& ~~~pass ≠ 0 → (s.boot.policy.getLsbD 0 = true ∨ tried &&& pass = 0) → failed t 9) ∧
        (tried &&& ~~~pass = 0 ∨ (s.boot.policy.getLsbD 0 = false ∧ tried &&& pass ≠ 0) →
          t.boot.state = .ready ∧ t.boot.step = 0 ∧ t.boot.code = 0 ∧ t.boot.loading = none ∧
          ∀ d : Fin 8, (dieAt t d).state = if s.boot.absentMask.getLsbD d = false ∧ pass.getLsbD d = true then .run else .absent))) ∧
  (∀ (s : State) (power temp : Nat), overLimits s power temp = true → temp < 110 → ready s = true →
    ∃ t, exec (.throttle power temp) s = .next t ∧ t.boot.throttle = true ∧ t.boot.cstep.toNat = min 3 (s.boot.cstep.toNat + 1) ∧
      t.boot.power = min power 65535 ∧ t.boot.tmax = min temp 255) ∧
  (∀ (s : State) (power temp : Nat), overLimits s power temp = false → s.boot.cstep ≠ 0 →
    ∃ t, exec (.clockRaise power temp) s = .next t ∧ t.boot.cstep.toNat + 1 = s.boot.cstep.toNat ∧
      t.boot.throttle = decide (s.boot.cstep ≠ 1)) ∧
  (∀ (s : State) (i : Instr) (power temp : Nat), 110 ≤ temp → i ∈ [.thermalTrip temp, .throttle power temp, .clockRaise power temp] →
    ∃ t, exec i s = .next t ∧ t.boot.state = .failed ∧ t.boot.code = 10 ∧ t.blocks = [] ∧ ∀ d : Fin 8, (dieAt t d).state = .held) ∧
  (∀ (s : State) (key : Nat), ∃ t, exec (.sramCorrectedError key) s = .next t ∧
    t = { s with boot := { s.boot with errSram := countErrors s.boot.errSram 1 0 } }) ∧
  (∀ (s : State) (key : Nat), outsideKey key = false ∨ cachedOutside s key = true → ∃ t, exec (.uncorrectableError (.word key)) s = .next t ∧
    key / 4 ∈ t.poison ∧ t.mem = s.mem ∧ t.boot.errSram = countErrors s.boot.errSram 0 1) ∧
  (∀ (s : State) (line : Nat), ∃ t, exec (.hbmScrub line) s = .next t ∧ t.mem = s.mem ∧ t.tags = s.tags ∧ t.poison = s.poison ∧
    (t.boot = s.boot ∨ t.boot = { s.boot with errHbm := countErrors s.boot.errHbm 1 0 })) ∧
  (∀ (s : State) (v : DWord),
    (∃ t, exec (.errorRegisterWrite 0x400 v) s = .next t ∧ t.boot = { s.boot with errSram := 0 }) ∧
    (∃ t, exec (.errorRegisterWrite 0x408 v) s = .next t ∧ t.boot = { s.boot with errHbm := 0 }) ∧
    (∃ t, exec (.errorRegisterWrite 0x410 v) s = .next t ∧ t.boot = { s.boot with errLink := 0 }) ∧
    (∃ t, exec (.registerWrite 0 0x210 v) s = .next t ∧ t.boot = { s.boot with fwaddr := v }) ∧
    (∃ t, exec (.registerWrite 0 0x218 v) s = .next t ∧ t.boot = { s.boot with fwlen := v }) ∧
    (∃ t, exec (.registerWrite 0 0x220 v) s = .next t ∧ t.boot = { s.boot with cfgaddr := v }) ∧
    (∃ t, exec (.registerWrite 0 0x228 v) s = .next t ∧ t.boot = { s.boot with cfglen := v })) ∧
  (∀ s : State, ∃ t, exec .powerDown s = .next t ∧ t.boot = State.reset.boot ∧ t.groups = [] ∧ t.blocks = [] ∧ t.queues = [] ∧
    t.dies = State.reset.dies ∧ t.reqs = [] ∧ (Inv s → ∀ k, memByte t.mem k = if outsideKey k then memByte s.mem k else 0))
end

