-- ==== Sys2Proof/Laws/Encoding.lean ====
section
/-! SUPPORT. Encoding.lean: every code is read back, and so are the fields of a word (R67 to R74). -/

namespace Sys2Proof

/-! ## Codes -/

@[simp] theorem FunnelDir.ofCode_code (x : FunnelDir) : FunnelDir.ofCode x.code = some x := by cases x <;> rfl

@[simp] theorem Cond.ofCode_code (x : Cond) : Cond.ofCode x.code = some x := by cases x <;> rfl

@[simp] theorem FCond.ofCode_code (x : FCond) : FCond.ofCode x.code = some x := by cases x <;> rfl

@[simp] theorem Comb.ofCode_code (x : Comb) : Comb.ofCode x.code = some x := by cases x <;> rfl

@[simp] theorem Logic.ofCode_code (x : Logic) : Logic.ofCode x.code = some x := by cases x <;> rfl

@[simp] theorem Rnd.ofCode_code (x : Rnd) : Rnd.ofCode x.code = some x := by cases x <;> rfl

@[simp] theorem FSrc.ofCode_code (x : FSrc) : FSrc.ofCode x.code = some x := by cases x <;> rfl

@[simp] theorem PackFmt.ofCode_code (x : PackFmt) : PackFmt.ofCode x.code = some x := by cases x <;> rfl

@[simp] theorem LxMode.ofCode_code (x : LxMode) : LxMode.ofCode x.code = some x := by cases x <;> rfl

@[simp] theorem PollMode.ofCode_code (x : PollMode) : PollMode.ofCode x.code = Option.some x := by cases x <;> rfl

@[simp] theorem RedOp.ofCode_code (x : RedOp) : RedOp.ofCode x.code = some x := by cases x <;> rfl

@[simp] theorem BarMode.ofCode_code (x : BarMode) : BarMode.ofCode x.code = some x := by cases x <;> rfl

@[simp] theorem MemW.ofCode_code (x : MemW) : MemW.ofCode x.code = some x := by cases x <;> rfl

@[simp] theorem ReqTy.ofCode_code (x : ReqTy) : ReqTy.ofCode x.code = some x := by cases x <;> rfl

@[simp] theorem Lvl.ofCode_code (x : Lvl) : Lvl.ofCode x.code = some x := by cases x <;> rfl

@[simp] theorem AtomOp.ofCode_code (x : AtomOp) : AtomOp.ofCode x.code = some x := by cases x <;> rfl

@[simp] theorem AtomOrd.ofCode_code (x : AtomOrd) : AtomOrd.ofCode x.code = some x := by cases x <;> rfl

@[simp] theorem FenceOrd.ofCode_code (x : FenceOrd) : FenceOrd.ofCode x.code = some x := by cases x <;> rfl

@[simp] theorem Scope.ofCode_code (x : Scope) : Scope.ofCode x.code = some x := by cases x <;> rfl

@[simp] theorem CpyDim.ofCode_code (x : CpyDim) : CpyDim.ofCode x.code = some x := by cases x <;> rfl

@[simp] theorem Role.ofCode_code (x : Role) : Role.ofCode x.code = some x := by cases x <;> rfl

@[simp] theorem MldSrc.ofCode_code (x : MldSrc) : MldSrc.ofCode x.code = some x := by cases x <;> rfl

@[simp] theorem MmovForm.ofCode_code (x : MmovForm) : MmovForm.ofCode x.code = some x := by cases x <;> rfl

@[simp] theorem MmaFmt.ofCode_code (x : MmaFmt) : MmaFmt.ofCode x.code = some x := by cases x <;> rfl

@[simp] theorem Ty.ofCode_code (x : Ty) : Ty.ofCode x.code = some x := by cases x <;> rfl

@[simp] theorem Sel.ofCode_code (x : Sel) : Sel.ofCode x.code = some x := by
  cases x with
  | reg n => simp [Sel.code, Sel.ofCode, n.isLt]
  | pred k =>
    have := k.isLt
    simp [Sel.code, Sel.ofCode]
  | zero => rfl
  | imm => rfl
  | fimm => rfl
  | lane => rfl

theorem Sel.code_lt (x : Sel) : x.code < 256 := by
  cases x with
  | reg n => have := n.isLt; simp only [Sel.code]; omega
  | pred k => have := k.isLt; simp only [Sel.code]; omega
  | zero => decide
  | imm => decide
  | fimm => decide
  | lane => decide

theorem Src.code_lt (x : Src) : x.code < 1024 := by
  have := x.sel.code_lt
  unfold Src.code bitOf
  split <;> split <;> omega

@[simp] theorem Src.ofCode_code (x : Src) : Src.ofCode x.code = some x := by
  obtain ⟨sel, neg, lu⟩ := x
  have h := sel.code_lt
  unfold Src.ofCode Src.code bitOf
  have h1 : (sel.code + 256 * (if lu = true then 1 else 0) + 512 * (if neg = true then 1 else 0)) % 256 = sel.code := by
    split <;> split <;> omega
  have h2 : (sel.code + 256 * (if lu = true then 1 else 0) + 512 * (if neg = true then 1 else 0)) / 256 % 2 = if lu = true then 1 else 0 := by
    split <;> split <;> omega
  have h3 : (sel.code + 256 * (if lu = true then 1 else 0) + 512 * (if neg = true then 1 else 0)) / 512 % 2 = if neg = true then 1 else 0 := by
    split <;> split <;> omega
  simp only [h1, h2, h3, Sel.ofCode_code, Option.map_some]
  cases lu <;> cases neg <;> rfl

@[simp] theorem Dst.ofCode_code (x : Dst) : Dst.ofCode x.code = some x := by
  cases x with
  | vec n => simp [Dst.code, Dst.ofCode, n.isLt]
  | pred k =>
    have := k.isLt
    simp [Dst.code, Dst.ofCode]
  | none => rfl

theorem Dst.code_lt (x : Dst) : x.code < 256 := by
  cases x with
  | vec n => have := n.isLt; simp only [Dst.code]; omega
  | pred k => have := k.isLt; simp only [Dst.code]; omega
  | none => decide

theorem Ty.code_lt (x : Ty) : x.code < 32 := by cases x <;> decide

@[simp] theorem Abs.ofCode_code (x : Abs) : Abs.ofCode x.code = some x := by
  obtain ⟨a, b, c⟩ := x
  cases a <;> cases b <;> cases c <;> rfl

/-! ## Words -/

/-- Every field of a packed word is read back. -/
@[simp] theorem unpack_pack (r : RawWord) : unpack (pack r) = r := by
  obtain ⟨opc, fn, gp, gn, dst, ty, sa, sb, sc, stall, yl, imm⟩ := r
  simp only [unpack, pack, RawWord.mk.injEq]
  constructorm* _ ∧ _ <;>
    (ext i hi; simp only [BitVec.getElem_extractLsb', BitVec.getLsbD_append]; grind)

/-- The shared fields of an instruction are read back. -/
@[simp] theorem op_raw (opc fn : Nat) (o : Op) : (o.raw opc fn).op = some o := by
  obtain ⟨⟨gp, gn, stall, yl⟩, ty, dst, a, b, c, imm⟩ := o
  have h1 := ty.code_lt
  have h2 := dst.code_lt
  have h3 := a.code_lt
  have h4 := b.code_lt
  have h5 := c.code_lt
  simp only [RawWord.op, Op.raw, BitVec.toNat_ofNat]
  simp (disch := omega) only [Nat.mod_eq_of_lt]
  cases gn <;> cases yl <;> simp

/-! ## Bytes -/

theorem leBytes_length (n v : Nat) : (leBytes n v).length = n := by
  induction n generalizing v with
  | zero => rfl
  | succ n ih => simp [leBytes, ih]

theorem leNat_leBytes (n v : Nat) : leNat (leBytes n v) = v % 256 ^ n := by
  induction n generalizing v with
  | zero => simp [leBytes, leNat, Nat.mod_one]
  | succ n ih =>
    have h : (BitVec.ofNat 8 v).toNat = v % 256 := BitVec.toNat_ofNat v 8
    rw [leBytes, leNat, ih, h, pow_succ', Nat.mod_mul]

/-- The bytes of a word give the word back. -/
@[simp] theorem wordOfBytes_bytesOfWord (w : IWord) : wordOfBytes (bytesOfWord w) = w := by
  unfold wordOfBytes bytesOfWord
  rw [leNat_leBytes]
  have h : (256 : Nat) ^ 12 = 2 ^ 96 := by norm_num
  rw [h, Nat.mod_eq_of_lt w.isLt]
  simp

theorem decode_bytesOfWord (w : IWord) : decode (bytesOfWord w) = decodeWord w := by
  unfold decode
  rw [wordOfBytes_bytesOfWord]

end Sys2Proof
end

