-- ==== Sys2Proof/Laws/Homes.lean ====
section
/-! SUPPORT. Homes.lean: what the reads of agents that are no lanes can do: clocks and turns at the Lodge, TLBs, die caches, regions and
counters, and nothing else, where nothing waits at a home. -/

namespace Sys2Proof.Machine

/-- t is s but for what the reads of agents leave. -/
def OnlyReads (s t : State) : Prop := t = afterReads s t

theorem OnlyReads.refl (s : State) : OnlyReads s s := rfl

theorem OnlyReads.trans {a b c : State} (h1 : OnlyReads a b) (h2 : OnlyReads b c) : OnlyReads a c := by
  unfold OnlyReads at *
  rw [h2, h1]
  rfl

theorem OnlyReads.foldl {α : Type} {f : State → α → State} {p : State → Prop} (hp : ∀ a b, OnlyReads a b → p a → p b)
    (hf : ∀ s x, p s → OnlyReads s (f s x)) (l : List α) (s : State) (h : p s) : OnlyReads s (l.foldl f s) := by
  induction l generalizing s with
  | nil => exact .refl s
  | cons x l ih => exact (hf s x h).trans (ih _ (hp _ _ (hf s x h) h))

/-- Nothing of what Quiet speaks of changes. -/
theorem OnlyReads.quiet {s t : State} (h : OnlyReads s t) (q : Quiet s) : Quiet t := by
  rw [h]
  exact q

theorem onlyReads_all {α : Type} {f : State → α → State} (hf : ∀ s x, OnlyReads s (f s x)) (l : List α) (s : State) :
    OnlyReads s (l.foldl f s) :=
  OnlyReads.foldl (p := fun _ => True) (fun _ _ _ _ => trivial) (fun s x _ => hf s x) l s trivial

/-! ## Caches and counters -/

theorem onlyReads_countRemote (s : State) (key : Nat) (r : Bool) : OnlyReads s (countRemote s key r) := by
  unfold countRemote
  split <;> rfl

theorem onlyReads_wroteBack (s : State) (ls : List DcLine) : OnlyReads s (wroteBack s ls) :=
  onlyReads_all (fun s _ => onlyReads_countRemote s _ _) ls s

theorem onlyReads_dropLines (s : State) (d base size : Nat) : OnlyReads s (dropLines s d base size) := by
  unfold dropLines
  exact (onlyReads_wroteBack s _).trans rfl

theorem onlyReads_evictLine (s : State) (d key : Nat) : OnlyReads s (evictLine s d key) := by
  unfold evictLine
  split
  · split
    · rfl
    · exact (onlyReads_wroteBack s _).trans rfl
  · rfl

theorem onlyReads_dcPut (s : State) (d ctx : Nat) (a : DWord) (key : Nat) (dirty replica w loc : Bool) :
    OnlyReads s (dcPut s d ctx a key dirty replica w loc) := by
  unfold dcPut
  dsimp only
  have h1 : ∀ b : Bool, OnlyReads s (if b = true then evictLine s d (key / 128 * 128) else s) := fun b => by
    cases b
    · rfl
    · exact onlyReads_evictLine s d _
  refine (h1 (s.dc.any fun l => l.die == d && l.key == key / 128 * 128 && !(l.ctx == ctx && l.vline == vlineOf a))).trans ?_
  generalize (if (s.dc.any fun l => l.die == d && l.key == key / 128 * 128 && !(l.ctx == ctx && l.vline == vlineOf a)) = true then _ else s) = u
  have h2 := onlyReads_all (fun s (l : DcLine) => onlyReads_evictLine s d l.key)
    (((dcSetLines u d key).filter (fun l => !l.loc) ++ (dcSetLines u d key).filter (·.loc)).take
      (if inDc u d key then 0 else (dcSetLines u d key).length + 1 - dcWays u d)) u
  refine h2.trans ?_
  rfl

theorem onlyReads_dcTouch (s : State) (d ctx : Nat) (a : DWord) (key : Nat) (dirty w keep : Bool) :
    OnlyReads s (dcTouch s d ctx a key dirty w keep) := by
  unfold dcTouch
  split
  · rfl
  · split
    · exact onlyReads_dcPut ..
    · rfl

theorem onlyReads_isolateNow (s : State) (key : Nat) : OnlyReads s (isolateNow s key) := by
  unfold isolateNow
  dsimp only
  split
  · rfl
  · exact OnlyReads.trans (b := replaceRegion s _ _) rfl (onlyReads_dropLines ..)

/-! ## Homes -/

theorem Quiet.link {s : State} (q : Quiet s) (p : Nat) : linkOpen s p = true := by
  by_cases h : p < 10
  · exact q.2.2.2.1 ⟨p, h⟩
  · simp [linkOpen, h]

theorem Quiet.drained {s : State} (q : Quiet s) (d : Nat) : undrained s d = false := by
  by_cases h : d < 8
  · exact q.2.2.2.2.1 ⟨d, h⟩
  · simp [undrained, h]

theorem Quiet.free {s : State} (q : Quiet s) (key : Nat) : homeBlocked s key = false := by
  have hk : keyOpen s key = true := by
    unfold keyOpen
    cases keyLink s key <;> simp [q.link]
  simp [homeBlocked, hk, q.1, q.2.1, q.link, q.drained]

theorem Quiet.line {s : State} (q : Quiet s) (key : Nat) : queuedOn s key = [] := by
  have h : ∀ l : List (MemOp × Access), l = [] → sortBy (fun (a b : MemOp × Access) => decide (a.2.queued.getD 0 < b.2.queued.getD 0)) l = [] :=
    fun l hl => by rw [hl]; rfl
  unfold queuedOn
  refine h _ ?_
  simp only [List.flatMap_eq_nil_iff, List.map_eq_nil_iff, List.filter_eq_nil_iff]
  intro o ho x hx
  simp [q.2.2.1 o ho x hx]

theorem Quiet.onlyReads_settleNow {s : State} (q : Quiet s) (key : Nat) : OnlyReads s (settleNow s key) := by
  unfold settleNow
  rw [q.free key, if_neg Bool.false_ne_true]
  have hr : (s.recalls.filter fun r => r.base ≤ key && key < r.base + r.size).foldl finishRecall s = s := by
    rw [q.2.1]; rfl
  have hf : (s.fwd.filter fun f => lineOf f.key == lineOf key).foldl landForwarded s = s := by
    rw [q.1]; rfl
  unfold settleLine
  simp only [hr, hf]
  split
  · split <;> rfl
  · rfl

theorem Quiet.onlyReads_arriveHome {s : State} (q : Quiet s) (port key : Nat) : OnlyReads s (arriveHome s port key) := by
  have h1 : OnlyReads s (awaitTurn s port key) := by
    unfold awaitTurn untilTurn
    split <;> rfl
  have q1 := h1.quiet q
  unfold arriveHome
  dsimp only
  rw [q1.line key]
  exact h1.trans (q1.onlyReads_settleNow key)

theorem Quiet.onlyReads_comesHome {s : State} (q : Quiet s) (port : Nat) (way : Way) (key : Nat) : OnlyReads s (comesHome s port way key) := by
  unfold comesHome
  simp only [q.link, Bool.and_self, if_true]
  exact q.onlyReads_arriveHome _ _

theorem Quiet.onlyReads_homeRead {s : State} (q : Quiet s) (port ctx : Nat) (a : DWord) (key : Nat) (w remote replicas : Bool) :
    OnlyReads s (homeRead s port ctx a key w remote replicas) := by
  unfold homeRead
  dsimp only
  split
  · split
    · rfl
    · exact (q.onlyReads_comesHome ..).trans ((onlyReads_countRemote ..).trans (onlyReads_dcPut ..))
  · split
    · rfl
    · refine (q.onlyReads_comesHome port (wayOf s port ctx a) key).trans ?_
      refine OnlyReads.trans (b := if (wayOf s port ctx a == .host) = true then
        isolateNow (comesHome s port (wayOf s port ctx a) key) key else comesHome s port (wayOf s port ctx a) key) ?_ ?_
      · split
        · exact onlyReads_isolateNow ..
        · rfl
      · generalize (if (wayOf s port ctx a == .host) = true then
          isolateNow (comesHome s port (wayOf s port ctx a) key) key else comesHome s port (wayOf s port ctx a) key) = u
        split
        · split
          · exact (onlyReads_countRemote ..).trans (onlyReads_dcPut ..)
          · exact (onlyReads_countRemote ..).trans (onlyReads_dcTouch ..)
        · exact onlyReads_countRemote ..

theorem Quiet.onlyReads_fillPage {s : State} (q : Quiet s) (port ctx off : Nat) : OnlyReads s (fillPage s port ctx off) := by
  unfold fillPage
  split
  · rfl
  · unfold walkFill
    dsimp only
    have h : OnlyReads s ((walkKeys s (off / 2 ^ 16 * 2 ^ 16) 4 0 (devKey (ctxRoot s ctx))).foldl (fun s key => arriveHome s 10 key) s) :=
      OnlyReads.foldl (p := Quiet) (fun _ _ h => h.quiet) (fun s key q => q.onlyReads_arriveHome 10 key) _ s q
    refine h.trans ?_
    split <;> rfl

theorem Quiet.onlyReads_fillRange {s : State} (q : Quiet s) (port ctx : Nat) (a : DWord) (n : Nat) : OnlyReads s (fillRange s port ctx a n) := by
  unfold fillRange
  refine OnlyReads.foldl (p := Quiet) (fun _ _ h => h.quiet) (fun s i q => ?_) _ s q
  have h : ∀ u, OnlyReads s u → OnlyReads s (match podOffset u (tlbHit u port ctx) (placeGlobal s (a + BitVec.ofNat 64 (i * 65536))) with
      | some off => fillPage u (podPort u) u.boot.podCtx off
      | none => u) := by
    intro u hu
    split
    · exact hu.trans ((hu.quiet q).onlyReads_fillPage ..)
    · exact hu
  dsimp only
  revert h
  generalize placeGlobal s (a + BitVec.ofNat 64 (i * 65536)) = p
  intro h
  cases p <;> first | exact h _ rfl | exact h _ (q.onlyReads_fillPage ..)

/-- A range that an agent reads where nothing waits at a home: memory, requests, groups and all else are as they were. -/
theorem Quiet.onlyReads_readAt {s : State} (q : Quiet s) (port ctx : Nat) (a : DWord) (n : Nat) (replicas : Bool) :
    OnlyReads s (readAt s port ctx a n replicas) := by
  have h := q.onlyReads_fillRange port ctx a n
  unfold readAt
  refine h.trans (OnlyReads.foldl (p := Quiet) (fun _ _ h => h.quiet) (fun s i q => ?_) _ _ (h.quiet q))
  dsimp only
  split
  · exact q.onlyReads_homeRead ..
  · rfl

end Sys2Proof.Machine
end

