-- ==== Sys2Proof/Laws/State.lean ====
section
/-! SUPPORT. State.lean: what each named update of the state leaves in each field. -/

namespace Sys2Proof.Machine

/-! ## One group -/

@[simp] theorem modGroup_mem (s : State) (k : Nat) (f : Group → Group) : (s.modGroup k f).mem = s.mem := rfl
@[simp] theorem modGroup_poison (s : State) (k : Nat) (f : Group → Group) : (s.modGroup k f).poison = s.poison := rfl
@[simp] theorem modGroup_tile (s : State) (k : Nat) (f : Group → Group) : (s.modGroup k f).tile = s.tile := rfl
@[simp] theorem modGroup_tilePoison (s : State) (k : Nat) (f : Group → Group) : (s.modGroup k f).tilePoison = s.tilePoison := rfl
@[simp] theorem modGroup_groups (s : State) (k : Nat) (f : Group → Group) : (s.modGroup k f).groups = tmod s.groups k f := rfl
@[simp] theorem modGroup_blocks (s : State) (k : Nat) (f : Group → Group) : (s.modGroup k f).blocks = s.blocks := rfl
@[simp] theorem modGroup_clusters (s : State) (k : Nat) (f : Group → Group) : (s.modGroup k f).clusters = s.clusters := rfl
@[simp] theorem modGroup_spans (s : State) (k : Nat) (f : Group → Group) : (s.modGroup k f).spans = s.spans := rfl
@[simp] theorem modGroup_grids (s : State) (k : Nat) (f : Group → Group) : (s.modGroup k f).grids = s.grids := rfl
@[simp] theorem modGroup_saved (s : State) (k : Nat) (f : Group → Group) : (s.modGroup k f).saved = s.saved := rfl
@[simp] theorem modGroup_binds (s : State) (k : Nat) (f : Group → Group) : (s.modGroup k f).binds = s.binds := rfl
@[simp] theorem modGroup_l1 (s : State) (k : Nat) (f : Group → Group) : (s.modGroup k f).l1 = s.l1 := rfl
@[simp] theorem modGroup_ilines (s : State) (k : Nat) (f : Group → Group) : (s.modGroup k f).ilines = s.ilines := rfl
@[simp] theorem modGroup_health (s : State) (k : Nat) (f : Group → Group) : (s.modGroup k f).health = s.health := rfl
@[simp] theorem modGroup_hdrs (s : State) (k : Nat) (f : Group → Group) : (s.modGroup k f).hdrs = s.hdrs := rfl
@[simp] theorem modGroup_matq (s : State) (k : Nat) (f : Group → Group) : (s.modGroup k f).matq = s.matq := rfl
@[simp] theorem modGroup_copies (s : State) (k : Nat) (f : Group → Group) : (s.modGroup k f).copies = s.copies := rfl
@[simp] theorem modGroup_shadow (s : State) (k : Nat) (f : Group → Group) : (s.modGroup k f).shadow = s.shadow := rfl
@[simp] theorem modGroup_resv (s : State) (k : Nat) (f : Group → Group) : (s.modGroup k f).resv = s.resv := rfl
@[simp] theorem modGroup_dies (s : State) (k : Nat) (f : Group → Group) : (s.modGroup k f).dies = s.dies := rfl
@[simp] theorem modGroup_gondolas (s : State) (k : Nat) (f : Group → Group) : (s.modGroup k f).gondolas = s.gondolas := rfl
@[simp] theorem modGroup_links (s : State) (k : Nat) (f : Group → Group) : (s.modGroup k f).links = s.links := rfl
@[simp] theorem modGroup_dc (s : State) (k : Nat) (f : Group → Group) : (s.modGroup k f).dc = s.dc := rfl
@[simp] theorem modGroup_frtCopy (s : State) (k : Nat) (f : Group → Group) : (s.modGroup k f).frtCopy = s.frtCopy := rfl
@[simp] theorem modGroup_frt (s : State) (k : Nat) (f : Group → Group) : (s.modGroup k f).frt = s.frt := rfl
@[simp] theorem modGroup_frzOps (s : State) (k : Nat) (f : Group → Group) : (s.modGroup k f).frzOps = s.frzOps := rfl
@[simp] theorem modGroup_frzReqs (s : State) (k : Nat) (f : Group → Group) : (s.modGroup k f).frzReqs = s.frzReqs := rfl
@[simp] theorem modGroup_frzLast (s : State) (k : Nat) (f : Group → Group) : (s.modGroup k f).frzLast = s.frzLast := rfl
@[simp] theorem modGroup_regions (s : State) (k : Nat) (f : Group → Group) : (s.modGroup k f).regions = s.regions := rfl
@[simp] theorem modGroup_tags (s : State) (k : Nat) (f : Group → Group) : (s.modGroup k f).tags = s.tags := rfl
@[simp] theorem modGroup_tlb (s : State) (k : Nat) (f : Group → Group) : (s.modGroup k f).tlb = s.tlb := rfl
@[simp] theorem modGroup_reqs (s : State) (k : Nat) (f : Group → Group) : (s.modGroup k f).reqs = s.reqs := rfl
@[simp] theorem modGroup_fwd (s : State) (k : Nat) (f : Group → Group) : (s.modGroup k f).fwd = s.fwd := rfl
@[simp] theorem modGroup_recalls (s : State) (k : Nat) (f : Group → Group) : (s.modGroup k f).recalls = s.recalls := rfl
@[simp] theorem modGroup_mmp (s : State) (k : Nat) (f : Group → Group) : (s.modGroup k f).mmp = s.mmp := rfl
@[simp] theorem modGroup_denied (s : State) (k : Nat) (f : Group → Group) : (s.modGroup k f).denied = s.denied := rfl
@[simp] theorem modGroup_storms (s : State) (k : Nat) (f : Group → Group) : (s.modGroup k f).storms = s.storms := rfl
@[simp] theorem modGroup_outer (s : State) (k : Nat) (f : Group → Group) : (s.modGroup k f).outer = s.outer := rfl
@[simp] theorem modGroup_remote (s : State) (k : Nat) (f : Group → Group) : (s.modGroup k f).remote = s.remote := rfl
@[simp] theorem modGroup_portq (s : State) (k : Nat) (f : Group → Group) : (s.modGroup k f).portq = s.portq := rfl
@[simp] theorem modGroup_served (s : State) (k : Nat) (f : Group → Group) : (s.modGroup k f).served = s.served := rfl
@[simp] theorem modGroup_lodge (s : State) (k : Nat) (f : Group → Group) : (s.modGroup k f).lodge = s.lodge := rfl
@[simp] theorem modGroup_outbox (s : State) (k : Nat) (f : Group → Group) : (s.modGroup k f).outbox = s.outbox := rfl
@[simp] theorem modGroup_cpcmd (s : State) (k : Nat) (f : Group → Group) : (s.modGroup k f).cpcmd = s.cpcmd := rfl
@[simp] theorem modGroup_diectl (s : State) (k : Nat) (f : Group → Group) : (s.modGroup k f).diectl = s.diectl := rfl
@[simp] theorem modGroup_queues (s : State) (k : Nat) (f : Group → Group) : (s.modGroup k f).queues = s.queues := rfl
@[simp] theorem modGroup_works (s : State) (k : Nat) (f : Group → Group) : (s.modGroup k f).works = s.works := rfl
@[simp] theorem modGroup_launches (s : State) (k : Nat) (f : Group → Group) : (s.modGroup k f).launches = s.launches := rfl
@[simp] theorem modGroup_tcache (s : State) (k : Nat) (f : Group → Group) : (s.modGroup k f).tcache = s.tcache := rfl
@[simp] theorem modGroup_teardowns (s : State) (k : Nat) (f : Group → Group) : (s.modGroup k f).teardowns = s.teardowns := rfl
@[simp] theorem modGroup_peers (s : State) (k : Nat) (f : Group → Group) : (s.modGroup k f).peers = s.peers := rfl
@[simp] theorem modGroup_boot (s : State) (k : Nat) (f : Group → Group) : (s.modGroup k f).boot = s.boot := rfl
@[simp] theorem modGroup_agenda (s : State) (k : Nat) (f : Group → Group) : (s.modGroup k f).agenda = s.agenda := rfl
@[simp] theorem modGroup_curGroup (s : State) (k : Nat) (f : Group → Group) : (s.modGroup k f).curGroup = s.curGroup := rfl
@[simp] theorem modGroup_curLane (s : State) (k : Nat) (f : Group → Group) : (s.modGroup k f).curLane = s.curLane := rfl
@[simp] theorem modGroup_turn (s : State) (k : Nat) (f : Group → Group) : (s.modGroup k f).turn = s.turn := rfl
@[simp] theorem modGroup_issued (s : State) (k : Nat) (f : Group → Group) : (s.modGroup k f).issued = s.issued := rfl
@[simp] theorem modGroup_patience (s : State) (k : Nat) (f : Group → Group) : (s.modGroup k f).patience = s.patience := rfl
@[simp] theorem modGroup_stalls (s : State) (k : Nat) (f : Group → Group) : (s.modGroup k f).stalls = s.stalls := rfl
@[simp] theorem modGroup_converter (s : State) (k : Nat) (f : Group → Group) : (s.modGroup k f).converter = s.converter := rfl
@[simp] theorem modGroup_argPages (s : State) (k : Nat) (f : Group → Group) : (s.modGroup k f).argPages = s.argPages := rfl
@[simp] theorem modGroup_blocked (s : State) (k : Nat) (f : Group → Group) : (s.modGroup k f).blocked = s.blocked := rfl
@[simp] theorem modGroup_round (s : State) (k : Nat) (f : Group → Group) : (s.modGroup k f).round = s.round := rfl
@[simp] theorem modGroup_free (s : State) (k : Nat) (f : Group → Group) : (s.modGroup k f).free = s.free := rfl
@[simp] theorem modGroup_nextId (s : State) (k : Nat) (f : Group → Group) : (s.modGroup k f).nextId = s.nextId := rfl

/-! ## A slot filled -/

@[simp] theorem setGroup_mem (s : State) (k : Nat) (g : Group) : (s.setGroup k g).mem = s.mem := rfl
@[simp] theorem setGroup_poison (s : State) (k : Nat) (g : Group) : (s.setGroup k g).poison = s.poison := rfl
@[simp] theorem setGroup_tile (s : State) (k : Nat) (g : Group) : (s.setGroup k g).tile = s.tile := rfl
@[simp] theorem setGroup_tilePoison (s : State) (k : Nat) (g : Group) : (s.setGroup k g).tilePoison = s.tilePoison := rfl
@[simp] theorem setGroup_groups (s : State) (k : Nat) (g : Group) : (s.setGroup k g).groups = tset s.groups k g := rfl
@[simp] theorem setGroup_blocks (s : State) (k : Nat) (g : Group) : (s.setGroup k g).blocks = s.blocks := rfl
@[simp] theorem setGroup_clusters (s : State) (k : Nat) (g : Group) : (s.setGroup k g).clusters = s.clusters := rfl
@[simp] theorem setGroup_spans (s : State) (k : Nat) (g : Group) : (s.setGroup k g).spans = s.spans := rfl
@[simp] theorem setGroup_grids (s : State) (k : Nat) (g : Group) : (s.setGroup k g).grids = s.grids := rfl
@[simp] theorem setGroup_saved (s : State) (k : Nat) (g : Group) : (s.setGroup k g).saved = s.saved := rfl
@[simp] theorem setGroup_binds (s : State) (k : Nat) (g : Group) : (s.setGroup k g).binds = s.binds := rfl
@[simp] theorem setGroup_l1 (s : State) (k : Nat) (g : Group) : (s.setGroup k g).l1 = s.l1 := rfl
@[simp] theorem setGroup_ilines (s : State) (k : Nat) (g : Group) : (s.setGroup k g).ilines = s.ilines := rfl
@[simp] theorem setGroup_health (s : State) (k : Nat) (g : Group) : (s.setGroup k g).health = s.health := rfl
@[simp] theorem setGroup_hdrs (s : State) (k : Nat) (g : Group) : (s.setGroup k g).hdrs = s.hdrs := rfl
@[simp] theorem setGroup_matq (s : State) (k : Nat) (g : Group) : (s.setGroup k g).matq = s.matq := rfl
@[simp] theorem setGroup_copies (s : State) (k : Nat) (g : Group) : (s.setGroup k g).copies = s.copies := rfl
@[simp] theorem setGroup_shadow (s : State) (k : Nat) (g : Group) : (s.setGroup k g).shadow = s.shadow := rfl
@[simp] theorem setGroup_resv (s : State) (k : Nat) (g : Group) : (s.setGroup k g).resv = s.resv := rfl
@[simp] theorem setGroup_dies (s : State) (k : Nat) (g : Group) : (s.setGroup k g).dies = s.dies := rfl
@[simp] theorem setGroup_gondolas (s : State) (k : Nat) (g : Group) : (s.setGroup k g).gondolas = s.gondolas := rfl
@[simp] theorem setGroup_links (s : State) (k : Nat) (g : Group) : (s.setGroup k g).links = s.links := rfl
@[simp] theorem setGroup_dc (s : State) (k : Nat) (g : Group) : (s.setGroup k g).dc = s.dc := rfl
@[simp] theorem setGroup_frtCopy (s : State) (k : Nat) (g : Group) : (s.setGroup k g).frtCopy = s.frtCopy := rfl
@[simp] theorem setGroup_frt (s : State) (k : Nat) (g : Group) : (s.setGroup k g).frt = s.frt := rfl
@[simp] theorem setGroup_frzOps (s : State) (k : Nat) (g : Group) : (s.setGroup k g).frzOps = s.frzOps := rfl
@[simp] theorem setGroup_frzReqs (s : State) (k : Nat) (g : Group) : (s.setGroup k g).frzReqs = s.frzReqs := rfl
@[simp] theorem setGroup_frzLast (s : State) (k : Nat) (g : Group) : (s.setGroup k g).frzLast = s.frzLast := rfl
@[simp] theorem setGroup_regions (s : State) (k : Nat) (g : Group) : (s.setGroup k g).regions = s.regions := rfl
@[simp] theorem setGroup_tags (s : State) (k : Nat) (g : Group) : (s.setGroup k g).tags = s.tags := rfl
@[simp] theorem setGroup_tlb (s : State) (k : Nat) (g : Group) : (s.setGroup k g).tlb = s.tlb := rfl
@[simp] theorem setGroup_reqs (s : State) (k : Nat) (g : Group) : (s.setGroup k g).reqs = s.reqs := rfl
@[simp] theorem setGroup_fwd (s : State) (k : Nat) (g : Group) : (s.setGroup k g).fwd = s.fwd := rfl
@[simp] theorem setGroup_recalls (s : State) (k : Nat) (g : Group) : (s.setGroup k g).recalls = s.recalls := rfl
@[simp] theorem setGroup_mmp (s : State) (k : Nat) (g : Group) : (s.setGroup k g).mmp = s.mmp := rfl
@[simp] theorem setGroup_denied (s : State) (k : Nat) (g : Group) : (s.setGroup k g).denied = s.denied := rfl
@[simp] theorem setGroup_storms (s : State) (k : Nat) (g : Group) : (s.setGroup k g).storms = s.storms := rfl
@[simp] theorem setGroup_outer (s : State) (k : Nat) (g : Group) : (s.setGroup k g).outer = s.outer := rfl
@[simp] theorem setGroup_remote (s : State) (k : Nat) (g : Group) : (s.setGroup k g).remote = s.remote := rfl
@[simp] theorem setGroup_portq (s : State) (k : Nat) (g : Group) : (s.setGroup k g).portq = s.portq := rfl
@[simp] theorem setGroup_served (s : State) (k : Nat) (g : Group) : (s.setGroup k g).served = s.served := rfl
@[simp] theorem setGroup_lodge (s : State) (k : Nat) (g : Group) : (s.setGroup k g).lodge = s.lodge := rfl
@[simp] theorem setGroup_outbox (s : State) (k : Nat) (g : Group) : (s.setGroup k g).outbox = s.outbox := rfl
@[simp] theorem setGroup_cpcmd (s : State) (k : Nat) (g : Group) : (s.setGroup k g).cpcmd = s.cpcmd := rfl
@[simp] theorem setGroup_diectl (s : State) (k : Nat) (g : Group) : (s.setGroup k g).diectl = s.diectl := rfl
@[simp] theorem setGroup_queues (s : State) (k : Nat) (g : Group) : (s.setGroup k g).queues = s.queues := rfl
@[simp] theorem setGroup_works (s : State) (k : Nat) (g : Group) : (s.setGroup k g).works = s.works := rfl
@[simp] theorem setGroup_launches (s : State) (k : Nat) (g : Group) : (s.setGroup k g).launches = s.launches := rfl
@[simp] theorem setGroup_tcache (s : State) (k : Nat) (g : Group) : (s.setGroup k g).tcache = s.tcache := rfl
@[simp] theorem setGroup_teardowns (s : State) (k : Nat) (g : Group) : (s.setGroup k g).teardowns = s.teardowns := rfl
@[simp] theorem setGroup_peers (s : State) (k : Nat) (g : Group) : (s.setGroup k g).peers = s.peers := rfl
@[simp] theorem setGroup_boot (s : State) (k : Nat) (g : Group) : (s.setGroup k g).boot = s.boot := rfl
@[simp] theorem setGroup_agenda (s : State) (k : Nat) (g : Group) : (s.setGroup k g).agenda = s.agenda := rfl
@[simp] theorem setGroup_curGroup (s : State) (k : Nat) (g : Group) : (s.setGroup k g).curGroup = s.curGroup := rfl
@[simp] theorem setGroup_curLane (s : State) (k : Nat) (g : Group) : (s.setGroup k g).curLane = s.curLane := rfl
@[simp] theorem setGroup_turn (s : State) (k : Nat) (g : Group) : (s.setGroup k g).turn = s.turn := rfl
@[simp] theorem setGroup_issued (s : State) (k : Nat) (g : Group) : (s.setGroup k g).issued = s.issued := rfl
@[simp] theorem setGroup_patience (s : State) (k : Nat) (g : Group) : (s.setGroup k g).patience = s.patience := rfl
@[simp] theorem setGroup_stalls (s : State) (k : Nat) (g : Group) : (s.setGroup k g).stalls = s.stalls := rfl
@[simp] theorem setGroup_converter (s : State) (k : Nat) (g : Group) : (s.setGroup k g).converter = s.converter := rfl
@[simp] theorem setGroup_argPages (s : State) (k : Nat) (g : Group) : (s.setGroup k g).argPages = s.argPages := rfl
@[simp] theorem setGroup_blocked (s : State) (k : Nat) (g : Group) : (s.setGroup k g).blocked = s.blocked := rfl
@[simp] theorem setGroup_round (s : State) (k : Nat) (g : Group) : (s.setGroup k g).round = s.round := rfl
@[simp] theorem setGroup_free (s : State) (k : Nat) (g : Group) : (s.setGroup k g).free = s.free := rfl
@[simp] theorem setGroup_nextId (s : State) (k : Nat) (g : Group) : (s.setGroup k g).nextId = s.nextId := rfl

/-! ## The split that issues -/

@[simp] theorem stateAt_mem (s : State) (k l : Nat) : (s.at k l).mem = s.mem := rfl
@[simp] theorem stateAt_poison (s : State) (k l : Nat) : (s.at k l).poison = s.poison := rfl
@[simp] theorem stateAt_tile (s : State) (k l : Nat) : (s.at k l).tile = s.tile := rfl
@[simp] theorem stateAt_tilePoison (s : State) (k l : Nat) : (s.at k l).tilePoison = s.tilePoison := rfl
@[simp] theorem stateAt_groups (s : State) (k l : Nat) : (s.at k l).groups = s.groups := rfl
@[simp] theorem stateAt_blocks (s : State) (k l : Nat) : (s.at k l).blocks = s.blocks := rfl
@[simp] theorem stateAt_clusters (s : State) (k l : Nat) : (s.at k l).clusters = s.clusters := rfl
@[simp] theorem stateAt_spans (s : State) (k l : Nat) : (s.at k l).spans = s.spans := rfl
@[simp] theorem stateAt_grids (s : State) (k l : Nat) : (s.at k l).grids = s.grids := rfl
@[simp] theorem stateAt_saved (s : State) (k l : Nat) : (s.at k l).saved = s.saved := rfl
@[simp] theorem stateAt_binds (s : State) (k l : Nat) : (s.at k l).binds = s.binds := rfl
@[simp] theorem stateAt_l1 (s : State) (k l : Nat) : (s.at k l).l1 = s.l1 := rfl
@[simp] theorem stateAt_ilines (s : State) (k l : Nat) : (s.at k l).ilines = s.ilines := rfl
@[simp] theorem stateAt_health (s : State) (k l : Nat) : (s.at k l).health = s.health := rfl
@[simp] theorem stateAt_hdrs (s : State) (k l : Nat) : (s.at k l).hdrs = s.hdrs := rfl
@[simp] theorem stateAt_matq (s : State) (k l : Nat) : (s.at k l).matq = s.matq := rfl
@[simp] theorem stateAt_copies (s : State) (k l : Nat) : (s.at k l).copies = s.copies := rfl
@[simp] theorem stateAt_shadow (s : State) (k l : Nat) : (s.at k l).shadow = s.shadow := rfl
@[simp] theorem stateAt_resv (s : State) (k l : Nat) : (s.at k l).resv = s.resv := rfl
@[simp] theorem stateAt_dies (s : State) (k l : Nat) : (s.at k l).dies = s.dies := rfl
@[simp] theorem stateAt_gondolas (s : State) (k l : Nat) : (s.at k l).gondolas = s.gondolas := rfl
@[simp] theorem stateAt_links (s : State) (k l : Nat) : (s.at k l).links = s.links := rfl
@[simp] theorem stateAt_dc (s : State) (k l : Nat) : (s.at k l).dc = s.dc := rfl
@[simp] theorem stateAt_frtCopy (s : State) (k l : Nat) : (s.at k l).frtCopy = s.frtCopy := rfl
@[simp] theorem stateAt_frt (s : State) (k l : Nat) : (s.at k l).frt = s.frt := rfl
@[simp] theorem stateAt_frzOps (s : State) (k l : Nat) : (s.at k l).frzOps = s.frzOps := rfl
@[simp] theorem stateAt_frzReqs (s : State) (k l : Nat) : (s.at k l).frzReqs = s.frzReqs := rfl
@[simp] theorem stateAt_frzLast (s : State) (k l : Nat) : (s.at k l).frzLast = s.frzLast := rfl
@[simp] theorem stateAt_regions (s : State) (k l : Nat) : (s.at k l).regions = s.regions := rfl
@[simp] theorem stateAt_tags (s : State) (k l : Nat) : (s.at k l).tags = s.tags := rfl
@[simp] theorem stateAt_tlb (s : State) (k l : Nat) : (s.at k l).tlb = s.tlb := rfl
@[simp] theorem stateAt_reqs (s : State) (k l : Nat) : (s.at k l).reqs = s.reqs := rfl
@[simp] theorem stateAt_fwd (s : State) (k l : Nat) : (s.at k l).fwd = s.fwd := rfl
@[simp] theorem stateAt_recalls (s : State) (k l : Nat) : (s.at k l).recalls = s.recalls := rfl
@[simp] theorem stateAt_mmp (s : State) (k l : Nat) : (s.at k l).mmp = s.mmp := rfl
@[simp] theorem stateAt_denied (s : State) (k l : Nat) : (s.at k l).denied = s.denied := rfl
@[simp] theorem stateAt_storms (s : State) (k l : Nat) : (s.at k l).storms = s.storms := rfl
@[simp] theorem stateAt_outer (s : State) (k l : Nat) : (s.at k l).outer = s.outer := rfl
@[simp] theorem stateAt_remote (s : State) (k l : Nat) : (s.at k l).remote = s.remote := rfl
@[simp] theorem stateAt_portq (s : State) (k l : Nat) : (s.at k l).portq = s.portq := rfl
@[simp] theorem stateAt_served (s : State) (k l : Nat) : (s.at k l).served = s.served := rfl
@[simp] theorem stateAt_lodge (s : State) (k l : Nat) : (s.at k l).lodge = s.lodge := rfl
@[simp] theorem stateAt_outbox (s : State) (k l : Nat) : (s.at k l).outbox = s.outbox := rfl
@[simp] theorem stateAt_cpcmd (s : State) (k l : Nat) : (s.at k l).cpcmd = s.cpcmd := rfl
@[simp] theorem stateAt_diectl (s : State) (k l : Nat) : (s.at k l).diectl = s.diectl := rfl
@[simp] theorem stateAt_queues (s : State) (k l : Nat) : (s.at k l).queues = s.queues := rfl
@[simp] theorem stateAt_works (s : State) (k l : Nat) : (s.at k l).works = s.works := rfl
@[simp] theorem stateAt_launches (s : State) (k l : Nat) : (s.at k l).launches = s.launches := rfl
@[simp] theorem stateAt_tcache (s : State) (k l : Nat) : (s.at k l).tcache = s.tcache := rfl
@[simp] theorem stateAt_teardowns (s : State) (k l : Nat) : (s.at k l).teardowns = s.teardowns := rfl
@[simp] theorem stateAt_peers (s : State) (k l : Nat) : (s.at k l).peers = s.peers := rfl
@[simp] theorem stateAt_boot (s : State) (k l : Nat) : (s.at k l).boot = s.boot := rfl
@[simp] theorem stateAt_agenda (s : State) (k l : Nat) : (s.at k l).agenda = s.agenda := rfl
@[simp] theorem stateAt_curGroup (s : State) (k l : Nat) : (s.at k l).curGroup = k := rfl
@[simp] theorem stateAt_curLane (s : State) (k l : Nat) : (s.at k l).curLane = l := rfl
@[simp] theorem stateAt_turn (s : State) (k l : Nat) : (s.at k l).turn = s.turn := rfl
@[simp] theorem stateAt_issued (s : State) (k l : Nat) : (s.at k l).issued = false := rfl
@[simp] theorem stateAt_patience (s : State) (k l : Nat) : (s.at k l).patience = s.patience := rfl
@[simp] theorem stateAt_stalls (s : State) (k l : Nat) : (s.at k l).stalls = s.stalls := rfl
@[simp] theorem stateAt_converter (s : State) (k l : Nat) : (s.at k l).converter = s.converter := rfl
@[simp] theorem stateAt_argPages (s : State) (k l : Nat) : (s.at k l).argPages = s.argPages := rfl
@[simp] theorem stateAt_blocked (s : State) (k l : Nat) : (s.at k l).blocked = s.blocked := rfl
@[simp] theorem stateAt_round (s : State) (k l : Nat) : (s.at k l).round = s.round := rfl
@[simp] theorem stateAt_free (s : State) (k l : Nat) : (s.at k l).free = s.free := rfl
@[simp] theorem stateAt_nextId (s : State) (k l : Nat) : (s.at k l).nextId = s.nextId := rfl

/-! ## A free value drawn -/

@[simp] theorem draw_mem (s : State) : (s.draw.2).mem = s.mem := rfl
@[simp] theorem draw_poison (s : State) : (s.draw.2).poison = s.poison := rfl
@[simp] theorem draw_tile (s : State) : (s.draw.2).tile = s.tile := rfl
@[simp] theorem draw_tilePoison (s : State) : (s.draw.2).tilePoison = s.tilePoison := rfl
@[simp] theorem draw_groups (s : State) : (s.draw.2).groups = s.groups := rfl
@[simp] theorem draw_blocks (s : State) : (s.draw.2).blocks = s.blocks := rfl
@[simp] theorem draw_clusters (s : State) : (s.draw.2).clusters = s.clusters := rfl
@[simp] theorem draw_spans (s : State) : (s.draw.2).spans = s.spans := rfl
@[simp] theorem draw_grids (s : State) : (s.draw.2).grids = s.grids := rfl
@[simp] theorem draw_saved (s : State) : (s.draw.2).saved = s.saved := rfl
@[simp] theorem draw_binds (s : State) : (s.draw.2).binds = s.binds := rfl
@[simp] theorem draw_l1 (s : State) : (s.draw.2).l1 = s.l1 := rfl
@[simp] theorem draw_ilines (s : State) : (s.draw.2).ilines = s.ilines := rfl
@[simp] theorem draw_health (s : State) : (s.draw.2).health = s.health := rfl
@[simp] theorem draw_hdrs (s : State) : (s.draw.2).hdrs = s.hdrs := rfl
@[simp] theorem draw_matq (s : State) : (s.draw.2).matq = s.matq := rfl
@[simp] theorem draw_copies (s : State) : (s.draw.2).copies = s.copies := rfl
@[simp] theorem draw_shadow (s : State) : (s.draw.2).shadow = s.shadow := rfl
@[simp] theorem draw_resv (s : State) : (s.draw.2).resv = s.resv := rfl
@[simp] theorem draw_dies (s : State) : (s.draw.2).dies = s.dies := rfl
@[simp] theorem draw_gondolas (s : State) : (s.draw.2).gondolas = s.gondolas := rfl
@[simp] theorem draw_links (s : State) : (s.draw.2).links = s.links := rfl
@[simp] theorem draw_dc (s : State) : (s.draw.2).dc = s.dc := rfl
@[simp] theorem draw_frtCopy (s : State) : (s.draw.2).frtCopy = s.frtCopy := rfl
@[simp] theorem draw_frt (s : State) : (s.draw.2).frt = s.frt := rfl
@[simp] theorem draw_frzOps (s : State) : (s.draw.2).frzOps = s.frzOps := rfl
@[simp] theorem draw_frzReqs (s : State) : (s.draw.2).frzReqs = s.frzReqs := rfl
@[simp] theorem draw_frzLast (s : State) : (s.draw.2).frzLast = s.frzLast := rfl
@[simp] theorem draw_regions (s : State) : (s.draw.2).regions = s.regions := rfl
@[simp] theorem draw_tags (s : State) : (s.draw.2).tags = s.tags := rfl
@[simp] theorem draw_tlb (s : State) : (s.draw.2).tlb = s.tlb := rfl
@[simp] theorem draw_reqs (s : State) : (s.draw.2).reqs = s.reqs := rfl
@[simp] theorem draw_fwd (s : State) : (s.draw.2).fwd = s.fwd := rfl
@[simp] theorem draw_recalls (s : State) : (s.draw.2).recalls = s.recalls := rfl
@[simp] theorem draw_mmp (s : State) : (s.draw.2).mmp = s.mmp := rfl
@[simp] theorem draw_denied (s : State) : (s.draw.2).denied = s.denied := rfl
@[simp] theorem draw_storms (s : State) : (s.draw.2).storms = s.storms := rfl
@[simp] theorem draw_outer (s : State) : (s.draw.2).outer = s.outer := rfl
@[simp] theorem draw_remote (s : State) : (s.draw.2).remote = s.remote := rfl
@[simp] theorem draw_portq (s : State) : (s.draw.2).portq = s.portq := rfl
@[simp] theorem draw_served (s : State) : (s.draw.2).served = s.served := rfl
@[simp] theorem draw_lodge (s : State) : (s.draw.2).lodge = s.lodge := rfl
@[simp] theorem draw_outbox (s : State) : (s.draw.2).outbox = s.outbox := rfl
@[simp] theorem draw_cpcmd (s : State) : (s.draw.2).cpcmd = s.cpcmd := rfl
@[simp] theorem draw_diectl (s : State) : (s.draw.2).diectl = s.diectl := rfl
@[simp] theorem draw_queues (s : State) : (s.draw.2).queues = s.queues := rfl
@[simp] theorem draw_works (s : State) : (s.draw.2).works = s.works := rfl
@[simp] theorem draw_launches (s : State) : (s.draw.2).launches = s.launches := rfl
@[simp] theorem draw_tcache (s : State) : (s.draw.2).tcache = s.tcache := rfl
@[simp] theorem draw_teardowns (s : State) : (s.draw.2).teardowns = s.teardowns := rfl
@[simp] theorem draw_peers (s : State) : (s.draw.2).peers = s.peers := rfl
@[simp] theorem draw_boot (s : State) : (s.draw.2).boot = s.boot := rfl
@[simp] theorem draw_agenda (s : State) : (s.draw.2).agenda = s.agenda := rfl
@[simp] theorem draw_curGroup (s : State) : (s.draw.2).curGroup = s.curGroup := rfl
@[simp] theorem draw_curLane (s : State) : (s.draw.2).curLane = s.curLane := rfl
@[simp] theorem draw_turn (s : State) : (s.draw.2).turn = s.turn := rfl
@[simp] theorem draw_issued (s : State) : (s.draw.2).issued = s.issued := rfl
@[simp] theorem draw_patience (s : State) : (s.draw.2).patience = s.patience := rfl
@[simp] theorem draw_stalls (s : State) : (s.draw.2).stalls = s.stalls := rfl
@[simp] theorem draw_converter (s : State) : (s.draw.2).converter = s.converter := rfl
@[simp] theorem draw_argPages (s : State) : (s.draw.2).argPages = s.argPages := rfl
@[simp] theorem draw_blocked (s : State) : (s.draw.2).blocked = s.blocked := rfl
@[simp] theorem draw_round (s : State) : (s.draw.2).round = s.round := rfl
@[simp] theorem draw_free (s : State) : (s.draw.2).free = s.free + 1 := rfl
@[simp] theorem draw_nextId (s : State) : (s.draw.2).nextId = s.nextId := rfl

/-! ## A fresh name -/

@[simp] theorem fresh_mem (s : State) : (s.fresh.2).mem = s.mem := rfl
@[simp] theorem fresh_poison (s : State) : (s.fresh.2).poison = s.poison := rfl
@[simp] theorem fresh_tile (s : State) : (s.fresh.2).tile = s.tile := rfl
@[simp] theorem fresh_tilePoison (s : State) : (s.fresh.2).tilePoison = s.tilePoison := rfl
@[simp] theorem fresh_groups (s : State) : (s.fresh.2).groups = s.groups := rfl
@[simp] theorem fresh_blocks (s : State) : (s.fresh.2).blocks = s.blocks := rfl
@[simp] theorem fresh_clusters (s : State) : (s.fresh.2).clusters = s.clusters := rfl
@[simp] theorem fresh_spans (s : State) : (s.fresh.2).spans = s.spans := rfl
@[simp] theorem fresh_grids (s : State) : (s.fresh.2).grids = s.grids := rfl
@[simp] theorem fresh_saved (s : State) : (s.fresh.2).saved = s.saved := rfl
@[simp] theorem fresh_binds (s : State) : (s.fresh.2).binds = s.binds := rfl
@[simp] theorem fresh_l1 (s : State) : (s.fresh.2).l1 = s.l1 := rfl
@[simp] theorem fresh_ilines (s : State) : (s.fresh.2).ilines = s.ilines := rfl
@[simp] theorem fresh_health (s : State) : (s.fresh.2).health = s.health := rfl
@[simp] theorem fresh_hdrs (s : State) : (s.fresh.2).hdrs = s.hdrs := rfl
@[simp] theorem fresh_matq (s : State) : (s.fresh.2).matq = s.matq := rfl
@[simp] theorem fresh_copies (s : State) : (s.fresh.2).copies = s.copies := rfl
@[simp] theorem fresh_shadow (s : State) : (s.fresh.2).shadow = s.shadow := rfl
@[simp] theorem fresh_resv (s : State) : (s.fresh.2).resv = s.resv := rfl
@[simp] theorem fresh_dies (s : State) : (s.fresh.2).dies = s.dies := rfl
@[simp] theorem fresh_gondolas (s : State) : (s.fresh.2).gondolas = s.gondolas := rfl
@[simp] theorem fresh_links (s : State) : (s.fresh.2).links = s.links := rfl
@[simp] theorem fresh_dc (s : State) : (s.fresh.2).dc = s.dc := rfl
@[simp] theorem fresh_frtCopy (s : State) : (s.fresh.2).frtCopy = s.frtCopy := rfl
@[simp] theorem fresh_frt (s : State) : (s.fresh.2).frt = s.frt := rfl
@[simp] theorem fresh_frzOps (s : State) : (s.fresh.2).frzOps = s.frzOps := rfl
@[simp] theorem fresh_frzReqs (s : State) : (s.fresh.2).frzReqs = s.frzReqs := rfl
@[simp] theorem fresh_frzLast (s : State) : (s.fresh.2).frzLast = s.frzLast := rfl
@[simp] theorem fresh_regions (s : State) : (s.fresh.2).regions = s.regions := rfl
@[simp] theorem fresh_tags (s : State) : (s.fresh.2).tags = s.tags := rfl
@[simp] theorem fresh_tlb (s : State) : (s.fresh.2).tlb = s.tlb := rfl
@[simp] theorem fresh_reqs (s : State) : (s.fresh.2).reqs = s.reqs := rfl
@[simp] theorem fresh_fwd (s : State) : (s.fresh.2).fwd = s.fwd := rfl
@[simp] theorem fresh_recalls (s : State) : (s.fresh.2).recalls = s.recalls := rfl
@[simp] theorem fresh_mmp (s : State) : (s.fresh.2).mmp = s.mmp := rfl
@[simp] theorem fresh_denied (s : State) : (s.fresh.2).denied = s.denied := rfl
@[simp] theorem fresh_storms (s : State) : (s.fresh.2).storms = s.storms := rfl
@[simp] theorem fresh_outer (s : State) : (s.fresh.2).outer = s.outer := rfl
@[simp] theorem fresh_remote (s : State) : (s.fresh.2).remote = s.remote := rfl
@[simp] theorem fresh_portq (s : State) : (s.fresh.2).portq = s.portq := rfl
@[simp] theorem fresh_served (s : State) : (s.fresh.2).served = s.served := rfl
@[simp] theorem fresh_lodge (s : State) : (s.fresh.2).lodge = s.lodge := rfl
@[simp] theorem fresh_outbox (s : State) : (s.fresh.2).outbox = s.outbox := rfl
@[simp] theorem fresh_cpcmd (s : State) : (s.fresh.2).cpcmd = s.cpcmd := rfl
@[simp] theorem fresh_diectl (s : State) : (s.fresh.2).diectl = s.diectl := rfl
@[simp] theorem fresh_queues (s : State) : (s.fresh.2).queues = s.queues := rfl
@[simp] theorem fresh_works (s : State) : (s.fresh.2).works = s.works := rfl
@[simp] theorem fresh_launches (s : State) : (s.fresh.2).launches = s.launches := rfl
@[simp] theorem fresh_tcache (s : State) : (s.fresh.2).tcache = s.tcache := rfl
@[simp] theorem fresh_teardowns (s : State) : (s.fresh.2).teardowns = s.teardowns := rfl
@[simp] theorem fresh_peers (s : State) : (s.fresh.2).peers = s.peers := rfl
@[simp] theorem fresh_boot (s : State) : (s.fresh.2).boot = s.boot := rfl
@[simp] theorem fresh_agenda (s : State) : (s.fresh.2).agenda = s.agenda := rfl
@[simp] theorem fresh_curGroup (s : State) : (s.fresh.2).curGroup = s.curGroup := rfl
@[simp] theorem fresh_curLane (s : State) : (s.fresh.2).curLane = s.curLane := rfl
@[simp] theorem fresh_turn (s : State) : (s.fresh.2).turn = s.turn := rfl
@[simp] theorem fresh_issued (s : State) : (s.fresh.2).issued = s.issued := rfl
@[simp] theorem fresh_patience (s : State) : (s.fresh.2).patience = s.patience := rfl
@[simp] theorem fresh_stalls (s : State) : (s.fresh.2).stalls = s.stalls := rfl
@[simp] theorem fresh_converter (s : State) : (s.fresh.2).converter = s.converter := rfl
@[simp] theorem fresh_argPages (s : State) : (s.fresh.2).argPages = s.argPages := rfl
@[simp] theorem fresh_blocked (s : State) : (s.fresh.2).blocked = s.blocked := rfl
@[simp] theorem fresh_round (s : State) : (s.fresh.2).round = s.round := rfl
@[simp] theorem fresh_free (s : State) : (s.fresh.2).free = s.free := rfl
@[simp] theorem fresh_nextId (s : State) : (s.fresh.2).nextId = s.nextId + 1 := rfl

/-! ## One memory instruction changed -/

@[simp] theorem modOp_mem (s : State) (id : Nat) (f : MemOp → MemOp) : (modOp s id f).mem = s.mem := rfl
@[simp] theorem modOp_poison (s : State) (id : Nat) (f : MemOp → MemOp) : (modOp s id f).poison = s.poison := rfl
@[simp] theorem modOp_tile (s : State) (id : Nat) (f : MemOp → MemOp) : (modOp s id f).tile = s.tile := rfl
@[simp] theorem modOp_tilePoison (s : State) (id : Nat) (f : MemOp → MemOp) : (modOp s id f).tilePoison = s.tilePoison := rfl
@[simp] theorem modOp_groups (s : State) (id : Nat) (f : MemOp → MemOp) : (modOp s id f).groups = s.groups := rfl
@[simp] theorem modOp_blocks (s : State) (id : Nat) (f : MemOp → MemOp) : (modOp s id f).blocks = s.blocks := rfl
@[simp] theorem modOp_clusters (s : State) (id : Nat) (f : MemOp → MemOp) : (modOp s id f).clusters = s.clusters := rfl
@[simp] theorem modOp_spans (s : State) (id : Nat) (f : MemOp → MemOp) : (modOp s id f).spans = s.spans := rfl
@[simp] theorem modOp_grids (s : State) (id : Nat) (f : MemOp → MemOp) : (modOp s id f).grids = s.grids := rfl
@[simp] theorem modOp_saved (s : State) (id : Nat) (f : MemOp → MemOp) : (modOp s id f).saved = s.saved := rfl
@[simp] theorem modOp_binds (s : State) (id : Nat) (f : MemOp → MemOp) : (modOp s id f).binds = s.binds := rfl
@[simp] theorem modOp_l1 (s : State) (id : Nat) (f : MemOp → MemOp) : (modOp s id f).l1 = s.l1 := rfl
@[simp] theorem modOp_ilines (s : State) (id : Nat) (f : MemOp → MemOp) : (modOp s id f).ilines = s.ilines := rfl
@[simp] theorem modOp_health (s : State) (id : Nat) (f : MemOp → MemOp) : (modOp s id f).health = s.health := rfl
@[simp] theorem modOp_hdrs (s : State) (id : Nat) (f : MemOp → MemOp) : (modOp s id f).hdrs = s.hdrs := rfl
@[simp] theorem modOp_matq (s : State) (id : Nat) (f : MemOp → MemOp) : (modOp s id f).matq = s.matq := rfl
@[simp] theorem modOp_copies (s : State) (id : Nat) (f : MemOp → MemOp) : (modOp s id f).copies = s.copies := rfl
@[simp] theorem modOp_shadow (s : State) (id : Nat) (f : MemOp → MemOp) : (modOp s id f).shadow = s.shadow := rfl
@[simp] theorem modOp_resv (s : State) (id : Nat) (f : MemOp → MemOp) : (modOp s id f).resv = s.resv := rfl
@[simp] theorem modOp_dies (s : State) (id : Nat) (f : MemOp → MemOp) : (modOp s id f).dies = s.dies := rfl
@[simp] theorem modOp_gondolas (s : State) (id : Nat) (f : MemOp → MemOp) : (modOp s id f).gondolas = s.gondolas := rfl
@[simp] theorem modOp_links (s : State) (id : Nat) (f : MemOp → MemOp) : (modOp s id f).links = s.links := rfl
@[simp] theorem modOp_dc (s : State) (id : Nat) (f : MemOp → MemOp) : (modOp s id f).dc = s.dc := rfl
@[simp] theorem modOp_frtCopy (s : State) (id : Nat) (f : MemOp → MemOp) : (modOp s id f).frtCopy = s.frtCopy := rfl
@[simp] theorem modOp_frt (s : State) (id : Nat) (f : MemOp → MemOp) : (modOp s id f).frt = s.frt := rfl
@[simp] theorem modOp_frzOps (s : State) (id : Nat) (f : MemOp → MemOp) : (modOp s id f).frzOps = s.frzOps := rfl
@[simp] theorem modOp_frzReqs (s : State) (id : Nat) (f : MemOp → MemOp) : (modOp s id f).frzReqs = s.frzReqs := rfl
@[simp] theorem modOp_frzLast (s : State) (id : Nat) (f : MemOp → MemOp) : (modOp s id f).frzLast = s.frzLast := rfl
@[simp] theorem modOp_regions (s : State) (id : Nat) (f : MemOp → MemOp) : (modOp s id f).regions = s.regions := rfl
@[simp] theorem modOp_tags (s : State) (id : Nat) (f : MemOp → MemOp) : (modOp s id f).tags = s.tags := rfl
@[simp] theorem modOp_tlb (s : State) (id : Nat) (f : MemOp → MemOp) : (modOp s id f).tlb = s.tlb := rfl
@[simp] theorem modOp_reqs (s : State) (id : Nat) (f : MemOp → MemOp) : (modOp s id f).reqs = s.reqs.map fun o => if o.id = id then f o else o := rfl
@[simp] theorem modOp_fwd (s : State) (id : Nat) (f : MemOp → MemOp) : (modOp s id f).fwd = s.fwd := rfl
@[simp] theorem modOp_recalls (s : State) (id : Nat) (f : MemOp → MemOp) : (modOp s id f).recalls = s.recalls := rfl
@[simp] theorem modOp_mmp (s : State) (id : Nat) (f : MemOp → MemOp) : (modOp s id f).mmp = s.mmp := rfl
@[simp] theorem modOp_denied (s : State) (id : Nat) (f : MemOp → MemOp) : (modOp s id f).denied = s.denied := rfl
@[simp] theorem modOp_storms (s : State) (id : Nat) (f : MemOp → MemOp) : (modOp s id f).storms = s.storms := rfl
@[simp] theorem modOp_outer (s : State) (id : Nat) (f : MemOp → MemOp) : (modOp s id f).outer = s.outer := rfl
@[simp] theorem modOp_remote (s : State) (id : Nat) (f : MemOp → MemOp) : (modOp s id f).remote = s.remote := rfl
@[simp] theorem modOp_portq (s : State) (id : Nat) (f : MemOp → MemOp) : (modOp s id f).portq = s.portq := rfl
@[simp] theorem modOp_served (s : State) (id : Nat) (f : MemOp → MemOp) : (modOp s id f).served = s.served := rfl
@[simp] theorem modOp_lodge (s : State) (id : Nat) (f : MemOp → MemOp) : (modOp s id f).lodge = s.lodge := rfl
@[simp] theorem modOp_outbox (s : State) (id : Nat) (f : MemOp → MemOp) : (modOp s id f).outbox = s.outbox := rfl
@[simp] theorem modOp_cpcmd (s : State) (id : Nat) (f : MemOp → MemOp) : (modOp s id f).cpcmd = s.cpcmd := rfl
@[simp] theorem modOp_diectl (s : State) (id : Nat) (f : MemOp → MemOp) : (modOp s id f).diectl = s.diectl := rfl
@[simp] theorem modOp_queues (s : State) (id : Nat) (f : MemOp → MemOp) : (modOp s id f).queues = s.queues := rfl
@[simp] theorem modOp_works (s : State) (id : Nat) (f : MemOp → MemOp) : (modOp s id f).works = s.works := rfl
@[simp] theorem modOp_launches (s : State) (id : Nat) (f : MemOp → MemOp) : (modOp s id f).launches = s.launches := rfl
@[simp] theorem modOp_tcache (s : State) (id : Nat) (f : MemOp → MemOp) : (modOp s id f).tcache = s.tcache := rfl
@[simp] theorem modOp_teardowns (s : State) (id : Nat) (f : MemOp → MemOp) : (modOp s id f).teardowns = s.teardowns := rfl
@[simp] theorem modOp_peers (s : State) (id : Nat) (f : MemOp → MemOp) : (modOp s id f).peers = s.peers := rfl
@[simp] theorem modOp_boot (s : State) (id : Nat) (f : MemOp → MemOp) : (modOp s id f).boot = s.boot := rfl
@[simp] theorem modOp_agenda (s : State) (id : Nat) (f : MemOp → MemOp) : (modOp s id f).agenda = s.agenda := rfl
@[simp] theorem modOp_curGroup (s : State) (id : Nat) (f : MemOp → MemOp) : (modOp s id f).curGroup = s.curGroup := rfl
@[simp] theorem modOp_curLane (s : State) (id : Nat) (f : MemOp → MemOp) : (modOp s id f).curLane = s.curLane := rfl
@[simp] theorem modOp_turn (s : State) (id : Nat) (f : MemOp → MemOp) : (modOp s id f).turn = s.turn := rfl
@[simp] theorem modOp_issued (s : State) (id : Nat) (f : MemOp → MemOp) : (modOp s id f).issued = s.issued := rfl
@[simp] theorem modOp_patience (s : State) (id : Nat) (f : MemOp → MemOp) : (modOp s id f).patience = s.patience := rfl
@[simp] theorem modOp_stalls (s : State) (id : Nat) (f : MemOp → MemOp) : (modOp s id f).stalls = s.stalls := rfl
@[simp] theorem modOp_converter (s : State) (id : Nat) (f : MemOp → MemOp) : (modOp s id f).converter = s.converter := rfl
@[simp] theorem modOp_argPages (s : State) (id : Nat) (f : MemOp → MemOp) : (modOp s id f).argPages = s.argPages := rfl
@[simp] theorem modOp_blocked (s : State) (id : Nat) (f : MemOp → MemOp) : (modOp s id f).blocked = s.blocked := rfl
@[simp] theorem modOp_round (s : State) (id : Nat) (f : MemOp → MemOp) : (modOp s id f).round = s.round := rfl
@[simp] theorem modOp_free (s : State) (id : Nat) (f : MemOp → MemOp) : (modOp s id f).free = s.free := rfl
@[simp] theorem modOp_nextId (s : State) (id : Nat) (f : MemOp → MemOp) : (modOp s id f).nextId = s.nextId := rfl

/-! ## One memory instruction gone -/

@[simp] theorem dropOp_mem (s : State) (id : Nat) : (dropOp s id).mem = s.mem := rfl
@[simp] theorem dropOp_poison (s : State) (id : Nat) : (dropOp s id).poison = s.poison := rfl
@[simp] theorem dropOp_tile (s : State) (id : Nat) : (dropOp s id).tile = s.tile := rfl
@[simp] theorem dropOp_tilePoison (s : State) (id : Nat) : (dropOp s id).tilePoison = s.tilePoison := rfl
@[simp] theorem dropOp_groups (s : State) (id : Nat) : (dropOp s id).groups = s.groups := rfl
@[simp] theorem dropOp_blocks (s : State) (id : Nat) : (dropOp s id).blocks = s.blocks := rfl
@[simp] theorem dropOp_clusters (s : State) (id : Nat) : (dropOp s id).clusters = s.clusters := rfl
@[simp] theorem dropOp_spans (s : State) (id : Nat) : (dropOp s id).spans = s.spans := rfl
@[simp] theorem dropOp_grids (s : State) (id : Nat) : (dropOp s id).grids = s.grids := rfl
@[simp] theorem dropOp_saved (s : State) (id : Nat) : (dropOp s id).saved = s.saved := rfl
@[simp] theorem dropOp_binds (s : State) (id : Nat) : (dropOp s id).binds = s.binds := rfl
@[simp] theorem dropOp_l1 (s : State) (id : Nat) : (dropOp s id).l1 = s.l1 := rfl
@[simp] theorem dropOp_ilines (s : State) (id : Nat) : (dropOp s id).ilines = s.ilines := rfl
@[simp] theorem dropOp_health (s : State) (id : Nat) : (dropOp s id).health = s.health := rfl
@[simp] theorem dropOp_hdrs (s : State) (id : Nat) : (dropOp s id).hdrs = s.hdrs := rfl
@[simp] theorem dropOp_matq (s : State) (id : Nat) : (dropOp s id).matq = s.matq := rfl
@[simp] theorem dropOp_copies (s : State) (id : Nat) : (dropOp s id).copies = s.copies := rfl
@[simp] theorem dropOp_shadow (s : State) (id : Nat) : (dropOp s id).shadow = s.shadow := rfl
@[simp] theorem dropOp_resv (s : State) (id : Nat) : (dropOp s id).resv = s.resv := rfl
@[simp] theorem dropOp_dies (s : State) (id : Nat) : (dropOp s id).dies = s.dies := rfl
@[simp] theorem dropOp_gondolas (s : State) (id : Nat) : (dropOp s id).gondolas = s.gondolas := rfl
@[simp] theorem dropOp_links (s : State) (id : Nat) : (dropOp s id).links = s.links := rfl
@[simp] theorem dropOp_dc (s : State) (id : Nat) : (dropOp s id).dc = s.dc := rfl
@[simp] theorem dropOp_frtCopy (s : State) (id : Nat) : (dropOp s id).frtCopy = s.frtCopy := rfl
@[simp] theorem dropOp_frt (s : State) (id : Nat) : (dropOp s id).frt = s.frt := rfl
@[simp] theorem dropOp_frzOps (s : State) (id : Nat) : (dropOp s id).frzOps = s.frzOps := rfl
@[simp] theorem dropOp_frzReqs (s : State) (id : Nat) : (dropOp s id).frzReqs = s.frzReqs := rfl
@[simp] theorem dropOp_frzLast (s : State) (id : Nat) : (dropOp s id).frzLast = s.frzLast := rfl
@[simp] theorem dropOp_regions (s : State) (id : Nat) : (dropOp s id).regions = s.regions := rfl
@[simp] theorem dropOp_tags (s : State) (id : Nat) : (dropOp s id).tags = s.tags := rfl
@[simp] theorem dropOp_tlb (s : State) (id : Nat) : (dropOp s id).tlb = s.tlb := rfl
@[simp] theorem dropOp_reqs (s : State) (id : Nat) : (dropOp s id).reqs = s.reqs.filter fun o => o.id != id := rfl
@[simp] theorem dropOp_fwd (s : State) (id : Nat) : (dropOp s id).fwd = s.fwd := rfl
@[simp] theorem dropOp_recalls (s : State) (id : Nat) : (dropOp s id).recalls = s.recalls := rfl
@[simp] theorem dropOp_mmp (s : State) (id : Nat) : (dropOp s id).mmp = s.mmp := rfl
@[simp] theorem dropOp_denied (s : State) (id : Nat) : (dropOp s id).denied = s.denied := rfl
@[simp] theorem dropOp_storms (s : State) (id : Nat) : (dropOp s id).storms = s.storms := rfl
@[simp] theorem dropOp_outer (s : State) (id : Nat) : (dropOp s id).outer = s.outer := rfl
@[simp] theorem dropOp_remote (s : State) (id : Nat) : (dropOp s id).remote = s.remote := rfl
@[simp] theorem dropOp_portq (s : State) (id : Nat) : (dropOp s id).portq = s.portq := rfl
@[simp] theorem dropOp_served (s : State) (id : Nat) : (dropOp s id).served = s.served := rfl
@[simp] theorem dropOp_lodge (s : State) (id : Nat) : (dropOp s id).lodge = s.lodge := rfl
@[simp] theorem dropOp_outbox (s : State) (id : Nat) : (dropOp s id).outbox = s.outbox := rfl
@[simp] theorem dropOp_cpcmd (s : State) (id : Nat) : (dropOp s id).cpcmd = s.cpcmd := rfl
@[simp] theorem dropOp_diectl (s : State) (id : Nat) : (dropOp s id).diectl = s.diectl := rfl
@[simp] theorem dropOp_queues (s : State) (id : Nat) : (dropOp s id).queues = s.queues := rfl
@[simp] theorem dropOp_works (s : State) (id : Nat) : (dropOp s id).works = s.works := rfl
@[simp] theorem dropOp_launches (s : State) (id : Nat) : (dropOp s id).launches = s.launches := rfl
@[simp] theorem dropOp_tcache (s : State) (id : Nat) : (dropOp s id).tcache = s.tcache := rfl
@[simp] theorem dropOp_teardowns (s : State) (id : Nat) : (dropOp s id).teardowns = s.teardowns := rfl
@[simp] theorem dropOp_peers (s : State) (id : Nat) : (dropOp s id).peers = s.peers := rfl
@[simp] theorem dropOp_boot (s : State) (id : Nat) : (dropOp s id).boot = s.boot := rfl
@[simp] theorem dropOp_agenda (s : State) (id : Nat) : (dropOp s id).agenda = s.agenda := rfl
@[simp] theorem dropOp_curGroup (s : State) (id : Nat) : (dropOp s id).curGroup = s.curGroup := rfl
@[simp] theorem dropOp_curLane (s : State) (id : Nat) : (dropOp s id).curLane = s.curLane := rfl
@[simp] theorem dropOp_turn (s : State) (id : Nat) : (dropOp s id).turn = s.turn := rfl
@[simp] theorem dropOp_issued (s : State) (id : Nat) : (dropOp s id).issued = s.issued := rfl
@[simp] theorem dropOp_patience (s : State) (id : Nat) : (dropOp s id).patience = s.patience := rfl
@[simp] theorem dropOp_stalls (s : State) (id : Nat) : (dropOp s id).stalls = s.stalls := rfl
@[simp] theorem dropOp_converter (s : State) (id : Nat) : (dropOp s id).converter = s.converter := rfl
@[simp] theorem dropOp_argPages (s : State) (id : Nat) : (dropOp s id).argPages = s.argPages := rfl
@[simp] theorem dropOp_blocked (s : State) (id : Nat) : (dropOp s id).blocked = s.blocked := rfl
@[simp] theorem dropOp_round (s : State) (id : Nat) : (dropOp s id).round = s.round := rfl
@[simp] theorem dropOp_free (s : State) (id : Nat) : (dropOp s id).free = s.free := rfl
@[simp] theorem dropOp_nextId (s : State) (id : Nat) : (dropOp s id).nextId = s.nextId := rfl

/-! ## A group slot freed -/

@[simp] theorem dropGroup_mem (s : State) (k : Nat) : (dropGroup s k).mem = s.mem := rfl
@[simp] theorem dropGroup_poison (s : State) (k : Nat) : (dropGroup s k).poison = s.poison := rfl
@[simp] theorem dropGroup_tile (s : State) (k : Nat) : (dropGroup s k).tile = s.tile := rfl
@[simp] theorem dropGroup_tilePoison (s : State) (k : Nat) : (dropGroup s k).tilePoison = s.tilePoison := rfl
@[simp] theorem dropGroup_groups (s : State) (k : Nat) : (dropGroup s k).groups = tdel s.groups k := rfl
@[simp] theorem dropGroup_blocks (s : State) (k : Nat) : (dropGroup s k).blocks = s.blocks := rfl
@[simp] theorem dropGroup_clusters (s : State) (k : Nat) : (dropGroup s k).clusters = s.clusters := rfl
@[simp] theorem dropGroup_spans (s : State) (k : Nat) : (dropGroup s k).spans = s.spans := rfl
@[simp] theorem dropGroup_grids (s : State) (k : Nat) : (dropGroup s k).grids = s.grids := rfl
@[simp] theorem dropGroup_saved (s : State) (k : Nat) : (dropGroup s k).saved = s.saved := rfl
@[simp] theorem dropGroup_binds (s : State) (k : Nat) : (dropGroup s k).binds = s.binds := rfl
@[simp] theorem dropGroup_l1 (s : State) (k : Nat) : (dropGroup s k).l1 = s.l1 := rfl
@[simp] theorem dropGroup_ilines (s : State) (k : Nat) : (dropGroup s k).ilines = s.ilines := rfl
@[simp] theorem dropGroup_health (s : State) (k : Nat) : (dropGroup s k).health = s.health := rfl
@[simp] theorem dropGroup_hdrs (s : State) (k : Nat) : (dropGroup s k).hdrs = s.hdrs := rfl
@[simp] theorem dropGroup_matq (s : State) (k : Nat) : (dropGroup s k).matq = s.matq.filter fun o => o.grp != k := rfl
@[simp] theorem dropGroup_copies (s : State) (k : Nat) : (dropGroup s k).copies = s.copies.filter fun c => c.grp != k := rfl
@[simp] theorem dropGroup_shadow (s : State) (k : Nat) : (dropGroup s k).shadow = s.shadow.filter fun e => e.2 != k := rfl
@[simp] theorem dropGroup_resv (s : State) (k : Nat) : (dropGroup s k).resv = s.resv.filter fun r => r.grp != k := rfl
@[simp] theorem dropGroup_dies (s : State) (k : Nat) : (dropGroup s k).dies = s.dies := rfl
@[simp] theorem dropGroup_gondolas (s : State) (k : Nat) : (dropGroup s k).gondolas = s.gondolas := rfl
@[simp] theorem dropGroup_links (s : State) (k : Nat) : (dropGroup s k).links = s.links := rfl
@[simp] theorem dropGroup_dc (s : State) (k : Nat) : (dropGroup s k).dc = s.dc := rfl
@[simp] theorem dropGroup_frtCopy (s : State) (k : Nat) : (dropGroup s k).frtCopy = s.frtCopy := rfl
@[simp] theorem dropGroup_frt (s : State) (k : Nat) : (dropGroup s k).frt = s.frt := rfl
@[simp] theorem dropGroup_frzOps (s : State) (k : Nat) : (dropGroup s k).frzOps = s.frzOps := rfl
@[simp] theorem dropGroup_frzReqs (s : State) (k : Nat) : (dropGroup s k).frzReqs = s.frzReqs.filter fun r => r.grp != k := rfl
@[simp] theorem dropGroup_frzLast (s : State) (k : Nat) : (dropGroup s k).frzLast = s.frzLast := rfl
@[simp] theorem dropGroup_regions (s : State) (k : Nat) : (dropGroup s k).regions = s.regions := rfl
@[simp] theorem dropGroup_tags (s : State) (k : Nat) : (dropGroup s k).tags = s.tags := rfl
@[simp] theorem dropGroup_tlb (s : State) (k : Nat) : (dropGroup s k).tlb = s.tlb := rfl
@[simp] theorem dropGroup_reqs (s : State) (k : Nat) : (dropGroup s k).reqs = s.reqs.filter fun o => o.grp != k := rfl
@[simp] theorem dropGroup_fwd (s : State) (k : Nat) : (dropGroup s k).fwd = s.fwd := rfl
@[simp] theorem dropGroup_recalls (s : State) (k : Nat) : (dropGroup s k).recalls = s.recalls := rfl
@[simp] theorem dropGroup_mmp (s : State) (k : Nat) : (dropGroup s k).mmp = s.mmp := rfl
@[simp] theorem dropGroup_denied (s : State) (k : Nat) : (dropGroup s k).denied = s.denied := rfl
@[simp] theorem dropGroup_storms (s : State) (k : Nat) : (dropGroup s k).storms = s.storms := rfl
@[simp] theorem dropGroup_outer (s : State) (k : Nat) : (dropGroup s k).outer = s.outer := rfl
@[simp] theorem dropGroup_remote (s : State) (k : Nat) : (dropGroup s k).remote = s.remote := rfl
@[simp] theorem dropGroup_portq (s : State) (k : Nat) : (dropGroup s k).portq = s.portq := rfl
@[simp] theorem dropGroup_served (s : State) (k : Nat) : (dropGroup s k).served = s.served := rfl
@[simp] theorem dropGroup_lodge (s : State) (k : Nat) : (dropGroup s k).lodge = s.lodge := rfl
@[simp] theorem dropGroup_outbox (s : State) (k : Nat) : (dropGroup s k).outbox = s.outbox := rfl
@[simp] theorem dropGroup_cpcmd (s : State) (k : Nat) : (dropGroup s k).cpcmd = s.cpcmd := rfl
@[simp] theorem dropGroup_diectl (s : State) (k : Nat) : (dropGroup s k).diectl = s.diectl := rfl
@[simp] theorem dropGroup_queues (s : State) (k : Nat) : (dropGroup s k).queues = s.queues := rfl
@[simp] theorem dropGroup_works (s : State) (k : Nat) : (dropGroup s k).works = s.works := rfl
@[simp] theorem dropGroup_launches (s : State) (k : Nat) : (dropGroup s k).launches = s.launches := rfl
@[simp] theorem dropGroup_tcache (s : State) (k : Nat) : (dropGroup s k).tcache = s.tcache := rfl
@[simp] theorem dropGroup_teardowns (s : State) (k : Nat) : (dropGroup s k).teardowns = s.teardowns := rfl
@[simp] theorem dropGroup_peers (s : State) (k : Nat) : (dropGroup s k).peers = s.peers := rfl
@[simp] theorem dropGroup_boot (s : State) (k : Nat) : (dropGroup s k).boot = s.boot := rfl
@[simp] theorem dropGroup_agenda (s : State) (k : Nat) : (dropGroup s k).agenda = s.agenda := rfl
@[simp] theorem dropGroup_curGroup (s : State) (k : Nat) : (dropGroup s k).curGroup = s.curGroup := rfl
@[simp] theorem dropGroup_curLane (s : State) (k : Nat) : (dropGroup s k).curLane = s.curLane := rfl
@[simp] theorem dropGroup_turn (s : State) (k : Nat) : (dropGroup s k).turn = s.turn := rfl
@[simp] theorem dropGroup_issued (s : State) (k : Nat) : (dropGroup s k).issued = s.issued := rfl
@[simp] theorem dropGroup_patience (s : State) (k : Nat) : (dropGroup s k).patience = s.patience := rfl
@[simp] theorem dropGroup_stalls (s : State) (k : Nat) : (dropGroup s k).stalls = s.stalls := rfl
@[simp] theorem dropGroup_converter (s : State) (k : Nat) : (dropGroup s k).converter = s.converter := rfl
@[simp] theorem dropGroup_argPages (s : State) (k : Nat) : (dropGroup s k).argPages = s.argPages := rfl
@[simp] theorem dropGroup_blocked (s : State) (k : Nat) : (dropGroup s k).blocked = s.blocked := rfl
@[simp] theorem dropGroup_round (s : State) (k : Nat) : (dropGroup s k).round = s.round := rfl
@[simp] theorem dropGroup_free (s : State) (k : Nat) : (dropGroup s k).free = s.free := rfl
@[simp] theorem dropGroup_nextId (s : State) (k : Nat) : (dropGroup s k).nextId = s.nextId := rfl

/-! ## A held fault -/

@[simp] theorem holdFault_mem (s : State) (k : Nat) (h : HeldFault) : (holdFault s k h).mem = s.mem := rfl
@[simp] theorem holdFault_poison (s : State) (k : Nat) (h : HeldFault) : (holdFault s k h).poison = s.poison := rfl
@[simp] theorem holdFault_tile (s : State) (k : Nat) (h : HeldFault) : (holdFault s k h).tile = s.tile := rfl
@[simp] theorem holdFault_tilePoison (s : State) (k : Nat) (h : HeldFault) : (holdFault s k h).tilePoison = s.tilePoison := rfl
@[simp] theorem holdFault_groups (s : State) (k : Nat) (h : HeldFault) : (holdFault s k h).groups = tmod s.groups k fun g => { g with held := g.held ++ [h] } := rfl
@[simp] theorem holdFault_blocks (s : State) (k : Nat) (h : HeldFault) : (holdFault s k h).blocks = s.blocks := rfl
@[simp] theorem holdFault_clusters (s : State) (k : Nat) (h : HeldFault) : (holdFault s k h).clusters = s.clusters := rfl
@[simp] theorem holdFault_spans (s : State) (k : Nat) (h : HeldFault) : (holdFault s k h).spans = s.spans := rfl
@[simp] theorem holdFault_grids (s : State) (k : Nat) (h : HeldFault) : (holdFault s k h).grids = s.grids := rfl
@[simp] theorem holdFault_saved (s : State) (k : Nat) (h : HeldFault) : (holdFault s k h).saved = s.saved := rfl
@[simp] theorem holdFault_binds (s : State) (k : Nat) (h : HeldFault) : (holdFault s k h).binds = s.binds := rfl
@[simp] theorem holdFault_l1 (s : State) (k : Nat) (h : HeldFault) : (holdFault s k h).l1 = s.l1 := rfl
@[simp] theorem holdFault_ilines (s : State) (k : Nat) (h : HeldFault) : (holdFault s k h).ilines = s.ilines := rfl
@[simp] theorem holdFault_health (s : State) (k : Nat) (h : HeldFault) : (holdFault s k h).health = s.health := rfl
@[simp] theorem holdFault_hdrs (s : State) (k : Nat) (h : HeldFault) : (holdFault s k h).hdrs = s.hdrs := rfl
@[simp] theorem holdFault_matq (s : State) (k : Nat) (h : HeldFault) : (holdFault s k h).matq = s.matq := rfl
@[simp] theorem holdFault_copies (s : State) (k : Nat) (h : HeldFault) : (holdFault s k h).copies = s.copies := rfl
@[simp] theorem holdFault_shadow (s : State) (k : Nat) (h : HeldFault) : (holdFault s k h).shadow = s.shadow := rfl
@[simp] theorem holdFault_resv (s : State) (k : Nat) (h : HeldFault) : (holdFault s k h).resv = s.resv := rfl
@[simp] theorem holdFault_dies (s : State) (k : Nat) (h : HeldFault) : (holdFault s k h).dies = s.dies := rfl
@[simp] theorem holdFault_gondolas (s : State) (k : Nat) (h : HeldFault) : (holdFault s k h).gondolas = s.gondolas := rfl
@[simp] theorem holdFault_links (s : State) (k : Nat) (h : HeldFault) : (holdFault s k h).links = s.links := rfl
@[simp] theorem holdFault_dc (s : State) (k : Nat) (h : HeldFault) : (holdFault s k h).dc = s.dc := rfl
@[simp] theorem holdFault_frtCopy (s : State) (k : Nat) (h : HeldFault) : (holdFault s k h).frtCopy = s.frtCopy := rfl
@[simp] theorem holdFault_frt (s : State) (k : Nat) (h : HeldFault) : (holdFault s k h).frt = s.frt := rfl
@[simp] theorem holdFault_frzOps (s : State) (k : Nat) (h : HeldFault) : (holdFault s k h).frzOps = s.frzOps := rfl
@[simp] theorem holdFault_frzReqs (s : State) (k : Nat) (h : HeldFault) : (holdFault s k h).frzReqs = s.frzReqs := rfl
@[simp] theorem holdFault_frzLast (s : State) (k : Nat) (h : HeldFault) : (holdFault s k h).frzLast = s.frzLast := rfl
@[simp] theorem holdFault_regions (s : State) (k : Nat) (h : HeldFault) : (holdFault s k h).regions = s.regions := rfl
@[simp] theorem holdFault_tags (s : State) (k : Nat) (h : HeldFault) : (holdFault s k h).tags = s.tags := rfl
@[simp] theorem holdFault_tlb (s : State) (k : Nat) (h : HeldFault) : (holdFault s k h).tlb = s.tlb := rfl
@[simp] theorem holdFault_reqs (s : State) (k : Nat) (h : HeldFault) : (holdFault s k h).reqs = s.reqs := rfl
@[simp] theorem holdFault_fwd (s : State) (k : Nat) (h : HeldFault) : (holdFault s k h).fwd = s.fwd := rfl
@[simp] theorem holdFault_recalls (s : State) (k : Nat) (h : HeldFault) : (holdFault s k h).recalls = s.recalls := rfl
@[simp] theorem holdFault_mmp (s : State) (k : Nat) (h : HeldFault) : (holdFault s k h).mmp = s.mmp := rfl
@[simp] theorem holdFault_denied (s : State) (k : Nat) (h : HeldFault) : (holdFault s k h).denied = s.denied := rfl
@[simp] theorem holdFault_storms (s : State) (k : Nat) (h : HeldFault) : (holdFault s k h).storms = s.storms := rfl
@[simp] theorem holdFault_outer (s : State) (k : Nat) (h : HeldFault) : (holdFault s k h).outer = s.outer := rfl
@[simp] theorem holdFault_remote (s : State) (k : Nat) (h : HeldFault) : (holdFault s k h).remote = s.remote := rfl
@[simp] theorem holdFault_portq (s : State) (k : Nat) (h : HeldFault) : (holdFault s k h).portq = s.portq := rfl
@[simp] theorem holdFault_served (s : State) (k : Nat) (h : HeldFault) : (holdFault s k h).served = s.served := rfl
@[simp] theorem holdFault_lodge (s : State) (k : Nat) (h : HeldFault) : (holdFault s k h).lodge = s.lodge := rfl
@[simp] theorem holdFault_outbox (s : State) (k : Nat) (h : HeldFault) : (holdFault s k h).outbox = s.outbox := rfl
@[simp] theorem holdFault_cpcmd (s : State) (k : Nat) (h : HeldFault) : (holdFault s k h).cpcmd = s.cpcmd := rfl
@[simp] theorem holdFault_diectl (s : State) (k : Nat) (h : HeldFault) : (holdFault s k h).diectl = s.diectl := rfl
@[simp] theorem holdFault_queues (s : State) (k : Nat) (h : HeldFault) : (holdFault s k h).queues = s.queues := rfl
@[simp] theorem holdFault_works (s : State) (k : Nat) (h : HeldFault) : (holdFault s k h).works = s.works := rfl
@[simp] theorem holdFault_launches (s : State) (k : Nat) (h : HeldFault) : (holdFault s k h).launches = s.launches := rfl
@[simp] theorem holdFault_tcache (s : State) (k : Nat) (h : HeldFault) : (holdFault s k h).tcache = s.tcache := rfl
@[simp] theorem holdFault_teardowns (s : State) (k : Nat) (h : HeldFault) : (holdFault s k h).teardowns = s.teardowns := rfl
@[simp] theorem holdFault_peers (s : State) (k : Nat) (h : HeldFault) : (holdFault s k h).peers = s.peers := rfl
@[simp] theorem holdFault_boot (s : State) (k : Nat) (h : HeldFault) : (holdFault s k h).boot = s.boot := rfl
@[simp] theorem holdFault_agenda (s : State) (k : Nat) (h : HeldFault) : (holdFault s k h).agenda = s.agenda := rfl
@[simp] theorem holdFault_curGroup (s : State) (k : Nat) (h : HeldFault) : (holdFault s k h).curGroup = s.curGroup := rfl
@[simp] theorem holdFault_curLane (s : State) (k : Nat) (h : HeldFault) : (holdFault s k h).curLane = s.curLane := rfl
@[simp] theorem holdFault_turn (s : State) (k : Nat) (h : HeldFault) : (holdFault s k h).turn = s.turn := rfl
@[simp] theorem holdFault_issued (s : State) (k : Nat) (h : HeldFault) : (holdFault s k h).issued = s.issued := rfl
@[simp] theorem holdFault_patience (s : State) (k : Nat) (h : HeldFault) : (holdFault s k h).patience = s.patience := rfl
@[simp] theorem holdFault_stalls (s : State) (k : Nat) (h : HeldFault) : (holdFault s k h).stalls = s.stalls := rfl
@[simp] theorem holdFault_converter (s : State) (k : Nat) (h : HeldFault) : (holdFault s k h).converter = s.converter := rfl
@[simp] theorem holdFault_argPages (s : State) (k : Nat) (h : HeldFault) : (holdFault s k h).argPages = s.argPages := rfl
@[simp] theorem holdFault_blocked (s : State) (k : Nat) (h : HeldFault) : (holdFault s k h).blocked = s.blocked := rfl
@[simp] theorem holdFault_round (s : State) (k : Nat) (h : HeldFault) : (holdFault s k h).round = s.round := rfl
@[simp] theorem holdFault_free (s : State) (k : Nat) (h : HeldFault) : (holdFault s k h).free = s.free := rfl
@[simp] theorem holdFault_nextId (s : State) (k : Nat) (h : HeldFault) : (holdFault s k h).nextId = s.nextId := rfl

/-! ## A die, memory, and time -/

theorem setDie_eq (s : State) (d : Nat) (f : Die → Die) : s.setDie d f = { s with dies := (s.setDie d f).dies } := by
  unfold State.setDie
  split <;> rfl

theorem writeBytes_eq (s : State) (k : Nat) (bs : List Byte) :
    s.writeBytes k bs = { s with mem := (s.writeBytes k bs).mem, poison := (s.writeBytes k bs).poison, resv := (s.writeBytes k bs).resv } := by
  unfold State.writeBytes
  simp only
  split <;> rfl

theorem modLink_eq (s : State) (l : Nat) (f : Link → Link) : modLink s l f = { s with links := (modLink s l f).links } := by
  unfold modLink
  split <;> rfl

theorem modGondola_eq (s : State) (g : Nat) (f : Gondola → Gondola) :
    modGondola s g f = { s with gondolas := (modGondola s g f).gondolas } := by
  unfold modGondola
  split <;> rfl

theorem callMmp_eq (s : State) (c p : Nat) : callMmp s c p = { s with mmp := (callMmp s c p).mmp, peers := (callMmp s c p).peers } := by
  unfold callMmp
  split
  · rfl
  · split <;> rfl

theorem elapse_eq (s : State) (a b : Nat) : elapse s a b = { s with
    lodge := s.lodge + a, portq := (s.portq + a) % 11, served := (elapse s a b).served, dies := (elapse s a b).dies } := rfl

/-- A step's time moves the clocks and the model's own turn and free values, and nothing else. -/
theorem tick_eq (s : State) : tick s = { s with
    lodge := (tick s).lodge, portq := (tick s).portq, served := (tick s).served, dies := (tick s).dies,
    turn := (tick s).turn, free := s.free + 3 } := rfl

theorem post_eq {s t : State} {src code ctx : Nat} {a b : DWord} (h : post s src code ctx a b = some t) :
    t = { s with outbox := t.outbox } := by
  unfold post at h
  simp only at h
  split at h
  · cases h
  · cases h; rfl

theorem bump_eq (s : State) (p c n : Nat) : bump s p c n = { s with health := (bump s p c n).health } := by
  unfold bump
  simp only
  split <;> rfl

end Sys2Proof.Machine
end

