-- ==== Sys2Proof/Laws/Table.lean ====
section
/-! SUPPORT. Table.lean: reading a table after writing it. -/

namespace Sys2Proof.Machine

theorem tget_tset_same {α : Type} (t : Table α) (k : Nat) (a : α) : tget (tset t k a) k = some a := by
  induction t with
  | nil => simp [tset, tget]
  | cons e r ih =>
    obtain ⟨j, b⟩ := e
    unfold tset
    split
    · simp [tget]
    · split
      · simp [tget]
      · rename_i h1 h2
        simp [tget, ih, Ne.symm h2]

theorem tget_tset_ne {α : Type} (t : Table α) {j k : Nat} (a : α) (h : j ≠ k) : tget (tset t k a) j = tget t j := by
  induction t with
  | nil => simp [tset, tget, Ne.symm h]
  | cons e r ih =>
    obtain ⟨i, b⟩ := e
    unfold tset
    split
    · simp [tget, Ne.symm h]
    · split
      · rename_i h2
        simp [tget, Ne.symm h, ← h2]
      · simp only [tget, ih]

@[simp] theorem tget_tset {α : Type} (t : Table α) (j k : Nat) (a : α) :
    tget (tset t k a) j = if j = k then some a else tget t j := by
  by_cases h : j = k
  · subst h; simp [tget_tset_same]
  · simp [tget_tset_ne _ _ h, h]

@[simp] theorem tget_tmod_same {α : Type} (t : Table α) (k : Nat) (f : α → α) :
    tget (tmod t k f) k = (tget t k).map f := by
  unfold tmod
  cases h : tget t k <;> simp [h]

theorem tget_tmod_ne {α : Type} (t : Table α) {j k : Nat} (f : α → α) (h : j ≠ k) : tget (tmod t k f) j = tget t j := by
  unfold tmod
  cases tget t k <;> simp [h]

theorem tget_tdel_ne {α : Type} (t : Table α) {j k : Nat} (h : j ≠ k) : tget (tdel t k) j = tget t j := by
  unfold tdel
  induction t with
  | nil => simp [tget]
  | cons e r ih =>
    obtain ⟨i, b⟩ := e
    by_cases hi : i = k
    · subst hi; simp [tget, ih, Ne.symm h]
    · rw [List.filter_cons_of_pos (by simpa using hi)]
      simp only [tget, ih]

theorem tget_tdel_same {α : Type} (t : Table α) (k : Nat) : tget (tdel t k) k = none := by
  unfold tdel
  induction t with
  | nil => simp [tget]
  | cons e r ih =>
    obtain ⟨i, b⟩ := e
    by_cases hi : i = k
    · simp [hi, ih]
    · simp [hi, ih, tget]

@[simp] theorem tget_tput_same {α : Type} (t : Table α) (k : Nat) (x : Option α) : tget (tput t k x) k = x := by
  cases x <;> simp [tput, tget_tdel_same]

theorem tget_tput_ne {α : Type} (t : Table α) {j k : Nat} (x : Option α) (h : j ≠ k) : tget (tput t k x) j = tget t j := by
  cases x <;> simp [tput, tget_tdel_ne _ h, h]

end Sys2Proof.Machine
end

