-- ==== Sys2Proof/Laws/Pool.lean ====
section
/-! SUPPORT. Pool.lean: a spill changes no value; a write gives its lanes their values, keeps the others, and touches no other
register (R134, R315, R318, R326). -/

namespace Sys2Proof.Machine

/-! ## What differs by AWAY and JOINED marks alone -/

/-- A register as a reader sees it: its marks of storage left out. -/
def Reg.seen (r : Reg) : Reg := { r with away := false, joined := false }

/-- Two groups that differ in the storage marks of their registers, and in what their spill areas hold, alone. -/
def SameSeen (g h : Group) : Prop :=
  h = { g with regs := h.regs, hregs := h.hregs, spill := h.spill } ∧
  (∀ n, (tget h.regs n).map Reg.seen = (tget g.regs n).map Reg.seen) ∧
  (∀ n, (tget h.hregs n).map Reg.seen = (tget g.hregs n).map Reg.seen)

theorem SameSeen.refl (g : Group) : SameSeen g g := ⟨rfl, fun _ => rfl, fun _ => rfl⟩

theorem SameSeen.trans {a b c : Group} (h1 : SameSeen a b) (h2 : SameSeen b c) : SameSeen a c := by
  refine ⟨?_, fun n => (h2.2.1 n).trans (h1.2.1 n), fun n => (h2.2.2 n).trans (h1.2.2 n)⟩
  rw [h2.1, h1.1]

theorem SameSeen.regOf {g h : Group} (e : SameSeen g h) (n : Nat) : (regOf h n).map Reg.seen = (regOf g n).map Reg.seen := by
  have hh : isHandlerReg h n = isHandlerReg g n := by rw [e.1]; rfl
  unfold Machine.regOf
  rw [hh]
  split
  · exact e.2.2 n
  · exact e.2.1 n

theorem readReg_of_seen {g h : Group} {n : Nat} (e : (regOf h n).map Reg.seen = (regOf g n).map Reg.seen) (l : Nat) :
    readReg h n l = readReg g n l := by
  unfold readReg
  cases h1 : regOf h n with
  | none => cases h2 : regOf g n with
    | none => rfl
    | some b => rw [h1, h2] at e; cases e
  | some a => cases h2 : regOf g n with
    | none => rw [h1, h2] at e; cases e
    | some b =>
      rw [h1, h2] at e
      have e' : a.seen = b.seen := by simpa only [Option.map_some, Option.some.injEq] using e
      have : a.val = b.val := by
        have x := congrArg (fun r : Reg => r.val) e'
        exact x
      simp only [this]

theorem SameSeen.readReg {g h : Group} (e : SameSeen g h) (n l : Nat) : readReg h n l = readReg g n l :=
  readReg_of_seen (e.regOf n) l

theorem sameSeen_spillReg (g : Group) (r : Nat) : SameSeen g (spillReg g r) := by
  unfold spillReg
  split
  · rename_i x hx
    generalize memWrite g.spill (256 * r) (imageBytes x.val) = sp
    refine ⟨rfl, ?_, fun _ => rfl⟩
    intro n
    by_cases h : n = r
    · subst h
      simp only [tget_tset_same, hx, Option.map_some]
      rfl
    · simp only [tget_tset_ne _ _ h]
  · exact SameSeen.refl g

/-! ## Obtaining storage -/

/-- The same for two states: every group in its place, and nothing else changed. -/
def GroupsSeen (s t : State) : Prop :=
  t = { s with groups := t.groups } ∧
  ∀ k, match s.group k, t.group k with
    | some g, some h => SameSeen g h
    | none, none => True
    | _, _ => False

theorem GroupsSeen.refl (s : State) : GroupsSeen s s := by
  refine ⟨rfl, ?_⟩
  intro k
  cases h : s.group k <;> simp [SameSeen.refl]

theorem GroupsSeen.trans {a b c : State} (h1 : GroupsSeen a b) (h2 : GroupsSeen b c) : GroupsSeen a c := by
  refine ⟨by rw [h2.1, h1.1], ?_⟩
  intro k
  have x := h1.2 k
  have y := h2.2 k
  cases ha : a.group k <;> cases hb : b.group k <;> cases hc : c.group k <;> simp_all
  exact x.trans y

theorem groupsSeen_modGroup {s : State} {k : Nat} {f : Group → Group} (h : ∀ g, s.group k = some g → SameSeen g (f g)) :
    GroupsSeen s (s.modGroup k f) := by
  refine ⟨rfl, ?_⟩
  intro j
  unfold State.group at h ⊢
  by_cases hj : j = k
  · subst hj
    simp only [modGroup_groups, tget_tmod_same]
    cases hg : tget s.groups j with
    | none => simp
    | some g => simpa using h g hg
  · simp only [modGroup_groups, tget_tmod_ne _ _ hj]
    cases tget s.groups j <;> simp [SameSeen.refl]

theorem groupsSeen_obtainLoop (k : Nat) (named : List Nat) (ns nc : Nat) (goal : Int) (fuel : Nat) (s : State) :
    GroupsSeen s (obtainLoop k named ns nc goal fuel s) := by
  induction fuel generalizing s with
  | zero => exact GroupsSeen.refl s
  | succ n ih =>
    unfold obtainLoop
    split
    · exact GroupsSeen.refl s
    · split
      · exact GroupsSeen.refl s
      · exact (groupsSeen_modGroup fun g _ => sameSeen_spillReg g _).trans (ih _)

/-- Obtaining storage spills registers and changes no value (R326). -/
theorem groupsSeen_obtainFor (s : State) (k : Nat) (nm : Naming) (need : Nat × Nat) : GroupsSeen s (obtainFor s k nm need) :=
  groupsSeen_obtainLoop _ _ _ _ _ _ s

/-! ## Putting a register -/

theorem regOf_putReg_same (g : Group) (n : Nat) (r : Option Reg) : regOf (putReg g n r) n = r := by
  unfold putReg
  simp only
  split
  · rename_i h
    have : isHandlerReg { g with hregs := tput (tmod g.hregs (n + 1 - 2 * (n % 2)) fun x => { x with joined := false }) n r } n = true := h
    simp [regOf, this]
  · rename_i h
    have : isHandlerReg { g with regs := tput (tmod g.regs (n + 1 - 2 * (n % 2)) fun x => { x with joined := false }) n r } n = false :=
      Bool.eq_false_iff.mpr h
    simp [regOf, this]

theorem seen_put_ne (t : Table Reg) {j n m : Nat} (r : Option Reg) (h : j ≠ n) :
    (tget (tput (tmod t m fun x => { x with joined := false }) n r) j).map Reg.seen = (tget t j).map Reg.seen := by
  rw [tget_tput_ne _ _ h]
  by_cases hj : j = m
  · subst hj
    simp only [tget_tmod_same, Option.map_map]
    rfl
  · rw [tget_tmod_ne _ _ hj]

theorem regOf_putReg_ne (g : Group) {j n : Nat} (r : Option Reg) (h : j ≠ n) :
    (regOf (putReg g n r) j).map Reg.seen = (regOf g j).map Reg.seen := by
  unfold putReg
  simp only
  by_cases hn : isHandlerReg g n = true
  · rw [if_pos hn]
    unfold regOf
    have e : isHandlerReg { g with hregs := tput (tmod g.hregs (n + 1 - 2 * (n % 2)) fun x => { x with joined := false }) n r } j = isHandlerReg g j := rfl
    rw [e]
    split
    · exact seen_put_ne _ _ h
    · rfl
  · rw [if_neg hn]
    unfold regOf
    have e : isHandlerReg { g with regs := tput (tmod g.regs (n + 1 - 2 * (n % 2)) fun x => { x with joined := false }) n r } j = isHandlerReg g j := rfl
    rw [e]
    split
    · rfl
    · exact seen_put_ne _ _ h

/-- A group but for its registers. -/
theorem putReg_rest (g : Group) (n : Nat) (r : Option Reg) :
    putReg g n r = { g with regs := (putReg g n r).regs, hregs := (putReg g n r).hregs } := by
  unfold putReg
  simp only
  split <;> rfl

/-! ## Storing a value -/

/-- What a store of a register in group k does: that register holds the value; every other register of every group reads as
before; a group changes in nothing but its registers and spill area; and nothing but groups changes. -/
structure Stored (s t : State) (k n : Nat) (r : Reg) : Prop where
  rest : t = { s with groups := t.groups }
  others : ∀ j, j ≠ k → match s.group j, t.group j with
    | some g, some h => SameSeen g h
    | none, none => True
    | _, _ => False
  own : ∀ g, s.group k = some g → ∃ h, t.group k = some h ∧ h = { g with regs := h.regs, hregs := h.hregs, spill := h.spill } ∧
    regOf h n = some r ∧ ∀ j, j ≠ n → (regOf h j).map Reg.seen = (regOf g j).map Reg.seen

theorem stored_put {s o : State} (q : GroupsSeen s o) (k n : Nat) (r : Reg) :
    Stored s (o.modGroup k fun g => putReg g n (some r)) k n r := by
  obtain ⟨e, q⟩ := q
  refine ⟨?_, ?_, ?_⟩
  · rw [e]; rfl
  · intro j hj
    have := q j
    unfold State.group at this ⊢
    simpa [tget_tmod_ne _ _ hj] using this
  · intro g hg
    have hq := q k
    rw [hg] at hq
    cases ho : o.group k with
    | none => simp [ho] at hq
    | some x =>
      simp only [ho] at hq
      refine ⟨putReg x n (some r), ?_, ?_, regOf_putReg_same x n _, ?_⟩
      · unfold State.group at ho ⊢
        simp [ho]
      · rw [putReg_rest, hq.1]
      · intro j hj
        rw [regOf_putReg_ne _ _ hj]
        exact hq.regOf j

/-! ## The stored value -/

/-- A nominal shape says what the lanes hold (R132). -/
def Nominal.Fits : Nominal → (Nat → Word) → Prop
  | .uniform, f => ∀ l, l < 64 → f l = f 0
  | .affine b st, f => ∀ l, l < 64 → f l = b + st * BitVec.ofNat 32 l
  | .general, _ => True

theorem lane_lanesOf (f : Nat → Word) {l : Nat} (h : l < 64) : lane (lanesOf f) l = f l := by
  simp [lane, lanesOf, h]

/-- R134: an active lane reads its new value, an inactive one what it read before. -/
theorem lane_storedVal {old : Option Reg} {act : Mask} {nom : Nominal} {new : Nat → Word} (hn : act = fullMask → nom.Fits new)
    {l : Nat} (h : l < 64) : (storedVal old act nom new).lane l =
      if act.getLsbD l then new l else match old with | some r => r.val.lane l | none => 0 := by
  unfold storedVal
  split
  · rename_i hact
    have ha : act.getLsbD l = true := by rw [hact, fullMask, BitVec.getLsbD_allOnes]; exact decide_eq_true h
    rw [if_pos ha]
    have hf := hn hact
    cases nom with
    | uniform => simp only [RegVal.lane]; exact (hf l h).symm
    | affine b st => simp only [RegVal.lane]; exact (hf l h).symm
    | general => simp only [RegVal.lane]; exact lane_lanesOf _ h
  · simp only [RegVal.lane]
    exact lane_lanesOf _ h

/-- Write vn: its active lanes hold the new values and its others what the write found there; no other register of the group reads
differently. -/
theorem writeReg_spec {s : State} {k : Nat} (nm : Naming) {act : Mask} {nom : Nominal} {n : Nat} {new : Nat → Word} {g : Group}
    (hg : s.group k = some g) (ha : act ≠ 0) (hn : act = fullMask → nom.Fits new) :
    ∃ h, (writeReg s k nm act nom n new).group k = some h ∧ h = { g with regs := h.regs, hregs := h.hregs, spill := h.spill } ∧
      (∀ l, l < 64 → readReg h n l =
        if act.getLsbD l then new l else match heldReg g nm n with | some r => r.val.lane l | none => 0) ∧
      (regOf h n).map (·.pend) = some false ∧
      ∀ j, j ≠ n → (regOf h j).map Reg.seen = (regOf g j).map Reg.seen := by
  unfold writeReg
  simp only [ha, ↓reduceIte, hg]
  have st := stored_put (groupsSeen_obtainFor s k nm (needOf (regOf g n) (writtenReg g nm act nom n new).val)) k n
    (writtenReg g nm act nom n new)
  obtain ⟨h, h1, h2, h3, h4⟩ := st.own g hg
  refine ⟨h, h1, h2, ?_, by simp [h3, writtenReg], h4⟩
  intro l hl
  unfold readReg
  simp only [h3]
  exact lane_storedVal hn hl

theorem writeReg_rest (s : State) (k : Nat) (nm : Naming) (act : Mask) (nom : Nominal) (n : Nat) (new : Nat → Word) :
    writeReg s k nm act nom n new = { s with groups := (writeReg s k nm act nom n new).groups } := by
  unfold writeReg
  split
  · rfl
  · split
    · rfl
    · exact (stored_put (groupsSeen_obtainFor _ _ _ _) k n _).rest

end Sys2Proof.Machine
end

