-- ==== Sys2Proof/Laws/Splits.lean ====
section
/-! SUPPORT. Splits.lean: merging, promotion and releases move no lane (R289, R322). -/

namespace Sys2Proof.Machine

/-! ## Merging (R289 step 5) -/

theorem cover_or_left {a b m : Mask} (h : a &&& m = m) : (a ||| b) &&& m = m := by
  ext i hi
  have := congrArg (fun x => x.getLsbD i) h
  simp at this
  simp
  intro hm
  left
  exact this hm

theorem cover_or_right {a b m : Mask} (h : b &&& m = m) : (a ||| b) &&& m = m := by
  rw [BitVec.or_comm]
  exact cover_or_left h

/-- What a list of splits covers stays covered when one more is merged in, and the new one is covered. -/
theorem mergeInto_covers (x : Bool × Split) (l : List (Bool × Split)) {m : Mask} {pc : DWord}
    (h : (∃ y ∈ x :: l, y.2.mask &&& m = m ∧ y.2.pc = pc)) : ∃ y ∈ mergeInto x l, y.2.mask &&& m = m ∧ y.2.pc = pc := by
  induction l with
  | nil => simpa [mergeInto] using h
  | cons z zs ih =>
    unfold mergeInto
    split
    · rename_i hc
      simp only [Split.joins, Bool.and_eq_true, beq_iff_eq] at hc
      obtain ⟨y, hy, hm, hp⟩ := h
      simp only [List.mem_cons] at hy
      rcases hy with rfl | rfl | hy
      · exact ⟨_, List.mem_cons_self, cover_or_right hm, by rw [← hp]; exact hc.1.2⟩
      · exact ⟨_, List.mem_cons_self, cover_or_left hm, hp⟩
      · exact ⟨y, List.mem_cons_of_mem _ hy, hm, hp⟩
    · obtain ⟨y, hy, hm, hp⟩ := h
      simp only [List.mem_cons] at hy
      rcases hy with rfl | rfl | hy
      · obtain ⟨w, hw, r⟩ := ih ⟨y, List.mem_cons_self, hm, hp⟩
        exact ⟨w, List.mem_cons_of_mem _ hw, r⟩
      · exact ⟨y, List.mem_cons_self, hm, hp⟩
      · obtain ⟨w, hw, r⟩ := ih ⟨y, List.mem_cons_of_mem _ hy, hm, hp⟩
        exact ⟨w, List.mem_cons_of_mem _ hw, r⟩

theorem foldl_mergeInto_covers (l acc : List (Bool × Split)) {m : Mask} {pc : DWord}
    (h : ∃ y ∈ acc ++ l, y.2.mask &&& m = m ∧ y.2.pc = pc) :
    ∃ y ∈ l.foldl (fun acc x => mergeInto x acc) acc, y.2.mask &&& m = m ∧ y.2.pc = pc := by
  induction l generalizing acc with
  | nil => simpa using h
  | cons x xs ih =>
    apply ih
    obtain ⟨y, hy, r⟩ := h
    simp only [List.mem_append, List.mem_cons] at hy
    rcases hy with hy | rfl | hy
    · obtain ⟨w, hw, q⟩ := mergeInto_covers x acc ⟨y, List.mem_cons_of_mem _ hy, r⟩
      exact ⟨w, List.mem_append_left _ hw, q⟩
    · obtain ⟨w, hw, q⟩ := mergeInto_covers y acc ⟨y, List.mem_cons_self, r⟩
      exact ⟨w, List.mem_append_left _ hw, q⟩
    · exact ⟨y, List.mem_append_right _ hy, r⟩

theorem standing_mergeAll {g : Group} {m : Mask} {pc : DWord} (h : Standing g m pc) : Standing (mergeAll g) m pc := by
  obtain ⟨p, hp, r⟩ := h
  have key : ∃ y ∈ ([] : List (Bool × Split)) ++ ((g.active.map fun p => (true, p)) ++ (g.parked.map fun p => (false, p))),
      y.2.mask &&& m = m ∧ y.2.pc = pc := by
    rcases List.mem_append.mp hp with hp | hp
    · exact ⟨(true, p), by simp [hp], r⟩
    · exact ⟨(false, p), by simp [hp], r⟩
  obtain ⟨y, hy, q⟩ := foldl_mergeInto_covers _ _ key
  refine ⟨y.2, ?_, q⟩
  unfold mergeAll
  obtain ⟨b, w⟩ := y
  cases b
  · apply List.mem_append_right
    simp only [List.mem_map, List.mem_filter]
    exact ⟨(false, w), ⟨hy, rfl⟩, rfl⟩
  · apply List.mem_append_left
    simp only [List.mem_map, List.mem_filter]
    exact ⟨(true, w), ⟨hy, rfl⟩, rfl⟩

/-! ## Promotion (R289 step 6) -/

theorem oldest_mem {l : List Split} {p : Split} (h : oldest l = some p) : p ∈ l := by
  have go : ∀ (l : List Split) (b : Option Split), l.foldl (fun best p => match best with
      | none => some p
      | some b => if p.age < b.age then some p else some b) b = some p → p ∈ l ∨ b = some p := by
    intro l
    induction l with
    | nil => intro b hb; exact .inr hb
    | cons x xs ih =>
      intro b hb
      rcases ih _ hb with h | h
      · exact .inl (List.mem_cons_of_mem _ h)
      · cases b with
        | none => simp only [Option.some.injEq] at h; subst h; exact .inl List.mem_cons_self
        | some b =>
          simp only at h
          split at h
          · simp only [Option.some.injEq] at h; subst h; exact .inl List.mem_cons_self
          · exact .inr h
  rcases go l none h with h | h
  · exact h
  · cases h

theorem youngest_mem {l : List Split} {p : Split} (h : youngest l = some p) : p ∈ l := by
  have go : ∀ (l : List Split) (b : Option Split), l.foldl (fun best p => match best with
      | none => some p
      | some b => if b.age < p.age then some p else some b) b = some p → p ∈ l ∨ b = some p := by
    intro l
    induction l with
    | nil => intro b hb; exact .inr hb
    | cons x xs ih =>
      intro b hb
      rcases ih _ hb with h | h
      · exact .inl (List.mem_cons_of_mem _ h)
      · cases b with
        | none => simp only [Option.some.injEq] at h; subst h; exact .inl List.mem_cons_self
        | some b =>
          simp only at h
          split at h
          · simp only [Option.some.injEq] at h; subst h; exact .inl List.mem_cons_self
          · exact .inr h
  rcases go l none h with h | h
  · exact h
  · cases h

theorem standing_promote (n : Nat) {g : Group} {m : Mask} {pc : DWord} (h : Standing g m pc) : Standing (promote n g) m pc := by
  induction n generalizing g with
  | zero => exact h
  | succ n ih =>
    unfold promote
    split
    · exact h
    · rename_i p hp
      have hpm := (List.mem_filter.mp (oldest_mem hp)).1
      simp only
      split
      · apply ih
        obtain ⟨q, hq, r⟩ := h
        refine ⟨q, ?_, r⟩
        by_cases e : q = p
        · subst e; simp
        · simp only [List.mem_append, List.mem_filter, List.mem_singleton, bne_iff_ne, ne_eq] at hq ⊢
          tauto
      · split
        · exact h
        · rename_i w hw
          apply ih
          obtain ⟨q, hq, r⟩ := h
          by_cases e2 : q = w
          · subst e2
            exact ⟨{ q with age := g.nextAge, run := 0 }, by simp, r⟩
          · refine ⟨q, ?_, r⟩
            by_cases e : q = p
            · subst e; simp
            · simp only [List.mem_append, List.mem_filter, List.mem_singleton, bne_iff_ne, ne_eq] at hq ⊢
              tauto

theorem standing_releasePending {g : Group} {m : Mask} {pc : DWord} (h : Standing g m pc) : Standing (releasePending g) m pc := by
  unfold releasePending
  split <;> exact h

/-- Steps 5 and 6 of R289, and the releases of R322, move no lane. -/
theorem standing_settle {g : Group} {m : Mask} {pc : DWord} (h : Standing g m pc) : Standing (settle g) m pc :=
  standing_releasePending (standing_promote 64 (standing_mergeAll h))

/-- A split that waits for nothing stays where it is while other splits' waits end (R289 step 4). -/
theorem standing_endOver {g : Group} {m : Mask} {pc : DWord}
    (h : ∃ p ∈ g.active ++ g.parked, p.wait = none ∧ p.mask &&& m = m ∧ p.pc = pc) : Standing (endOver g) m pc := by
  obtain ⟨p, hp, hw, hm, hpc⟩ := h
  have key : (match waitOver g p with
      | some d => { p with pc := p.pc + 12, wait := none, producers := countOn p.producers d }
      | none => p) = p := by simp [waitOver, hw]
  refine ⟨p, ?_, hm, hpc⟩
  unfold endOver
  simp only [List.mem_append, List.mem_map] at hp ⊢
  exact hp.imp (fun h => ⟨p, h, key⟩) (fun h => ⟨p, h, key⟩)

theorem standing_settleDue {g : Group} {m : Mask} {pc : DWord}
    (h : ∃ p ∈ g.active ++ g.parked, p.wait = none ∧ p.mask &&& m = m ∧ p.pc = pc) : Standing (settleDue g) m pc := by
  unfold settleDue
  split
  · obtain ⟨p, hp, -, r⟩ := h; exact ⟨p, hp, r⟩
  · exact standing_settle (standing_endOver h)

end Sys2Proof.Machine
end

