-- ==== Sys2Proof/Laws/Issue.lean ====
section
/-! SUPPORT. Issue.lean: what a native instruction that goes through does beside its own effect (R71, R75, R79, R289). -/

namespace Sys2Proof.Machine

/-! ## The checks -/

theorem minOf_nil : minOf [] = none := rfl

/-- With every condition met, the checks let the instruction through and change nothing. -/
theorem Clear.precheck {i : Instr} {s : State} {o : Op} {f : Fields} {v : View} (h : Clear i s o f v) :
    Machine.precheck i s v = .ok s := by
  unfold Machine.precheck
  simp [h.going, h.noRecord, h.running, h.legal, h.spaced, h.settled, h.mapped, h.quiet, h.present, h.clean, minOf_nil]

/-- No dead read leaves sr.dead as it is (R324); an instruction that is held without having issued keeps what its refills took. -/
theorem Clear.withDead {i : Instr} {s : State} {o : Op} {f : Fields} {v : View} (h : Clear i s o f v) (e : Effect)
    (hw : v.sp.wait.isSome = true → ∀ t, e ≠ .hold t) : e.withDead v = e := by
  have n (s : State) : noteDead v s = s := by simp [noteDead, h.mapped, minOf_nil]
  cases e <;> simp [Effect.withDead, n]
  rename_i t
  intro hs
  exact absurd rfl (hw hs t)

/-- Nobody has told the split that a page has no mapping. -/
theorem told_of {s : State} {sp : Split} (h : sp.denied = false) : s.told sp = s := by simp [State.told, h]
theorem untold_of {s : State} {k : Nat} {sp : Split} (h : sp.denied = false) : s.untold k sp = s := by simp [State.untold, h]

/-- A native instruction that nothing stops has its own effect. -/
theorem native_clear {i : Instr} {s : State} {o : Op} {f : Fields} {v : View} (h : Clear i s o f v)
    (body : Op → View → State → Effect) (hw : v.sp.wait.isSome = true → ∀ t, body o v s ≠ .hold t) :
    native i s body = .next (finish i o s v (body o v s)) := by
  unfold native
  simp only [h.fields, h.view, told_of h.untold, h.precheck, h.withDead _ hw, untold_of h.untold]

/-- The view is that of the state. -/
theorem Clear.group {i : Instr} {s : State} {o : Op} {f : Fields} {v : View} (h : Clear i s o f v) :
    v.k = s.curGroup ∧ s.group v.k = some v.g ∧ splitAt v.g s.curLane = some v.sp ∧ tget s.blocks v.g.blk = some v.b ∧
      v.act = activeLanes v.g v.sp o.ctl ∧ v.uses = usesOf i o f := by
  have hv := h.view
  unfold viewOf at hv
  simp only [Option.bind_eq_bind, Option.bind_eq_some_iff] at hv
  obtain ⟨g, hg, sp, hs, b, hb, hr⟩ := hv
  simp only [Option.pure_def, Option.some.injEq] at hr
  subst hr
  exact ⟨rfl, hg, hs, hb, rfl, rfl⟩

theorem splitAt_mem {g : Group} {l : Nat} {sp : Split} (h : splitAt g l = some sp) : sp ∈ g.active ++ g.parked := by
  unfold splitAt at h
  split at h
  · rename_i p hp
    cases h
    exact List.mem_append_left _ (List.mem_of_find?_eq_some hp)
  · exact List.mem_append_right _ (List.mem_of_find?_eq_some h)

/-! ## Groups but for their places -/

/-- Everything of a group but its registers and their storage, its splits and its place in the order of issue. -/
def SamePart (g h : Group) : Prop :=
  h = { g with regs := h.regs, hregs := h.hregs, spill := h.spill, active := h.active, parked := h.parked, nextAge := h.nextAge,
               rr := h.rr, passedSince := h.passedSince, aged := h.aged, holder := h.holder }

theorem SamePart.refl (g : Group) : SamePart g g := rfl

theorem SamePart.trans {a b c : Group} (h1 : SamePart a b) (h2 : SamePart b c) : SamePart a c := by
  unfold SamePart at *
  rw [h2, h1]

theorem samePart_promote (n : Nat) (g : Group) : SamePart g (promote n g) ∧ (promote n g).regs = g.regs ∧ (promote n g).hregs = g.hregs := by
  induction n generalizing g with
  | zero => exact ⟨SamePart.refl g, rfl, rfl⟩
  | succ n ih =>
    unfold promote
    split
    · exact ⟨SamePart.refl g, rfl, rfl⟩
    · simp only
      split
      · refine ⟨SamePart.trans ?_ (ih _).1, (ih _).2.1, (ih _).2.2⟩
        rfl
      · split
        · exact ⟨SamePart.refl g, rfl, rfl⟩
        · refine ⟨SamePart.trans ?_ (ih _).1, (ih _).2.1, (ih _).2.2⟩
          rfl

theorem samePart_releasePending (g : Group) : SamePart g (releasePending g) := by
  unfold releasePending
  split <;> rfl

theorem samePart_settle (g : Group) : SamePart g (settle g) := by
  unfold settle
  exact SamePart.trans (SamePart.trans (b := mergeAll g) rfl (samePart_promote 64 (mergeAll g)).1) (samePart_releasePending _)

theorem samePart_settleDue (g : Group) : SamePart g (settleDue g) := by
  unfold settleDue
  split
  · rfl
  · exact SamePart.trans (b := endOver g) rfl (samePart_settle _)

theorem pendReg_rest (g : Group) (n : Nat) : pendReg g n = { g with regs := (pendReg g n).regs, hregs := (pendReg g n).hregs } := by
  unfold pendReg
  simp only
  split <;> rfl

theorem samePart_releaseReg (g : Group) (n : Nat) : SamePart g (releaseReg g n) := by
  unfold releaseReg
  split
  · rfl
  · split
    · rw [pendReg_rest]; rfl
    · rw [putReg_rest]; rfl

theorem samePart_releaseRegs (g : Group) (ns : List Nat) : SamePart g (releaseRegs g ns) := by
  unfold releaseRegs
  induction ns generalizing g with
  | nil => rfl
  | cons n ns ih => exact SamePart.trans (samePart_releaseReg g n) (ih _)

theorem splits_releaseReg (g : Group) (n : Nat) : (releaseReg g n).active = g.active ∧ (releaseReg g n).parked = g.parked := by
  unfold releaseReg
  split
  · exact ⟨rfl, rfl⟩
  · split
    · rw [pendReg_rest]; exact ⟨rfl, rfl⟩
    · rw [putReg_rest]; exact ⟨rfl, rfl⟩

theorem splits_releaseRegs (g : Group) (ns : List Nat) : (releaseRegs g ns).active = g.active ∧ (releaseRegs g ns).parked = g.parked := by
  unfold releaseRegs
  induction ns generalizing g with
  | nil => exact ⟨rfl, rfl⟩
  | cons n ns ih =>
    obtain ⟨a, b⟩ := splits_releaseReg g n
    obtain ⟨c, d⟩ := ih (releaseReg g n)
    exact ⟨c.trans a, d.trans b⟩

/-! ## The issue itself -/

theorem group_modGroup (s : State) (k : Nat) (f : Group → Group) : (s.modGroup k f).group k = (s.group k).map f := by
  unfold State.group
  simp

theorem group_setDie (s : State) (d k : Nat) (f : Die → Die) : (s.setDie d f).group k = s.group k := by
  rw [setDie_eq]; rfl

theorem issuedNow_eq (s : State) (v : View) : issuedNow s v =
    { s with groups := (issuedNow s v).groups, dies := (issuedNow s v).dies, issued := true } := by
  unfold issuedNow State.setDie
  simp only
  split <;> rfl

/-- The issuing group in its new place, without the storage that its refills had taken (R306, R328). -/
def placed (top : Nat) (v : View) (g : Group) : Group :=
  { g with rr := top, aged := false, passedSince := none, holder := if v.holder.isSome then none else g.holder }

theorem issuedNow_group {s : State} {v : View} {g : Group} (hg : s.group v.k = some g) :
    ∃ top, (issuedNow s v).group v.k = some (placed top v g) := by
  have h : (s.setDie (dieOf v.k) fun d => { d with clk := max d.clk v.sp.notBefore }).group v.k = some g := by
    rw [group_setDie, hg]
  refine ⟨((s.setDie (dieOf v.k) fun d => { d with clk := max d.clk v.sp.notBefore }).groups.filter
    fun e => partOf e.1 == partOf v.k).foldl (fun m e => max m e.2.rr) 0 + 1, ?_⟩
  have e : (issuedNow s v).group v.k =
      ((toBack (s.setDie (dieOf v.k) fun d => { d with clk := max d.clk v.sp.notBefore }) v.k).modGroup v.k
        fun g => { g with holder := if v.holder.isSome then none else g.holder }).group v.k := rfl
  rw [e, group_modGroup, toBack, group_modGroup, h]
  rfl

/-- The issuing group with its run counts, STALL spacing and producers (R79, R80, R291). -/
def marked (v : View) (prods : List Producer) (next : Nat) (g : Group) : Group :=
  let busy := othersReady g v.sp.mask
  { g with
    active := g.active.map fun p =>
      if p.mask == v.sp.mask then
        { p with run := if busy then p.run + 1 else p.run, deferred := false, notBefore := next, producers := prods,
                 deadline := none, reread := false, stalled := false, page := none, denied := false, faults := 0 }
      else { p with run := 0 } }

theorem markIssue_eq (o : Op) (v : View) (prods : List Producer) (s : State) : markIssue o v prods s =
    { s with groups := (markIssue o v prods s).groups, dies := (markIssue o v prods s).dies, issued := true } := by
  have := issuedNow_eq (s.modGroup v.k (marked v prods (nextIssue s v o))) v
  exact this

/-- What markIssue makes of the issuing group: its split is marked, and the group stands last in its level. -/
theorem markIssue_group {o : Op} {v : View} {prods : List Producer} {s : State} {g : Group} (hg : s.group v.k = some g) :
    ∃ top, (markIssue o v prods s).group v.k = some (placed top v (marked v prods (nextIssue s v o) g)) := by
  refine issuedNow_group (s := s.modGroup v.k (marked v prods (nextIssue s v o))) ?_
  rw [group_modGroup, hg]
  rfl

theorem marked_splits {v : View} {prods : List Producer} {next : Nat} {g : Group} {m : Mask} {pc : DWord}
    (h : ∃ p ∈ g.active ++ g.parked, p.mask = m ∧ p.pc = pc) :
    ∃ q ∈ (marked v prods next g).active ++ (marked v prods next g).parked, q.mask = m ∧ q.pc = pc := by
  obtain ⟨p, hp, hm, hc⟩ := h
  rcases List.mem_append.mp hp with hp | hp
  · refine ⟨_, List.mem_append_left _ (List.mem_map_of_mem hp), ?_, ?_⟩
    · split <;> exact hm
    · split <;> exact hc
  · exact ⟨p, List.mem_append_right _ hp, hm, hc⟩

theorem updSplit_splits {g : Group} {mask : Mask} {f : Split → Split} (hf : ∀ p, (f p).mask = p.mask ∧ (f p).pc = p.pc) {m : Mask} {pc : DWord}
    (h : ∃ p ∈ g.active ++ g.parked, p.mask = m ∧ p.pc = pc) :
    ∃ q ∈ (updSplit g mask f).active ++ (updSplit g mask f).parked, q.mask = m ∧ q.pc = pc := by
  obtain ⟨p, hp, hm, hc⟩ := h
  refine ⟨if p.mask == mask then f p else p, ?_, ?_, ?_⟩
  · unfold updSplit
    rcases List.mem_append.mp hp with hp | hp
    · exact List.mem_append_left _ (List.mem_map_of_mem hp)
    · exact List.mem_append_right _ (List.mem_map_of_mem hp)
  · split
    · rw [(hf p).1]; exact hm
    · exact hm
  · split
    · rw [(hf p).2]; exact hc
    · exact hc

/-- A wait that has ended holds no registers, and its split's producers are counted past it. -/
def waited (v : View) (prods : List Producer) (g : Group) : Group :=
  updSplit { g with holder := if v.holder.isSome then none else g.holder } v.sp.mask fun p =>
    { p with producers := prods, reread := false }

/-- The end of a wait (R289 step 4). -/
theorem markWaited_group {v : View} {prods : List Producer} {s : State} {g : Group} (hg : s.group v.k = some g) :
    (markWaited v prods s).group v.k = some (waited v prods g) := by
  have e : (markWaited v prods s).group v.k = ((dropHolder s v).modGroup v.k fun g => updSplit g v.sp.mask fun p =>
      { p with producers := prods, reread := false }).group v.k := rfl
  rw [e, group_modGroup, dropHolder, group_modGroup, hg]
  rfl

/-- The state before the split goes on: released registers, and the mark of the issue. -/
theorem releaseUses_spec {s : State} {v : View} {g : Group} (hg : s.group v.k = some g) :
    releaseUses s v = { s with groups := (releaseUses s v).groups } ∧
    (releaseUses s v).group v.k = some (releaseRegs g (v.uses.lus.filter fun n => v.act = 0 || !(v.uses.writes.contains n))) := by
  refine ⟨rfl, ?_⟩
  unfold releaseUses
  rw [group_modGroup, hg]
  rfl

/-- A split that is changed and waits for nothing stands where the change puts it. -/
theorem standing_upd {g : Group} {sp : Split} (h : sp ∈ g.active ++ g.parked) (f : Split → Split) :
    ∀ pc, (f sp).pc = pc → (f sp).mask = sp.mask → (f sp).wait = none →
      ∃ p ∈ (updSplit g sp.mask f).active ++ (updSplit g sp.mask f).parked, p.wait = none ∧ p.mask &&& sp.mask = sp.mask ∧ p.pc = pc := by
  intro pc hpc hm hw
  refine ⟨f sp, ?_, hw, ?_, hpc⟩
  · unfold updSplit
    rcases List.mem_append.mp h with h | h
    · apply List.mem_append_left
      exact List.mem_map.mpr ⟨sp, h, by simp⟩
    · apply List.mem_append_right
      exact List.mem_map.mpr ⟨sp, h, by simp⟩
  · rw [hm]; exact BitVec.and_self

/-- What the issue or the end of the wait leaves of the group before its split goes on: its lanes where they stood. -/
theorem before_advance {o : Op} {v : View} {prods : List Producer} {s : State} {g : Group} (hg : s.group v.k = some g)
    (hs : ∃ p ∈ g.active ++ g.parked, p.mask = v.sp.mask ∧ p.pc = v.sp.pc) :
    let t := if v.sp.wait.isSome then markWaited v prods s else markIssue o v prods s
    t = { s with groups := t.groups, dies := t.dies, issued := true } ∧
    ∃ h, t.group v.k = some h ∧ SamePart g h ∧ ∃ p ∈ h.active ++ h.parked, p.mask = v.sp.mask ∧ p.pc = v.sp.pc := by
  intro t
  by_cases hw : v.sp.wait.isSome
  · have ht : t = markWaited v prods s := if_pos hw
    rw [ht]
    refine ⟨rfl, _, markWaited_group hg, rfl, updSplit_splits (mask := v.sp.mask) (f := fun p => { p with producers := prods, reread := false })
      (fun _ => ⟨rfl, rfl⟩) hs⟩
  · have ht : t = markIssue o v prods s := if_neg hw
    rw [ht]
    obtain ⟨top, h⟩ := markIssue_group (o := o) (prods := prods) hg
    exact ⟨markIssue_eq o v prods s, _, h, rfl, marked_splits hs⟩

/-- An instruction whose effect is done leaves: its split at the next word, its LU releases, clocks; and of the effect's state
nothing else changes. -/
theorem finish_done_spec {i : Instr} {o : Op} {s0 s : State} {v : View} {g : Group} (hg : s.group v.k = some g)
    (hs : ∃ p ∈ g.active ++ g.parked, p.mask = v.sp.mask ∧ p.pc = v.sp.pc) :
    finish i o s0 v (.done s) = { s with
      groups := (finish i o s0 v (.done s)).groups, dies := (finish i o s0 v (.done s)).dies, issued := true } ∧
    Advances (finish i o s0 v (.done s)) v ∧
    ∃ h, (finish i o s0 v (.done s)).group v.k = some h ∧ SamePart g h := by
  obtain ⟨r1, r2⟩ := releaseUses_spec (v := v) hg
  have hr := splits_releaseRegs g (v.uses.lus.filter fun n => v.act = 0 || !(v.uses.writes.contains n))
  have hsp := samePart_releaseRegs g (v.uses.lus.filter fun n => v.act = 0 || !(v.uses.writes.contains n))
  unfold finish
  simp only
  generalize hpr : nextProducers (((i.form).map (·.1)).getD 0) o v.uses v.act v.sp.producers = prods
  obtain ⟨m2, x, m3, m4, q, hq, hqm, hqc⟩ := before_advance (o := o) (prods := prods) r2 (by rw [hr.1, hr.2]; exact hs)
  generalize (if v.sp.wait.isSome then markWaited v prods (releaseUses s v) else markIssue o v prods (releaseUses s v)) = y at m2 m3 ⊢
  have g1 : (y.modGroup v.k fun g => settleDue (updSplit g v.sp.mask fun p => { p with pc := p.pc + 12, wait := none })).group v.k =
      some (settleDue (updSplit x v.sp.mask fun p => { p with pc := p.pc + 12, wait := none })) := by
    rw [group_modGroup, m3]; rfl
  refine ⟨?_, ⟨?_, _, g1, ?_⟩, _, g1, ?_⟩
  · rw [m2, r1]
    rfl
  · rw [m2]
    rfl
  · have := standing_upd hq (fun p => { p with pc := p.pc + 12, wait := none }) (v.sp.pc + 12) (by simp [hqc]) rfl rfl
    rw [hqm] at this
    exact standing_settleDue this
  · exact SamePart.trans hsp (SamePart.trans m4 (SamePart.trans (b := updSplit x v.sp.mask _) rfl (samePart_settleDue _)))

/-! ## Writing results -/

/-- Only registers and spill areas of groups differ: in group k those that were written, in the others marks of storage. -/
structure WroteRegs (s t : State) (k : Nat) : Prop where
  rest : t = { s with groups := t.groups }
  own : ∀ g, s.group k = some g → ∃ h, t.group k = some h ∧ h = { g with regs := h.regs, hregs := h.hregs, spill := h.spill }

theorem WroteRegs.refl (s : State) (k : Nat) : WroteRegs s s k := ⟨rfl, fun g hg => ⟨g, hg, rfl⟩⟩

theorem WroteRegs.trans {a b c : State} {k : Nat} (h1 : WroteRegs a b k) (h2 : WroteRegs b c k) : WroteRegs a c k := by
  refine ⟨by rw [h2.rest, h1.rest], ?_⟩
  intro g hg
  obtain ⟨x, hx, ex⟩ := h1.own g hg
  obtain ⟨y, hy, ey⟩ := h2.own x hx
  exact ⟨y, hy, by rw [ey, ex]⟩

theorem wroteRegs_of_seen {s t : State} {k : Nat} (h : GroupsSeen s t) : WroteRegs s t k := by
  refine ⟨h.1, ?_⟩
  intro g hg
  have := h.2 k
  rw [hg] at this
  cases ht : t.group k with
  | none => simp [ht] at this
  | some x => exact ⟨x, rfl, by simp only [ht] at this; exact this.1⟩

theorem wroteRegs_modGroup {s : State} {k : Nat} {f : Group → Group}
    (h : ∀ g, f g = { g with regs := (f g).regs, hregs := (f g).hregs, spill := (f g).spill }) : WroteRegs s (s.modGroup k f) k := by
  refine ⟨rfl, ?_⟩
  intro g hg
  refine ⟨f g, ?_, h g⟩
  rw [group_modGroup, hg]
  rfl

theorem putReg_rest' (g : Group) (n : Nat) (r : Option Reg) :
    putReg g n r = { g with regs := (putReg g n r).regs, hregs := (putReg g n r).hregs, spill := (putReg g n r).spill } := by
  unfold putReg
  simp only
  split <;> rfl

theorem wroteRegs_writeReg (s : State) (k : Nat) (nm : Naming) (act : Mask) (nom : Nominal) (n : Nat) (new : Nat → Word) :
    WroteRegs s (writeReg s k nm act nom n new) k := by
  unfold writeReg
  split
  · exact WroteRegs.refl s k
  · split
    · exact WroteRegs.refl s k
    · exact (wroteRegs_of_seen (groupsSeen_obtainFor s k nm _)).trans (wroteRegs_modGroup fun g => putReg_rest' g n _)

theorem joinPair_rest (g : Group) (n : Nat) : joinPair g n = { g with regs := (joinPair g n).regs, hregs := (joinPair g n).hregs } := by
  unfold joinPair
  split
  · split
    · simp only
      split <;> rfl
    · rfl
  · rfl

theorem putRegs_rest (l : List (Nat × Reg)) (n : Nat) (g : Group) :
    l.foldl (fun g x => putReg g (n + x.1) (some x.2)) g = { g with
      regs := (l.foldl (fun g x => putReg g (n + x.1) (some x.2)) g).regs
      hregs := (l.foldl (fun g x => putReg g (n + x.1) (some x.2)) g).hregs
      spill := (l.foldl (fun g x => putReg g (n + x.1) (some x.2)) g).spill } := by
  induction l generalizing g with
  | nil => rfl
  | cons x l ih =>
    rw [List.foldl_cons, ih, putReg_rest]

theorem wroteRegs_writeWide (s : State) (k : Nat) (nm : Naming) (act : Mask) (uni : Bool) (m n : Nat) (new : Nat → BitVec 128) :
    WroteRegs s (writeWide s k nm act uni m n new) k := by
  unfold writeWide
  split
  · exact WroteRegs.refl s k
  · split
    · exact WroteRegs.refl s k
    · refine (wroteRegs_of_seen (groupsSeen_obtainFor s k nm _)).trans (wroteRegs_modGroup ?_)
      intro g
      simp only
      generalize ((List.range m).zip _ : List (Nat × Reg)) = l
      have e := putRegs_rest l n g
      generalize l.foldl (fun g x => putReg g (n + x.1) (some x.2)) g = h at e ⊢
      split
      · split
        · rw [joinPair_rest, joinPair_rest h n, e]
        · rw [joinPair_rest, e]
      · exact e

/-- WriteDst writes registers of its group, and nothing else (R85). -/
theorem wroteRegs_writeVal (s : State) (v : View) (t : Ty) (nom : Nominal) (d : Dst) (x : Nat → DWord) :
    WroteRegs s (writeVal s v t nom d x) v.k := by
  unfold writeVal
  split
  · split
    · exact wroteRegs_writeWide _ _ _ _ _ _ _ _
    · exact wroteRegs_writeReg _ _ _ _ _ _ _
  · exact WroteRegs.refl s v.k

/-- A predicate write changes that predicate of the group in the active lanes (R73, R75). -/
theorem writePred_eq (s : State) (v : View) (d : Dst) (x : Nat → Bool) :
    writePred s v d x = { s with groups := (writePred s v d x).groups } := by
  unfold writePred
  split
  · split <;> rfl
  · rfl

theorem writePred_group {s : State} {v : View} (d : Dst) (x : Nat → Bool) {g : Group} (hg : s.group v.k = some g) :
    ∃ h, (writePred s v d x).group v.k = some h ∧ h = { g with preds := h.preds } := by
  unfold writePred
  split
  · split
    · exact ⟨g, hg, rfl⟩
    · rename_i k _
      refine ⟨{ g with preds := g.preds.set k ((g.preds[k] &&& ~~~v.act) ||| (maskOf x &&& v.act)) }, ?_, rfl⟩
      rw [group_modGroup, hg]
      rfl
  · exact ⟨g, hg, rfl⟩

/-- An effect that keeps the issuing group's splits and changes nothing but groups. -/
structure OnGroup (s t : State) (k : Nat) : Prop where
  rest : t = { s with groups := t.groups }
  own : ∀ g, s.group k = some g → ∃ h, t.group k = some h ∧ h = { g with regs := h.regs, hregs := h.hregs, spill := h.spill, preds := h.preds }

theorem OnGroup.refl (s : State) (k : Nat) : OnGroup s s k := ⟨rfl, fun g hg => ⟨g, hg, rfl⟩⟩

theorem onGroup_writeVal (s : State) (v : View) (t : Ty) (nom : Nominal) (d : Dst) (x : Nat → DWord) :
    OnGroup s (writeVal s v t nom d x) v.k := by
  have w := wroteRegs_writeVal s v t nom d x
  refine ⟨w.rest, ?_⟩
  intro g hg
  obtain ⟨h, h1, h2⟩ := w.own g hg
  exact ⟨h, h1, by rw [h2]⟩

theorem onGroup_writePred (s : State) (v : View) (d : Dst) (x : Nat → Bool) : OnGroup s (writePred s v d x) v.k := by
  refine ⟨writePred_eq s v d x, ?_⟩
  intro g hg
  obtain ⟨h, h1, h2⟩ := writePred_group d x hg
  exact ⟨h, h1, by rw [h2]⟩

/-- An instruction that goes through with such an effect: it advances, and beside groups, clocks and the model's own mark nothing
has changed. -/
theorem clear_done {i : Instr} {s t : State} {o : Op} {f : Fields} {v : View} (h : Clear i s o f v) (e : OnGroup s t v.k) :
    Advances (finish i o s v (.done t)) v ∧
    finish i o s v (.done t) = { s with
      groups := (finish i o s v (.done t)).groups, dies := (finish i o s v (.done t)).dies, issued := true } ∧
    ∃ x, (finish i o s v (.done t)).group v.k = some x ∧ SamePart { v.g with preds := x.preds } x := by
  obtain ⟨_, hg, hs, _, _, _⟩ := h.group
  obtain ⟨g', hg', e'⟩ := e.own _ hg
  have hsp : ∃ p ∈ g'.active ++ g'.parked, p.mask = v.sp.mask ∧ p.pc = v.sp.pc := by
    refine ⟨v.sp, ?_, rfl, rfl⟩
    rw [e']
    exact splitAt_mem hs
  obtain ⟨a, b, x, hx, c⟩ := finish_done_spec (i := i) (o := o) (s0 := s) hg' hsp
  refine ⟨b, ?_, x, hx, ?_⟩
  · generalize finish i o s v (.done t) = y at a ⊢
    rw [a, e.rest]
  · have d : SamePart { v.g with preds := x.preds } { g' with preds := x.preds } := by
      unfold SamePart
      rw [e']
    have c' : SamePart { g' with preds := x.preds } x := by
      unfold SamePart at *
      rw [c]
    exact d.trans c'

end Sys2Proof.Machine
end

