-- ==== Sys2Proof/Laws/Memory.lean ====
section
/-! SUPPORT. Memory.lean: reading memory after writing it, and the canonical form, which every memory operation keeps. -/

namespace Sys2Proof.Machine

theorem memByte_below {m : Memory} {lo : Nat} (h : memWfFrom lo m = true) {k : Nat} (hk : k < lo) : memByte m k = memDefault := by
  cases m with
  | nil => rfl
  | cons c r =>
    obtain ⟨j, b⟩ := c
    simp only [memWfFrom, Bool.and_eq_true, decide_eq_true_eq] at h
    have h1 : j ≠ k := by omega
    have h2 : k < j := by omega
    simp [memByte, h1, h2]

theorem memWfFrom_mono {m : Memory} {lo hi : Nat} (h : memWfFrom hi m = true) (hle : lo ≤ hi) : memWfFrom lo m = true := by
  cases m with
  | nil => rfl
  | cons c r =>
    obtain ⟨j, b⟩ := c
    simp only [memWfFrom, Bool.and_eq_true, decide_eq_true_eq] at h ⊢
    exact ⟨⟨by omega, h.1.2⟩, h.2⟩

theorem memWfFrom_memPut {m : Memory} {lo k : Nat} (b : Byte) (h : memWfFrom lo m = true) (hk : lo ≤ k) :
    memWfFrom lo (memPut m k b) = true := by
  induction m generalizing lo with
  | nil =>
    unfold memPut
    split <;> simp_all [memWfFrom]
  | cons c r ih =>
    obtain ⟨j, x⟩ := c
    simp only [memWfFrom, Bool.and_eq_true, decide_eq_true_eq] at h
    obtain ⟨⟨h1, h2⟩, h3⟩ := h
    unfold memPut
    split
    · split
      · simp [memWfFrom, h1, h2, h3]
      · simp_all [memWfFrom]
    · split
      · split
        · exact memWfFrom_mono h3 (by omega)
        · simp_all [memWfFrom]
      · simp only [memWfFrom, Bool.and_eq_true, decide_eq_true_eq]
        exact ⟨⟨h1, h2⟩, ih h3 (by omega)⟩

/-- Writing a byte keeps the canonical form. -/
theorem wf_memPut {m : Memory} (k : Nat) (b : Byte) (h : Memory.wf m = true) : Memory.wf (memPut m k b) = true :=
  memWfFrom_memPut b h (Nat.zero_le k)

theorem wf_memWrite {m : Memory} (k : Nat) (bs : List Byte) (h : Memory.wf m = true) : Memory.wf (memWrite m k bs) = true := by
  induction bs generalizing m k with
  | nil => exact h
  | cons b bs ih => exact ih (k + 1) (wf_memPut k b h)

theorem memWfFrom_filter {m : Memory} {lo : Nat} (p : Host.Cell → Bool) (h : memWfFrom lo m = true) :
    memWfFrom lo (m.filter p) = true := by
  induction m generalizing lo with
  | nil => rfl
  | cons c r ih =>
    obtain ⟨j, x⟩ := c
    simp only [memWfFrom, Bool.and_eq_true, decide_eq_true_eq] at h
    obtain ⟨⟨h1, h2⟩, h3⟩ := h
    by_cases hp : p (j, x) = true
    · simp only [List.filter_cons, hp, ↓reduceIte, memWfFrom, Bool.and_eq_true, decide_eq_true_eq]
      exact ⟨⟨h1, h2⟩, ih h3⟩
    · simp only [List.filter_cons, hp, Bool.false_eq_true, ↓reduceIte]
      exact memWfFrom_mono (ih h3) (by omega)

theorem wf_filter {m : Memory} (p : Host.Cell → Bool) (h : Memory.wf m = true) : Memory.wf (m.filter p) = true :=
  memWfFrom_filter p h

theorem wf_memClear {m : Memory} (lo n : Nat) (h : Memory.wf m = true) : Memory.wf (memClear m lo n) = true := wf_filter _ h

theorem wf_copyRange {m : Memory} (src dst n : Nat) (h : Memory.wf m = true) : Memory.wf (copyRange m src dst n) = true := by
  have go : ∀ (l : List Host.Cell) (x : Memory), Memory.wf x = true →
      Memory.wf (l.foldl (fun m c => memPut m (c.1 - src + dst) c.2) x) = true := by
    intro l
    induction l with
    | nil => intro x hx; exact hx
    | cons c l ih => intro x hx; exact ih _ (wf_memPut _ _ hx)
  exact go _ _ (wf_memClear dst n h)

/-- Reading a byte after writing one, in canonical memory. -/
theorem memByte_memPut {m : Memory} {lo : Nat} (h : memWfFrom lo m = true) (k j : Nat) (b : Byte) :
    memByte (memPut m k b) j = if j = k then b else memByte m j := by
  induction m generalizing lo with
  | nil =>
    unfold memPut
    by_cases hb : b = memDefault
    · simp [hb, memByte]
    · simp only [hb, ↓reduceIte, memByte]
      by_cases hj : j = k
      · simp [hj]
      · simp [hj, Ne.symm hj]
  | cons c r ih =>
    obtain ⟨i, x⟩ := c
    simp only [memWfFrom, Bool.and_eq_true, decide_eq_true_eq] at h
    obtain ⟨⟨h1, h2⟩, h3⟩ := h
    unfold memPut
    split
    · rename_i hki
      by_cases hb : b = memDefault
      · simp only [hb, ↓reduceIte]
        by_cases hj : j = k
        · subst hj
          have : i ≠ j := by omega
          simp [memByte, this, hki]
        · simp [hj]
      · simp only [hb, ↓reduceIte]
        by_cases hj : j = k
        · subst hj; simp [memByte]
        · by_cases hjk : j < k
          · have : i ≠ j := by omega
            have h' : j < i := by omega
            simp [memByte, hj, Ne.symm hj, hjk, this, h']
          · simp [memByte, hj, Ne.symm hj, hjk]
    · split
      · rename_i hki hk
        subst hk
        by_cases hb : b = memDefault
        · simp only [hb, ↓reduceIte]
          by_cases hj : j = k
          · subst hj
            simp [memByte_below h3 (Nat.lt_succ_self j)]
          · by_cases hjk : j < k
            · simp [memByte, hj, Ne.symm hj, hjk, memByte_below h3 (show j < k + 1 by omega)]
            · simp [memByte, hj, Ne.symm hj, hjk]
        · simp only [hb, ↓reduceIte]
          by_cases hj : j = k
          · subst hj; simp [memByte]
          · simp [memByte, hj, Ne.symm hj]
      · rename_i hki hk
        by_cases hj : j = i
        · subst hj
          simp [memByte, Ne.symm hk]
        · simp only [memByte, Ne.symm hj, ↓reduceIte]
          by_cases hji : j < i
          · have : j ≠ k := by omega
            simp [hji, this]
          · simp only [hji, ↓reduceIte]
            exact ih h3

/-- A write gives its bytes inside its range and leaves every other byte alone. -/
theorem memByte_memWrite {m : Memory} (h : Memory.wf m = true) (k : Nat) (bs : List Byte) (j : Nat) :
    memByte (memWrite m k bs) j = if k ≤ j ∧ j < k + bs.length then bs.getD (j - k) 0 else memByte m j := by
  induction bs generalizing m k with
  | nil =>
    simp [memWrite]
  | cons b bs ih =>
    rw [memWrite, ih (wf_memPut k b h), memByte_memPut h]
    by_cases h1 : k + 1 ≤ j ∧ j < k + 1 + bs.length
    · have h2 : k ≤ j ∧ j < k + (b :: bs).length := by simp only [List.length_cons]; omega
      rw [if_pos h1, if_pos h2]
      have h3 : j - k = (j - (k + 1)) + 1 := by omega
      rw [h3]
      simp
    · rw [if_neg h1]
      by_cases hj : j = k
      · subst hj
        simp
      · have h2 : ¬(k ≤ j ∧ j < k + (b :: bs).length) := by simp only [List.length_cons]; omega
        rw [if_neg hj, if_neg h2]

/-- A write outside a range leaves what is read there. -/
theorem memByte_memWrite_other {m : Memory} (h : Memory.wf m = true) {k : Nat} {bs : List Byte} {j : Nat}
    (hj : j < k ∨ k + bs.length ≤ j) : memByte (memWrite m k bs) j = memByte m j := by
  rw [memByte_memWrite h, if_neg (by omega)]

theorem memRead_length (m : Memory) (k n : Nat) : (memRead m k n).length = n := by
  induction n generalizing k with
  | zero => rfl
  | succ n ih => simp [memRead, ih]

theorem memRead_memWrite {m : Memory} (h : Memory.wf m = true) (k : Nat) (bs : List Byte) :
    memRead (memWrite m k bs) k bs.length = bs := by
  have go : ∀ (n j : Nat) (tail : List Byte), tail.length = n → (∀ i, i < n → memByte (memWrite m k bs) (j + i) = tail.getD i 0) →
      memRead (memWrite m k bs) j n = tail := by
    intro n
    induction n with
    | zero => intro j tail ht _; simp [memRead, List.length_eq_zero_iff.mp ht]
    | succ n ih =>
      intro j tail ht hb
      cases tail with
      | nil => simp at ht
      | cons b t =>
        have h0 := hb 0 (by omega)
        simp only [Nat.add_zero, List.getD_cons_zero] at h0
        rw [memRead, h0, ih (j + 1) t (by simpa using ht)]
        intro i hi
        have := hb (i + 1) (by omega)
        simp only [List.getD_cons_succ] at this
        rw [← this]
        congr 1
        omega
  apply go bs.length k bs rfl
  intro i hi
  rw [memByte_memWrite h, if_pos (by omega)]
  congr 1
  omega

/-! ## The operations of a state -/

theorem writeBytes_mem (s : State) (k : Nat) (bs : List Byte) : (s.writeBytes k bs).mem = memWrite s.mem k bs := by
  unfold State.writeBytes
  cases bs with
  | nil => simp [memWrite]
  | cons b bs => simp

theorem wf_writeBytes {s : State} (k : Nat) (bs : List Byte) (h : Memory.wf s.mem = true) : Memory.wf (s.writeBytes k bs).mem = true := by
  rw [writeBytes_mem]; exact wf_memWrite k bs h

theorem wf_reset : Memory.wf State.reset.mem = true := rfl

end Sys2Proof.Machine
end

