-- ==== Sys2Proof/Tests/Slice0.lean ====
section
/-! SUPPORT. Slice0.lean: small tests. Words are written out from spec/04_instruction_format.md and spec/05_opcode_map.md. The
theorems wit_… show, for each statement of Obligations.lean, a state and operands that meet its hypotheses together. -/

namespace Sys2Proof.Tests

open Sys2Proof Sys2Proof.Machine

/-! ## Short names -/

def cl : Ctl := { gp := 0, gn := false, stall := 0, yl := false }
def rg (n : Nat) : Src := { sel := .reg (Fin.ofNat 128 n), neg := false, lu := false }
def un : Src := rg 0
def im : Src := { sel := .imm, neg := false, lu := false }
def ze : Src := { sel := .zero, neg := false, lu := false }
def pr (n : Nat) : Src := { sel := .pred (Fin.ofNat 8 n), neg := false, lu := false }
def mk (ty : Ty) (d : Dst) (a b c : Src := un) (imm : Word := 0) : Op := { ctl := cl, ty := ty, dst := d, a := a, b := b, c := c, imm := imm }
def bare (n : Word) : Op := mk .none .none (imm := n)
def v2 : Dst := .vec 2
def i2 : Op := mk .i32 v2 (rg 4) (rg 5)
def f2 : Op := mk .f32 v2 (rg 4) (rg 5)
def f1 : Op := mk .f32 v2 (rg 4)
def nab : Abs := ⟨false, false, false⟩

/-! ## Decoding: words written out from the manual's encodings -/

theorem test_decode_iadd : decodeWord 0x00000064_20008941_CE0B6000#96 =
    .ok (.iadd false { ctl := { gp := 3, gn := true, stall := 2, yl := false }, ty := .i32, dst := .vec 5, a := { rg 7 with lu := true },
                       b := im, c := un, imm := 100 }) := by decide

def last (n : Nat) : Src := { rg n with lu := true }

theorem test_decode_shr : decodeWord 0x00000004_00008900_C604008C#96 = .ok (.shr (mk .b32 v2 (rg 3) im un 4)) := by decide

theorem test_decode_icmp : decodeWord 0x00000000_0A048B01_0F040513#96 =
    .ok (.icmp .lt .and (mk .i32 (.pred 2) (rg 4) { sel := .lane, neg := false, lu := false } { pr 1 with neg := true })) := by decide

theorem test_decode_ffma : decodeWord 0x3F000000_02290280_56100123#96 =
    .ok (.ffma ⟨false, true, false⟩ (mk .f32 (.vec 8) { rg 1 with neg := true } (last 2) { sel := .fimm, neg := false, lu := false }
      0x3F000000)) := by decide

theorem test_decode_fsinpi : decodeWord 0x00000000_00000046_961E02B0#96 = .ok (.fsinpi (mk .f32 (.vec 15) (last 26))) := by decide

theorem test_decode_lxch : decodeWord 0x00000001_00008942_061201B8#96 = .ok (.lxch .flip (mk .b32 (.vec 9) (last 8) im un 1)) := by decide

theorem test_decode_bra : decodeWord 0xFFFFFFDC_80000000_01FE4040#96 =
    .ok (.bra { bare 0xFFFFFFDC with ctl := { gp := 2, gn := false, stall := 0, yl := true } }) := by decide

theorem test_decode_swait : decodeWord 0x00000000_00012446_91FE02CB#96 = .ok (.swait .ge (mk .i64 .none (last 26) (last 36))) := by decide

theorem test_decode_st : decodeWord 0x00001000_00008840_81FE0451#96 = .ok (.st false .w32 .own (mk .none .none (last 2) ze un 0x1000)) := by
  decide

theorem test_decode_ld : decodeWord 0x000000B0_0000004E_80580850#96 = .ok (.ld false .w128 .own (mk .none (.vec 44) (last 58) un un 0xB0)) := by
  decide

theorem test_decode_cas : decodeWord 0x04000008_04140300_860C1C60#96 =
    .ok (.atom .cas .ar (mk .b32 (.vec 6) (rg 2) (rg 3) (last 5) 0x04000008)) := by decide

theorem test_decode_frz : decodeWord 0x00000008_00010600_81020263#96 = .ok (.frz false (mk .none (.pred 1) (rg 2) (last 6) un 8)) := by
  decide

theorem test_decode_cpy : decodeWord 0x00000000_00000040_81FE02E8#96 = .ok (.cpy false true .d2 (mk .none .none (last 2))) := by decide

theorem test_decode_mld : decodeWord 0x00000084_00002045_29FE0071#96 = .ok (.mld .same .stream (mk .kf4 .none (last 20) (rg 32) un 0x84)) := by
  decide

theorem test_decode_mmas : decodeWord 0x00000540_00000000_01FE0475#96 = .ok (.mmas .kf4 (bare 0x540)) := by decide

/-! ## Ill-formed terms that the check refuses -/

/-- A guard is always a predicate, so what can be wrong are the other fields: a type the instruction does not take, an odd pair, LU on
no register, an unused field in use, NEG where it is not accepted, a predicate destination, an immediate out of range. -/
theorem test_wf_refuses :
    ([.iadd false (mk .f32 v2 (rg 4) (rg 5)), .iadd false (mk .i64 (.vec 3) (rg 4) (rg 6)), .iadd false (mk .i64 v2 (rg 5) (rg 6)),
      .iadd false (mk .i32 v2 { im with lu := true } (rg 5)), .iadd false (mk .i32 v2 (rg 4) (rg 5) (rg 6)),
      .mkaff (mk .b32 v2 { rg 4 with neg := true } (rg 5)), .iadd false (mk .i32 (.pred 1) (rg 4) (rg 5)),
      .iadd false (mk .i32 v2 (rg 4) (rg 5) un 7), .bra (bare 6), .ld false .w128 .own (mk .none (.vec 5) (rg 4)),
      .mma .bf16 (bare 0x10841), .atom .fadd .rlx (mk .i64 v2 (rg 4) (rg 6) un 0x04000000)] : List Instr).all
      (fun i => !i.wf) = true := by decide

/-! ## States -/

/-- A machine as withFetchWord leaves it, whose split is about to issue; the registers given hold these uniform values. -/
def at0 (regs : List (Nat × Word)) : State :=
  ((State.reset.withFetchWord 96 0).at 0 0).modGroup 0 fun g => { g with regs := regs.map fun x => (x.1, { val := .uniform x.2 }) }

/-- The same with lane 0 alone left. -/
def one (s : State) : State :=
  s.modGroup 0 fun g => { g with active := g.active.map fun p => { p with mask := 1 }, ended := ~~~1 }

/-- The same with 4 KiB of scratchpad. -/
def pad (s : State) : State :=
  { s with blocks := tmod s.blocks 0 fun b => { b with scrSize := 4096 }
           clusters := tmod s.clusters 0 fun c => { c with members := [(0, 0, 4096)] } }

/-- The group in trap handler mode. -/
def inHandler (s : State) : State := s.modGroup 0 fun g => { g with handler := true, m0 := fullMask }

def r47 : List (Nat × Word) := [(4, 0x40), (5, 0), (6, 0x10), (7, 0)]
def plain : State := at0 r47
/-- v4, v5 name byte 0x40 of the scratchpad. -/
def local0 : State := pad (at0 [(4, 0x40), (5, 0x03000000), (6, 0x10), (7, 0)])

/-! ## From Booleans to the hypotheses of statements -/

def opOf (i : Instr) : Op := (i.fields.map (·.1)).getD (bare 0)

def fieldsOf (i : Instr) : Fields := (i.fields.map (·.2)).getD { ty := true }

def viewAt (i : Instr) (s : State) : View :=
  (i.fields.bind fun x => viewOf s i x.1 x.2).getD
    { k := 0, g := oneGroup 0, sp := { pc := 0, mask := 0 }, b := oneBlock 0, act := 0, uses := ⟨[], [], [], [], []⟩ }

/-- The hypotheses of Clear, evaluated. -/
def clearB (i : Instr) (s : State) : Bool :=
  match i.fields with
  | none => false
  | some (o, f) => match viewOf s i o f with
    | none => false
    | some v =>
      !v.g.ending && v.g.trapEvent.isNone && decide (v.b.phase = .running) && (illegalNow v i).isNone &&
      (stallReason v v.uses).isNone && !scoreboardHolds v.g v.uses && (deadReads v v.uses).isEmpty &&
      (poisonedRegs i v v.uses).isEmpty && (delivers v i v.uses).isNone && (awayRegs i v v.uses).isEmpty && !v.sp.denied

/-- i issues in s and nothing stops it. -/
def Runs (i : Instr) (s : State) : Prop := Clear i s (opOf i) (fieldsOf i) (viewAt i s)

theorem runs_of {i : Instr} {s : State} (h : clearB i s = true) : Runs i s := by
  unfold clearB at h
  split at h
  · cases h
  · rename_i o f hf
    split at h
    · cases h
    · rename_i v hv
      simp only [Bool.and_eq_true, Bool.not_eq_true', decide_eq_true_eq, Option.isNone_iff_eq_none, List.isEmpty_iff] at h
      obtain ⟨⟨⟨⟨⟨⟨⟨⟨⟨⟨h1, h2⟩, h3⟩, h4⟩, h5⟩, h6⟩, h7⟩, h8⟩, h9⟩, h10⟩, h11⟩ := h
      have ho : opOf i = o := by simp [opOf, hf]
      have hF : fieldsOf i = f := by simp [fieldsOf, hf]
      have hV : viewAt i s = v := by simp [viewAt, hf, hv]
      unfold Runs
      rw [ho, hF, hV]
      exact ⟨hf, hv, h1, h2, h3, h4, h5, h6, h7, h8, h9, h10, h11⟩

/-- What holds of every listed lane holds of every lane of the mask. -/
theorem lanes_all {m : Mask} {p : Nat → Prop} (ls : List Nat) (h : ∀ l ∈ ls, p l) (hm : (List.range 64).all (fun l => !m.getLsbD l || ls.contains l) = true) :
    ∀ l, m.getLsbD l = true → p l := by
  intro l hl
  have hl64 : l < 64 := by
    rcases Nat.lt_or_ge l 64 with h' | h'
    · exact h'
    · rw [BitVec.getLsbD_of_ge _ _ h'] at hl; cases hl
  have := List.all_eq_true.mp hm l (List.mem_range.mpr hl64)
  simp only [hl, Bool.not_true, Bool.false_or, List.contains_iff_mem] at this
  exact h l this

/-- A read that answers a value. -/
def okIs {α : Type} [DecidableEq α] (e : Except VaErr α) (x : α) : Bool := match e with | .ok y => decide (y = x) | .error _ => false

theorem ok_of {α : Type} [DecidableEq α] {e : Except VaErr α} {x : α} (h : okIs e x = true) : e = .ok x := by
  cases e <;> simp_all [okIs]

def goodIs {α : Type} (e : Checked α) : Bool := match e with | .good _ => true | _ => false

theorem good_of {α : Type} {e : Checked α} (h : goodIs e = true) : ∃ x, e = .good x := by
  cases e <;> simp_all [goodIs]

theorem inv_of {s : State} (h : (Memory.wf s.mem && Memory.wf s.tile) = true) : Machine.Inv s := by simpa [Machine.Inv] using h

/-! ## Integer instructions -/

theorem runs_all {l : List Instr} {s : State} (h : l.all (clearB · s) = true) : ∀ i ∈ l, Runs i s :=
  fun i hi => runs_of (List.all_eq_true.mp h i hi)

def iadd2 : Instr := .iadd false i2
def arith : List Instr :=
  [.iadd false i2, .iadd true i2, .isub false i2, .isub true i2, .imin i2, .imax i2, .iabs (mk .i32 v2 (rg 4)), .ineg (mk .i32 v2 (rg 4))]
def icmp1 (p : Fin 8) : Instr := .icmp .lt .none (mk .i32 (.pred p) (rg 4) (rg 5))

theorem wit_DecodeOfEncode : iadd2.wf = true ∧ iadd2.fields.isSome = true := by decide
theorem wit_EncodeOfDecode : ∃ i, decodeWord 0x00000004_00008900_C604008C#96 = .ok i := ⟨_, test_decode_shr⟩
theorem wit_IllegalWordReasons :
    opcUndef (unpack 0x1F#96).opc.toNat = true ∧ (unpack 0x7F#96).opc = 0x7F ∧
    opcUndef (unpack 0#96).opc.toNat = false ∧ (unpack 0#96).opc ≠ 0x7F := by decide

theorem wit_IntegerFrame : Machine.Instr.isInteger iadd2 = true ∧ Runs iadd2 plain := ⟨rfl, runs_of (by decide)⟩
theorem wit_AddSubMinMaxAbsNeg : ∀ i ∈ arith, Runs i plain := runs_all (by decide)
theorem wit_Multiply : ∀ i ∈ [Instr.imul i2, .imulh i2, .imad false (mk .i32 v2 (rg 4) (rg 5) (rg 6)), .imad true (mk .i32 v2 (rg 4) (rg 5) (rg 6))],
    Runs i plain := runs_all (by decide)
theorem wit_Shifts : ∀ i ∈ [Instr.shl (mk .b32 v2 (rg 4) (rg 5)), .shr (mk .b32 v2 (rg 4) (rg 5)), .sar (mk .i32 v2 (rg 4) (rg 5))],
    Runs i plain := runs_all (by decide)
theorem wit_BitwiseLogic : ∀ i ∈ [Instr.and i2, .or i2, .xor i2, .andn i2, .not (mk .i32 v2 (rg 4))], Runs i plain := runs_all (by decide)
theorem wit_Compare : Runs (icmp1 1) plain ∧ Runs (icmp1 0) plain := ⟨runs_of (by decide), runs_of (by decide)⟩
theorem wit_Shapes :
    (∀ i ∈ [Instr.forceu (mk .b32 v2 (rg 4)), .mkaff (mk .b32 v2 (rg 4) (rg 5)), .mkgen (mk .b32 v2 (rg 4))], Runs i plain ∧
      lowestLane (viewAt i plain).act = some 0) ∧
    (Runs iadd2 plain ∧ (viewAt iadd2 plain).act = fullMask ∧ srcAffine (viewAt iadd2 plain).g 0 (rg 4) = some (0x40, 0) ∧
      srcAffine (viewAt iadd2 plain).g 0 (rg 5) = some (0, 0)) ∧
    (Runs iadd2 (one plain) ∧ (viewAt iadd2 (one plain)).act = 1) := by
  refine ⟨fun i hi => ⟨runs_all (l := [_, _, _]) (by decide) i hi, ?_⟩, ⟨runs_of (by decide), by decide, by decide, by decide⟩,
    runs_of (by decide), by decide⟩
  revert i; decide
theorem wit_Vkill : Runs (.vkill (mk .none .none (last 4))) plain := runs_of (by decide)

/-! ## Floats and lanes -/

theorem wit_FloatFrame : Machine.Instr.isFloat (.fsqrt f1) = true ∧ Runs (.fsqrt f1) plain := ⟨rfl, runs_of (by decide)⟩
theorem wit_FloatArithmetic : ∀ i ∈ [Instr.fadd nab f2, .fsub nab f2, .fmul nab f2, .ffma nab (mk .f32 v2 (rg 4) (rg 5) (rg 6))],
    Runs i plain := runs_all (by decide)
theorem wit_FloatOrder : ∀ i ∈ [Instr.fmin false f2, .fmax true f2, .fcmp .lt .none (mk .f32 (.pred 1) (rg 4) (rg 5))], Runs i plain :=
  runs_all (by decide)
theorem wit_FloatToInteger : Runs (.f2i .f32 false .rz (mk .i32 v2 (rg 4))) plain := runs_of (by decide)
theorem wit_LaneFrame : Machine.Instr.isLane (.bcast (mk .b32 v2 (rg 4) (rg 5))) = true ∧ Runs (.bcast (mk .b32 v2 (rg 4) (rg 5))) plain :=
  ⟨rfl, runs_of (by decide)⟩
theorem wit_LaneMoves : ∀ i ∈ [Instr.lxch .pick (mk .b32 v2 (rg 4) (rg 5)), .lxch .edge (mk .b32 v2 (rg 4) (rg 5) (rg 6)),
    .bcast (mk .b32 v2 (rg 4) (rg 5)), .poll .some (mk .none (.pred 1) (pr 2)), .poll .first (mk .b32 v2 (pr 2)),
    .poll .mask (mk .b64 v2 (pr 2))], Runs i plain := runs_all (by decide)
theorem wit_ReduceAndScan : ∀ i ∈ [Instr.red .add (mk .i32 v2 (rg 4)), .scan .add false (mk .i32 v2 (rg 4)), .scan .fmax true (mk .f32 v2 (rg 4))],
    Runs i plain := runs_all (by decide)

/-! ## Control flow -/

/-- A table of one entry, 16, behind the instruction; v4 is the index. -/
def tableState (index : Word) : State :=
  let s := one (at0 [(4, index)])
  { s with mem := memWrite s.mem 0x10000C [1, 0, 0, 0, 16, 0, 0, 0] }
def brx4 : Instr := .brx (mk .b32 .none (rg 4))

theorem wit_Branches : Runs (.bra (bare 24)) plain ∧
    (Runs brx4 (tableState 0) ∧ fetchWord (tableState 0) (oneBlock 0) 0x10000C = .bytes [1, 0, 0, 0] ∧
      fetchWord (tableState 0) (oneBlock 0) 0x100010 = .bytes [16, 0, 0, 0]) ∧ Runs brx4 (tableState 1) :=
  ⟨runs_of (by decide), ⟨runs_of (by decide), by decide, by decide⟩, runs_of (by decide)⟩
theorem wit_Branches_call : Runs (.call (mk .b64 v2 un un un 24)) plain ∧ Runs (.ret (mk .b64 .none (rg 4))) plain :=
  ⟨runs_of (by decide), runs_of (by decide)⟩
theorem wit_Exit : Runs (.exit (bare 0)) plain ∧ Runs (.exit (bare 0)) (inHandler plain) := ⟨runs_of (by decide), runs_of (by decide)⟩

/-- The same split, waiting. -/
def waits (w : Wait) (s : State) : State :=
  s.modGroup 0 fun g => { g with active := g.active.map fun p => { p with wait := some w } }
/-- Text that holds an instruction, as its encoding writes it. -/
def holding (i : Instr) (s : State) : State := { s with mem := memWrite s.mem 0x100000 (leBytes 12 ((encode i).getD 0).toNat) }
def sleep5 : Instr := .sleep (bare 5)

theorem wit_NopYieldSleep :
    (∀ i ∈ [Instr.nop (bare 0), .yield (bare 0), .sleep (bare 0)], Runs i plain) ∧ Runs sleep5 (waits (.sleep 0) plain) ∧ Runs sleep5 plain ∧
    waitingInstr (holding sleep5 (waits (.sleep 0) plain)) 0 0 = some sleep5 ∧ Runs sleep5 ((holding sleep5 (waits (.sleep 0) plain)).at 0 0) :=
  ⟨runs_all (by decide), runs_of (by decide), runs_of (by decide), by decide, runs_of (by decide)⟩

/-- One lane of the group's 64 stands here. -/
def part (s : State) : State := s.modGroup 0 fun g => { g with active := g.active.map fun p => { p with mask := 1 } }
/-- The block is in a die span. -/
def spanned (s : State) : State :=
  { s with blocks := tmod s.blocks 0 fun b => { b with span := some 0 }
           spans := [(0, { grid := 0, num := 0, die := 0, window := 0, blocksLeft := 1, bars := Vector.replicate 16 {} })] }

theorem wit_Barriers :
    (∀ s ∈ [plain, part plain], Runs (.bar .sync (bare 15)) s ∧ pendingAt s 0 .blk 15 = 0 ∧ arrivalReady s .blk 0 (viewAt (.bar .sync (bare 15)) s).act = true) ∧
    (expected plain .blk 0 (oneBlock 0) = 64 ∧ maskCount (viewAt (.bar .sync (bare 15)) plain).act = 64) ∧
    (Runs (.cbar .arrive (bare 0)) plain ∧ barrierThere plain .cls (viewAt (.cbar .arrive (bare 0)) plain).b) ∧
    (Runs (.dbar .arrive (bare 0)) (spanned plain) ∧ barrierThere (spanned plain) .die (viewAt (.dbar .arrive (bare 0)) (spanned plain)).b) ∧
    Runs (.bar .wait (bare 0)) plain ∧ (Runs (.bar .sync (bare 0)) (waits (.phase 0 fullMask 1) plain) ∧
      (viewAt (.bar .sync (bare 0)) (waits (.phase 0 fullMask 1) plain)).sp.arrived = true) := by
  refine ⟨fun s hs => ⟨?_, ?_⟩, by decide, ⟨runs_of (by decide), rfl⟩, ⟨runs_of (by decide), 0, rfl, rfl⟩, runs_of (by decide), runs_of (by decide), by decide⟩
  · simp only [List.mem_cons, List.not_mem_nil, or_false] at hs
    rcases hs with rfl | rfl <;> exact runs_of (by decide)
  · revert s; decide

/-- R192, "with lanes 0-95 still waiting afterwards: forbidden": a Wait with nobody pending ends, R289 with its PC past the barrier. -/
theorem test_wait_ends :
    (endWaits (holding (.bar .sync (bare 0)) (waits (.phase 0 fullMask 1) plain))).group 0 =
      (plain.group 0).map fun g => { g with active := g.active.map fun p => { p with pc := p.pc + 12 } } := by decide

/-! ## Signals, special registers, traps -/

/-- v4, v5 name device byte 0x200. -/
def dev0 : State := one (at0 [(4, 0x200), (5, 0), (6, 0x10), (7, 0)])
def swait0 : Instr := .swait .eq (mk .i64 (.pred 1) (rg 4) ze)
def waiting (w : Wait) : State := waits w (holding swait0 dev0)
/-- A trap suspended the split at its SWAIT, whose deadline has passed. -/
def suspended : State :=
  (waiting (.swait (some 0) 0 0)).modGroup 0 fun g => { g with active := g.active.map fun p => { p with reread := true } }

theorem signal0 (s : State) (h : s = dev0 ∨ s = (waiting (.swait none 0 0))) :
    signalMet .eq s (viewAt swait0 s) (opOf swait0) 0 := by
  rcases h with rfl | rfl <;> exact ⟨by decide, by decide, 0x200, true, true, false, by decide, by decide, by decide⟩

theorem wit_SignalWait :
    (Runs swait0 dev0 ∧ ∀ l, (viewAt swait0 dev0).act.getLsbD l = true → signalMet .eq dev0 (viewAt swait0 dev0) (opOf swait0) l ∧
      linePending dev0 0 (srcPair (viewAt swait0 dev0).g (rg 4) l) = false) ∧
    (waitingInstr (waiting (.swait none 0 0)) 0 0 = some swait0 ∧ Runs swait0 ((waiting (.swait none 0 0)).at 0 0) ∧
      swaitBad (viewAt swait0 (waiting (.swait none 0 0))) (opOf swait0) = none) ∧
    (waitingInstr (waiting (.swait (some 0) 0 0)) 0 0 = some swait0 ∧ Runs swait0 ((waiting (.swait (some 0) 0 0)).at 0 0) ∧
      0 ≤ (waiting (.swait (some 0) 0 0)).lodge) ∧
    (waitingInstr suspended 0 0 = some swait0 ∧ Runs swait0 (suspended.at 0 0) ∧ (viewAt swait0 (suspended.at 0 0)).sp.reread = true ∧
      0 ≤ suspended.lodge ∧ signalMet .eq suspended (viewAt swait0 (suspended.at 0 0)) (opOf swait0) 0) := by
  refine ⟨⟨runs_of (by decide), lanes_all [0] (fun l hl => ?_) (by decide)⟩, ⟨by decide, runs_of (by decide), by decide⟩,
    ⟨by decide, runs_of (by decide), by decide⟩, by decide, runs_of (by decide), by decide, by decide,
    by decide, by decide, 0x200, true, true, false, by decide, by decide, by decide⟩
  rw [List.mem_singleton.mp hl]
  exact ⟨signal0 _ (.inl rfl), by decide⟩

def grid0 : Grid :=
  { ctx := 0, prio := 3, flags := 0, origin := .packet 0, stamp := 0, stampMinor := 0, codeobj := 0x4000, kindex := 0, contract := 0,
    gx := 1, gy := 1, gz := 1, bx := 64, byy := 1, bz := 1, cluster := 1, scratch := 0, regsHint := 0, args := 0, kdata := 0, signal := 0,
    cls := none, texts := [], next := 0, ended := 0, redo := [], spanSize := 0, firstSince := none, starved := false }
def gridded (s : State) : State := { s with grids := [(0, grid0)] }

theorem wit_SpecialRegisters :
    (∀ i ∈ [Instr.sreg (mk .b32 v2), .sreg (mk .b32 v2 (imm := 20)), .sreg (mk .b64 v2 (imm := 21))], Runs i (gridded plain)) ∧
    (∀ i ∈ [Instr.sset (mk .b32 .none (rg 4) (imm := 25)), .sset (mk .b64 .none (rg 4) (imm := 30))], Runs i (inHandler plain)) :=
  ⟨runs_all (by decide), runs_all (by decide)⟩

/-- Quiet, as one decidable condition. -/
abbrev Still (s : State) : Prop :=
  s.fwd = [] ∧ s.recalls = [] ∧ (∀ o ∈ s.reqs, ∀ x ∈ o.todo, x.queued = none) ∧
    (∀ port : Fin 10, linkOpen s port.val = true) ∧ (∀ d : Fin 8, undrained s d.val = false) ∧ s.blocked = false

theorem quiet_of {s : State} (h : Still s) : Quiet s := h

theorem frame_of {s : State} {v : View} {key : Nat} {handler : DWord} (h : Still s ∧
    frameTarget s v.b v.k = .at key true true false ∧ ctxHandler s v.b.ctx = handler ∧ handler ≠ 0 ∧
    s.boot.ctxTable.toNat + 64 * v.b.ctx + 64 ≤ key) : frameThere s v key handler :=
  ⟨h.1, ⟨_, _, _, h.2.1⟩, h.2.2.1, h.2.2.2.1, .inr h.2.2.2.2⟩

/-- Context 0 has its trap area at 0x1000 and its handler at 0x3000. -/
def trapping (s : State) : State := { s with mem := memWrite (memWrite s.mem 8 [0, 0x30]) 16 [0, 0x10] }


/-! ## The step -/

/-- What answers a next state. -/
def nexts (o : Host.Outcome State Fault Refusal) (p : State → Bool := fun _ => true) : Bool := match o with | .next t => p t | _ => false

theorem nexts_of {o : Host.Outcome State Fault Refusal} {p : State → Bool} (h : nexts o p = true) : ∃ t, o = .next t ∧ p t = true := by
  cases o <;> simp_all [nexts]

def ready0 : State := { State.reset.withFetchWord 96 (leNat (leBytes 12 ((encode (.nop (bare 0))).getD 0).toNat)) with turn := true }
def unread : State := { State.reset.withFetchWord 96 0x7F with turn := true }
def splitOf0 (s : State) : Split := (s.group 0).elim { pc := 0, mask := 0 } fun g => (g.active.head?).getD { pc := 0, mask := 0 }
def groupOf (s : State) : Group := (s.group 0).getD (oneGroup 0)

theorem wit_StepKeepsInv : Inv ready0 ∧ ∃ t, step ready0 = .next t ∧ true = true := ⟨inv_of (by decide), nexts_of (p := fun _ => true) (by decide)⟩

/-- A block of translated text whose split stands at .end. -/
def atEnd : State := { ready0 with
  blocks := tmod ready0.blocks 0 fun b => { b with translated := true, apf := { piece := 1 } }
  groups := [(0, oneGroup 0x10000C)]
  tcache := [{ id := 9, hash := 0, kindex := 0, devHash := 0, state := .text 0x100000 24 { recs := [0xFF, 0x17F] }, used := 0 }] }

/-- One step of patience less. -/
def later (s : State) : State := { s with patience := s.patience - 1 }

/-- The hypotheses of the first clauses but for the text. -/
abbrev Offered (s : State) : Prop :=
  due s = none ∧ s.patience ≠ 0 ∧ s.turn = true ∧ busyParts (later s) = [0] ∧
    byPort (later s) (offers (later s) 0) = [(0, splitOf0 s)] ∧
    nameLane (splitOf0 s) = 0 ∧ s.group 0 = some (groupOf s) ∧ splitAt (groupOf s) 0 = some (splitOf0 s)

/-- A step of the events' side: an input is the next. -/
def inputs : State := { State.reset with patience := 1, agenda := [.shadowModeEnd 0] }
/-- A step that serves the next in turn. -/
def inTurn : State := { ready0 with patience := 0 }
def inTurn' : State :=
  { (elapse inTurn 1 1).draw.2 with patience := (elapse inTurn 1 1).draw.1.toNat, round := inTurn.round + 1 }

theorem wit_StepRuns :
    (Offered ready0 ∧ tget ready0.blocks (groupOf ready0).blk = some (oneBlock 0x100000) ∧ splitRecord ready0 0 0 = none ∧
      (∃ bs, fetchWords ready0 (oneBlock 0x100000) (splitOf0 ready0).pc 3 = .bytes bs ∧ decode bs = .ok (.nop (bare 0))) ∧
      ∃ t, exec (.nop (bare 0)) (Machine.fetched (later ready0) 0 0) = .next t ∧ (t.issued && !t.blocked) = true) ∧
    (Offered unread ∧ (∃ bs, fetchWords unread (oneBlock 0x100000) (splitOf0 unread).pc 3 = .bytes bs ∧ decode bs = .error .apf ∧
      ∃ t, exec (.illegalEncoding (wordOfBytes bs)) (Machine.fetched (later unread) 0 0) = .next t ∧ (t.issued && !t.blocked) = true)) ∧
    (Offered atEnd ∧ splitRecord atEnd 0 0 = some ({ recs := [0xFF, 0x17F] }, 1) ∧
      ∃ t, runRecord exec ((later atEnd).at 0 0) { recs := [0xFF, 0x17F] } 1 0 0 = .next t ∧ (t.issued && !t.blocked) = true) ∧
    (due inputs = none ∧ inputs.patience ≠ 0 ∧ inputs.turn = false ∧ (Instr.shadowModeEnd 0).fields = none ∧
      ∃ t, exec (.shadowModeEnd 0) State.reset = .next t) ∧
    (due inTurn = none ∧ inTurn.patience = 0 ∧ inTurn.round % 2 = 0 ∧ firstFrom (inTurn.round / 2) (busyParts inTurn') = some 0 ∧
      ∃ t, issuePart 0 inTurn' = .next t ∧ true = true) :=
  ⟨⟨by decide +kernel, by decide, by decide, ⟨_, rfl, by decide⟩, nexts_of (by decide +kernel)⟩,
    ⟨by decide +kernel, _, rfl, by decide +kernel, nexts_of (by decide +kernel)⟩,
    ⟨by decide +kernel, by decide +kernel, nexts_of (by decide +kernel)⟩,
    ⟨by decide +kernel, by decide, rfl, rfl, _, rfl⟩, by decide +kernel, rfl, by decide, by decide +kernel,
    nexts_of (p := fun _ => true) (by decide +kernel)⟩

/-! ## Traps -/

theorem inv_trapping : Inv (trapping plain) := inv_of (by decide)

theorem wit_TrapInstruction :
    (Runs (.trap (bare 7)) (trapping plain) ∧ (viewAt (.trap (bare 7)) (trapping plain)).act ≠ 0 ∧
      (viewAt (.trap (bare 7)) (trapping plain)).g.handler = false ∧
      frameThere (trapping plain) (viewAt (.trap (bare 7)) (trapping plain)) 0x1000 0x3000 ∧ Inv (trapping plain)) ∧
    Runs (.trap { bare 7 with ctl := { cl with gn := true } }) plain ∧
    (viewAt (.trap { bare 7 with ctl := { cl with gn := true } }) plain).act = 0 :=
  ⟨⟨runs_of (by decide), by decide, by decide, frame_of (by decide), inv_trapping⟩,
    runs_of (by decide), by decide⟩

/-- The hypotheses of IllegalTraps on the state, for an instruction. -/
def Trappable (i : Instr) (s : State) : Prop :=
  i.fields = some (opOf i, fieldsOf i) ∧ viewOf s i (opOf i) (fieldsOf i) = some (viewAt i s) ∧ i.wf = true ∧
    (viewAt i s).g.ending = false ∧ (viewAt i s).g.trapEvent = none ∧ (viewAt i s).b.phase = .running ∧ (viewAt i s).g.handler = false ∧
    frameThere s (viewAt i s) 0x1000 0x3000

def trap1 : View := (bareView (trapping plain)).getD (viewAt iadd2 plain)

theorem trappable_all : ∀ i ∈ [Instr.sset (mk .b32 .none (rg 4) (imm := 25)), .tret (bare 0), .sreg (mk .b64 v2 (imm := 28)), .dbar .sync (bare 0),
    .mma .f32 (bare 0x10840)], Trappable i (trapping plain) := by
  intro i hi
  have h : i.fields = some (opOf i, fieldsOf i) ∧ viewOf (trapping plain) i (opOf i) (fieldsOf i) = some (viewAt i (trapping plain)) ∧ i.wf = true ∧
    (viewAt i (trapping plain)).g.ending = false ∧ (viewAt i (trapping plain)).g.trapEvent = none ∧ (viewAt i (trapping plain)).b.phase = .running ∧
    (viewAt i (trapping plain)).g.handler = false := by revert i; decide
  have hf : ∀ i ∈ [Instr.sset (mk .b32 .none (rg 4) (imm := 25)), .tret (bare 0), .sreg (mk .b64 v2 (imm := 28)), .dbar .sync (bare 0),
      .mma .f32 (bare 0x10840)], frameTarget (trapping plain) (viewAt i (trapping plain)).b (viewAt i (trapping plain)).k = .at 0x1000 true true false ∧
        (viewAt i (trapping plain)).b.ctx = 0 := by decide
  refine ⟨h.1, h.2.1, h.2.2.1, h.2.2.2.1, h.2.2.2.2.1, h.2.2.2.2.2.1, h.2.2.2.2.2.2, frame_of ⟨by decide, (hf i hi).1, ?_⟩⟩
  rw [(hf i hi).2]; decide

theorem wit_IllegalTraps :
    (bareView (trapping plain) = some trap1 ∧ trap1.g.ending = false ∧ trap1.g.trapEvent = none ∧ trap1.b.phase = .running ∧
      trap1.g.handler = false ∧ frameThere (trapping plain) trap1 0x1000 0x3000 ∧ Inv (trapping plain)) ∧
    (∀ i ∈ [Instr.sset (mk .b32 .none (rg 4) (imm := 25)), .tret (bare 0), .sreg (mk .b64 v2 (imm := 28)), .dbar .sync (bare 0),
      .mma .f32 (bare 0x10840)], Trappable i (trapping plain)) ∧
    (trap1.b.span = none ∧ trap1.translated = false ∧ MmaFmt.f32 ∉ nativeFmts (textClass trap1)) :=
  ⟨⟨by decide, by decide, by decide, by decide, by decide, frame_of (by decide), inv_trapping⟩,
    trappable_all, by decide⟩

theorem wit_TrapReturnInstruction :
    Runs (.tret (bare 0)) (inHandler (trapping plain)) ∧
    handlerBusy (inHandler (trapping plain)) 0 = false ∧
    frameTarget (inHandler (trapping plain)) (viewAt (.tret (bare 0)) (inHandler (trapping plain))).b 0 = .at 0x1000 true true false :=
  ⟨runs_of (by decide), by decide, by decide⟩

/-! ## Memory instructions -/

theorem of_lanes {m : Mask} {p : Nat → Prop} {q : Nat → Bool} (hq : ∀ l, q l = true → p l) (h : (maskLanes m).all q = true) :
    ∀ l, m.getLsbD l = true → p l := by
  intro l hl
  have hl64 : l < 64 := by
    rcases Nat.lt_or_ge l 64 with h' | h'
    · exact h'
    · rw [BitVec.getLsbD_of_ge _ _ h'] at hl; cases hl
  exact hq l (List.all_eq_true.mp h l (List.mem_filter.mpr ⟨List.mem_range.mpr hl64, hl⟩))

def specOf (i : Instr) (s : State) : AccessSpec := (accessOf (viewAt i s) i).getD (loadSpec (viewAt i s) (opOf i) false .w32 .own)

def notBad : Fate → Bool
  | .bad _ => false
  | _ => true

/-- Unheld and Good, evaluated. -/
def goesB (i : Instr) (s : State) : Bool :=
  let v := viewAt i s
  let sp := specOf i s
  (accessOf v i).isSome && !acquirePending s v.k v.act && (match sp.rel with | none => true | some sc => fenceReady s v.k v.act .rel sc) &&
  !reservationBusy s v.k v.act &&
  (maskLanes v.act).all fun l => sp.owners (sp.addr l) && notBad (fateOf s v.b sp.size (sp.addr l)) &&
    !isFrozen s (dieOf v.k) v.b.ctx (sp.addr l) && !isThawing s (dieOf v.k) v.b.ctx (sp.addr l)

def Goes (i : Instr) (s : State) : Prop :=
  Runs i s ∧ accessOf (viewAt i s) i = some (specOf i s) ∧ Unheld s (viewAt i s) (specOf i s) ∧ Good s (viewAt i s) (specOf i s)

theorem goes_of {i : Instr} {s : State} (h : clearB i s = true) (h' : goesB i s = true) : Goes i s := by
  simp only [goesB, Bool.and_eq_true, Bool.not_eq_true', Option.isSome_iff_exists] at h'
  obtain ⟨⟨⟨⟨⟨sp, h1⟩, h2⟩, h3⟩, h4⟩, h5⟩ := h'
  refine ⟨runs_of h, by simp [specOf, h1], ⟨h2, ?_, fun _ => h4⟩, ?_⟩
  · intro sc hs; rw [hs] at h3; exact h3
  have := of_lanes (p := fun l => ((specOf i s).owners ((specOf i s).addr l) = true ∧
    notBad (fateOf s (viewAt i s).b (specOf i s).size ((specOf i s).addr l)) = true) ∧
    isFrozen s (dieOf (viewAt i s).k) (viewAt i s).b.ctx ((specOf i s).addr l) = false ∧
    isThawing s (dieOf (viewAt i s).k) (viewAt i s).b.ctx ((specOf i s).addr l) = false) (fun l hl => ?_) h5
  · refine ⟨fun l hl => ⟨(this l hl).1.1, fun r hr => ?_⟩, fun _ l hl _ => (this l hl).2⟩
    have := (this l hl).1.2
    rw [hr] at this; cases this
  · simp only [Bool.and_eq_true, Bool.not_eq_true'] at hl
    exact ⟨⟨hl.1.1.1, hl.1.1.2⟩, hl.1.2, hl.2⟩

/-- Local, evaluated, at one key. -/
theorem local_of {i : Instr} {s : State} (key : Nat) (h : ((maskLanes (viewAt i s).act).all fun l =>
    fateOf s (viewAt i s).b (specOf i s).size ((specOf i s).addr l) == .here key && !s.poisoned key (specOf i s).size) = true) :
    Local s (viewAt i s) (specOf i s) fun _ => key :=
  of_lanes (fun l hl => by simpa using hl) h

def lone : State := one local0
def ld32 : Instr := .ld false .w32 .own (mk .none v2 (rg 4))
def st32 : Instr := .st false .w32 .own (mk .none .none (rg 4) (rg 6))
def ldr32 : Instr := .ldr false (mk .none v2 (rg 4))
def stc32 : Instr := .stc false (mk .none (.pred 1) (rg 4) (rg 6))
def atom32 (op : AtomOp) : Instr := .atom op .rlx (mk .b32 v2 (rg 4) (rg 6) (if op = .cas then rg 5 else un) 0x04000000)
/-- The key of byte 0x40 of core 0's scratchpad. -/
def key40 : Nat := scratchKey 0 0x40

theorem wit_MemoryIssue : Inv dev0 ∧ (∀ i ∈ [ld32, st32, ldr32, stc32, atom32 .add, .signal true (mk .b64 .none (rg 4) (rg 6))], Goes i dev0) :=
  ⟨inv_of (by decide), fun i hi => goes_of (by revert i; decide) (by revert i; decide)⟩

/-- The group holds a reservation at its device byte. -/
def holds : State := { dev0 with resv := [{ grp := 0, lane := 0, addr := 0x200, size := 4, line := 4 }] }

theorem wit_MemoryRequest :
    (Goes ld32 dev0 ∧ (viewAt ld32 dev0).act ≠ 0 ∧ fateOf dev0 (viewAt ld32 dev0).b 4 ((specOf ld32 dev0).addr 0) = .away ∧
      l1Find dev0 0 0 ((specOf ld32 dev0).addr 0) = none) ∧
    (Goes stc32 holds ∧ (viewAt stc32 holds).act = 1 ∧ fateOf holds (viewAt stc32 holds).b 4 ((specOf stc32 holds).addr 0) = .away ∧
      grantsReservation ((specOf stc32 holds).addr 0) = true ∧ reserved holds 0 0 ((specOf stc32 holds).addr 0) 4 = true) :=
  ⟨⟨goes_of (by decide) (by decide), by decide⟩, goes_of (by decide) (by decide), by decide⟩

theorem inv_lone : Inv lone := inv_of (by decide)

theorem wit_LocalLoadStore : Inv lone ∧ ∀ i ∈ [ld32, st32], Goes i lone ∧ (viewAt i lone).act = 1 ∧
    Local lone (viewAt i lone) (specOf i lone) fun _ => key40 :=
  ⟨inv_lone, fun i hi => ⟨goes_of (by revert i; decide) (by revert i; decide), by revert i; decide, local_of key40 (by revert i; decide)⟩⟩

theorem wit_LocalAtomic : Inv lone ∧ ∀ op ∈ [AtomOp.add, .fadd, .min, .max, .and, .or, .xor, .xchg, .cas, .inc, .dec],
    let i : Instr := if op = .fadd then .atom .fadd .rlx (mk .f32 v2 (rg 4) (rg 6) un 0x04000000) else atom32 op
    Goes i lone ∧ maskLanes (viewAt i lone).act = [0] ∧ Local lone (viewAt i lone) (specOf i lone) fun _ => key40 :=
  ⟨inv_lone, fun op ho => ⟨goes_of (by revert op; decide) (by revert op; decide), by revert op; decide, local_of key40 (by revert op; decide)⟩⟩

theorem wit_LocalReservation : Inv lone ∧ ∀ i ∈ [ldr32, stc32], Goes i lone ∧ maskLanes (viewAt i lone).act = [0] ∧
    Local lone (viewAt i lone) (specOf i lone) fun _ => key40 :=
  ⟨inv_lone, fun i hi => ⟨goes_of (by revert i; decide) (by revert i; decide), by revert i; decide, local_of key40 (by revert i; decide)⟩⟩

/-- Device page 0 is FROZEN in die 0's copy. -/
def frozenAt0 : State :=
  { trapping dev0 with frtCopy := [(0, { state := .frozen, ctx := 0, base := 0, len := 1 })]
                       frt := [(0, { state := .frozen, count := 1, ctx := 0, base := 0, len := 1, issued := 1, done := 1 })] }
/-- The same split with v4, v5 at an address that no load may name. -/
def astray (lo hi : Word) : State := trapping (one (at0 [(4, lo), (5, hi), (6, 0x10), (7, 0)]))

theorem wit_MemoryTraps :
    (Runs st32 frozenAt0 ∧ accessOf (viewAt st32 frozenAt0) st32 = some (specOf st32 frozenAt0) ∧ (specOf st32 frozenAt0).checked.isSome = true ∧
      acquirePending frozenAt0 0 1 = false ∧ (viewAt st32 frozenAt0).act = 1 ∧ ownerOf ((specOf st32 frozenAt0).addr 0) = 0 ∧
      fateOf frozenAt0 (viewAt st32 frozenAt0).b 4 ((specOf st32 frozenAt0).addr 0) = .away ∧
      isFrozen frozenAt0 0 0 ((specOf st32 frozenAt0).addr 0) = true ∧ Inv frozenAt0 ∧
      frameThere frozenAt0 (viewAt st32 frozenAt0) 0x1000 0x3000) ∧
    (Runs ld32 (astray 2 0) ∧ fateOf (astray 2 0) (viewAt ld32 (astray 2 0)).b 4 (laneAddr (viewAt ld32 (astray 2 0)).g (opOf ld32) 0) = .bad mfAlign ∧
      frameThere (astray 2 0) (viewAt ld32 (astray 2 0)) 0x1000 0x3000) ∧
    (Runs ld32 (astray 0 0x7F000000) ∧
      fateOf (astray 0 0x7F000000) (viewAt ld32 (astray 0 0x7F000000)).b 4 (laneAddr (viewAt ld32 (astray 0 0x7F000000)).g (opOf ld32) 0) = .bad mfOwner ∧
      frameThere (astray 0 0x7F000000) (viewAt ld32 (astray 0 0x7F000000)) 0x1000 0x3000) :=
  ⟨⟨runs_of (by decide), by rfl, by decide, by decide, by decide, by decide, by decide, by decide, inv_of (by decide),
      frame_of (by decide)⟩,
    ⟨runs_of (by decide), by decide, frame_of (by decide)⟩,
    runs_of (by decide), by decide, frame_of (by decide)⟩

theorem wit_PrefetchAndFence : (∀ i ∈ [Instr.prf false .l2 (mk .none .none (rg 4)), .wbl (mk .none .none (rg 4) (rg 6)), .fence .dev .acq (bare 0)], Runs i dev0) ∧
    acquirePending dev0 0 1 = false ∧ fenceReady dev0 0 1 .acq .dev = true := ⟨runs_all (by decide), by decide⟩

/-! ## Frozen regions -/

def frz0 : Instr := .frz false (mk .none (.pred 1) (rg 4) (rg 6) un 2)
def thaw0 : Instr := .thaw (mk .none (.pred 1) (rg 4) (rg 6) un 2)
/-- v4, v5 name a device address, v6, v7 a length; the Lodge's table is as given. -/
def table (base len : Word) (es : List (Nat × FrtEntry)) : State :=
  { one (at0 [(4, base), (5, 0), (6, len), (7, 0)]) with frt := es }
def entry (n : Nat) (st : FrState := .frozen) : FrtEntry := { state := st, count := n, base := 8, len := 1 }

theorem wit_FreezeAndThaw :
    (∀ s ∈ [table 1 0x1000 [], table 0x8000 0x1000 [], table 0x8000 0x1000 [(0, entry 1)], table 0x8000 0x1000 [(0, entry 0 .thawing)]],
      Runs frz0 s ∧ lowestLane (viewAt frz0 s).act = some 0 ∧ fenceReady s 0 (viewAt frz0 s).sp.mask .rel .dev = true ∧
      acquirePending s 0 (viewAt frz0 s).sp.mask = false ∧ frzLate s 0 = false ∧ linkOpen s (dieOf 0) = true) ∧
    (rangeOk 1 0x1000 = false ∧ rangeOk 0x8000 0x1000 = true ∧ lowestLive (table 0x8000 0x1000 []) = some 0 ∧
      frtMatch (table 0x8000 0x1000 []) .thawing 0 0x8000 0x1000 = none ∧
      frtMatch (table 0x8000 0x1000 [(0, entry 0 .thawing)]) .thawing 0 0x8000 0x1000 ≠ none ∧
      frtMatch (table 0x8000 0x1000 [(0, entry 1)]) .frozen 0 0x8000 0x1000 = some 0) ∧
    (Runs frz0 (table 0x8000 0x1000 [(0, entry 255)]) ∧ (entry 255).count = 255 ∧
      frtMatch (table 0x8000 0x1000 [(0, entry 255)]) .frozen 0 0x8000 0x1000 = some 0) ∧
    (∀ s ∈ [table 0x8000 0x1000 [], table 0x8000 0x1000 [(0, entry 1)], table 0x8000 0x1000 [(0, entry 2)]], Runs thaw0 s ∧
      lowestLane (viewAt thaw0 s).act = some 0) :=
  ⟨fun s hs => ⟨runs_of (by revert s; decide), by revert s; decide⟩, by decide, ⟨runs_of (by decide), by decide⟩, fun s hs => ⟨runs_of (by revert s; decide), by revert s; decide⟩⟩

/-- Die 0 has already entered the range in its copy; without that copy the result of the same FRZ is still to come. -/
theorem wit_FreezeAndThaw_granted :
    let known : State := { table 0x8000 0x1000 [(0, entry 1)] with frtCopy := [(0, (entry 1).copy)] }
    Runs frz0 known ∧ (∃ t, exec frz0 known = .next t ∧ copyAgrees t 0 0 = true) ∧
    ∃ t, exec frz0 (table 0x8000 0x1000 []) = .next t ∧ copyAgrees t 0 0 = false :=
  ⟨runs_of (by decide), nexts_of (by decide), by simpa using nexts_of (p := fun t => !copyAgrees t 0 0) (by decide)⟩

set_option maxRecDepth 20000 in
/-- With the table full there is no LIVE entry. -/
theorem wit_FreezeAndThaw_full : lowestLive (table 0x8000 0x1000 ((List.range 256).map fun e => (e, entry e))) = none := by decide

theorem wit_FreezeWaitAndQuery :
    (Runs (.fwait (mk .none .none (rg 6))) dev0 ∧ (viewAt (.fwait (mk .none .none (rg 6))) dev0).act = 1 ∧
      ((frtEntry dev0 0).done - (0x10#32).setWidth 23).toNat ≥ 2 ^ 22 ∧
      Runs (.fwait (mk .none .none (rg 5))) dev0 ∧ ((frtEntry dev0 0).done - (0#32).setWidth 23).toNat < 2 ^ 22) ∧
    Runs (.fqry (mk .none v2 (rg 4))) dev0 := ⟨⟨runs_of (by decide), by decide, by decide, runs_of (by decide), by decide⟩, runs_of (by decide)⟩

def copyF : FrtCopy := { state := .frozen, base := 8, len := 1 }
def opF (stage : FrzStage) : FrzOp := { entry := 0, seq := some 1, stage := stage }
/-- One operation is under way on entry 0. -/
def installs (stage : FrzStage) : State :=
  { plain with frt := [(0, entry 1 (if stage = .install copyF [0] [] then .frozen else .thawing))], frzOps := [opF stage], frtCopy := [(0, copyF)] }

/-- frzInstall, collectRequest and collectionComplete complete: their hypotheses, with no operation before or after. -/
theorem wit_FreezeInstalls :
    ((installs (.install copyF [0] [])).frzOps = [] ++ opF (.install copyF [0] []) :: [] ∧ (∀ o ∈ ([] : List FrzOp), 0 ∉ o.stage.awaits.1) ∧
      (opF (.install copyF [0] [])).stage = .install copyF [0] [] ∧ 0 ∈ [0] ∧
      (∀ st ∈ [FrzStage.install copyF [0] [], .collect [] [0] []], Still (installs st)) ∧ writesUnder (installs (.install copyF [0] [])) 0 copyF = false ∧
      ∀ o ∈ ([] ++ [] : List FrzOp), o.entry = 0 → o.seq ≠ some 1) ∧
    ((installs (.collect [] [0] [])).frzOps = [] ++ opF (.collect [] [0] []) :: [] ∧ (opF (.collect [] [0] [])).entry = 0 ∧
      (opF (.collect [] [0] [])).stage = .collect [] [0] [] ∧ tget (installs (.collect [] [0] [])).frtCopy (0 * 256 + 0) = some copyF) ∧
    (0 < 256 ∧ (installs (.collect [] [] [])).frzOps.find? (fun o => o.entry == 0) = some (opF (.collect [] [] [])) ∧
      (opF (.collect [] [] [])).stage = .collect [] [] [] ∧ (∀ r ∈ (installs (.collect [] [] [])).frzReqs, r.result ≠ none) ∧
      (opF (.collect [] [] [])).seq.isSome = true ∧
      (∀ o ∈ (installs (.collect [] [] [])).frzOps, o.entry = 0 → o = opF (.collect [] [] [])) ∧
      (installs (.collect [] [] [])).frzOps.count (opF (.collect [] [] [])) = 1) := by decide

/-- A write of die 0 to the range is not acknowledged yet: the install is not either. -/
theorem wit_FreezeInstalls_held :
    let q : MemOp := { id := 5, grp := 0, seq := 5, pc := 0, handler := false, ctx := 0, port := 0, kind := .store, size := 4, signed := false,
                       req := .own, mask := 1, dst := .none, uniform := false, todo := [{ lane := 0, addr := 0x8010 }] }
    writesUnder { installs (.install copyF [0] []) with reqs := [q] } 0 copyF = true := by decide

theorem wit_DeviceLaunch : Runs (.launch (mk .none .none (rg 4) (rg 6))) dev0 ∧ (viewAt (.launch (mk .none .none (rg 4) (rg 6))) dev0).act = 1 ∧
    acquirePending dev0 0 1 = false ∧ fenceReady dev0 0 1 .rel .dev = true ∧ queuedLaunches dev0 0 + maskCount 1 ≤ 1024 ∧
    ownerOf (srcPair (viewAt (.launch (mk .none .none (rg 4) (rg 6))) dev0).g (rg 4) 0) = 0 ∧
    ownerOf (srcPair (viewAt (.launch (mk .none .none (rg 4) (rg 6))) dev0).g (rg 6) 0) = 0 ∧
    (srcPair (viewAt (.launch (mk .none .none (rg 4) (rg 6))) dev0).g (rg 6) 0).toNat % 8 = 0 := ⟨runs_of (by decide), by decide⟩

/-! ## Copies, byte barriers, pinning -/

/-- A descriptor of no bytes at 0x200. -/
def descAt : State := { dev0 with mem := memWrite (memWrite dev0.mem 0x214 [1]) 0x218 [1] }
def cpy1 : Instr := .cpy false false .d1 (mk .none .none (rg 4))
def cpyg1 : Instr := .cpyg false false (mk .none .none (rg 4) (rg 6))

/-- What the second half of a CPY's hypotheses asks. -/
def copyB (i : Instr) (dim : Option CpyDim) : Bool :=
  match readDesc descAt (viewAt i descAt).b (srcPair (viewAt i descAt).g (opOf i).a 0) with
  | .ok bs => descOk false false dim.isNone dim (descOf bs) &&
      frozenRanges descAt 0 0 (destRanges (descOf bs) false (copyRows (descOf bs) dim.isNone [(0, 16)])) == .clear
  | .error _ => false

set_option maxRecDepth 8000 in
theorem wit_LiftCopies_start : ∀ x ∈ [(cpy1, some CpyDim.d1), (cpyg1, none)], Runs x.1 descAt ∧ (viewAt x.1 descAt).act = 1 ∧
    (srcPair (viewAt x.1 descAt).g (opOf x.1).a 0).toNat % 8 = 0 ∧
    ∃ bs, readDesc descAt (viewAt x.1 descAt).b (srcPair (viewAt x.1 descAt).g (opOf x.1).a 0) = .ok bs ∧
      descOk false false x.2.isNone x.2 (descOf bs) = true ∧
      frozenRanges descAt 0 0 (destRanges (descOf bs) false (copyRows (descOf bs) x.2.isNone [(0, 16)])) = .clear ∧ Quiet descAt := by
  intro x hx
  have h : copyB x.1 x.2 = true := by revert x; decide
  refine ⟨runs_of (by revert x; decide), by revert x; decide, by revert x; decide, ?_⟩
  unfold copyB at h
  split at h
  · simp only [Bool.and_eq_true, beq_iff_eq] at h
    exact ⟨_, by assumption, h.1, h.2, quiet_of (by decide)⟩
  · cases h

/-- A copy of four bytes from 0x200 to 0x300; units, once it has begun, the piece that is next, and bytes that stand to land. -/
def copy0 (units : Option (List (Nat × Nat))) (cells : List Host.Cell) : Copy :=
  { id := 7, grp := 0, seq := 7, pc := 0, handler := false, ctx := 0, batch := none, desc := 0x200,
    bytes := leBytes 128 (0x0200 + 2 ^ 64 * 0x0300 + 2 ^ 128 * 4 + 2 ^ 160 * 1 + 2 ^ 192 * 1), cv := false,
    tb := false, dim := some .d1, rows := [], units := units, cells := cells, piece := (units.getD []).head? }
/-- One element from f32 to e4m3. -/
def convert0 : Copy :=
  { copy0 (some [(0, 0)]) [] with
    cv := true, bytes := leBytes 128 (0x0200 + 2 ^ 64 * 0x0300 + 2 ^ 128 * 1 + 2 ^ 160 * 1 + 2 ^ 192 * 1 + 2 ^ 224 * (Ty.code .f32 + 256 * Ty.code .e4m3)) }
def copyingOf (c : Copy) : State := { descAt with copies := [c] }
def copying (units : Option (List (Nat × Nat))) (cells : List Host.Cell) : State := copyingOf (copy0 units cells)
def b0 : Block := (viewAt cpy1 dev0).b

theorem wit_LiftCopies :
    (acquirePending descAt 0 1 = false ∧ lanesSettled descAt 0 1 = true) ∧
    (Runs (.cbatch (mk .b32 v2)) dev0 ∧ (viewAt (.cbatch (mk .b32 v2)) dev0).act ≠ 0) ∧
    (∀ i ∈ [Instr.cwait (mk .b32 (.pred 1) im), .cwait (mk .b32 .none im)], Runs i dev0 ∧ lowestLane (viewAt i dev0).act = some 0) ∧
    (findCopy (copying (some []) []) 7 = some (copy0 (some []) [], b0) ∧ copyRuns (copying (some []) []) (copy0 (some []) []) = true) :=
  ⟨by decide, ⟨runs_of (by decide), by decide⟩,
    fun i hi => ⟨runs_of (by revert i; decide), by revert i; decide⟩, by decide⟩

/-- What a copy that goes on leaves, if it goes on. -/
def wentB (s : State) (c₀ : Copy) (p : State → Copy → Bool) : Bool :=
  let x := choosePiece s (beginCopy c₀)
  match advanceCopy x.2 x.1 b0 with | (u, .ok c) => p u c | _ => false

theorem went_of {s : State} {c₀ : Copy} {p : State → Copy → Bool} (h : wentB s c₀ p = true) : ∃ u c, WentOn s u c₀ b0 c ∧ p u c = true := by
  unfold wentB at h
  dsimp only at h
  split at h
  · rename_i u c hx; exact ⟨u, c, hx, h⟩
  · cases h

/-- The hypotheses of a delivery on what the read leaves. -/
def landsB (u : State) (c : Copy) : Bool :=
  decide (Still u) && Memory.wf u.mem && Memory.wf u.tile && !copyHeld u c && !c.tb && decide ((c.cells.map (·.1)).Nodup)

/-- copyBytesDelivered completes: with a byte that stands to land, and with a piece still to be read. -/
theorem wit_LiftCopies_deliver :
    ∀ c ∈ [copy0 (some []) [(0x300, 1)], copy0 (some [(0, 0)]) []],
      findCopy (copyingOf c) 7 = some (c, b0) ∧ copyRuns (copyingOf c) c = true ∧ barLost (copyingOf c) c b0 = false ∧ Quiet (copyingOf c) ∧
      ∃ u c', WentOn (copyingOf c) u c b0 c' ∧ landsB u c' = true := by
  intro c hc
  refine ⟨by revert c; decide, by revert c; decide, by revert c; decide, quiet_of (by revert c; decide), went_of ?_⟩
  revert c; decide +kernel

/-- Piece (0, 0) of the only row is read. -/
def row0 (c : Copy) : CopyRow := ((rowsOf c)[0]?).getD { src := 0, dst := 0, srcAddr := 0, dstAddr := 0 }

def readOk (c : Copy) : Bool := match readUnit (copyingOf c) c b0 (row0 c) (0, 0) with | (_, .ok _) => true | _ => false

theorem wit_LiftCopies_read : ∀ c ∈ [copy0 (some [(0, 0)]) [], convert0], Quiet (copyingOf c) ∧ c.buf = [] ∧ c.part = [] ∧
    ∃ t c', readUnit (copyingOf c) c b0 (row0 c) (0, 0) = (t, .ok c') := by
  intro c hc
  refine ⟨quiet_of (by revert c; decide), by revert c; decide, by revert c; decide, ?_⟩
  have h : readOk c = true := by revert c; decide +kernel
  unfold readOk at h
  split at h
  · rename_i t c' hx; exact ⟨t, c', hx⟩
  · cases h

theorem byte_of {s : State} {b : Block} {a : DWord} {x : Byte} (k : Nat)
    (h : (okIs (vaKey s b false a) k && !s.poisoned k 1 && memByte s.mem k == x) = true) : ByteAt s b a x := by
  simp only [Bool.and_eq_true, Bool.not_eq_true', beq_iff_eq] at h
  exact ⟨k, ok_of h.1.1, h.1.2, h.2⟩

/-- The four bytes of the source, of a plain copy and of one that converts. -/
theorem wit_LiftCopies_bytes :
    (∀ i, i < 4 → ByteAt (copyingOf convert0) b0 (addr (row0 (copy0 (some [(0, 0)]) [])).srcAddr i) 0) ∧
    (descOf convert0.bytes).sfmt = some .f32 ∧ (descOf convert0.bytes).dfmt = some .e4m3 ∧
    min (1024 / Ty.f32.bits) ((descOf convert0.bytes).nx - 0) = 1 ∧
    ∀ j x, (leBytes 4 0)[j]? = some x → ByteAt (copyingOf convert0) b0 (addr (row0 convert0).srcAddr ((0 + 0) * (Ty.f32.bits / 8) + j)) x := by
  refine ⟨fun i hi => ?_, by decide, by decide, by decide, fun j x hx => ?_⟩
  · exact byte_of (0x200 + i) (by revert i; decide)
  · have hj : j < 4 := by
      obtain ⟨h, -⟩ := List.getElem?_eq_some_iff.mp hx
      have h4 : (leBytes 4 0).length = 4 := by decide
      omega
    have h0 : ∀ j, j < 4 → (leBytes 4 0)[j]? = some 0 := by decide
    rw [h0 j hj] at hx
    cases hx
    exact byte_of (0x200 + j) (by revert j; decide)

theorem wit_ByteBarriers : Inv lone ∧
    (∀ i ∈ [Instr.tbinit (mk .b32 .none (rg 4) (rg 6)), .tbexp (mk .b32 .none (rg 4) (rg 6)), .tbarr (mk .b32 v2 (rg 4) (rg 6)),
      .tbwait true (mk .b32 .none (rg 4) (rg 6))], Runs i lone ∧ lowestLane (viewAt i lone).act = some 0 ∧
      barFate lone (viewAt i lone) (laneAddr (viewAt i lone).g (opOf i) 0) = .here key40) ∧
    lanesSettled lone 0 1 = true ∧ lone.poisoned key40 16 = false ∧ (readBar lone key40).phase ≠ 16 ∧ (readBar lone key40).over' = false :=
  ⟨inv_lone, fun i hi => ⟨runs_of (by revert i; decide), by revert i; decide⟩, by decide⟩

theorem wit_PrefetchAndPinning : Quiet dev0 ∧ ∀ i ∈ [Instr.ipf (mk .none .none (rg 4) (rg 6)), .ipin (mk .none (.pred 1) (rg 4) (rg 6)),
    .iunpin (mk .none .none (rg 4) (rg 6))], Runs i dev0 ∧ lowestLane (viewAt i dev0).act = some 0 ∧
      ownerOf (laneAddr (viewAt i dev0).g (opOf i) 0) = 0 :=
  ⟨quiet_of (by decide), fun i hi => ⟨runs_of (by revert i; decide), by revert i; decide⟩⟩

/-! ## Tiles -/

/-- The group claims every slot; the f32 accumulators have their header, slot 1 holds e4m3 rows for A and slot 2 for B. -/
def claimed : State :=
  let hdr (role : Nat) : SlotHdr := { fmt := Ty.code .e4m3, role := role, rows := 128, cols := tileCols .e4m3 }
  let s := dev0.modGroup 0 fun g => { g with claims := 0xFFFF }
  setHdr (setHdr s 0 1 (hdr 0)) 0 2 (hdr 1)

theorem wit_TileSlots : Inv claimed ∧
    (∀ i ∈ [Instr.mclaim (mk .none (.pred 1) (imm := 3)), .mrel (bare 3), .mzero (bare 3), .mmov .to (mk .b32 .none (rg 6)),
      .mmov .from (mk .b32 v2), .mmov .toa (mk .f16 .none (rg 6)), .mmov .tob (mk .f16 .none (rg 6)), .mwait (bare 0), .mxv (mk .bf16 .none (rg 6)),
      .mcntRd (mk .b32 v2), .mcntRr (mk .b32 v2)], Runs i claimed ∧ (viewAt i claimed).act = 1 ∧ (viewAt i claimed).g.claims = 0xFFFF) ∧
    slotsBusy claimed 0 0xFFFF = false ∧ claimedFirst claimed 0 3 = false ∧ othersClaims claimed 0 = 0 ∧ claimed.matq = [] :=
  ⟨inv_of (by decide), fun i hi => ⟨runs_of (by revert i; decide), by revert i; decide⟩, by decide⟩

/-- The work of one matrix unit's operation, waiting. -/
def matOp (w : MatWork) : MatOp :=
  { id := 9, grp := 0, seq := 9, pc := 0, handler := false, ctx := 0, part := 0, slots := 2, work := w }
def unit0 (w : MatWork) : State := { setHdr claimed 0 3 { fmt := Ty.code .e4m3, role := 0, rows := 1, cols := 2 } with matq := [matOp w] }

def mld1 : Instr := .mld .same .stream (mk .e4m3 .none (rg 4) (rg 6) un 5)
def mst1 : Instr := .mst false (mk .e4m3 .none (rg 4) (rg 6) un 1)
def mma1 : Instr := .mma .e4m3 (bare 0x10218)
def mmas1 : Instr := .mmas .mxf8e4 (bare 0x10218)
/-- The same with mxf8 tiles, whose scales stand in slot 12. -/
def claimedMx : State :=
  let hdr (role : Nat) : SlotHdr := { fmt := Ty.code .mxf8, role := role, rows := 128, cols := tileCols .mxf8, sslot := 12 }
  setHdr (setHdr claimed 0 1 (hdr 0)) 0 2 (hdr 1)

theorem free_of {s : State} (v : View) (slots : List Nat) (h : s.matq = []) : SlotsFree s v slots := by
  intro x hx; rw [h] at hx; cases hx

/-- mld and mst complete their issue, in slots 5 and 1. -/
theorem wit_MatrixWork_issue :
    (Runs mld1 claimed ∧ lowestLane (viewAt mld1 claimed).act = some 0 ∧ SlotsFree claimed (viewAt mld1 claimed) [5] ∧
      (viewAt mld1 claimed).g.claims.getLsbD 5 = true ∧ Role.stream ≠ .scale ∧ acquirePending claimed 0 1 = false ∧
      lanesSettled claimed 0 1 = true) ∧
    (Runs mst1 claimed ∧ lowestLane (viewAt mst1 claimed).act = some 0 ∧ SlotsFree claimed (viewAt mst1 claimed) [1] ∧
      (viewAt mst1 claimed).g.claims.getLsbD 1 = true ∧ Ty.code .e4m3 = (slotHdr claimed 0 1).fmt ∧
      frozenRanges claimed 0 0 ((List.range (slotHdr claimed 0 1).rows).map fun r => (addr 0x200 (r * 16), mstRowBytes (slotHdr claimed 0 1) .e4m3)) = .clear) :=
  ⟨⟨runs_of (by decide), by decide, free_of _ _ rfl, by decide⟩, runs_of (by decide), by decide, free_of _ _ rfl, by decide⟩

/-- mma and mmas complete their issue, and the matrix forms do nothing with no active lane. -/
theorem wit_MatrixWork_multiply :
    (Runs mma1 claimed ∧ (viewAt mma1 claimed).act ≠ 0 ∧ SlotsFree claimed (viewAt mma1 claimed) (mmaSlots 0x10218).named ∧
      TilesReady claimed (viewAt mma1 claimed) .e4m3 (mmaSlots 0x10218)) ∧
    (Runs mmas1 claimedMx ∧ (viewAt mmas1 claimedMx).act ≠ 0 ∧
      SlotsFree claimedMx (viewAt mmas1 claimedMx) ((mmaSlots 0x10218).named ++ (scaleSlots claimedMx 0 (mmaSlots 0x10218)).map (·.1)) ∧
      TilesReady claimedMx (viewAt mmas1 claimedMx) .mxf8e4 (mmaSlots 0x10218) ∧
      (∀ x ∈ scaleSlots claimedMx 0 (mmaSlots 0x10218), 16 * x.2.2.soff + scaleBytes x.2.1 ≤ 16384 ∧
        (viewAt mmas1 claimedMx).g.claims.getLsbD x.1 = true ∧ x.1 / 4 ≠ (mmaSlots 0x10218).d / 4) ∧
      scaleSlots claimedMx 0 (mmaSlots 0x10218) ≠ []) ∧
    (let off (i : Instr) (o : Op) : Prop := Runs i claimed ∧ (opOf i) = o ∧ (viewAt i claimed).act = 0
     let c : Ctl := { cl with gn := true }
     off (.mld .same .stream { opOf mld1 with ctl := c }) { opOf mld1 with ctl := c } ∧
      off (.mma .e4m3 { opOf mma1 with ctl := c }) { opOf mma1 with ctl := c }) :=
  ⟨⟨runs_of (by decide), by decide, free_of _ _ rfl, ⟨by decide, by decide, by decide, by decide⟩⟩,
    ⟨runs_of (by decide), by decide, free_of _ _ rfl, ⟨by decide, by decide, by decide, by decide⟩, by decide, by decide⟩,
    ⟨runs_of (by decide), by decide, by decide⟩, runs_of (by decide), by decide, by decide⟩

def mstWork : MatWork := .mst false .e4m3 3 0x200 2
def mldWork : MatWork := .mld .same .scale .e4m3 0x303 0x200 2
/-- One stored row, again for every row. -/
def mldRow : MatWork := .mld .same .stream .e4m3 5 0x200 0
def mldConv : MatWork := .mld .xbf16 .stream .e4m3 5 0x200 0
def mstConv : MatWork := .mst false .bf16 3 0x200 4
def mmaWork : MatWork := .mma false .e4m3 0x10218
/-- Slot 3 holds a row of two f32 elements. -/
def unitF (w : MatWork) : State := setHdr (unit0 w) 0 3 { fmt := Ty.code .f32, role := 2, rows := 1, cols := 2 }
/-- Slots 1 and 2 hold l8 rows. -/
def unitL (w : MatWork) : State :=
  let hdr (role : Nat) : SlotHdr := { fmt := Ty.code .l8, role := role, rows := 128, cols := tileCols .l8 }
  setHdr (setHdr (unit0 w) 0 1 (hdr 0)) 0 2 (hdr 1)

/-- matrixOpComplete completes, for each kind of work. -/
theorem wit_MatrixOpComplete : ∀ s ∈ [unit0 mmaWork, unitL mmaWork, unit0 mldRow, unit0 mldConv, unit0 mldWork, unit0 mstWork, unitF mstConv],
    (∃ x, s.matq.filter (fun y => y.part == 0) = [x]) ∧ dieRuns s (dieOf 0) = true ∧ Memory.wf s.mem = true ∧ Memory.wf s.tile = true ∧
    s.group 0 = some (viewAt iadd2 s).g ∧ tget s.blocks (viewAt iadd2 s).g.blk = some (viewAt iadd2 s).b ∧ Quiet s := by
  intro s hs
  have h : (dieRuns s (dieOf 0) = true ∧ Memory.wf s.mem = true ∧ Memory.wf s.tile = true) ∧
    s.group 0 = some (viewAt iadd2 s).g ∧ tget s.blocks (viewAt iadd2 s).g.blk = some (viewAt iadd2 s).b := by revert s; decide
  refine ⟨?_, h.1.1, h.1.2.1, h.1.2.2, h.2.1, h.2.2, quiet_of (by revert s; decide)⟩
  simp only [List.mem_cons, List.not_mem_nil, or_false] at hs
  rcases hs with rfl | rfl | rfl | rfl | rfl | rfl | rfl <;> exact ⟨_, rfl⟩

/-- The tiles of the two multiplications. -/
theorem wit_MatrixOpComplete_tiles :
    (∀ x ∈ [(unit0 mmaWork, Ty.e4m3), (unitL mmaWork, Ty.l8)], (slotHdr x.1 0 (mmaSlots 0x10218).a).fmt = Ty.code x.2 ∧
      (slotHdr x.1 0 (mmaSlots 0x10218).b).fmt = Ty.code x.2) ∧ Ty.e4m3 ∈ linearTiles := by decide

/-- The bytes of a row that an MLD reads, with and without a conversion, and of a region of scales. -/
theorem wit_MatrixOpComplete_reads : ∀ s ∈ [unit0 mldRow, unit0 mldConv, unit0 mldWork],
    ∀ r j, j < 256 → ByteAt s (viewAt iadd2 s).b (addr 0x200 (r * 0 + j)) 0 := by
  intro s hs r j hj
  rw [Nat.mul_zero, Nat.zero_add]
  exact byte_of (0x200 + j) (by revert j; revert s; decide +kernel)

/-- The bytes that an MST writes, of a slot's own format and with a conversion from f32. -/
theorem wit_MatrixOpComplete_writes : ∀ x ∈ [(unit0 mstWork, Ty.e4m3, 2), (unitF mstConv, Ty.bf16, 4)],
    tilePoisoned x.1 0 3 0 16384 = false ∧ mstRowBytes (slotHdr x.1 0 3) x.2.1 = x.2.2 ∧ (slotHdr x.1 0 3).rows = 1 ∧
    heldAtPod x.1 (dieOf 0) 0 (addr 0x200 0) x.2.2 = false ∧
    ∀ j, j < 4 → okIs (vaKey x.1 (viewAt iadd2 x.1).b true (addr 0x200 (0 * x.2.2 + j))) (0x200 + j) = true := by decide +kernel

/-- R256: a stored row of every format but t3 takes 128 bytes. -/
theorem test_tile_rows : ∀ ty ∈ [Ty.f32, .bf16, .f16, .e4m3, .e5m2, .i8, .mxf8, .mxi8, .kf4, .l8, .l4],
    tileCols ty * storedBits ty / 8 = 128 := by decide

/-- R120, R263: 0xC8 as i8 is -56 and the first trit of 0x65 is -1; the next ones are -56 and 0. -/
theorem test_i8_by_t3 :
    let hdr (ty : Ty) (role : Nat) : SlotHdr := { fmt := Ty.code ty, role := role, rows := 128, cols := 128 }
    let s := tileWrite (tileWrite (setHdr (setHdr dev0 0 1 (hdr .i8 0)) 0 2 (hdr .t3 1)) 0 1 0 [0xC8, 0xC8]) 0 2 0 [0x65]
    product s false (tileOf s 0 1) (tileOf s 0 2) 0 0 0 = .fin false 56 1 ∧
      (product s false (tileOf s 0 1) (tileOf s 0 2) 0 0 1).isZero = true := by decide

/-! ## Events of a core -/

/-- Group 0 as f makes it. -/
def withGroup (f : Group → Group) (s : State := dev0) : State := s.modGroup 0 f

def tired : State := withGroup fun g => { g with active := g.active.map fun p => { p with run := 256 } }
def passed : State := { withGroup fun g => { g with passedSince := some 0 } with dies := dev0.dies.set 0 { dev0.dies[0] with clk := 1024 } }
/-- The group's next instruction waits for the load of v4. -/
def stuck : State :=
  { holding iadd2 (withGroup fun g => { g with flight := [4] }) with
    reqs := [{ id := 5, grp := 0, seq := 5, pc := 0, handler := false, ctx := 0, port := 0, kind := .load, size := 4, signed := false, req := .uc,
               mask := 1, dst := .vec 4, uniform := false, todo := [{ lane := 0, addr := 0x200 }] }] }
def refilled : State := withGroup fun g => { g with refills := [4, 6] }
def ending : State := withGroup fun g => { g with ending := true, ended := fullMask, active := [] }
/-- A second group of the same block. -/
def twoGroups : State := { ending with groups := ending.groups ++ [(4, { oneGroup 0 with idx := 1 })] }
/-- The split stands where no page is mapped. -/
def lost : State := trapping (withGroup fun g => { g with active := g.active.map fun p => { p with pc := 0x40000000 } })
/-- The split stands beyond the device space. -/
def beyond : State := trapping (withGroup fun g => { g with active := g.active.map fun p => { p with pc := 0x01000000000000 } })

theorem wit_CoreEvents :
    ((tired.group 0).isSome = true ∧ ∃ p ∈ (groupOf tired).active, 256 ≤ p.run) ∧
    ((groupOf passed).passedSince = some 0 ∧ 0 + 1024 ≤ dieClk passed 0) ∧
    (tget stuck.shadow 0 = none ∧ shadowGroup stuck 0 = some 0) ∧
    ((groupOf refilled).refills.head? = some 4 ∧ (tget (groupOf refilled).regs 4).isSome = true) ∧
    (∀ s ∈ [ending, twoGroups], (groupOf s).ending = true ∧ (groupOf s).trapEvent = none ∧ dieRuns s 0 = true ∧ groupQuiet s 0 = true) ∧
    ((twoGroups.groups.any fun e => e.1 != 0 && e.2.blk == (groupOf twoGroups).blk) = true ∧
      (ending.groups.any fun e => e.1 != 0 && e.2.blk == (groupOf ending).blk) = false) := by decide

theorem wit_CoreEvents_fetch :
    (∃ v, bareView (lost.at 0 0) = some v ∧ mayIssue lost 0 v.g = true ∧ v.sp.wait = none ∧ v.sp.denied = false ∧
      fetchWords lost v.b v.sp.pc 3 = .missing 0 0x4000 ∧ 0x4000 < peerPage 0) ∧
    (∃ v, bareView (beyond.at 0 0) = some v ∧ mayIssue beyond 0 v.g = true ∧ v.sp.wait = none ∧ v.sp.denied = false ∧ v.g.handler = false ∧
      fetchWords beyond v.b v.sp.pc 3 = .bad ∧ frameThere beyond v 0x1000 0x3000 ∧ Inv beyond) :=
  ⟨⟨_, rfl, by decide⟩, _, rfl, by decide, by decide, by decide, by decide, by decide, frame_of (by decide), inv_of (by decide)⟩

/-! ## Accesses under way -/

/-- Lane 0's access to device byte 0x200. -/
def acc : Access := { lane := 0, addr := 0x200 }
def op0 (kind : MemKind) (req : ReqTy := .uc) (todo : List Access := [acc]) (dst : Dst := .none) : MemOp :=
  { id := 5, grp := 0, seq := 5, pc := 0, handler := false, ctx := 0, port := 0, kind := kind, size := 4, signed := false, req := req, mask := 1,
    dst := dst, uniform := false, todo := todo }
/-- That access is under way, and port 0 has walked for its page. -/
def under (q : MemOp) : State := { dev0 with reqs := [q], tlb := [leafEntry 0 0 { base := 0, size := 2 ^ 21, frame := 0, remote := false, w := true, x := true }] }
def half (base : Nat) : Region := { base := base, size := 128, holder := some 1, conflict := 0 }
def fwd0 : Forwarded := { op := 5, core := 0, die := 1, ctx := 0, addr := 0x200, key := 0x200, bytes := [7] }
def recall0 : Recall := { die := 1, base := 0x200, size := 128, heir := none }

def arrived : State := under (op0 .load .uc [] (.vec 4))
def stored : State := under (op0 .store .wt [])
/-- Die 1 holds the line of a write that is on its way to it. -/
def sent : State := { dev0 with fwd := [fwd0], regions := [half 0x200] }
def siblings : State := { dev0 with regions := [half 0, half 128], lodge := 2 ^ 20 }
def holderless : State :=
  { under (op0 .load) with regions := [half 0x200], dies := dev0.dies.set 1 { dev0.dies[1] with drained := true } }

theorem wit_MemoryEvents :
    (∀ q ∈ [op0 .load, op0 .store .wt], servableAt (under q) 0 = [(q, acc)] ∧ 0 < q.size ∧
      resolved (under q) q acc = some (.at 0x200 true true false) ∧ (regionAt (under q) 0x200).holder = none ∧
      lineClear (under q) q acc 0x200 = true ∧ queueTurn (under q) q acc 0x200 = true ∧
      overwritten (under q) q acc 0x200 = false ∧ (under q).poisoned 0x200 4 = false) ∧
    ((arrived.reqs.find? fun r => r.id == 5) = some (op0 .load .uc [] (.vec 4)) ∧ linkOpen arrived 0 = true ∧ opPerformed arrived (op0 .load .uc [] (.vec 4)) = true ∧
      (op0 .load .uc [] (.vec 4)).handler = (groupOf arrived).handler ∧ (regOf (groupOf arrived) 4).isSome = true) ∧
    ((stored.reqs.find? fun r => r.id == 5) = some (op0 .store .wt []) ∧ opPerformed stored (op0 .store .wt []) = true ∧
      linkOpen stored 0 = true ∧ (op0 .store .wt []).returns = false) ∧
    (sent.fwd.find? (fun y => y.die == 1) = some fwd0 ∧ undrained sent 1 = false ∧ holderGone sent 1 = false ∧ linkOpen sent 1 = true ∧
      (regionAt sent fwd0.key).holder = some 1 ∧ fwd0.pod = false ∧ ownerOf fwd0.addr = 0) ∧
    (({ dev0 with recalls := [recall0] } : State).recalls.find? (fun y => y.base / 128 == 4) = some recall0 ∧ dev0.fwd = [] ∧
      linkOpen dev0 1 = true) ∧
    (siblings.regions.find? (fun r => r.base == 0 && r.size == 2 ^ 8 / 2) = some (half 0) ∧
      siblings.regions.find? (fun r => r.base == 0 + 2 ^ 8 / 2 && r.size == 2 ^ 8 / 2) = some (half 128) ∧ siblings.recalls = [] ∧
      0 + 2 ^ 20 ≤ siblings.lodge) ∧
    (holderless.reqs.filter (fun r => r.port == 0) = [op0 .load] ∧ resolved holderless (op0 .load) acc = some (.at 0x200 true true false) ∧
      (regionAt holderless 0x200).holder = some 1 ∧ holderGone holderless 1 = true) := by decide

/-- The worked example of R370. -/
theorem test_home_slice : homeSlice 0x427890 = 99 := by decide

/-! ## Translation -/

/-- The page of the access is not in a TLB; w: nor in a table. -/
def walking (a : DWord) : State := { dev0 with reqs := [op0 .load .uc [{ acc with addr := a }]], tlb := [] }

/-- Context 1's tables map page 0 to a host frame. -/
def tables : State :=
  { dev0 with mem := [(66, 1), (0x10000, 3), (0x10001, 0x10), (0x10002, 1), (0x11000, 3), (0x11001, 0x20), (0x11002, 1),
                      (0x12000, 3), (0x12001, 0x30), (0x12002, 1), (0x13000, 0x19), (0x13002, 2), (0x13006, 0x10)] }
def leaf1 : Leaf := { base := 0, size := 2 ^ 16, frame := hostKey 0 0x20000, remote := true, w := true, x := true }

def op1 : MemOp := { op0 .load .uc [{ acc with addr := 0x10 }] with ctx := 1 }
/-- An access of context 1 to that page is under way. -/
def tabled : State := { tables with reqs := [op1], tlb := [] }

theorem wit_TranslationEvents_walk :
    (needsWalk tabled 0 = some (op1, { acc with addr := 0x10 }, 1, 0) ∧ viaPod tabled op1 { acc with addr := 0x10 } = false ∧ Still tabled) ∧
    needsWalk (walking 0x40000000) 0 = some (op0 .load .uc [{ acc with addr := 0x40000000 }], { acc with addr := 0x40000000 }, 0, 0x4000) ∧
    walked (walking 0x40000000) 0 0x40000000 = .invalid 0 0x4000 ∧ Still (walking 0x40000000) := by decide
/-- An access waits on page 5 of context 0, of which the MMP knows. -/
def called : State :=
  { dev0 with reqs := [op0 .load .uc [{ acc with addr := 0x50000, faults := 1, waiting := some (0, 5) }]], mmp := [(0, 5)] }
/-- The third refault of an access. -/
def thrice : State := { walking 0x40000000 with reqs := [op0 .load .uc [{ acc with addr := 0x40000000, faults := 3 }]] }
/-- The MMP works on context 1's page 1, of which only the last entry is missing, and on a host page. -/
def repaired : State := { tables with mmp := [(1, 1), (1, 2 ^ 48)] }
/-- A load of context 1 waits for that page. -/
def op2 : MemOp := { op0 .load .uc [{ acc with addr := 0x10010, faults := 1, waiting := some (1, 1) }] with ctx := 1 }
def replayed : State := { repaired with reqs := [op2], tlb := [], dc := [], denied := [] }
/-- The same once page 1 has a leaf, at frame 0x20000. -/
def mapped1 : State := { replayed with mem := memWrite replayed.mem 0x13008 (leBytes 8 0x20009) }

theorem idle_of {s : State} (h : s.copies = [] ∧ s.matq = [] ∧ s.stalls = []) : AgentsIdle s := by
  obtain ⟨h1, h2, h3⟩ := h
  simp [AgentsIdle, h1, h2, h3]

theorem wit_TranslationEvents_mmp :
    ((0, 5) ∈ called.mmp ∧
      (let u := wakeText (failWaiting { called with mmp := called.mmp.filter (· != (0, 5)) } 0 5) 0 5 true
       (∀ f ∈ agents u, (0, 5) ∉ (afterwards u (f.2 u)).mmp ∧ (afterwards u (f.2 u)).blocked = false))) ∧
    (needsWalk thrice 0 = some (op0 .load .uc [{ acc with addr := 0x40000000, faults := 3 }], { acc with addr := 0x40000000, faults := 3 }, 0, 0x4000) ∧
      walked thrice 0 0x40000000 = .invalid 0 0x4000) ∧
    ((1, 1) ∈ repaired.mmp ∧ ctxSlot repaired 1 0x10000 false = some 0x13008 ∧ Still repaired ∧ repaired.reqs = []) ∧
    ((1, 2 ^ 48) ∈ repaired.mmp ∧ (0x20009#64).toNat % 2 = 1 ∧ (0x20009#64).toNat / 2 ^ 12 % 2 ^ 40 * 2 ^ 12 % 2 ^ 16 = 0) ∧
    AgentsIdle repaired ∧ Inv repaired :=
  ⟨by decide +kernel, by decide, by decide +kernel, by decide, idle_of (by decide), inv_of (by decide)⟩

/-- The load's page is mapped: it is replayed through the entry. -/
theorem wit_TranslationEvents_replay :
    Still replayed ∧ AgentsIdle replayed ∧ (1, 1) ∈ replayed.mmp ∧ portOpen replayed op2.port = true ∧
    placeGlobal replayed 0x10010 = .device 0x10010 ∧ ctxSlot replayed 1 0x10000 false = some 0x13008 ∧
    ∃ l, walk mapped1 1 0x10000 = some l ∧ peerOfKey (l.key 0x10010) = none ∧ (regionAt replayed (l.key 0x10010)).holder = none ∧
      replayed.poisoned (l.key 0x10010) 4 = false :=
  ⟨by decide, idle_of (by decide), by decide, by decide, by decide, by decide +kernel, _, rfl, by decide +kernel⟩

/-- A PTFENCE over a page of which a write waits for a die in reset has to wait; else it is made. -/
theorem wit_TranslationEvents_fence :
    let es (s : State) := s.tlb.filter (·.meets 0 0 (2 ^ 16))
    let held : State := { dev0 with fwd := [fwd0], dies := dev0.dies.set 1 { dev0.dies[1] with state := .resetting } }
    fenceBlocked held 0 (es held) = true ∧ fenceBlocked dev0 0 (es dev0) = false ∧ dev0.copies = [] := by decide

theorem wit_TranslationEvents_tables : walk tables 1 0 = some leaf1 ∧ walk tabled 1 0x10 = some leaf1 := ⟨by decide, by decide⟩
theorem wit_TranslationEvents_migration :
    ctxSlot tables 1 0 true = some 0x13000 ∧ leaf1.remote = true ∧ 0x30000 % leaf1.size = 0 ∧
    0x30000 + leaf1.size ≤ hbmBytes ∧ Inv tables ∧ (0x13000 + 8 ≤ leaf1.frame ∨ leaf1.frame + leaf1.size ≤ 0x13000) ∧
    (0x13000 + 8 ≤ devKey 0x30000 ∨ devKey 0x30000 + leaf1.size ≤ 0x13000) ∧ tables.frt = [] ∧ tables.reqs = [] ∧
    engineFree tables leaf1.frame = true ∧ Quiet tables ∧ AgentsIdle tables :=
  ⟨by decide, by decide, by decide, by decide, inv_of (by decide), by decide, by decide, by decide, by decide, by decide, quiet_of (by decide),
    idle_of (by decide)⟩

/-! ## Queues and the command processor -/

/-- Queue 0 of context 0, whose ring is at 0x8000 and whose control block is at 0x9000; one packet is notified. -/
def queue0 : Queue := { ctx := some 0, ring := 0x8000, ctrl := 0x9000, log2n := 4, maxPrio := 3, notify := 1 }
/-- Its first packet holds these bytes, named by their offsets. -/
def queued (cells : List (Nat × BitVec 8)) : State :=
  { dev0 with mem := cells.map (fun c => (0x8000 + c.1, c.2)), queues := [(0, queue0)] }
def header (kind : BitVec 8) : List (Nat × BitVec 8) := [(0, kind), (1, 1), (2, 1)]
/-- A LAUNCH of one block: its code object, at 0x8100, holds one native section and one kernel without a contract. -/
def launchCells : List (Nat × BitVec 8) :=
  header 1 ++ [(0x11, 0x81), (0x18, 1), (0x1C, 1), (0x20, 1)] ++
  [(0x100, 0x4B), (0x101, 0x57), (0x102, 0x4F), (0x103, 1), (0x104, 1), (0x108, 1), (0x10C, 1), (0x110, 64), (0x118, 96), (0x121, 1)] ++
  [(0x140, 2), (0x142, 1), (0x159, 1)] ++
  [(0x166, 1), (0x168, 64), (0x16A, 1), (0x16C, 1), (0x174, 8)] ++ (List.range 8).map (fun i => (0x178 + i, 0xFF)) ++
  (List.range 24).map fun i => (0x188 + i, 0xFF)

def packetBytes (cells : List (Nat × BitVec 8)) : List Byte := (queued cells).readBytes 0x8000 128

set_option maxRecDepth 8000 in
theorem packet_there : ∀ x ∈ [(2, header 2), (3, header 3), (4, header 4), (5, header 5), (1, launchCells)],
    PacketThere (queued x.2) 0 queue0 0 0x8000 (packetBytes x.2) x.1 := by
  intro x hx
  have h : serves (queued x.2) 0 queue0 = true ∧
      okIs (cpKeys (readAt (queued x.2) 10 0 0x8000 128 false) 0 true 0x9000 24) ((List.range 24).map (0x9000 + ·)) = true ∧
      okIs (cpRead (readAt (queued x.2) 10 0 0x8000 128 false) 0 0x8000 128) (leNat (packetBytes x.2)) = true ∧
      packetBytes x.2 = leBytes 128 (leNat (packetBytes x.2)) ∧
      (headerOf (fieldAt (packetBytes x.2) 0 8)).valid = true ∧ (headerOf (fieldAt (packetBytes x.2) 0 8)).kind = x.1 ∧ (1 ≤ x.1 ∧ x.1 ≤ 5) ∧
      (headerOf (fieldAt (packetBytes x.2) 0 8)).barrier = false ∧
      reasonsOf (headerReasons (headerOf (fieldAt (packetBytes x.2) 0 8)) 3) = [] := by revert x; decide +kernel
  obtain ⟨h1, h2, h3, h4, h5, h6, h7, h8, h9⟩ := h
  exact ⟨rfl, rfl, rfl, h1, quiet_of (by revert x; decide), ⟨_, ok_of h2⟩, ⟨_, ok_of h3, h4⟩, h5, h6, h7, fun hb => absurd (h8.symm.trans hb) (by decide), h9⟩

theorem wit_Packets_checks :
    goodIs (checkBarrierAnd (queued (header 2)) 0 (packetBytes (header 2))) = true ∧
    goodIs (checkCopy (queued (header 3)) 0 (packetBytes (header 3))) = true ∧ fieldAt (packetBytes (header 3)) 0x18 8 = 0 ∧
    (let c := header 3 ++ [(0x18, 4)]
     goodIs (checkCopy (queued c) 0 (packetBytes c)) = true ∧ fieldAt (packetBytes c) 0x18 8 = 4 ∧ enginesUsed (queued c) 0 < 16 ∧ (queued c).works = []) ∧
    goodIs (checkSignal (queued (header 4)) 0 (packetBytes (header 4))) = true ∧
    goodIs (checkNop (queued (header 5)) 0 (packetBytes (header 5))) = true := by decide +kernel

theorem wit_Packets_launch :
    let u := visitLaunch (readAt (queued launchCells) 10 0 0x8000 128 false) 0 (packetBytes launchCells)
    ∃ info, checkLaunchArgs u 0 (packetBytes launchCells) = .good info :=
  good_of (by decide +kernel)

def work (k : WorkKind) (signal : DWord := 0) : Work := { id := 7, queue := 0, index := 0, ctx := 0, signal := signal, kind := k }
def working (w : Work) : State := { queued [] with works := [w] }

theorem wit_Packets_complete :
    (∀ w ∈ [work .finished, work .finished 0x200], (working w).works.find? (fun x => x.id == 7) = some w) ∧
    agentHeld (working (work .finished 0x200)) 10 0 0x200 8 = false ∧ cpKey (working (work .finished 0x200)) 0 true 0x200 = .ok 0x200 ∧
    (working (work .finished 0x200)).poisoned 0x200 8 = false ∧ Quiet (working (work .finished 0x200)) :=
  ⟨by decide, by decide, rfl, by decide, quiet_of (by decide)⟩

/-- Four bytes are left of a copy from 0x204 to 0x300, on an engine of Gondola 0. -/
def moving : State := working (work (.copy 0 (some 0) 0x204 0x300 4 []))

def pieceIs (e : Checked (List Byte × List Host.Cell)) (x : List Byte × List Host.Cell) : Bool :=
  match e with | .good y => decide (y = x) | _ => false

theorem piece_of {e : Checked (List Byte × List Host.Cell)} {x : List Byte × List Host.Cell} (h : pieceIs e x = true) : e = .good x := by
  cases e <;> simp_all [pieceIs]

theorem wit_Packets_copy :
    moving.works.find? (fun x => x.id == 7) = some (work (.copy 0 (some 0) 0x204 0x300 4 [])) ∧ portOpen moving 8 = true ∧
    min 4 (128 * (0 + 1) - (0x300#64).toNat % 128) = 4 ∧ wordsFor 0x204 0 4 4 = 4 ∧ agentHeld moving 8 0 0x300 4 = false ∧
    Inv moving ∧ Quiet moving ∧ NoneWaits moving ∧
    copyPiece (readAt moving 8 0 0x204 4 false) 0 0 0x204 0x300 [] 4 4 = .good ([], [(0x300, 0), (0x301, 0), (0x302, 0), (0x303, 0)]) := by
  have h : moving.works.find? (fun x => x.id == 7) = some (work (.copy 0 (some 0) 0x204 0x300 4 [])) ∧ portOpen moving 8 = true ∧
    min 4 (128 * (0 + 1) - (0x300#64).toNat % 128) = 4 ∧ wordsFor 0x204 0 4 4 = 4 ∧ agentHeld moving 8 0 0x300 4 = false := by decide
  refine ⟨h.1, h.2.1, h.2.2.1, h.2.2.2.1, h.2.2.2.2, inv_of (by decide), quiet_of (by decide), ?_, piece_of (by decide +kernel)⟩
  intro w hw want src dst left carry h
  rw [List.mem_singleton.mp hw] at h
  cases h

/-- A device-side launch of the same record waits; its status word is at 0x300. -/
def launch0 : DevLaunch := { ctx := 0, core := 0, grp := 0, prio := 3, record := 0x8000, status := 0x300 }
def launched : State := { queued launchCells with launches := [launch0] }

/-- The same once the record has been read, and what it names. -/
def launchedV : State := readAt launched 10 0 0x8000 128 false
def launchedU : State := visitLaunch launchedV 0 (leBytes 128 (leNat (packetBytes launchCells)))

theorem wit_Packets_device : launched.launches[0]? = some launch0 ∧ launch0.dead = false ∧ Quiet launched ∧
    okIs (cpRead launchedV 0 0x8000 128) (leNat (packetBytes launchCells)) = true ∧
    ∃ info, checkLaunchArgs launchedU 0 (leBytes 128 (leNat (packetBytes launchCells))) = .good info ∧
      ((acceptGrid launchedU 0 0 (.device 0x300) 4096 info).any fun x => (writeStatus x.2 0 0x300 1 0).isSome) = true := by
  refine ⟨by decide, rfl, quiet_of (by decide), by decide +kernel, ?_⟩
  obtain ⟨info, h⟩ : ∃ x, checkLaunchArgs launchedU 0 (leBytes 128 (leNat (packetBytes launchCells))) = .good x :=
    good_of (by decide +kernel)
  refine ⟨info, h, ?_⟩
  have hb : (match checkLaunchArgs launchedU 0 (leBytes 128 (leNat (packetBytes launchCells))) with
    | .good info => (acceptGrid launchedU 0 0 (.device 0x300) 4096 info).any fun x => (writeStatus x.2 0 0x300 1 0).isSome
    | _ => false) = true := by decide +kernel
  rw [h] at hb
  exact hb

/-- Context 0 is valid; its queue table is at 0x8000, and describes queue 0. -/
def contexts : State := { dev0 with
  mem := [(25, 0x80), (48, 1), (0x8001, 0xA0), (0x8009, 0x90), (0x8010, 4), (0x8013, 0x80)] }

theorem three {a b c : DWord} {p : DWord → Prop} (ha : p a) (hb : p b) (hc : p c) : ∀ v ∈ [a, b, c], p v := by
  intro v hv
  simp only [List.mem_cons, List.not_mem_nil, or_false] at hv
  rcases hv with rfl | rfl | rfl <;> assumption

/-- Nothing is left of the context. -/
def freeing : State := { dev0 with teardowns := [0], groups := [], blocks := [] }

theorem wit_QueueCommands :
    (ready (queued []) = true ∧ queue0.ctx = some 0 ∧ queue0.halted = false ∧ 1 ≤ queue0.read.toNat + 2 ^ queue0.log2n) ∧
    (∀ c ∈ [header 5, []], let s : State := { queued c with queues := [(0, { queue0 with heldHeader := true })] }
      tget s.queues 0 = some { queue0 with heldHeader := true } ∧ Quiet s ∧
      ∃ w, cpRead (readAt s 10 0 queue0.packetAt 8 false) 0 queue0.packetAt 8 = .ok w) ∧
    (∀ v ∈ [1#64, 2, 3], v &&& cpCmdReserved = 0 ∧ (cpCmdOf v).cmd = v.toNat ∧ (cpCmdOf v).queue = 0 ∧ (cpCmdOf v).ctx = 0) ∧
    (ready contexts = true ∧ cpcmdBusy contexts = false ∧ ctxValid contexts 0 = true ∧ tget contexts.queues 0 = none) ∧
    (0 ∈ freeing.teardowns ∧ contextBusy freeing 0 = false ∧ (Memory.wf freeing.mem && Memory.wf freeing.tile) = true ∧ Still freeing ∧
      ((tget freeing.outbox 8).getD {}).recs.length < 32) :=
  ⟨by decide, fun c hc => by
      simp only [List.mem_cons, List.not_mem_nil, or_false] at hc
      rcases hc with rfl | rfl
      · exact ⟨rfl, quiet_of (by decide), 0x10105, ok_of (by decide +kernel)⟩
      · exact ⟨rfl, quiet_of (by decide), 0, ok_of (by decide +kernel)⟩,
    three ⟨rfl, rfl, rfl, rfl⟩ ⟨rfl, rfl, rfl, rfl⟩ ⟨rfl, rfl, rfl, rfl⟩, by decide, by decide⟩

theorem wit_QueueCommands_enable :
    let begun : State := { contexts with cpcmd := 0x8000000000000000#64 ||| (contexts.cpcmd &&& 0x00FF000000000000#64) ||| (1 &&& cpCmdMask) }
    let u := readAt begun 10 0 (ctxQtable contexts 0) 64 false
    Quiet contexts ∧ ∃ n r, cpRead u 0 (ctxQtable contexts 0) 64 = .ok n ∧ descriptorOk (leBytes 64 n) 0 = true ∧
      cpRead (readAt u 10 0 (BitVec.ofNat 64 (fieldAt (leBytes 64 n) 8 8)) 8 false) 0 (BitVec.ofNat 64 (fieldAt (leBytes 64 n) 8 8)) 8 = .ok r :=
  ⟨quiet_of (by decide), 0x80000004_0000000000009000_000000000000A000, 0, ok_of (by decide +kernel), by decide +kernel, ok_of (by decide +kernel)⟩

/-! ## Grids and blocks -/

/-- Grid 5 forces the native class of the only running die. -/
def gridN (cls : Option Machine.Class) (texts : Table TextState) : Grid := { grid0 with flags := 16, cls := cls, texts := texts, spanSize := 1 }
def pending (g : Grid) : State := { dev0 with grids := [(5, g)] }
def boundGrid : Grid := gridN (some .m) [(1, .ready 0x4000 false false)]
def first0 : Grid := { gridN (some .m) [] with firstSince := some 0 }
def starving : State := { pending first0 with lodge := 200000 }

theorem wit_Dispatch_bind :
    let s := pending (gridN none [])
    ready s = true ∧ tget s.grids 5 = some (gridN none []) ∧ bindClass s (gridN none []) = some (some .m) ∧
    (presentDies s .m).isEmpty = false ∧ neverResident s (gridN none []) .m = false ∧ Still s ∧
    ((pendingGrids s).takeWhile fun e => e.1 != 5) = [] := by decide

/-- An earlier grid has its class, and nothing of it can start: its text is being translated. -/
theorem wit_Dispatch_bind_later :
    let s : State := { dev0 with grids := [(4, gridN (some .m) [(1, .translating 9)]), (5, { gridN none [] with stamp := 1 })] }
    ((pendingGrids s).takeWhile fun e => e.1 != 5).map (·.1) = [4] ∧
    ((pendingGrids s).takeWhile fun e => e.1 != 5).all (fun e => e.2.cls.isSome && (visit s e.1 e.2).isNone) = true := by decide +kernel

theorem wit_Dispatch_starvation :
    tget starving.grids 5 = some first0 ∧ (firstOf starving .m).map (·.1) = some 5 ∧ 0 + 100 * lodgePerUs ≤ starving.lodge := by decide

/-- Any core of the die would do; the statement is about what is placed. -/
theorem wit_Dispatch_unit :
    ready (pending boundGrid) = true ∧ tget (pending boundGrid).grids 5 = some boundGrid ∧ boundGrid.cls = some .m ∧
    nextUnits (pending boundGrid) 5 boundGrid = [.fresh 0] ∧ heldOn (pending boundGrid) 5 .m = false ∧
    textOf boundGrid .m = some (0x4000, false, false) ∧
    (placeUnit (pending boundGrid) .m (unitOf boundGrid (unitBlocks boundGrid 0))).isSome = true := by decide +kernel

/-- A record of one group for entry 1 of core 1. -/
def bind1 : BindRec := bindRecOf { key := 5, grid := boundGrid, lin := 0, text := 0x4000, emu := false, save := none, cores := [1], member := 0,
                                   window := none, berth := { core := 1, entry := 1, baseP := 0, slots := [0], scrBase := 0,
                                                              demand := { groups := 1, scratch := 256, regs := 0 } } }
def binding : State := { pending boundGrid with binds := [(65, bind1)] }

theorem wit_Dispatch_record :
    tget binding.binds (1 * 64 + 1) = some bind1 ∧ BindRec.field bind1.ctrl 63 1 = 1 ∧ (∀ e ∈ binding.blocks, e.2.core ≠ 1 ∨ e.2.entry ≠ 1) ∧
    BindRec.field bind1.ctrl 62 1 = 0 ∧ dieRuns binding (1 / 32) = true ∧ bindOk binding 1 bind1 = true ∧ unitOk binding 1 1 bind1 = true ∧
    (blockOf binding 1 1 bind1).isSome = true := by decide +kernel

/-- A grid that waits for translation 9 of its kernel, whose records are KERNEL, REGION and END. -/
def translatingGrid : Grid := gridN (some .m) [(1, .translating 9)]
def apfCells : List (Nat × BitVec 8) :=
  [(0, 0x4B), (1, 0x57), (2, 0x4F), (3, 1), (4, 1), (8, 1), (12, 1), (16, 64), (24, 96), (33, 2), (64, 1), (81, 1), (88, 48),
   (102, 1), (104, 64), (106, 1), (108, 1)] ++ (List.range 32).map (fun i => (128 + i, 0xFF)) ++
  [(256, 0xFF), (260, 1), (264, 3), (272, 0xFF), (273, 1), (288, 0x7F), (289, 1)]
def translating : State :=
  { pending translatingGrid with mem := apfCells.map fun c => (0x4000 + c.1, c.2)
                                 tcache := [{ id := 9, hash := 0, kindex := 0, devHash := 0, state := .running, used := 9, starter := 5 }] }

/-- The area for translations is empty: any text that fits it has a place. -/
theorem room_for (s : State) (e : TcEntry) (n : Nat) (h : n ≤ 2 ^ 28) (he : e.state = .running) : tcRoom s n 2 [e] = some (textArea, [e]) := by
  have hr : textHole n [e] = some textArea := by
    unfold textHole
    generalize (2 : Nat) ^ 28 = m at h ⊢
    generalize textArea = a
    simp [he, sortBy, insertBy, h]
  simp only [tcRoom, hr]

theorem text_lt : textArea < 2 ^ 64 := by
  have hm := Nat.mod_lt Config.textPlace.toNat (y := hbmBytes) (Nat.two_pow_pos 39)
  have hd := Nat.div_mul_le_self (Config.textPlace.toNat % hbmBytes) (2 ^ 28)
  have h39 : hbmBytes < 2 ^ 64 := Nat.pow_lt_pow_right (by decide) (by decide)
  have h0 : 0 < (2:Nat)^64 := Nat.two_pow_pos 64
  unfold textArea
  generalize (2:Nat)^28 = m at *
  generalize (2:Nat)^64 = M at *
  generalize hbmBytes = h at *
  generalize spillArea = sa
  generalize spillBytes = sb
  dsimp only
  split
  · omega
  · split
    · exact h0
    · omega

theorem find_none (a m n : Nat) (hn : 0 < n) (hm : 0 < m) :
    (sortBy (fun a b => decide (a < b)) [a, a + m]).find? (fun x => decide (x + n ≤ a + m) && [(a, m)].all fun r => decide (x + n ≤ r.1 ∨ r.1 + r.2 ≤ x)) = none := by
  have h1 : ∀ x ∈ [a, a + m], (decide (x + n ≤ a + m) && [(a, m)].all fun r => decide (x + n ≤ r.1 ∨ r.1 + r.2 ≤ x)) = false := by
    intro x hx
    simp only [List.mem_cons, List.not_mem_nil, or_false] at hx
    simp only [List.all_cons, List.all_nil, Bool.and_true, Bool.and_eq_false_iff, decide_eq_false_iff_not]
    omega
  simp only [sortBy, insertBy, List.find?_eq_none]
  intro x hx
  rw [h1 x ?_]
  · simp
  · split at hx <;> simp only [List.mem_cons, List.not_mem_nil, or_false] at hx ⊢ <;> omega

theorem hole_whole (e f : TcEntry) (n m : Nat) (q : ApfProg) (h : 0 < n) (hm : m = 2 ^ 28) (he : e.state = .running)
    (hf : f.state = .text (BitVec.ofNat 64 textArea) m q) : textHole n [e, f] = none := by
  have ht : (BitVec.ofNat 64 textArea).toNat = textArea := by
    rw [BitVec.toNat_ofNat]
    exact Nat.mod_eq_of_lt text_lt
  have hm0 : 0 < m := hm ▸ Nat.two_pow_pos 28
  unfold textHole
  rw [List.filterMap_cons, he]
  dsimp only
  rw [List.filterMap_cons, hf, List.filterMap_nil]
  dsimp only
  rw [ht, ← hm]
  generalize textArea = a
  exact find_none a m n h hm0

theorem pinned_whole (s : State) (f : TcEntry) (b : Nat × Saved) (m : Nat) (q : ApfProg) (hm : 0 < m)
    (hs : s.saved = [b]) (hb : b.2.blk.text = BitVec.ofNat 64 textArea)
    (hf : f.state = .text (BitVec.ofNat 64 textArea) m q) : tcPinned s f = true := by
  have h : f.holds (BitVec.ofNat 64 textArea) = true := by
    unfold TcEntry.holds
    rw [hf]
    dsimp only
    generalize (BitVec.ofNat 64 textArea).toNat = a
    rw [Bool.and_eq_true, decide_eq_true_eq, decide_eq_true_eq]
    omega
  unfold tcPinned
  rw [hf]
  dsimp only
  rw [hs, List.any_cons, hb, h, Bool.true_or, Bool.or_true, Bool.true_or]

/-- A saved block stands in a text that takes the whole area: nothing can be evicted. -/
theorem no_room_for (s : State) (e f : TcEntry) (b : Nat × Saved) (q : ApfProg) (n k m : Nat) (h : 0 < n) (hm : m = 2 ^ 28) (he : e.state = .running)
    (hs : s.saved = [b]) (hb : b.2.blk.text = BitVec.ofNat 64 textArea)
    (hf : f.state = .text (BitVec.ofNat 64 textArea) m q) : tcRoom s n k [e, f] = none := by
  have h1 : tcPinned s e = true := by unfold tcPinned; rw [he]
  have h2 := pinned_whole s f b m q (hm ▸ Nat.two_pow_pos 28) hs hb hf
  cases k with
  | zero => rfl
  | succ k =>
    unfold tcRoom
    rw [hole_whole e f n m q h hm he hf, List.filter_cons, List.filter_cons, h1, h2]
    rfl

theorem wit_Dispatch_translation :
    (translating.tcache.find? fun e => e.id == 9 && e.state == .running).isSome = true ∧
    (let waiting := translating.grids.filter fun e => e.2.texts.any fun t => t.2 == .translating 9
     ((waiting.find? fun x => x.1 == 5).orElse fun _ => waiting.head?) = some (5, translatingGrid)) ∧
    (∃ rs, apfRecords translating translatingGrid (5 != 5) = .good rs ∧ ∃ ker, apfKernel rs = some ker ∧ ker.ok rs = true ∧
      (max (0 % 2 ^ 29) (12 * ker.recs.length) + 255) / 256 * 256 = 256) ∧
    ∃ a l, tcRoom translating 256 (translating.tcache.length + 1) translating.tcache = some (a, l) := by
  refine ⟨rfl, rfl, ?_, _, _, room_for _ _ _ (by decide) rfl⟩
  have hb : (match apfRecords translating translatingGrid (5 != 5) with
    | .good rs => (apfKernel rs).any fun k => k.ok rs && (max (0 % 2 ^ 29) (12 * k.recs.length) + 255) / 256 * 256 == 256
    | _ => false) = true := by decide +kernel
  generalize apfRecords translating translatingGrid (5 != 5) = e at hb
  cases e
  · cases hb
  · cases hb
  · obtain ⟨k, hk, h⟩ := (Option.any_eq_true _ _).mp hb
    simp only [Bool.and_eq_true, beq_iff_eq] at h
    exact ⟨_, rfl, k, hk, h⟩

/-- A block saved from a text that takes the whole area for translations. -/
def whole : Saved :=
  { blk := { (viewAt iadd2 dev0).b with text := BitVec.ofNat 64 textArea }, groups := [], area := 0, size := 0, waitPage := none }
/-- That text, of m bytes, and the translation that wants a place. -/
def crowded (m : Nat) : State :=
  { translating with saved := [(0, whole)]
                     tcache := [{ id := 9, hash := 0, kindex := 0, devHash := 0, state := .running, used := 9, starter := 5 },
                       { id := 8, hash := 1, kindex := 0, devHash := 0, used := 8, starter := 4, state := .text (BitVec.ofNat 64 textArea) m { recs := [] } }] }

theorem wit_Dispatch_noroom (m : Nat) (hm : m = 2 ^ 28) :
    ((crowded m).tcache.find? fun e => e.id == 9 && e.state == .running).isSome = true ∧
    (let waiting := (crowded m).grids.filter fun e => e.2.texts.any fun t => t.2 == .translating 9
     ((waiting.find? fun x => x.1 == 5).orElse fun _ => waiting.head?) = some (5, translatingGrid)) ∧
    tcRoom (crowded m) 256 ((crowded m).tcache.length + 1) (crowded m).tcache = none :=
  ⟨rfl, rfl, no_room_for (crowded m) _ _ (0, whole) { recs := [] } 256 _ m (by decide) hm rfl rfl rfl rfl⟩

/-- Its kernel is a good one. -/
theorem wit_Dispatch_noroom_kernel :
    (match apfRecords (crowded (2 ^ 28)) translatingGrid (5 != 5) with
    | .good rs => (apfKernel rs).any fun k => k.ok rs && (max (0 % 2 ^ 29) (12 * k.recs.length) + 255) / 256 * 256 == 256
    | _ => false) = true := by decide +kernel

/-- Records that are no kernel, and a kernel with too large a text: the translation fails. -/
theorem wit_Dispatch_malformed : apfKernel [] = none ∧ 2 ^ 28 < (max (2 ^ 28 + 1) (12 * 3) + 255) / 256 * 256 := ⟨rfl, by decide⟩

/-! ## Saving -/

/-- The only block drains; its context's save pool is 64 KiB at 0x10000. -/
def draining : State :=
  let s := setPhase dev0 [0] .draining
  { s with mem := [(34, 1), (42, 1)] }

def drainingB : Block := (viewAt iadd2 draining).b
/-- The reservations of its groups are gone. -/
def drainingU : State :=
  { draining with resv := draining.resv.filter fun r => !(draining.groups.any fun e => e.1 == r.grp && [0].contains e.2.blk) }

/-- preemptionSave completes: the hypotheses of the clause about one block, and of those about its unit. -/
theorem wit_SaveAndRestore_save :
    tget draining.blocks 0 = some drainingB ∧ draining.blocks.filter (fun e => e.1 == 0) = [(0, drainingB)] ∧ companions draining 0 drainingB = [0] ∧
    drainingB.phase = .draining ∧ dieRuns draining (drainingB.core / 32) = true ∧ drained draining 0 = true ∧ Inv draining ∧ Quiet draining ∧
    saveAreas drainingU drainingB.ctx [saveImage drainingU 0 drainingB] [] = some [0x10000] ∧
    missingArea drainingU drainingB.ctx ([0x10000].zip [saveImage drainingU 0 drainingB]) = none ∧
    ∃ cells, cpCells draining drainingB.ctx (BitVec.ofNat 64 0x10000) (saveImage drainingU 0 drainingB) = .ok cells ∧ (cells.map (·.1)).Nodup := by
  have h : tget draining.blocks 0 = some drainingB ∧ draining.blocks.filter (fun e => e.1 == 0) = [(0, drainingB)] ∧
      companions draining 0 drainingB = [0] ∧ drainingB.phase = .draining ∧ dieRuns draining (drainingB.core / 32) = true ∧
      drained draining 0 = true := by decide
  refine ⟨h.1, h.2.1, h.2.2.1, h.2.2.2.1, h.2.2.2.2.1, h.2.2.2.2.2, inv_of (by decide), quiet_of (by decide), by decide +kernel, by decide +kernel, ?_⟩
  have hb : (match cpCells draining drainingB.ctx (BitVec.ofNat 64 0x10000) (saveImage drainingU 0 drainingB) with
    | .ok c => decide (c.map (·.1) = (List.range c.length).map (· + 0x10000))
    | .error _ => false) = true := by decide +kernel
  generalize cpCells draining drainingB.ctx (BitVec.ofNat 64 0x10000) (saveImage drainingU 0 drainingB) = e at hb
  cases e
  · cases hb
  · exact ⟨_, rfl, by rw [of_decide_eq_true hb]; exact List.Nodup.map (fun _ _ h => Nat.add_right_cancel h) List.nodup_range⟩

/-- A context without a save pool has no room. -/
theorem wit_SaveAndRestore_full :
    let s := setPhase dev0 [0] .draining
    drained s 0 = true ∧ companions s 0 (viewAt iadd2 s).b = [0] ∧ saveAreas s 0 [saveImage s 0 (viewAt iadd2 s).b] [] = none := by decide +kernel

/-- The record says RESTORE, and a saved block's area is at 0x20000. -/
def bindR : BindRec := { bind1 with ctrl := bind1.ctrl ||| 2 ^ 62, save := 0x20000 }
def saved0 : Saved := { blk := { oneBlock 0x4000 with grid := 5, core := 1, entry := 1 }, groups := [oneGroup 0x4000], area := 0x20000, size := 512, waitPage := none }
def restoring : State := { pending boundGrid with binds := [(65, bindR)], saved := [(3, saved0)], mem := [(0x200A1, 1)] }

/-- The area is read at its homes. -/
def restoringU : State := readAt restoring 10 saved0.blk.ctx saved0.area saved0.size false

/-- restore completes: group 0's record stands at 0x100 of the area. -/
theorem wit_SaveAndRestore_restore :
    (tget restoring.binds (1 * 64 + 1) = some bindR ∧ BindRec.field bindR.ctrl 63 1 = 1 ∧ BindRec.field bindR.ctrl 62 1 = 1 ∧
      (∀ e ∈ restoring.blocks, e.2.core ≠ 1 ∨ e.2.entry ≠ 1) ∧ bindOk restoring 1 bindR = true ∧ unitOk restoring 1 1 bindR = true ∧
      restoresAfter restoring 1 1 bindR = false ∧ dieRuns restoring (1 / 32) = true ∧ claimsClash restoring 1 1 bindR = false ∧
      savedAt restoring bindR = some (3, saved0) ∧ (saved0.groups.find? fun g => g.idx == 0).isSome = true ∧ Still restoring) ∧
    (∃ im bad, readArea restoringU saved0 = .ok (im, bad) ∧ fieldAt im (0xA0 + 4 * 0) 4 ≠ 0) ∧
    (∃ b, blockOf restoring 1 1 bindR = some b ∧ ∃ k, b.slots[0]? = some k) ∧ Inv restoring := by
  refine ⟨by decide +kernel, ?_, ?_, inv_of (by decide)⟩
  · have hb : (match readArea restoringU saved0 with | .ok x => decide (fieldAt x.1 (0xA0 + 4 * 0) 4 ≠ 0) | .error _ => false) = true := by
      decide +kernel
    generalize readArea restoringU saved0 = e at hb
    cases e
    · cases hb
    · exact ⟨_, _, rfl, of_decide_eq_true hb⟩
  · have hb : ((blockOf restoring 1 1 bindR).any fun b => (b.slots[0]?).isSome) = true := by decide +kernel
    obtain ⟨b, h, h'⟩ := (Option.any_eq_true _ _).mp hb
    exact ⟨b, h, Option.isSome_iff_exists.mp h'⟩

/-- A record of one split with all its lanes at 0x4000, and v0 uniform, 5. -/
def rec0 : List Byte :=
  leBytes 8 1 ++ leBytes 32 1 ++ List.replicate 0x288 0 ++ leBytes 8 0x4000 ++ leBytes 8 (2 ^ 64 - 1) ++ leBytes 8 0 ++ leBytes 4 5 ++ leBytes 4 0

/-- What the registers and the split of such a record ask of a group. -/
theorem wit_SaveAndRestore_back :
    imageCode rec0 0 = 1 ∧ fieldAt rec0 (imagePlace rec0 0) 4 = 5 ∧ imageCode rec0 1 = 0 ∧ fieldAt rec0 0x28 16 / 2 ^ 0 % 2 = 0 ∧
    fieldAt (rec0.drop 0x2B0) 8 8 = 2 ^ 64 - 1 ∧ fieldAt (rec0.drop 0x2B0) 0 8 / 4 * 4 = 0x4000 := by decide +kernel

/-! ## Dies, links, events, the outside, bring-up -/

def dieIn (st : DieState) : State := { dev0 with dies := dev0.dies.set 0 { state := st } }

theorem wit_DiesAndLinks :
    (∀ v ∈ [0x100#64, 0x200, 0x300], v.setWidth 32 &&& 0x7FFFFCF8#32 = 0 ∧ v.toNat % 8 = 0) ∧
    (ready dev0 = true ∧ dieCtlBusy dev0 = false ∧ (dieAt dev0 0).state = .run ∧ (linkAt dev0 0).retraining = false ∧
      (dieAt (dieIn .absent) 0).state = .absent) ∧
    ((dieAt (dieIn .resetting) 0).state = .resetting ∧ (dieAt (dieIn .resetting) 0).drained = false ∧ 1 ≤ lodgeRoom (dieIn .resetting) ∧
      forwardsOf (dieIn .resetting) 0 = [] ∧ acceptedOf (dieIn .resetting) 0 = []) ∧
    (let s := (dieIn .resetting).setDie 0 fun x => { x with drained := true, redone := some 1 }
     (dieAt s 0).redone = some 1 ∧ redoOpen s = false ∧ 2 ≤ lodgeRoom s) ∧
    ((dieAt (dieIn .readmitting) 0).state = .readmitting ∧ 1 ≤ lodgeRoom (dieIn .readmitting) ∧ (dieAt (dieIn .readmitting) 0).toAbsent = false ∧
      (dieIn .readmitting).fwd = []) ∧
    (recordedInc dev0 0 = 0 ∧ (linkAt dev0 9).retraining = false ∧ (linkAt dev0 9).changed = none ∧ (linkAt dev0 9).replays < 7) :=
  ⟨three ⟨rfl, rfl⟩ ⟨rfl, rfl⟩ ⟨rfl, rfl⟩, by decide, by decide, by decide, by decide, by decide⟩

def event0 : Event := { code := 4, src := 8, ctx := 0, time := 0, detail := 0, detail2 := 0 }
/-- The Lodge has a record to hand over; the host's ring of 64 records is enabled. -/
def posting (lost : Nat) (ctl : DWord) : State :=
  { dev0 with outbox := [(8, { recs := [event0], lost := lost })]
              gondolas := dev0.gondolas.set 0 { dev0.gondolas[0] with evqctl := ctl, evqbase := 0x0100000000001000 } }

theorem wit_EventQueues :
    (∀ x, ((tget (posting 0 0x80000006).outbox x).getD {}).lost = 0) ∧ evqRoom (gondolaAt (posting 0 0x80000006) 0) = true ∧
    evqRoom (gondolaAt (posting 0 6) 0) = false ∧ (linkAt (posting 0 0x80000006) 8).retraining = false ∧ (linkAt (posting 0 6) 8).retraining = false ∧ ((tget (posting 0 0x80000006).outbox 8).getD {}).recs = [event0] ∧
    (((tget (posting 1 0x80000006).outbox 8).getD {}).lost ≠ 0 ∧ gondolaOf 8 = 0 ∧
      ∀ x, x ≠ 8 → ((tget (posting 1 0x80000006).outbox x).getD {}).lost = 0) ∧
    ((gondolaAt dev0 0).evqctl.getLsbD 31 = false ∧ (6#64 &&& 0xFFFFFFFF7FFF00E0#64 = 0) ∧ ((6#64).extractLsb' 0 5).toNat = 6) := by
  refine ⟨fun x => ?_, by decide, by decide, by decide, by decide, by decide, ⟨by decide, by decide, fun x hx => ?_⟩, by decide⟩
  · by_cases h : x = 8
    · subst h; decide
    · simp [posting, tget, Ne.symm h]
  · simp [posting, tget, Ne.symm hx]

/-- A pod of two packages; the other one has joined with incarnation 1. -/
def pod : State := { dev0 with boot := { dev0.boot with podSize := 2, peerNum := 0 }, peers := [(1, { joined := true, inc := 1 })] }

/-- A request to it is unanswered since Lodge clock 0, and the timeout has passed. -/
def unanswered : State := { pod with peers := [(1, { joined := true, since := some 0 })] }

/-- The 256 MiB and the 529 MiB set aside leave room in 512 GiB, wherever they lie. -/
theorem not_set_aside : ∃ a, a + 1 ≤ hbmBytes ∧ meetsSetAside a 1 = false := by
  by_contra h
  have h' : ∀ a, a + 1 ≤ hbmBytes → meetsSetAside a 1 = true := fun a ha => by
    by_contra hc
    exact h ⟨a, ha, by simpa using hc⟩
  have h0 := h' 0 (by decide)
  have h1 := h' (2 ^ 30) (by decide)
  have h2 := h' (2 ^ 31) (by decide)
  have hs : spillBytes = 554696704 := rfl
  simp only [meetsSetAside, Bool.or_eq_true, decide_eq_true_eq] at h0 h1 h2
  omega

theorem wit_Outside : Inv pod ∧ Quiet pod ∧ ready pod = true ∧ (∃ a, a + 1 ≤ hbmBytes ∧ meetsSetAside a 1 = false) ∧ (linkAt pod 8).retraining = false ∧
    ((peerAt pod 1).joined = true ∧ (peerAt pod 1).inc.toNat = 1 ∧ (1 : Nat) < pod.boot.podSize ∧ 1 ≠ pod.boot.peerNum ∧
      (linkAt pod (8 + peerGondola pod 1)).retraining = false) ∧
    (agentHeld pod (8 + peerGondola pod 1) pod.boot.podCtx 0x200 1 = false ∧
      agentKeys pod (8 + peerGondola pod 1) pod.boot.podCtx true 0x200 1 = .ok [0x200]) ∧
    (peerLate unanswered 1 = true ∧ ((tget unanswered.outbox 0).getD {}).lost = 0 ∧ unanswered.outbox = []) :=
  ⟨inv_of (by decide), quiet_of (by decide), by decide, not_set_aside, by decide, by decide, ⟨by decide, ok_of (by decide)⟩, by decide⟩

/-- An enabled ring with room, for the Gondola's own record. -/
theorem wit_Outside_posted :
    let s : State := { pod with gondolas := pod.gondolas.set 1 { pod.gondolas[1] with evqctl := 0x80000006, evqbase := 0x0200000000001000 } }
    evqRoom (gondolaAt s (peerGondola s 1)) = true ∧ s.outbox = [] := by decide

/-- A bring-up in each of its steps. -/
def loadRun (n : Nat) : LoadRun := { step := n, fetchOk := false, hbmOk := false, hbmStacks := 0xFF, dieOk := 0xFF, linkOk := 0xFF }
def loading (n : Nat) : State := { State.reset with boot := { State.reset.boot with state := .loading, loading := some (loadRun n) } }

theorem wit_BringUp_steps : (∀ n ∈ [3, 4, 5], (loading n).boot.loading.isSome = true) ∧
    (loading 5).boot.absentMask = 0 ∧ (loading 5).boot.policy.getLsbD 0 = false := by decide

theorem wit_BringUp :
    loadTaken { State.reset with boot := { State.reset.boot with state := .safe } } 1 = true ∧
    (overLimits dev0 5000 20 = true ∧ ready dev0 = true) ∧
    (let s : State := { dev0 with boot := { dev0.boot with cstep := 1, powerCap := 3400 } }; overLimits s 10 20 = false ∧ s.boot.cstep ≠ 0) ∧
    outsideKey 0x200 = false ∧
    (let l : DcLine := { die := 0, ctx := 0, vline := 0, key := hostKey 0 0x200 / 128 * 128, dirty := false, replica := false }
     cachedOutside { dev0 with dc := [l] } (hostKey 0 0x200) = true) ∧ (20 : Nat) < 110 := by decide

end Sys2Proof.Tests
end

section
/-! PROOFS. Elements.lean: the elements of a lane's value, the fill of R74, and exact integers wrapped or saturated to a width (R85, R130). -/

namespace Sys2Proof.Machine

/-! ## Elements of a value (R74, R130) -/

/-- The elements of a value lie side by side over the width of its type. -/
theorem elemBits_mul_elemCount (t : Ty) : elemBits t * elemCount t = t.bits := by cases t <;> rfl

theorem bits_le_64 (t : Ty) : t.bits ≤ 64 := by cases t <;> decide

theorem elem_lt (w k : Nat) (x : DWord) : elem w k x < 2 ^ w := Nat.mod_lt _ (Nat.two_pow_pos w)

/-- Bit k of an element is the bit of the value at that place. -/
theorem testBit_elem (w j : Nat) (x : DWord) (k : Nat) :
    (elem w j x).testBit k = (decide (k < w) && x.getLsbD (w * j + k)) := by
  rw [elem, Nat.testBit_mod_two_pow, Nat.testBit_div_two_pow, BitVec.getLsbD, Nat.add_comm k]

theorem elem_congr {w j : Nat} {x y : DWord} (h : ∀ k, k < w → x.getLsbD (w * j + k) = y.getLsbD (w * j + k)) :
    elem w j x = elem w j y := by
  apply Nat.eq_of_testBit_eq
  intro k
  rw [testBit_elem, testBit_elem]
  by_cases hk : k < w
  · rw [h k hk]
  · simp [hk]

/-- An element of the type ends within the type's width. -/
theorem elem_place_lt {t : Ty} {j k : Nat} (hj : j < elemCount t) (hk : k < elemBits t) : elemBits t * j + k < t.bits := by
  calc elemBits t * j + k < elemBits t * j + elemBits t := by omega
    _ = elemBits t * (j + 1) := by rw [Nat.mul_add, Nat.mul_one]
    _ ≤ elemBits t * elemCount t := Nat.mul_le_mul_left _ hj
    _ = t.bits := elemBits_mul_elemCount t

/-- The fill of R74 leaves the bits of the type as they are. -/
theorem getLsbD_fillLane {t : Ty} (x : DWord) {k : Nat} (h : k < t.bits) : (fillLane t x).getLsbD k = x.getLsbD k := by
  have h64 := Nat.lt_of_lt_of_le h (bits_le_64 t)
  cases t with
  | b64 | i64 => rfl
  | i8 | i16 =>
    simp only [Ty.bits] at h
    have h32 : k < 32 := by omega
    simp [fillLane, BitVec.getElem_signExtend, h, h32, h64]
  | _ =>
    simp only [Ty.bits] at h
    simp [fillLane, h, h64]

theorem elem_fillLane {t : Ty} (x : DWord) {j : Nat} (hj : j < elemCount t) :
    elem (elemBits t) j (fillLane t x) = elem (elemBits t) j x :=
  elem_congr fun _ hk => getLsbD_fillLane x (elem_place_lt hj hk)

/-- A value of n bits extended over a lane reads its sign from bit n - 1 on. -/
theorem getLsbD_signFill {n : Nat} (y : BitVec n) {k : Nat} (hn : n ≤ k + 1) (h32 : k < 32) :
    ((y.signExtend 32).setWidth 64).getLsbD k = y.msb := by
  have h64 : k < 64 := by omega
  rw [BitVec.getLsbD_setWidth, BitVec.getLsbD_signExtend, decide_eq_true h64, decide_eq_true h32, Bool.true_and, Bool.true_and]
  split
  · have hk : k = n - 1 := by omega
    rw [hk, BitVec.msb_eq_getLsbD_last]
  · rfl

/-- The fill of R74: the sign at signed types, 0 at the others. -/
theorem getLsbD_fillLane_above {t : Ty} (x : DWord) {k : Nat} (h : t.bits ≤ k) (h32 : k < 32) :
    (fillLane t x).getLsbD k = (t.signed && (fillLane t x).getLsbD (t.bits - 1)) := by
  cases t with
  | i8 =>
    have h : 8 ≤ k := h
    exact (getLsbD_signFill _ (by omega) h32).trans (getLsbD_signFill (x.extractLsb' 0 8) (by decide) (by decide)).symm
  | i16 =>
    have h : 16 ≤ k := h
    exact (getLsbD_signFill _ (by omega) h32).trans (getLsbD_signFill (x.extractLsb' 0 16) (by decide) (by decide)).symm
  | b8 | e4m3 | e5m2 | b16 | f16 | bf16 =>
    simp only [Ty.bits] at h
    simp only [fillLane, Ty.signed, Bool.false_and, BitVec.getLsbD_setWidth, BitVec.getLsbD_extractLsb', Bool.and_eq_false_imp,
      decide_eq_true_eq]
    omega
  | _ =>
    simp only [Ty.bits] at h
    omega

theorem joinElems_lt (w : Nat) (xs : List Nat) : joinElems w xs < 2 ^ (w * xs.length) := by
  induction xs with
  | nil => simp [joinElems]
  | cons x xs ih =>
    have hx := Nat.mod_lt x (Nat.two_pow_pos w)
    calc joinElems w (x :: xs) < 2 ^ w + 2 ^ w * joinElems w xs := by rw [joinElems]; omega
      _ = 2 ^ w * (joinElems w xs + 1) := by ring
      _ ≤ 2 ^ w * 2 ^ (w * xs.length) := Nat.mul_le_mul_left _ ih
      _ = 2 ^ (w * (x :: xs).length) := by rw [← Nat.pow_add, List.length_cons]; congr 1; ring

theorem joinElems_div_mod (w : Nat) (xs : List Nat) {j : Nat} (h : j < xs.length) :
    joinElems w xs / 2 ^ (w * j) % 2 ^ w = xs[j] % 2 ^ w := by
  induction xs generalizing j with
  | nil => simp at h
  | cons x xs ih =>
    have hx := Nat.mod_lt x (Nat.two_pow_pos w)
    cases j with
    | zero => simp [joinElems]
    | succ j =>
      have hd : joinElems w (x :: xs) / 2 ^ w = joinElems w xs := by
        rw [joinElems, Nat.add_mul_div_left _ _ (Nat.two_pow_pos w), Nat.div_eq_of_lt hx, Nat.zero_add]
      have hp : 2 ^ (w * (j + 1)) = 2 ^ w * 2 ^ (w * j) := by rw [← Nat.pow_add]; congr 1; ring
      rw [hp, ← Nat.div_div_eq_div_mul, hd, ih (by simpa using h), List.getElem_cons_succ]

/-- A value put together out of its elements has those elements. -/
theorem elem_joined (t : Ty) (f : Nat → Nat) {j : Nat} (hj : j < elemCount t) :
    elem (elemBits t) j (BitVec.ofNat 64 (joinElems (elemBits t) ((List.range (elemCount t)).map f))) =
      f j % 2 ^ elemBits t := by
  have hlt : joinElems (elemBits t) ((List.range (elemCount t)).map f) < 2 ^ 64 := by
    refine Nat.lt_of_lt_of_le (joinElems_lt _ _) (Nat.pow_le_pow_right (by decide) ?_)
    rw [List.length_map, List.length_range, elemBits_mul_elemCount]
    exact bits_le_64 t
  rw [elem, BitVec.toNat_ofNat, Nat.mod_eq_of_lt hlt, joinElems_div_mod _ _ (by simpa using hj)]
  simp

theorem elem_onElems1 (t : Ty) (f : Nat → Nat) (a : DWord) {j : Nat} (hj : j < elemCount t) :
    elem (elemBits t) j (onElems1 t f a) = f (elem (elemBits t) j a) % 2 ^ elemBits t :=
  elem_joined t (fun k => f (elem (elemBits t) k a)) hj

theorem elem_onElems2 (t : Ty) (f : Nat → Nat → Nat) (a b : DWord) {j : Nat} (hj : j < elemCount t) :
    elem (elemBits t) j (onElems2 t f a b) = f (elem (elemBits t) j a) (elem (elemBits t) j b) % 2 ^ elemBits t :=
  elem_joined t (fun k => f (elem (elemBits t) k a) (elem (elemBits t) k b)) hj

theorem elem_onElems3 (t : Ty) (f : Nat → Nat → Nat → Nat) (a b c : DWord) {j : Nat} (hj : j < elemCount t) :
    elem (elemBits t) j (onElems3 t f a b c) =
      f (elem (elemBits t) j a) (elem (elemBits t) j b) (elem (elemBits t) j c) % 2 ^ elemBits t :=
  elem_joined t (fun k => f (elem (elemBits t) k a) (elem (elemBits t) k b) (elem (elemBits t) k c)) hj

/-! ## Exact integers at a width (R85, R130) -/

theorem wrap_lt (w : Nat) (x : Int) : wrap w x < 2 ^ w := by
  have h : (x % 2 ^ w).toNat < 2 ^ w := by
    zify
    rw [Int.toNat_of_nonneg (Int.emod_nonneg _ (by positivity))]
    exact Int.emod_lt_of_pos _ (by positivity)
  exact h

theorem loOf_le_hiOf (sg : Bool) (w : Nat) : loOf sg w ≤ hiOf sg w := by
  have h1 := Nat.two_pow_pos (w - 1)
  have h2 := Nat.two_pow_pos w
  cases sg <;> simp only [loOf, hiOf, ↓reduceIte, Bool.false_eq_true] <;> omega

/-- Sat(x, lo, hi) as a clamp. -/
theorem sat_eq_max_min {x lo hi : Int} (h : lo ≤ hi) : sat x lo hi = max lo (min hi x) := by
  unfold sat
  split
  · omega
  · split <;> omega

theorem narrow_eq_exactNarrow (satur sg : Bool) (w : Nat) (x : Int) :
    narrow satur sg w x = exactNarrow satur sg w x := by
  cases satur
  · rfl
  · simp only [narrow, exactNarrow, wrap, ↓reduceIte, sat_eq_max_min (loOf_le_hiOf sg w)]

theorem exactNarrow_false (sg : Bool) (w : Nat) (x : Int) : exactNarrow false sg w x = wrap w x := rfl

theorem exactNarrow_mod (satur sg : Bool) (w : Nat) (x : Int) : exactNarrow satur sg w x % 2 ^ w = exactNarrow satur sg w x :=
  Nat.mod_eq_of_lt (wrap_lt w _)

theorem wrap_natCast (w n : Nat) : wrap w (n : Int) = n % 2 ^ w := by
  unfold wrap
  norm_cast

theorem wrap_congr {w : Nat} {x y : Int} (h : x % 2 ^ w = y % 2 ^ w) : wrap w x = wrap w y := by rw [wrap, wrap, h]

/-- A number read as signed differs from itself by a multiple of 2^w. -/
theorem readInt_emod (sg : Bool) (w n : Nat) : readInt sg w n % 2 ^ w = (n : Int) % 2 ^ w := by
  cases sg
  · rfl
  · simp only [readInt, toSigned, ↓reduceIte]
    split
    · rfl
    · exact Int.sub_emod_right _ _

theorem wrap_readInt (sg : Bool) {w n : Nat} (h : n < 2 ^ w) : wrap w (readInt sg w n) = n := by
  rw [wrap_congr (readInt_emod sg w n), wrap_natCast, Nat.mod_eq_of_lt h]

/-- As a word of w bits, the wrapped remainder is the exact integer. -/
theorem ofNat_wrap (w : Nat) (x : Int) : BitVec.ofNat w (wrap w x) = BitVec.ofInt w x := by
  apply BitVec.eq_of_toNat_eq
  rw [BitVec.toNat_ofNat, BitVec.toNat_ofInt, Nat.mod_eq_of_lt (wrap_lt w x), wrap]
  norm_cast

theorem ofInt_readInt (sg : Bool) {w : Nat} (x : BitVec w) : BitVec.ofInt w (readInt sg w x.toNat) = x := by
  rw [← ofNat_wrap, wrap_readInt sg x.isLt, BitVec.ofNat_toNat, BitVec.setWidth_eq]

end Sys2Proof.Machine
end

section
/-! PROOFS. Results.lean: what WriteDst puts into a register or a pair stands there when the instruction has issued: the releases of its sources and
the steps of R289 leave it as it is (R71, R72, R74, R134, R315, R322). -/

namespace Sys2Proof.Machine

/-! ## One register through the end of an issue (R71, R134, R322) -/

/-- Register n reads the same in two groups: they differ in its storage marks at most (R315, R318). -/
def SeenAt (g h : Group) (n : Nat) : Prop := (regOf h n).map Reg.seen = (regOf g n).map Reg.seen

theorem SeenAt.trans {a b c : Group} {n : Nat} (h1 : SeenAt a b n) (h2 : SeenAt b c n) : SeenAt a c n := Eq.trans h2 h1

theorem SeenAt.readReg {g h : Group} {n : Nat} (e : SeenAt g h n) (l : Nat) : readReg h n l = readReg g n l := readReg_of_seen e l

theorem SeenAt.pend {g h : Group} {n : Nat} (e : SeenAt g h n) : (regOf h n).any (·.pend) = (regOf g n).any (·.pend) := by
  have pend_seen (x : Option Reg) : (x.map Reg.seen).any (·.pend) = x.any (·.pend) := by cases x <;> rfl
  rw [← pend_seen (regOf h n), e, pend_seen]

/-- What a name reads depends on the two register files and on the mode (R336). -/
theorem seenAt_of_tget {g h : Group} {n : Nat} (hm : h.handler = g.handler)
    (hr : (tget h.regs n).map Reg.seen = (tget g.regs n).map Reg.seen)
    (hh : (tget h.hregs n).map Reg.seen = (tget g.hregs n).map Reg.seen) : SeenAt g h n := by
  unfold SeenAt regOf isHandlerReg
  rw [hm]
  split
  · exact hh
  · exact hr

theorem seenAt_of_files {g h : Group} (hr : h.regs = g.regs) (hh : h.hregs = g.hregs) (hm : h.handler = g.handler) (n : Nat) :
    SeenAt g h n := seenAt_of_tget hm (by rw [hr]) (by rw [hh])

/-! ### Releases -/

theorem seenAt_pendReg (g : Group) {m n : Nat} (h : n ≠ m) : SeenAt g (pendReg g m) n := by
  have mark (t : Table Reg) : tget (tmod t m fun r => { r with pend := true }) n = tget t n := tget_tmod_ne _ _ h
  unfold pendReg
  simp only
  split
  · exact seenAt_of_tget rfl rfl (by rw [mark])
  · exact seenAt_of_tget rfl (by rw [mark]) rfl

theorem seenAt_releaseReg (g : Group) {m n : Nat} (h : n ≠ m) : SeenAt g (releaseReg g m) n := by
  unfold releaseReg
  split
  · exact rfl
  · split
    · exact seenAt_pendReg g h
    · exact regOf_putReg_ne g none h

theorem seenAt_releaseRegs (g : Group) (ms : List Nat) {n : Nat} (h : n ∉ ms) : SeenAt g (releaseRegs g ms) n := by
  unfold releaseRegs
  induction ms generalizing g with
  | nil => exact rfl
  | cons m ms ih =>
    rw [List.mem_cons, not_or] at h
    exact (seenAt_releaseReg g h.1).trans (ih _ h.2)

/-- What R322 leaves of a file under a name whose register is not pending. -/
theorem tget_filter_pend (t : Table Reg) (j : Nat × Reg → Bool) {n : Nat} (h : (tget t n).any (·.pend) = false) :
    (tget ((t.filter fun e => !e.2.pend).map fun e => (e.1, { e.2 with joined := j e })) n).map Reg.seen =
      (tget t n).map Reg.seen := by
  induction t with
  | nil => rfl
  | cons e t ih =>
    obtain ⟨m, r⟩ := e
    by_cases hm : m = n
    · subst hm
      have hp : r.pend = false := by simpa [tget] using h
      simp [tget, hp, Reg.seen]
    · have ih := ih (by simpa [tget, hm] using h)
      by_cases hp : r.pend = true
      · simpa [tget, hm, hp] using ih
      · simpa [tget, hm, hp] using ih

theorem seenAt_releasePending (g : Group) {n : Nat} (h : (regOf g n).any (·.pend) = false) : SeenAt g (releasePending g) n := by
  unfold releasePending
  split
  · unfold SeenAt regOf isHandlerReg at *
    simp only at h ⊢
    split at h
    · rename_i hn
      simp only [hn, ↓reduceIte]
      exact tget_filter_pend _ _ h
    · rename_i hn
      simp only [hn]
      exact tget_filter_pend _ _ h
  · exact rfl

/-! ### The steps of R289 -/

theorem handler_of_samePart {g h : Group} (e : SamePart g h) : h.handler = g.handler := by
  rw [e]

theorem seenAt_settleDue (g : Group) {n : Nat} (h : (regOf g n).any (·.pend) = false) : SeenAt g (settleDue g) n := by
  unfold settleDue settle
  split
  · exact rfl
  · obtain ⟨hp, hr, hh⟩ := samePart_promote 64 (mergeAll (endOver g))
    have e : SeenAt g (promote 64 (mergeAll (endOver g))) n := seenAt_of_files hr hh (handler_of_samePart hp) n
    exact e.trans (seenAt_releasePending _ (e.pend.trans h))

/-- A register that the instruction writes, or does not release, and that is not pending, comes through the end of the issue. -/
theorem finish_done_seen {i : Instr} {o : Op} {s0 s : State} {v : View} {g : Group} (hg : s.group v.k = some g) :
    ∃ h, (finish i o s0 v (.done s)).group v.k = some h ∧
      ∀ n, n ∉ (v.uses.lus.filter fun n => v.act = 0 || !(v.uses.writes.contains n)) → (regOf g n).any (·.pend) = false →
        SeenAt g h n := by
  have r2 := (releaseUses_spec (v := v) hg).2
  unfold finish
  simp only
  generalize nextProducers (((i.form).map (·.1)).getD 0) o v.uses v.act v.sp.producers = prods
  generalize hr : releaseRegs g (v.uses.lus.filter fun n => v.act = 0 || !(v.uses.writes.contains n)) = r at r2
  have issue : ∃ x, (if v.sp.wait.isSome then markWaited v prods (releaseUses s v)
      else markIssue o v prods (releaseUses s v)).group v.k = some x ∧ ∀ n, SeenAt r x n := by
    split
    · exact ⟨_, markWaited_group r2, fun n => seenAt_of_files rfl rfl rfl n⟩
    · obtain ⟨top, e⟩ := markIssue_group (o := o) (prods := prods) r2
      exact ⟨_, e, fun n => seenAt_of_files rfl rfl rfl n⟩
  obtain ⟨x, hx, ex⟩ := issue
  refine ⟨_, by rw [group_modGroup, hx]; rfl, fun n hn hp => ?_⟩
  have e1 : SeenAt g r n := hr ▸ seenAt_releaseRegs g _ hn
  have e2 : SeenAt g (updSplit x v.sp.mask fun p => { p with pc := p.pc + 12, wait := none }) n :=
    (e1.trans (ex n)).trans (seenAt_of_files rfl rfl rfl n)
  exact e2.trans (seenAt_settleDue _ (e2.pend.trans hp))

/-! ## Writing several registers as one value (R72, R315) -/

theorem seenAt_joinPair (g : Group) (m n : Nat) : SeenAt g (joinPair g m) n := by
  have mark (t : Table Reg) (j : Nat) : (tget (tmod t j fun x => { x with joined := true }) n).map Reg.seen =
      (tget t n).map Reg.seen := by
    by_cases h : n = j
    · subst h
      rw [tget_tmod_same, Option.map_map]
      rfl
    · rw [tget_tmod_ne _ _ h]
  unfold joinPair
  split
  · split
    · simp only
      split
      · exact seenAt_of_tget rfl rfl (by rw [mark, mark])
      · exact seenAt_of_tget rfl (by rw [mark, mark]) rfl
    · exact rfl
  · exact rfl

/-- Register n is mapped, and reads as r but for the marks of storage. -/
def HoldsAt (g : Group) (n : Nat) (r : Reg) : Prop := (regOf g n).map Reg.seen = some r.seen

theorem HoldsAt.seen {g h : Group} {n : Nat} {r : Reg} (a : HoldsAt g n r) (e : SeenAt g h n) : HoldsAt h n r := Eq.trans e a

theorem holdsAt_putReg (g : Group) (n : Nat) (r : Reg) : HoldsAt (putReg g n (some r)) n r := by
  rw [HoldsAt, regOf_putReg_same, Option.map_some]

theorem HoldsAt.readReg {g : Group} {n : Nat} {r : Reg} (a : HoldsAt g n r) (l : Nat) : readReg g n l = r.val.lane l := by
  obtain ⟨x, hx, e⟩ := Option.map_eq_some_iff.mp a
  have hv : x.val = r.val := by simpa only [Reg.seen] using congrArg Reg.val e
  rw [Machine.readReg, hx, ← hv]

theorem HoldsAt.pend {g : Group} {n : Nat} {r : Reg} (a : HoldsAt g n r) : (regOf g n).any (·.pend) = r.pend := by
  obtain ⟨x, hx, e⟩ := Option.map_eq_some_iff.mp a
  have hp : x.pend = r.pend := by simpa only [Reg.seen] using congrArg Reg.pend e
  rw [hx, Option.any_some, hp]

theorem seenAt_putRegs (l : List (Nat × Reg)) (n : Nat) (g : Group) {i : Nat} (h : i ∉ l.map Prod.fst) :
    SeenAt g (l.foldl (fun g x => putReg g (n + x.1) (some x.2)) g) (n + i) := by
  induction l generalizing g with
  | nil => exact rfl
  | cons y l ih =>
    rw [List.map_cons, List.mem_cons, not_or] at h
    have hy : n + i ≠ n + y.1 := fun e => h.1 (Nat.add_left_cancel e)
    exact SeenAt.trans (regOf_putReg_ne g (some y.2) hy) (ih _ h.2)

/-- Registers put one after the other at different places from n on: each holds what was put there. -/
theorem holdsAt_putRegs (l : List (Nat × Reg)) (n : Nat) (g : Group) (hl : (l.map Prod.fst).Nodup) {i : Nat} {r : Reg}
    (hi : (i, r) ∈ l) : HoldsAt (l.foldl (fun g x => putReg g (n + x.1) (some x.2)) g) (n + i) r := by
  induction l generalizing g with
  | nil => simp at hi
  | cons y l ih =>
    rw [List.map_cons, List.nodup_cons] at hl
    rcases List.mem_cons.mp hi with rfl | hi
    · exact (holdsAt_putReg g (n + i) r).seen (seenAt_putRegs l n _ hl.1)
    · exact ih _ hl.2 hi

/-- Write m registers as one value: piece i of each active lane's value stands in register n + i, none of which is pending. -/
theorem writeWide_spec {s : State} {k : Nat} (nm : Naming) {act : Mask} {uni : Bool} {m n : Nat} {new : Nat → BitVec 128}
    {g : Group} (hg : s.group k = some g) (ha : act ≠ 0)
    (hu : act = fullMask → uni = true → ∀ l, l < 64 → new l = new 0) :
    ∃ h, (writeWide s k nm act uni m n new).group k = some h ∧ ∀ i, i < m → (regOf h (n + i)).any (·.pend) = false ∧
      ∀ l, l < 64 → act.getLsbD l = true → readReg h (n + i) l = (new l >>> (32 * i)).setWidth 32 := by
  unfold writeWide
  simp only [ha, ↓reduceIte, hg]
  generalize hnom : (if uni = true then Nominal.uniform else Nominal.general) = nom
  generalize hrs : (List.range m).map (fun i => writtenReg g nm act nom (n + i) fun l => (new l >>> (32 * i)).setWidth 32) = rs
  generalize hx : (obtainFor s k nm (needWide g (uni && act == fullMask && decide (2 ≤ m)) m n rs)).group k = og
  obtain ⟨x, rfl⟩ : ∃ x, og = some x := by
    have e := (groupsSeen_obtainFor s k nm (needWide g (uni && act == fullMask && decide (2 ≤ m)) m n rs)).2 k
    rw [hg, hx] at e
    cases og with
    | none => exact e.elim
    | some x => exact ⟨x, rfl⟩
  rw [group_modGroup, hx]
  refine ⟨_, rfl, fun i hi => ?_⟩
  have hmem : (i, writtenReg g nm act nom (n + i) fun l => (new l >>> (32 * i)).setWidth 32) ∈ (List.range m).zip rs := by
    rw [← hrs, List.mem_iff_getElem]
    exact ⟨i, by simpa using hi, by simp⟩
  have hnd : (((List.range m).zip rs).map Prod.fst).Nodup := by
    rw [List.map_fst_zip (by simp [← hrs])]
    exact List.nodup_range
  have joined (c : Prop) [Decidable c] (b : Bool) (h : Group) :
      SeenAt h (if b then (if c then joinPair (joinPair h n) (n + 2) else joinPair h n) else h) (n + i) := by
    split
    · split
      · exact (seenAt_joinPair h n _).trans (seenAt_joinPair _ _ _)
      · exact seenAt_joinPair h n _
    · exact rfl
  have holds := (holdsAt_putRegs _ n x hnd hmem).seen (joined (m = 4) (uni && act == fullMask && decide (2 ≤ m)) _)
  refine ⟨holds.pend, fun l hl hal => ?_⟩
  have fits : act = fullMask → nom.Fits fun l => (new l >>> (32 * i)).setWidth 32 := by
    intro hf
    rw [← hnom]
    split
    · rename_i hun
      exact fun l hl => by simp only [hu hf hun l hl]
    · trivial
  rw [holds.readReg]
  exact (lane_storedVal fits hl).trans (if_pos hal)

/-! ## WriteDst (R74, R85) -/

/-- A nominal shape says what a write of these values at a type stores: a pair is stored uniform or lane by lane (R132). -/
def Nominal.FitsAt (t : Ty) (x : Nat → DWord) : Nominal → Prop
  | .uniform => ∀ l, x l = x 0
  | .affine b st => t.wide = false → ∀ l, (fillLane t (x l)).setWidth 32 = b + st * BitVec.ofNat 32 l
  | .general => True

theorem Nominal.FitsAt.fits {t : Ty} {x : Nat → DWord} {nom : Nominal} (h : nom.FitsAt t x) (hw : t.wide = false) :
    nom.Fits fun l => (fillLane t (x l)).setWidth 32 := by
  cases nom with
  | uniform => exact fun l _ => by simp only [h l]
  | affine b st => exact fun l _ => h hw l
  | general => trivial

theorem toNat_setWidth_lt {n : Nat} (y : BitVec n) (hn : n ≤ 32) : (y.setWidth 64).toNat < 2 ^ 32 :=
  calc (y.setWidth 64).toNat ≤ y.toNat := by rw [BitVec.toNat_setWidth]; exact Nat.mod_le _ _
    _ < 2 ^ n := y.isLt
    _ ≤ 2 ^ 32 := Nat.pow_le_pow_right (by decide) hn

theorem fillLane_lt {t : Ty} (h : t.wide = false) (x : DWord) : (fillLane t x).toNat < 2 ^ 32 := by
  cases t with
  | b64 | i64 => exact absurd h (by decide)
  | _ => exact toNat_setWidth_lt _ (by decide)

/-- Beside a pair, the value that R74 gives a lane is the register's 32 bits. -/
theorem fillLane_of_narrow {t : Ty} (h : t.wide = false) (x : DWord) : ((fillLane t x).setWidth 32).setWidth 64 = fillLane t x := by
  have lt := fillLane_lt h x
  apply BitVec.eq_of_toNat_eq
  rw [BitVec.toNat_setWidth, BitVec.toNat_setWidth, Nat.mod_eq_of_lt lt, Nat.mod_eq_of_lt (by omega)]

theorem fillLane_of_wide {t : Ty} (h : t.wide = true) (x : DWord) : fillLane t x = x := by
  cases t with
  | b64 | i64 => rfl
  | _ => exact absurd h (by decide)

/-- The two halves of a 64-bit value, as a pair holds them. -/
theorem append_halves (x : DWord) :
    ((x.setWidth 128 >>> (32 * 1)).setWidth 32 : Word) ++ ((x.setWidth 128 >>> (32 * 0)).setWidth 32 : Word) = x := by
  ext k hk
  simp only [BitVec.getElem_append, BitVec.getElem_setWidth, BitVec.getLsbD_ushiftRight, BitVec.getLsbD_setWidth]
  split
  · simp [hk]; omega
  · have : 32 * 1 + (k - 32) = k := by omega
    simp [this, hk]; omega

theorem laneReg_of_group {s : State} {k : Nat} {g : Group} (h : s.group k = some g) (n l : Nat) : laneReg s k n l = readReg g n l := by
  rw [laneReg, h]
  rfl

/-- The lane's value in a group, out of its registers. -/
def valueIn (g : Group) (t : Ty) (n l : Nat) : DWord := if t.wide then readPair g n l else (readReg g n l).setWidth 64

theorem laneValue_of_group {s : State} {k : Nat} {g : Group} (h : s.group k = some g) (t : Ty) (n l : Nat) :
    laneValue s k t n l = valueIn g t n l := by
  simp only [laneValue, lanePair, valueIn, readPair, laneReg_of_group h]

/-- R74: in each active lane the destination holds the value, filled as its type says; its registers are not pending. -/
theorem writeVal_spec {s : State} {v : View} {t : Ty} {nom : Nominal} {d : Fin 128} {x : Nat → DWord} {g : Group}
    (hg : s.group v.k = some g) (ha : v.act ≠ 0) (hf : v.act = fullMask → nom.FitsAt t x) :
    ∃ h, (writeVal s v t nom (.vec d) x).group v.k = some h ∧
      (∀ i, i < t.regs → (regOf h (d + i)).any (·.pend) = false) ∧
      ∀ l, l < 64 → v.act.getLsbD l = true → valueIn h t d l = fillLane t (x l) := by
  cases hw : t.wide with
  | true =>
    have uni : v.act = fullMask → (nom == .uniform) = true → ∀ l, l < 64 → (x l).setWidth 128 = (x 0).setWidth 128 := by
      intro hfull hn l _
      have hx := hf hfull
      rw [eq_of_beq hn] at hx
      rw [hx l]
    obtain ⟨h, hh, spec⟩ := writeWide_spec (m := 2) (n := d) v.named hg ha uni
    refine ⟨h, by simpa only [writeVal, hw, ↓reduceIte] using hh, fun i hi => (spec i (by simpa [Ty.regs, hw] using hi)).1, ?_⟩
    intro l hl hal
    have lo := (spec 0 (by decide)).2 l hl hal
    have hi := (spec 1 (by decide)).2 l hl hal
    rw [Nat.add_zero] at lo
    rw [valueIn, if_pos hw, fillLane_of_wide hw, readPair, lo, hi, append_halves]
  | false =>
    obtain ⟨h, hh, -, hr, hp, -⟩ := writeReg_spec v.named (n := d) (new := fun l => (fillLane t (x l)).setWidth 32) hg ha
      fun hfull => (hf hfull).fits hw
    refine ⟨h, by simpa only [writeVal, hw, Bool.false_eq_true, ↓reduceIte] using hh, fun i hi => ?_, ?_⟩
    · have hi0 : i = 0 := by simpa [Ty.regs, hw] using hi
      subst hi0
      obtain ⟨r, hr', e⟩ := Option.map_eq_some_iff.mp hp
      rw [Nat.add_zero, hr', Option.any_some, e]
    · intro l hl hal
      rw [valueIn, hw, if_neg Bool.false_ne_true, hr l hl, if_pos hal, fillLane_of_narrow hw]

/-! ## An instruction whose effect is one value for each active lane -/

/-- The outcome is an instruction that goes through and leaves this value in each active lane of vd, filled as R74 says. -/
def Writes (out : Host.Outcome State Fault Refusal) (v : View) (t : Ty) (d : Nat) (x : Nat → DWord) : Prop :=
  ∃ u, out = .next u ∧ Advances u v ∧ ∀ l, v.act.getLsbD l = true → laneValue u v.k t d l = fillLane t (x l)

theorem mem_dstRegs {m : Nat} {d : Fin 128} {i : Nat} (h : i < m) : d.val + i ∈ dstRegs (.vec m) (.vec d) :=
  List.mem_map.mpr ⟨i, List.mem_range.mpr h, rfl⟩

/-- What an instruction writes through WriteDst stands in its destination when it has issued: the releases of its sources and the
steps of R289 do not touch it. -/
theorem Clear.writes {i : Instr} {s : State} {o : Op} {f : Fields} {v : View} (h : Clear i s o f v) {t : Ty} {d : Fin 128}
    (hd : o.dst = .vec d) (hf : f.dst = .vec t.regs) {body : Op → View → State → Effect} {nom : Nominal} {x : Nat → DWord}
    (hb : body o v s = .done (writeVal s v t nom o.dst x)) (fits : v.act = fullMask → nom.FitsAt t x) :
    Writes (native i s body) v t d x := by
  refine ⟨_, native_clear h body fun _ t e => (by rw [hb] at e; cases e), ?_⟩
  rw [hb]
  refine ⟨(clear_done h (onGroup_writeVal s v t nom o.dst x)).1, fun l hal => ?_⟩
  have hl : l < 64 := BitVec.lt_of_getLsbD hal
  have ha : v.act ≠ 0 := fun e => by simp [e] at hal
  obtain ⟨-, hg, -, -, -, hu⟩ := h.group
  obtain ⟨g', hg', pend, val⟩ := writeVal_spec hg ha fits (d := d)
  rw [← hd] at hg'
  obtain ⟨g'', hg'', seen⟩ := finish_done_seen (i := i) (o := o) (s0 := s) hg'
  have written : ∀ n, n < t.regs → SeenAt g' g'' (d + n) := by
    intro n hn
    refine seen _ (fun hm => ?_) (pend n hn)
    have hw : d.val + n ∈ v.uses.writes := by
      rw [hu]
      exact List.mem_append_left _ (by rw [hf, hd]; exact mem_dstRegs hn)
    simp only [List.mem_filter, ha, decide_false, List.contains_iff_mem.mpr hw, Bool.not_true, Bool.or_self, and_false, Bool.false_eq_true] at hm
  rw [laneValue_of_group hg'', ← val l hl hal]
  unfold valueIn
  split
  · rename_i hw
    have e0 := (written 0 (by simp [Ty.regs, hw])).readReg l
    have e1 := (written 1 (by simp [Ty.regs, hw])).readReg l
    rw [Nat.add_zero] at e0
    rw [readPair, readPair, e0, e1]
  · rename_i hw
    have e0 := (written 0 (by simp [Ty.regs, hw])).readReg l
    rw [Nat.add_zero] at e0
    rw [e0]

end Sys2Proof.Machine
end

section
/-! PROOFS. Shapes.lean: what the lanes of a uniform or affine source read, and why the rows of R133 give what each lane computes on its own. -/

namespace Sys2Proof.Machine

/-! ## Sources whose lanes are alike (R132, R133) -/

theorem readReg_uniform {g : Group} {n : Nat} (h : regNominal g n = .uniform) (l : Nat) : readReg g n l = readReg g n 0 := by
  unfold regNominal at h
  unfold readReg
  cases hr : regOf g n with
  | none => rfl
  | some r =>
    obtain ⟨val⟩ := r
    cases val with
    | uniform x => rfl
    | affine b st => simp only [hr, RegVal.nominal, reduceCtorEq] at h
    | general x => simp only [hr, RegVal.nominal, reduceCtorEq] at h

theorem readReg_affine {g : Group} {n : Nat} {b st : Word} (h : regNominal g n = .affine b st) (l : Nat) :
    readReg g n l = b + st * BitVec.ofNat 32 l := by
  unfold regNominal at h
  unfold readReg
  cases hr : regOf g n with
  | none => simp only [hr, reduceCtorEq] at h
  | some r =>
    obtain ⟨val⟩ := r
    cases val with
    | uniform x => simp only [hr, RegVal.nominal, reduceCtorEq] at h
    | affine b' st' =>
      simp only [hr, RegVal.nominal, Nominal.affine.injEq] at h
      simp only [RegVal.lane, h.1, h.2]
    | general x => simp only [hr, RegVal.nominal, reduceCtorEq] at h

/-- R132: a uniform source has one value in every lane. -/
theorem srcAt_uniform {g : Group} {t : Ty} {x : Src} (imm : Word) (h : srcUniform g t x = true) (l : Nat) :
    srcAt g t imm x l = srcAt g t imm x 0 := by
  unfold srcUniform at h
  unfold srcAt
  split at h
  case h_1 n hs =>
    rw [Bool.and_eq_true, beq_iff_eq] at h
    have lo := readReg_uniform h.1 l
    simp only [hs]
    cases hw : t.wide with
    | true =>
      have hi := readReg_uniform (n := n + 1) (eq_of_beq (by simpa only [hw, Bool.not_true, Bool.false_or] using h.2)) l
      simp only [↓reduceIte, readPair, lo, hi]
    | false => simp only [Bool.false_eq_true, ↓reduceIte, lo]
  case h_2 k hs => simp only [hs, readPred, h, Bool.true_or]
  case h_3 => cases h
  case h_4 h1 h2 h3 =>
    cases hs : x.sel with
    | reg n => exact absurd hs (h1 n)
    | pred k => exact absurd hs (h2 k)
    | lane => exact absurd hs h3
    | zero => rfl
    | imm => rfl
    | fimm => rfl

/-- A source of one register is uniform at every narrow type, or at none. -/
theorem srcUniform_b32 {g : Group} {t : Ty} {x : Src} (hw : t.wide = false) (h : srcUniform g t x = true) :
    srcUniform g .b32 x = true := by
  have e : Ty.wide .b32 = t.wide := hw.symm
  unfold srcUniform at h ⊢
  rwa [e]

theorem srcB32_uniform {g : Group} {x : Src} (imm : Word) (h : srcUniform g .b32 x = true) (l : Nat) :
    srcB32 g imm x l = srcB32 g imm x 0 := congrArg (BitVec.setWidth 32) (srcAt_uniform imm h l)

theorem not_eq_neg_sub_one (x : Word) : ~~~x = -x - 1 := by
  rw [BitVec.neg_eq_not_add]
  exact (BitVec.add_sub_cancel _ _).symm

theorem truncTo_b32_word (x : DWord) : (truncTo .b32 x).setWidth 32 = x.setWidth 32 := by
  apply BitVec.eq_of_toNat_eq
  have h : x.toNat % 2 ^ 32 < 2 ^ 64 := by omega
  simp only [truncTo, Ty.bits, BitVec.toNat_setWidth, BitVec.toNat_ofNat, Nat.mod_eq_of_lt h, Nat.mod_mod]

/-- NEG on a source read as b32 complements its 32 bits (R131). -/
theorem srcB32_of_value {neg : Bool} (y : DWord) : (truncTo .b32 (if neg then negValue .b32 y else y)).setWidth 32 =
    if neg then ~~~(y.setWidth 32 : Word) else y.setWidth 32 := by
  rw [truncTo_b32_word]
  cases neg
  · rfl
  · exact BitVec.setWidth_not (by decide)

theorem srcB32_reg {g : Group} {x : Src} {n : Fin 128} (imm : Word) (h : x.sel = .reg n) (l : Nat) :
    srcB32 g imm x l = if x.neg then ~~~readReg g n l else readReg g n l := by
  have e : srcAt g .b32 imm x l =
      truncTo .b32 (if x.neg then negValue .b32 ((readReg g n l).setWidth 64) else (readReg g n l).setWidth 64) := by
    rw [srcAt, h]
    rfl
  have w : ((readReg g n l).setWidth 64).setWidth 32 = readReg g n l := by
    rw [BitVec.setWidth_setWidth_of_le _ (by decide), BitVec.setWidth_eq]
  rw [srcB32, e, srcB32_of_value, w]

theorem srcB32_lane {g : Group} {x : Src} (imm : Word) (h : x.sel = .lane) (l : Nat) :
    srcB32 g imm x l = if x.neg then ~~~BitVec.ofNat 32 l else BitVec.ofNat 32 l := by
  have e : srcAt g .b32 imm x l = truncTo .b32 (if x.neg then negValue .b32 (BitVec.ofNat 64 l) else BitVec.ofNat 64 l) := by
    rw [srcAt, h]
  rw [srcB32, e, srcB32_of_value, BitVec.setWidth_ofNat_of_le (by decide)]

/-- NEG on an affine value: base NOT b and stride -s (R133). -/
theorem negated_affine {b st b' st' x : Word} {l : Nat} {neg : Bool} (h : x = b + st * BitVec.ofNat 32 l)
    (e : (if neg then some (~~~b, -st) else some (b, st)) = some (b', st')) :
    (if neg then ~~~x else x) = b' + st' * BitVec.ofNat 32 l := by
  cases neg with
  | false =>
    cases e
    exact h
  | true =>
    cases e
    simp only [↓reduceIte, h, not_eq_neg_sub_one]
    ring

theorem srcB32_uniform_affine {g : Group} {imm : Word} {x : Src} {b st : Word} (hu : srcUniform g .b32 x = true)
    (e : some (srcB32 g imm x 0, (0 : Word)) = some (b, st)) (l : Nat) : srcB32 g imm x l = b + st * BitVec.ofNat 32 l := by
  cases e
  rw [srcB32_uniform imm hu l, zero_mul, add_zero]

/-- R133: a source with a base and a stride reads base + stride × l in lane l. -/
theorem srcB32_affine {g : Group} {imm : Word} {x : Src} {b st : Word} (h : srcAffine g imm x = some (b, st)) (l : Nat) :
    srcB32 g imm x l = b + st * BitVec.ofNat 32 l := by
  unfold srcAffine at h
  simp only at h
  split at h
  case h_1 n hs =>
    split at h
    case h_1 hn => exact srcB32_uniform_affine (by simp [srcUniform, hs, hn, Ty.wide]) h l
    case h_2 b' st' hn =>
      rw [srcB32_reg imm hs]
      exact negated_affine (readReg_affine hn l) h
    case h_3 => cases h
  case h_2 k hs =>
    split at h
    · rename_i hk
      exact srcB32_uniform_affine (by rw [srcUniform, hs]; exact hk) h l
    · cases h
  case h_3 hs =>
    rw [srcB32_lane imm hs]
    exact negated_affine (by rw [zero_add, one_mul]) h
  case h_4 h1 h2 h3 =>
    refine srcB32_uniform_affine ?_ h l
    unfold srcUniform
    split
    · rename_i n hs; exact absurd hs (h1 n)
    · rename_i k hs; exact absurd hs (h2 k)
    · rename_i hs; exact absurd hs h3
    · rfl

/-! ## Rows of R133 -/

/-- The two types whose results can be affine (R132). -/
def isWord (t : Ty) : Bool := t == .b32 || t == .i32

theorem isWord_iff {t : Ty} : isWord t = true ↔ t = .b32 ∨ t = .i32 := by
  rw [isWord, Bool.or_eq_true, beq_iff_eq, beq_iff_eq]

theorem elemBits_of_isWord {t : Ty} (h : isWord t = true) : elemBits t = 32 := by
  rcases isWord_iff.mp h with rfl | rfl <;> rfl

theorem wide_of_isWord {t : Ty} (h : isWord t = true) : t.wide = false := by
  rcases isWord_iff.mp h with rfl | rfl <;> rfl

theorem fillLane_word {t : Ty} (h : isWord t = true) (x : DWord) : (fillLane t x).setWidth 32 = x.setWidth 32 := by
  have e : fillLane t x = (x.extractLsb' 0 32).setWidth 64 := by rcases isWord_iff.mp h with rfl | rfl <;> rfl
  rw [e, BitVec.setWidth_setWidth_of_le _ (by decide), BitVec.setWidth_eq, BitVec.setWidth_eq_extractLsb' (by decide)]

/-- At the two types a source reads as b32. -/
theorem srcAt_word {t : Ty} (h : isWord t = true) (g : Group) (imm : Word) (x : Src) (l : Nat) :
    (srcAt g t imm x l).setWidth 32 = srcB32 g imm x l := by
  rcases isWord_iff.mp h with rfl | rfl <;> rfl

/-- A row gives base and stride of what the lanes hold. -/
def AffineRow (t : Ty) (row : Option (Word × Word)) (x : Nat → DWord) : Prop :=
  isWord t = true → ∀ b st, row = some (b, st) → ∀ l, (x l).setWidth 32 = b + st * BitVec.ofNat 32 l

theorem affineRow_none (t : Ty) (x : Nat → DWord) : AffineRow t none x := fun _ _ _ e => nomatch e

theorem nominalOf_fitsAt {uni : Bool} {t : Ty} {row : Option (Word × Word)} {x : Nat → DWord}
    (hu : uni = true → ∀ l, x l = x 0) (hr : AffineRow t row x) : (nominalOf uni t row).FitsAt t x := by
  unfold nominalOf
  split
  · rename_i h
    exact hu h
  · split
    · rename_i hw
      cases row with
      | none => trivial
      | some p => exact fun _ l => (fillLane_word hw (x l)).trans (hr hw p.1 p.2 rfl l)
    · trivial

/-- At the two types a value of several elements is its only one. -/
theorem onElems3_word {t : Ty} (h : isWord t = true) (f : Nat → Nat → Nat → Nat) (a b c : DWord) :
    (onElems3 t f a b c).setWidth 32 =
      BitVec.ofNat 32 (f (a.setWidth 32 : Word).toNat (b.setWidth 32 : Word).toNat (c.setWidth 32 : Word).toNat) := by
  have hc : elemCount t = 1 := by rcases isWord_iff.mp h with rfl | rfl <;> rfl
  have e (y : DWord) : elem 32 0 y = (y.setWidth 32 : Word).toNat := by simp [elem]
  apply BitVec.eq_of_toNat_eq
  simp only [onElems3, elemBits_of_isWord h, hc, List.range_one, List.map_cons, List.map_nil, joinElems, e, Nat.mul_zero, Nat.add_zero,
    BitVec.toNat_setWidth, BitVec.toNat_ofNat]
  omega

theorem onElems2_word {t : Ty} (h : isWord t = true) (f : Nat → Nat → Nat) (a b : DWord) :
    (onElems2 t f a b).setWidth 32 = BitVec.ofNat 32 (f (a.setWidth 32 : Word).toNat (b.setWidth 32 : Word).toNat) :=
  onElems3_word h (fun x y _ => f x y) a b 0

theorem onElems1_word {t : Ty} (h : isWord t = true) (f : Nat → Nat) (a : DWord) :
    (onElems1 t f a).setWidth 32 = BitVec.ofNat 32 (f (a.setWidth 32 : Word).toNat) :=
  onElems3_word h (fun x _ _ => f x) a 0 0

theorem affAdd_eq_some {x y : Option (Word × Word)} {b st : Word} (h : affAdd x y = some (b, st)) :
    ∃ b₁ s₁ b₂ s₂, x = some (b₁, s₁) ∧ y = some (b₂, s₂) ∧ b = b₁ + b₂ ∧ st = s₁ + s₂ := by
  cases x with
  | none => cases h
  | some p =>
    cases y with
    | none => cases h
    | some q =>
      cases h
      exact ⟨p.1, p.2, q.1, q.2, rfl, rfl, rfl, rfl⟩

theorem affSub_eq_some {x y : Option (Word × Word)} {b st : Word} (h : affSub x y = some (b, st)) :
    ∃ b₁ s₁ b₂ s₂, x = some (b₁, s₁) ∧ y = some (b₂, s₂) ∧ b = b₁ - b₂ ∧ st = s₁ - s₂ := by
  cases x with
  | none => cases h
  | some p =>
    cases y with
    | none => cases h
    | some q =>
      cases h
      exact ⟨p.1, p.2, q.1, q.2, rfl, rfl, rfl, rfl⟩

/-- R133, IMUL: one operand uniform, the other affine. -/
theorem affMul_spec {g : Group} {o : Op} (hw : isWord o.ty = true) {b st : Word} (h : affMul g o = some (b, st)) (l : Nat) :
    srcB32 g o.imm o.a l * srcB32 g o.imm o.b l = b + st * BitVec.ofNat 32 l := by
  unfold affMul at h
  simp only at h
  split at h
  · rename_i hu
    obtain ⟨p, hp, e⟩ := Option.map_eq_some_iff.mp h
    cases e
    rw [srcB32_affine hp, srcB32_uniform o.imm (srcUniform_b32 (wide_of_isWord hw) hu) l]
    ring
  · split at h
    · rename_i hu
      obtain ⟨p, hp, e⟩ := Option.map_eq_some_iff.mp h
      cases e
      rw [srcB32_affine hp, srcB32_uniform o.imm (srcUniform_b32 (wide_of_isWord hw) hu) l]
      ring
    · cases h

end Sys2Proof.Machine
end

section
/-! PROOFS. IntegerResults.lean: the results of integer arithmetic, multiplication, shifts and logic, lane by lane, and the obligations of
spec/07_isa_integer.md (R136, R137, R138, R140, R142). -/

namespace Sys2Proof.Machine

/-! ## Results of integer instructions -/

section
variable {i : Instr} {s : State} {o : Op} {f : Fields} {v : View} {d : Fin 128} {body : Op → View → State → Effect}

theorem Clear.fields_eq (h : Clear i s o f v) {f' : Fields} (e : i.fields = some (o, f')) : f = f' := by
  rw [h.fields] at e
  cases e
  rfl

theorem Clear.wf (h : Clear i s o f v) : i.wf = true := by
  have hl := h.legal
  unfold illegalNow at hl
  split at hl
  · cases hl
  · split at hl
    · cases hl
    · rename_i hw
      simpa using hw

/-- The type is one that the field table of the instruction lists (R135). -/
theorem Clear.ty_ok (h : Clear i s o f v) : f.ty = true := by
  have hw := h.wf
  unfold Instr.wf at hw
  rw [h.fields] at hw
  simp only [Op.ok, Bool.and_eq_true] at hw
  obtain ⟨⟨⟨⟨⟨⟨ty, -⟩, -⟩, -⟩, -⟩, -⟩, -⟩ := hw
  exact ty

/-- A result per lane whose nominal shape is that of R132 and R133. -/
theorem Clear.writes_nominal (h : Clear i s o f v) (hd : o.dst = .vec d) (hf : f.dst = .vec o.ty.regs) {uni : Bool}
    {row : Option (Word × Word)} {x : Nat → DWord} (hb : body o v s = .done (writeVal s v o.ty (nominalOf uni o.ty row) o.dst x))
    (hu : uni = true → ∀ l, x l = x 0) (hr : AffineRow o.ty row x) : Writes (native i s body) v o.ty d x :=
  h.writes hd hf hb fun _ => nominalOf_fitsAt hu hr

/-- The outcome is an instruction that goes through, and element j of each active lane l of vd is F l j. -/
def WritesElems (out : Host.Outcome State Fault Refusal) (v : View) (o : Op) (d : Nat) (F : Nat → Nat → Nat) : Prop :=
  ∃ t, out = .next t ∧ Advances t v ∧ ∀ l, v.act.getLsbD l = true → ∀ j, j < elemCount o.ty → dstElem t v o d l j = F l j

theorem Writes.elems {out : Host.Outcome State Fault Refusal} {x : Nat → DWord} (h : Writes out v o.ty d x) {F : Nat → Nat → Nat}
    (hx : ∀ l j, j < elemCount o.ty → elem (elemBits o.ty) j (x l) = F l j) : WritesElems out v o d F := by
  obtain ⟨t, e, adv, val⟩ := h
  refine ⟨t, e, adv, fun l hl j hj => ?_⟩
  rw [dstElem, val l hl, elem_fillLane _ hj, hx l j hj]

/-! ### The shared forms -/

/-- Two sources, element by element. -/
theorem Clear.int2 (h : Clear i s o f v) (hd : o.dst = .vec d) (hf : f.dst = .vec o.ty.regs) {row : Option (Word × Word)}
    {F : Nat → Nat → Nat} (hb : body o v s = int2 o v s row F)
    (hr : AffineRow o.ty row fun l => onElems2 o.ty F (srcAt v.g o.ty o.imm o.a l) (srcAt v.g o.ty o.imm o.b l))
    {R : Nat → Nat → Nat} (hR : ∀ l j, F (srcElem v o o.a l j) (srcElem v o o.b l j) % 2 ^ elemBits o.ty = R l j) :
    WritesElems (native i s body) v o d R := by
  refine (h.writes_nominal hd hf hb (fun hu l => ?_) hr).elems fun l j hj => (elem_onElems2 _ _ _ _ hj).trans (hR l j)
  rw [uni2, Bool.and_eq_true] at hu
  rw [srcAt_uniform o.imm hu.1 l, srcAt_uniform o.imm hu.2 l]

/-- One source, element by element. -/
theorem Clear.int1 (h : Clear i s o f v) (hd : o.dst = .vec d) (hf : f.dst = .vec o.ty.regs) {row : Option (Word × Word)}
    {F : Nat → Nat} (hb : body o v s = int1 o v s row F)
    (hr : AffineRow o.ty row fun l => onElems1 o.ty F (srcAt v.g o.ty o.imm o.a l))
    {R : Nat → Nat → Nat} (hR : ∀ l j, F (srcElem v o o.a l j) % 2 ^ elemBits o.ty = R l j) :
    WritesElems (native i s body) v o d R := by
  refine (h.writes_nominal hd hf hb (fun hu l => ?_) hr).elems fun l j hj => (elem_onElems1 _ _ _ hj).trans (hR l j)
  rw [srcAt_uniform o.imm hu l]

/-- One source, element by element, with a count read as b32 (R131). -/
theorem Clear.shift (h : Clear i s o f v) (hd : o.dst = .vec d) (hf : f.dst = .vec o.ty.regs) {row : Option (Word × Word)}
    {F : Nat → Nat → Nat} (hb : body o v s = shift o v s row F)
    (hr : AffineRow o.ty row fun l =>
      onElems1 o.ty (fun a => F a (srcB32 v.g o.imm o.b l).toNat) (srcAt v.g o.ty o.imm o.a l))
    {R : Nat → Nat → Nat}
    (hR : ∀ l j, F (srcElem v o o.a l j) (srcB32 v.g o.imm o.b l).toNat % 2 ^ elemBits o.ty = R l j) :
    WritesElems (native i s body) v o d R := by
  refine (h.writes_nominal hd hf hb (fun hu l => ?_) hr).elems fun l j hj => (elem_onElems1 _ _ _ hj).trans (hR l j)
  rw [Bool.and_eq_true] at hu
  rw [srcAt_uniform o.imm hu.1 l, srcB32_uniform o.imm hu.2 l]

end

/-! ### Exact sums and products as words -/

section
variable {g : Group} {o : Op}

/-- At the two types of R133 the exact integer of a source is its word. -/
theorem ofInt_srcB32 (hw : isWord o.ty = true) (x : Src) (l : Nat) :
    BitVec.ofInt 32 (readInt o.ty.signed 32 ((srcAt g o.ty o.imm x l).setWidth 32 : Word).toNat) = srcB32 g o.imm x l := by
  rw [srcAt_word hw, ofInt_readInt]

theorem affineRow_iadd (satur : Bool) :
    AffineRow o.ty (if satur then none else affAdd (srcAffine g o.imm o.a) (srcAffine g o.imm o.b)) fun l =>
      onElems2 o.ty (fun a b => narrow satur o.ty.signed (elemBits o.ty)
        (readInt o.ty.signed (elemBits o.ty) a + readInt o.ty.signed (elemBits o.ty) b))
        (srcAt g o.ty o.imm o.a l) (srcAt g o.ty o.imm o.b l) := by
  cases satur with
  | true => exact affineRow_none _ _
  | false =>
    intro hw b st e l
    obtain ⟨b₁, s₁, b₂, s₂, ha, hb, rfl, rfl⟩ := affAdd_eq_some e
    simp only [onElems2_word hw, elemBits_of_isWord hw, narrow, Bool.false_eq_true, ↓reduceIte, ofNat_wrap, BitVec.ofInt_add,
      ofInt_srcB32 hw, srcB32_affine ha, srcB32_affine hb]
    ring

theorem affineRow_isub (satur : Bool) :
    AffineRow o.ty (if satur then none else affSub (srcAffine g o.imm o.a) (srcAffine g o.imm o.b)) fun l =>
      onElems2 o.ty (fun a b => narrow satur o.ty.signed (elemBits o.ty)
        (readInt o.ty.signed (elemBits o.ty) a - readInt o.ty.signed (elemBits o.ty) b))
        (srcAt g o.ty o.imm o.a l) (srcAt g o.ty o.imm o.b l) := by
  cases satur with
  | true => exact affineRow_none _ _
  | false =>
    intro hw b st e l
    obtain ⟨b₁, s₁, b₂, s₂, ha, hb, rfl, rfl⟩ := affSub_eq_some e
    simp only [onElems2_word hw, elemBits_of_isWord hw, narrow, Bool.false_eq_true, ↓reduceIte, ofNat_wrap, sub_eq_add_neg,
      BitVec.ofInt_add, BitVec.ofInt_neg, ofInt_srcB32 hw, srcB32_affine ha, srcB32_affine hb]
    ring

theorem affineRow_ineg :
    AffineRow o.ty ((srcAffine g o.imm o.a).map fun p => (-p.1, -p.2)) fun l =>
      onElems1 o.ty (fun a => wrap (elemBits o.ty) (-(a : Int))) (srcAt g o.ty o.imm o.a l) := by
  intro hw b st e l
  obtain ⟨p, hp, e⟩ := Option.map_eq_some_iff.mp e
  cases e
  simp only [onElems1_word hw, elemBits_of_isWord hw, ofNat_wrap, BitVec.ofInt_neg, BitVec.ofInt_natCast, BitVec.ofNat_toNat,
    BitVec.setWidth_eq, srcAt_word hw, srcB32_affine hp]
  ring

theorem affineRow_imul :
    AffineRow o.ty (affMul g o) fun l =>
      onElems2 o.ty (fun a b => wrap (elemBits o.ty) (readInt o.ty.signed (elemBits o.ty) a * readInt o.ty.signed (elemBits o.ty) b))
        (srcAt g o.ty o.imm o.a l) (srcAt g o.ty o.imm o.b l) := by
  intro hw b st e l
  simp only [onElems2_word hw, elemBits_of_isWord hw, ofNat_wrap, BitVec.ofInt_mul, ofInt_srcB32 hw, affMul_spec hw e]

theorem affineRow_imad (satur : Bool) :
    AffineRow o.ty (if satur then none else affAdd (affMul g o) (srcAffine g o.imm o.c)) fun l =>
      onElems3 o.ty (fun a b c => narrow satur o.ty.signed (elemBits o.ty)
        (readInt o.ty.signed (elemBits o.ty) a * readInt o.ty.signed (elemBits o.ty) b + readInt o.ty.signed (elemBits o.ty) c))
        (srcAt g o.ty o.imm o.a l) (srcAt g o.ty o.imm o.b l) (srcAt g o.ty o.imm o.c l) := by
  cases satur with
  | true => exact affineRow_none _ _
  | false =>
    intro hw b st e l
    obtain ⟨b₁, s₁, b₂, s₂, hab, hc, rfl, rfl⟩ := affAdd_eq_some e
    simp only [onElems3_word hw, elemBits_of_isWord hw, narrow, Bool.false_eq_true, ↓reduceIte, ofNat_wrap, BitVec.ofInt_add,
      BitVec.ofInt_mul, ofInt_srcB32 hw, affMul_spec hw hab, srcB32_affine hc]
    ring

/-- SHL of a word, by any count. -/
theorem ofNat_shl (x : Word) (k : Nat) : BitVec.ofNat 32 (if 32 ≤ k then 0 else x.toNat * 2 ^ k % 2 ^ 32) = x <<< k := by
  split
  · rename_i h
    rw [BitVec.shiftLeft_eq_zero h]
  · apply BitVec.eq_of_toNat_eq
    rw [BitVec.toNat_ofNat, Nat.mod_mod, BitVec.toNat_shiftLeft, Nat.shiftLeft_eq]

theorem affineRow_shl :
    AffineRow o.ty (if srcUniform g .b32 o.b then (srcAffine g o.imm o.a).map (affShl (srcB32 g o.imm o.b 0).toNat) else none)
      fun l => onElems1 o.ty (fun a => if elemBits o.ty ≤ (srcB32 g o.imm o.b l).toNat then 0
        else a * 2 ^ (srcB32 g o.imm o.b l).toNat % 2 ^ elemBits o.ty) (srcAt g o.ty o.imm o.a l) := by
  split
  · rename_i hu
    intro hw b st e l
    obtain ⟨p, hp, e⟩ := Option.map_eq_some_iff.mp e
    cases e
    simp only [onElems1_word hw, elemBits_of_isWord hw, ofNat_shl, srcAt_word hw, srcB32_affine hp, srcB32_uniform o.imm hu l,
      BitVec.shiftLeft_eq_mul_twoPow]
    ring
  · exact affineRow_none _ _

theorem affineRow_not :
    AffineRow o.ty ((srcAffine g o.imm o.a).map fun p => (~~~p.1, -p.2)) fun l => truncTo o.ty (~~~(srcAt g o.ty o.imm o.a l)) := by
  intro hw b st e l
  obtain ⟨p, hp, e⟩ := Option.map_eq_some_iff.mp e
  cases e
  have w (x : DWord) : (truncTo o.ty x).setWidth 32 = x.setWidth 32 := by
    rcases isWord_iff.mp hw with e | e <;> rw [e] <;> exact truncTo_b32_word x
  rw [w, BitVec.setWidth_not (by decide), srcAt_word hw, srcB32_affine hp, not_eq_neg_sub_one, not_eq_neg_sub_one]
  ring

end

/-! ## Arithmetic (R136, R137) -/

theorem srcElem_lt (v : View) (o : Op) (x : Src) (l j : Nat) : srcElem v o x l j < 2 ^ elemBits o.ty := elem_lt _ _ _

/-- Wrapped to its own width, the exact integer of an element is the element. -/
theorem wrap_srcInt (v : View) (o : Op) (x : Src) (l j : Nat) : wrap (elemBits o.ty) (srcInt v o x l j) = srcElem v o x l j :=
  wrap_readInt _ (srcElem_lt v o x l j)

section
variable {s : State} {o : Op} {f : Fields} {v : View} {d : Fin 128}

theorem iadd_elems {satur : Bool} (h : Clear (.iadd satur o) s o f v) (hd : o.dst = .vec d) :
    WritesElems (execIadd satur o s) v o d fun l j =>
      exactNarrow satur o.ty.signed (elemBits o.ty) (srcInt v o o.a l j + srcInt v o o.b l j) :=
  h.int2 hd (by rw [h.fields_eq rfl]; rfl) rfl (affineRow_iadd satur) fun l j => by
    rw [narrow_eq_exactNarrow, exactNarrow_mod, srcInt, srcInt]

theorem isub_elems {satur : Bool} (h : Clear (.isub satur o) s o f v) (hd : o.dst = .vec d) :
    WritesElems (execIsub satur o s) v o d fun l j =>
      exactNarrow satur o.ty.signed (elemBits o.ty) (srcInt v o o.a l j - srcInt v o o.b l j) :=
  h.int2 hd (by rw [h.fields_eq rfl]; rfl) rfl (affineRow_isub satur) fun l j => by
    rw [narrow_eq_exactNarrow, exactNarrow_mod, srcInt, srcInt]

theorem imin_elems (h : Clear (.imin o) s o f v) (hd : o.dst = .vec d) :
    WritesElems (execImin o s) v o d fun l j =>
      exactNarrow false o.ty.signed (elemBits o.ty) (min (srcInt v o o.a l j) (srcInt v o o.b l j)) := by
  refine h.int2 hd (by rw [h.fields_eq rfl]; rfl) rfl (affineRow_none _ _) fun l j => ?_
  rw [exactNarrow_false, ← srcInt, ← srcInt]
  split
  · rename_i hle
    rw [min_eq_left hle, wrap_srcInt, Nat.mod_eq_of_lt (srcElem_lt v o o.a l j)]
  · rename_i hle
    rw [min_eq_right (le_of_not_ge hle), wrap_srcInt, Nat.mod_eq_of_lt (srcElem_lt v o o.b l j)]

theorem imax_elems (h : Clear (.imax o) s o f v) (hd : o.dst = .vec d) :
    WritesElems (execImax o s) v o d fun l j =>
      exactNarrow false o.ty.signed (elemBits o.ty) (max (srcInt v o o.a l j) (srcInt v o o.b l j)) := by
  refine h.int2 hd (by rw [h.fields_eq rfl]; rfl) rfl (affineRow_none _ _) fun l j => ?_
  rw [exactNarrow_false, ← srcInt, ← srcInt]
  split
  · rename_i hle
    rw [max_eq_left hle, wrap_srcInt, Nat.mod_eq_of_lt (srcElem_lt v o o.a l j)]
  · rename_i hle
    rw [max_eq_right (le_of_not_ge hle), wrap_srcInt, Nat.mod_eq_of_lt (srcElem_lt v o o.b l j)]

/-- R135: IABS and INEG are instructions of signed types alone. -/
theorem signed_of_oneOf {t : Ty} (h : t.oneOf [.i8, .i16, .i32, .i64, .i16x2, .i8x4] = true) : t.signed = true := by
  revert h
  cases t <;> decide

theorem iabs_elems (h : Clear (.iabs o) s o f v) (hd : o.dst = .vec d) :
    WritesElems (execIabs o s) v o d fun l j => exactNarrow false o.ty.signed (elemBits o.ty) |srcInt v o o.a l j| := by
  have hs : o.ty.signed = true := by
    have e := h.ty_ok
    rw [h.fields_eq rfl] at e
    exact signed_of_oneOf e
  refine h.int1 hd (by rw [h.fields_eq rfl]; rfl) rfl (affineRow_none _ _) fun l j => ?_
  rw [exactNarrow_false, Nat.mod_eq_of_lt (wrap_lt _ _), Int.natCast_natAbs, srcInt, readInt, if_pos hs]

theorem ineg_elems (h : Clear (.ineg o) s o f v) (hd : o.dst = .vec d) :
    WritesElems (execIneg o s) v o d fun l j => exactNarrow false o.ty.signed (elemBits o.ty) (0 - srcInt v o o.a l j) := by
  refine h.int1 hd (by rw [h.fields_eq rfl]; rfl) rfl affineRow_ineg fun l j => ?_
  rw [exactNarrow_false, Nat.mod_eq_of_lt (wrap_lt _ _)]
  refine wrap_congr ?_
  rw [← zero_sub, Int.sub_emod, Int.sub_emod 0 (srcInt v o o.a l j), srcInt, readInt_emod]

/-! ## Multiplication (R138) -/

theorem imul_elems (h : Clear (.imul o) s o f v) (hd : o.dst = .vec d) :
    WritesElems (execImul o s) v o d fun l j =>
      exactNarrow false o.ty.signed (elemBits o.ty) (srcInt v o o.a l j * srcInt v o o.b l j) :=
  h.int2 hd (by rw [h.fields_eq rfl]; rfl) rfl affineRow_imul fun l j => by
    rw [exactNarrow_false, Nat.mod_eq_of_lt (wrap_lt _ _), srcInt, srcInt]

/-- The high half of a product of twice the width fits the width. -/
theorem wrap_double_div_lt (w : Nat) (x : Int) : wrap (2 * w) x / 2 ^ w < 2 ^ w := by
  rw [Nat.div_lt_iff_lt_mul (Nat.two_pow_pos w), ← Nat.pow_add, ← Nat.two_mul]
  exact wrap_lt _ _

theorem imulh_elems (h : Clear (.imulh o) s o f v) (hd : o.dst = .vec d) :
    WritesElems (execImulh o s) v o d fun l j =>
      (srcInt v o o.a l j * srcInt v o o.b l j % 2 ^ (2 * elemBits o.ty)).toNat / 2 ^ elemBits o.ty :=
  h.int2 hd (by rw [h.fields_eq rfl]; rfl) rfl (affineRow_none _ _) fun l j => by
    rw [Nat.mod_eq_of_lt (wrap_double_div_lt _ _), wrap, srcInt, srcInt]

theorem imad_elems {satur : Bool} (h : Clear (.imad satur o) s o f v) (hd : o.dst = .vec d) :
    WritesElems (execImad satur o s) v o d fun l j =>
      exactNarrow satur o.ty.signed (elemBits o.ty) (srcInt v o o.a l j * srcInt v o o.b l j + srcInt v o o.c l j) := by
  refine Writes.elems (h.writes_nominal hd (by rw [h.fields_eq rfl]; rfl) rfl (fun hu l => ?_) (affineRow_imad satur)) fun l j hj => ?_
  · rw [uni3, uni2, Bool.and_eq_true, Bool.and_eq_true] at hu
    rw [srcAt_uniform o.imm hu.1.1 l, srcAt_uniform o.imm hu.1.2 l, srcAt_uniform o.imm hu.2 l]
  · rw [elem_onElems3 _ _ _ _ _ hj, narrow_eq_exactNarrow, exactNarrow_mod]
    rfl

/-! ## Shifts (R142) -/

theorem shl_elems (h : Clear (.shl o) s o f v) (hd : o.dst = .vec d) :
    WritesElems (execShl o s) v o d fun l j => exactNarrow false false (elemBits o.ty)
      (if elemBits o.ty ≤ (srcB32 v.g o.imm o.b l).toNat then 0
        else (srcElem v o o.a l j : Int) * 2 ^ (srcB32 v.g o.imm o.b l).toNat) := by
  refine h.shift hd (by rw [h.fields_eq rfl]; rfl) rfl ?_ fun l j => ?_
  · exact affineRow_shl
  · rw [exactNarrow_false]
    split
    · exact (wrap_natCast _ 0).symm
    · rw [Nat.mod_mod, ← wrap_natCast, Nat.cast_mul, Nat.cast_pow, Nat.cast_ofNat]

theorem shr_elems (h : Clear (.shr o) s o f v) (hd : o.dst = .vec d) :
    WritesElems (execShr o s) v o d fun l j => exactNarrow false false (elemBits o.ty)
      (if elemBits o.ty ≤ (srcB32 v.g o.imm o.b l).toNat then 0
        else (srcElem v o o.a l j : Int) / 2 ^ (srcB32 v.g o.imm o.b l).toNat) := by
  refine h.shift hd (by rw [h.fields_eq rfl]; rfl) rfl (affineRow_none _ _) fun l j => ?_
  rw [exactNarrow_false]
  split
  · exact (wrap_natCast _ 0).symm
  · rw [← wrap_natCast, Int.natCast_ediv, Nat.cast_pow, Nat.cast_ofNat]

theorem toSigned_bounds {w n : Nat} (h : n < 2 ^ w) : -2 ^ w ≤ toSigned w n ∧ toSigned w n < 2 ^ w := by
  have h2 := Nat.two_pow_pos w
  have hle : 2 ^ (w - 1) ≤ 2 ^ w := Nat.pow_le_pow_right (by decide) (Nat.sub_le w 1)
  have hc : ((2 ^ w : Nat) : Int) = 2 ^ w := by norm_cast
  rw [toSigned, ← hc]
  split <;> omega

/-- Shifted right by its width or more a signed number leaves its sign in every bit. -/
theorem toSigned_div_two_pow {w n : Nat} (h : n < 2 ^ w) :
    toSigned w n / 2 ^ w = if toSigned w n < 0 then -1 else 0 := by
  obtain ⟨lo, hi⟩ := toSigned_bounds h
  split
  · rename_i hn
    rw [Int.ediv_eq_iff_of_pos (by positivity)]
    omega
  · rename_i hn
    exact Int.ediv_eq_zero_of_lt (by omega) hi

theorem sar_elems (h : Clear (.sar o) s o f v) (hd : o.dst = .vec d) :
    WritesElems (execSar o s) v o d fun l j => exactNarrow false false (elemBits o.ty)
      (if elemBits o.ty ≤ (srcB32 v.g o.imm o.b l).toNat then
        (if toSigned (elemBits o.ty) (srcElem v o o.a l j) < 0 then -1 else 0)
        else toSigned (elemBits o.ty) (srcElem v o o.a l j) / 2 ^ (srcB32 v.g o.imm o.b l).toNat) := by
  refine h.shift hd (by rw [h.fields_eq rfl]; rfl) rfl (affineRow_none _ _) fun l j => ?_
  rw [exactNarrow_false, Nat.mod_eq_of_lt (wrap_lt _ _)]
  split
  · rename_i hk
    rw [Nat.min_eq_right hk, toSigned_div_two_pow (srcElem_lt v o o.a l j)]
  · rename_i hk
    rw [Nat.min_eq_left (Nat.le_of_not_le hk)]

/-! ## Logic (R140) -/

/-- The outcome is an instruction that goes through; each bit of the type in each active lane of vd is op of the sources' bits, and
those above are the fill of R74. -/
def WritesBits (out : Host.Outcome State Fault Refusal) (v : View) (o : Op) (d : Nat) (op : Bool → Bool → Bool) : Prop :=
  ∃ t, out = .next t ∧ Advances t v ∧ ∀ l, v.act.getLsbD l = true →
    let x := laneValue t v.k o.ty d l
    (∀ k, k < o.ty.bits →
      x.getLsbD k = op ((srcAt v.g o.ty o.imm o.a l).getLsbD k) ((srcAt v.g o.ty o.imm o.b l).getLsbD k)) ∧
    (∀ k, o.ty.bits ≤ k → k < 32 → x.getLsbD k = (o.ty.signed && x.getLsbD (o.ty.bits - 1)))

theorem Writes.bits {out : Host.Outcome State Fault Refusal} {x : Nat → DWord} (h : Writes out v o.ty d x) {op : Bool → Bool → Bool}
    (hx : ∀ l k, k < o.ty.bits →
      (x l).getLsbD k = op ((srcAt v.g o.ty o.imm o.a l).getLsbD k) ((srcAt v.g o.ty o.imm o.b l).getLsbD k)) :
    WritesBits out v o d op := by
  obtain ⟨t, e, adv, val⟩ := h
  refine ⟨t, e, adv, fun l hl => ?_⟩
  simp only [val l hl]
  exact ⟨fun k hk => (getLsbD_fillLane _ hk).trans (hx l k hk), fun k hk h32 => getLsbD_fillLane_above _ hk h32⟩

/-- A bitwise operation of A and B. -/
theorem Clear.logic2 {i : Instr} {body : Op → View → State → Effect} (h : Clear i s o f v) (hd : o.dst = .vec d)
    (hf : f.dst = .vec o.ty.regs) {F : DWord → DWord → DWord} (hb : body o v s = logic2 o v s F) {op : Bool → Bool → Bool}
    (hF : ∀ a b k, k < 64 → (F a b).getLsbD k = op (a.getLsbD k) (b.getLsbD k)) :
    WritesBits (native i s body) v o d op := by
  refine (h.writes_nominal hd hf hb (fun hu l => ?_) (affineRow_none _ _)).bits fun l k hk =>
    hF _ _ k (Nat.lt_of_lt_of_le hk (bits_le_64 o.ty))
  rw [uni2, Bool.and_eq_true] at hu
  rw [srcAt_uniform o.imm hu.1 l, srcAt_uniform o.imm hu.2 l]

theorem and_bits (h : Clear (.and o) s o f v) (hd : o.dst = .vec d) : WritesBits (execAnd o s) v o d fun a b => a && b :=
  h.logic2 hd (by rw [h.fields_eq rfl]; rfl) rfl fun _ _ _ _ => BitVec.getLsbD_and

theorem or_bits (h : Clear (.or o) s o f v) (hd : o.dst = .vec d) : WritesBits (execOr o s) v o d fun a b => a || b :=
  h.logic2 hd (by rw [h.fields_eq rfl]; rfl) rfl fun _ _ _ _ => BitVec.getLsbD_or

theorem xor_bits (h : Clear (.xor o) s o f v) (hd : o.dst = .vec d) : WritesBits (execXor o s) v o d fun a b => a != b :=
  h.logic2 hd (by rw [h.fields_eq rfl]; rfl) rfl fun _ _ _ _ => BitVec.getLsbD_xor

theorem andn_bits (h : Clear (.andn o) s o f v) (hd : o.dst = .vec d) : WritesBits (execAndn o s) v o d fun a b => a && !b :=
  h.logic2 hd (by rw [h.fields_eq rfl]; rfl) rfl fun a b k hk => by
    rw [BitVec.getLsbD_and, BitVec.getLsbD_not, decide_eq_true hk, Bool.true_and]

theorem getLsbD_truncTo {t : Ty} (x : DWord) {k : Nat} (hk : k < t.bits) : (truncTo t x).getLsbD k = x.getLsbD k := by
  have h64 := Nat.lt_of_lt_of_le hk (bits_le_64 t)
  rw [truncTo, BitVec.getLsbD_ofNat, decide_eq_true h64, Bool.true_and, Nat.testBit_mod_two_pow, decide_eq_true hk, Bool.true_and,
    BitVec.getLsbD]

theorem not_bits (h : Clear (.not o) s o f v) (hd : o.dst = .vec d) : WritesBits (execNot o s) v o d fun a _ => !a := by
  refine Writes.bits (h.writes_nominal hd (by rw [h.fields_eq rfl]; rfl) rfl (fun hu l => ?_) affineRow_not) fun l k hk => ?_
  · rw [srcAt_uniform o.imm hu l]
  · rw [getLsbD_truncTo _ hk, BitVec.getLsbD_not, decide_eq_true (Nat.lt_of_lt_of_le hk (bits_le_64 o.ty)), Bool.true_and]

end

end Sys2Proof.Machine

namespace Sys2Proof.Proofs

open Sys2Proof.Machine

/-! ## The obligations -/

/-- Settles O10: R136 and R137, element by element, with the shapes of R133 that IADD, ISUB and INEG store. -/
theorem addSubMinMaxAbsNeg : Obligations.AddSubMinMaxAbsNeg := by
  intro i s o f v d satur op hi h hd
  simp only [List.mem_cons, Prod.mk.injEq, List.not_mem_nil, or_false] at hi
  rcases hi with ⟨rfl, rfl, rfl⟩ | ⟨rfl, rfl, rfl⟩ | ⟨rfl, rfl, rfl⟩ | ⟨rfl, rfl, rfl⟩ | ⟨rfl, rfl, rfl⟩ | ⟨rfl, rfl, rfl⟩ |
    ⟨rfl, rfl, rfl⟩ | ⟨rfl, rfl, rfl⟩
  · exact iadd_elems h hd
  · exact iadd_elems h hd
  · exact isub_elems h hd
  · exact isub_elems h hd
  · exact imin_elems h hd
  · exact imax_elems h hd
  · exact iabs_elems h hd
  · exact ineg_elems h hd

/-- Settles O11: R138. -/
theorem multiply : Obligations.Multiply := by
  intro i s o f v d r hi h hd
  simp only [List.mem_cons, Prod.mk.injEq, List.not_mem_nil, or_false] at hi
  rcases hi with ⟨rfl, rfl⟩ | ⟨rfl, rfl⟩ | ⟨rfl, rfl⟩ | ⟨rfl, rfl⟩
  · exact imul_elems h hd
  · exact imulh_elems h hd
  · exact imad_elems h hd
  · exact imad_elems h hd

/-- Settles O12: R142. -/
theorem shifts : Obligations.Shifts := by
  intro i s o f v d r hi h hd
  simp only [List.mem_cons, Prod.mk.injEq, List.not_mem_nil, or_false] at hi
  rcases hi with ⟨rfl, rfl⟩ | ⟨rfl, rfl⟩ | ⟨rfl, rfl⟩
  · exact shl_elems h hd
  · exact shr_elems h hd
  · exact sar_elems h hd

/-- Settles O13: R140, with the fill of R74. -/
theorem bitwiseLogic : Obligations.BitwiseLogic := by
  intro i s o f v d op hi h hd
  simp only [List.mem_cons, Prod.mk.injEq, List.not_mem_nil, or_false] at hi
  rcases hi with ⟨rfl, rfl⟩ | ⟨rfl, rfl⟩ | ⟨rfl, rfl⟩ | ⟨rfl, rfl⟩ | ⟨rfl, rfl⟩
  · exact and_bits h hd
  · exact or_bits h hd
  · exact xor_bits h hd
  · exact andn_bits h hd
  · exact not_bits h hd

end Sys2Proof.Proofs
end

section
/-! PROOFS. FloatResults.lean: float sources and the shape of a float result, the codes that one rounding of an exact sum gives, and the obligation
of spec/08_isa_float.md on FADD, FSUB, FMUL and FFMA (R158, R159, R160, R162, R163). -/

namespace Sys2Proof.Machine

/-! ## Float sources and shapes (R159, R161, R162) -/

/-- ABS and NEG act alike in every lane. -/
theorem srcFloat_uniform {g : Group} {t : Ty} {x : Src} (imm : Word) (abs : Bool) (h : srcUniform g t x = true) (l : Nat) :
    srcFloat g t imm x abs l = srcFloat g t imm x abs 0 := by
  have plain : srcAt g t imm { x with neg := false } l = srcAt g t imm { x with neg := false } 0 :=
    srcAt_uniform (x := { x with neg := false }) imm h l
  unfold srcFloat
  split
  · exact srcAt_uniform imm h l
  · rw [plain]

theorem floatNominal_fitsAt {uni : Bool} {t : Ty} {x : Nat → DWord} (hu : uni = true → ∀ l, x l = x 0) :
    (floatNominal uni).FitsAt t x := by
  cases uni with
  | true => exact hu rfl
  | false => trivial

/-- At the types of R161's sets F and FP an element is one code of the format. -/
theorem bits_fmtOf {t : Ty} (h : tyF t = true) : (fmtOf t).bits = elemBits t := by
  revert h
  cases t <;> decide

theorem regs_of_tyF {t : Ty} (h : tyF t = true) : t.regs = 1 := by
  revert h
  cases t <;> decide

/-! ## One rounding of an exact sum (R94, R97, R163) -/

theorem FloatFmt.overflow_lt (f : FloatFmt) (neg : Bool) : f.overflow neg < 2 ^ f.bits := by
  cases f <;> cases neg <;> decide

theorem FloatFmt.nan_lt (f : FloatFmt) : f.nan < 2 ^ f.bits := by cases f <;> decide

/-- The code of a finite magnitude leaves room for the sign above it. -/
theorem FloatFmt.add_sign_lt (f : FloatFmt) (neg : Bool) {c : Nat} (h : c ≤ f.maxCode) :
    c + (if neg then f.signBit else 0) < 2 ^ f.bits := by
  have top : f.maxCode + f.signBit < 2 ^ f.bits := by cases f <;> decide
  split <;> omega

/-- What a rounding writes is a code of the format. -/
theorem FloatFmt.rne_lt (f : FloatFmt) (x : FVal) : f.rne x < 2 ^ f.bits := by
  cases x with
  | nan => exact f.nan_lt
  | inf neg => exact f.overflow_lt neg
  | fin neg n d =>
    simp only [FloatFmt.rne, FloatFmt.round, FloatFmt.roundFin, Bool.false_eq_true, ↓reduceIte]
    split
    · simpa only [Nat.zero_add] using f.add_sign_lt neg (Nat.zero_le _)
    · split
      · exact f.overflow_lt neg
      · rename_i hc
        exact f.add_sign_lt neg (Nat.le_of_not_lt hc)

/-- A term is infinite when it is one of the two infinities. -/
theorem any_isInf (ts : List FVal) : ts.any FVal.isInf = (ts.contains (.inf false) || ts.contains (.inf true)) := by
  rw [Bool.eq_iff_iff, Bool.or_eq_true, List.contains_iff_mem, List.contains_iff_mem, List.any_eq_true]
  constructor
  · rintro ⟨t, ht, hi⟩
    cases t with
    | inf neg =>
      cases neg with
      | false => exact .inl ht
      | true => exact .inr ht
    | nan | fin => cases hi
  · rintro (h | h)
    · exact ⟨_, h, rfl⟩
    · exact ⟨_, h, rfl⟩

/-- The cases of R163, in their order, are one rounding of the value that the terms sum to. -/
theorem roundSum_eq_sumCode (f : FloatFmt) (ts : List FVal) : roundSum f ts = sumCode f false ts := by
  unfold roundSum sumTerms sumCode
  rw [any_isInf, List.any_beq', List.any_beq', Bool.or_false]
  split
  · rfl
  · cases ts.contains (.inf false) <;> cases ts.contains (.inf true) <;> rfl

/-- A product that does not exist makes the sum a NaN, as a NaN among the terms does. -/
theorem sumCode_bad {f : FloatFmt} {bad : Bool} {ts : List FVal} (h : bad = true → ts.any FVal.isNan = true) :
    sumCode f bad ts = sumCode f false ts := by
  cases bad with
  | false => rfl
  | true => simp only [sumCode, h rfl, Bool.true_or, ↓reduceIte]

/-- R163: infinity times zero is NaN. -/
theorem isNan_mul_of_noProduct {a b : FVal} (h : noProduct a b = true) : (a.mul b).isNan = true := by
  rw [noProduct, Bool.or_eq_true, Bool.and_eq_true, Bool.and_eq_true] at h
  rcases h with ⟨ha, hb⟩ | ⟨ha, hb⟩
  · cases a with
    | inf s =>
      cases b with
      | fin t n d => simp only [FVal.mul, if_pos (eq_of_beq hb), FVal.isNan]
      | nan | inf => cases hb
    | nan | fin => cases ha
  · cases b with
    | inf t =>
      cases a with
      | fin s n d => simp only [FVal.mul, if_pos (eq_of_beq ha), FVal.isNan]
      | nan | inf => cases ha
    | nan | fin => cases hb

/-- A sum that a product opens is a NaN where the product does not exist. -/
theorem sumCode_noProduct (f : FloatFmt) (a b : FVal) (ts : List FVal) :
    sumCode f (noProduct a b) (a.mul b :: ts) = sumCode f false (a.mul b :: ts) :=
  sumCode_bad fun h => by rw [List.any_cons, isNan_mul_of_noProduct h, Bool.true_or]

/-- The sum rounded to the format fits its element. -/
theorem roundSum_mod {t : Ty} (h : tyF t = true) (ts : List FVal) :
    roundSum (fmtOf t) ts % 2 ^ elemBits t = sumCode (fmtOf t) false ts := by
  rw [← bits_fmtOf h, ← roundSum_eq_sumCode]
  exact Nat.mod_eq_of_lt (FloatFmt.rne_lt _ _)

/-! ## Results of float arithmetic (R163) -/

section
variable {i : Instr} {s : State} {o : Op} {f : Fields} {v : View} {d : Fin 128} {abs : Abs}

/-- A float result per lane, uniform where its sources are (R159). -/
theorem Clear.writes_float (h : Clear i s o f v) (hd : o.dst = .vec d) (ht : tyF o.ty = true) (hf : f.dst = .vec 1)
    {body : Op → View → State → Effect} {uni : Bool} {x : Nat → DWord}
    (hb : body o v s = .done (writeVal s v o.ty (floatNominal uni) o.dst x)) (hu : uni = true → ∀ l, x l = x 0) :
    Writes (native i s body) v o.ty d x :=
  h.writes hd (by rw [hf, regs_of_tyF ht]) hb fun _ => floatNominal_fitsAt hu

/-- Sources A and B, element by element, into one rounding of a sum of terms. -/
theorem Clear.float2 (h : Clear i s o f v) (hd : o.dst = .vec d) (ht : tyF o.ty = true) (hf : f.dst = .vec 1)
    {body : Op → View → State → Effect} {F : FloatFmt → Nat → Nat → Nat} (hb : body o v s = float2 o v s abs F)
    {terms : FVal → FVal → List FVal} (hF : ∀ m a b, F m a b = roundSum m (terms (m.decode a) (m.decode b))) :
    WritesElems (native i s body) v o d fun l j =>
      sumCode (fmtOf o.ty) false (terms (srcReal v o o.a abs.a l j) (srcReal v o o.b abs.b l j)) := by
  refine (h.writes_float hd ht hf hb fun hu l => ?_).elems fun l j hj => ?_
  · rw [funi2, Bool.and_eq_true] at hu
    rw [srcFloat_uniform o.imm abs.a hu.1 l, srcFloat_uniform o.imm abs.b hu.2 l]
  · rw [elem_onElems2 _ _ _ _ hj, hF, roundSum_mod ht]
    rfl

theorem fadd_elems (h : Clear (.fadd abs o) s o f v) (hd : o.dst = .vec d) :
    WritesElems (execFadd abs o s) v o d fun l j =>
      sumCode (fmtOf o.ty) false [srcReal v o o.a abs.a l j, srcReal v o o.b abs.b l j] := by
  obtain rfl := h.fields_eq rfl
  exact h.float2 hd h.ty_ok rfl rfl (terms := fun a b => [a, b]) fun _ _ _ => rfl

theorem fsub_elems (h : Clear (.fsub abs o) s o f v) (hd : o.dst = .vec d) :
    WritesElems (execFsub abs o s) v o d fun l j =>
      sumCode (fmtOf o.ty) false [srcReal v o o.a abs.a l j, (srcReal v o o.b abs.b l j).neg] := by
  obtain rfl := h.fields_eq rfl
  exact h.float2 hd h.ty_ok rfl rfl (terms := fun a b => [a, b.neg]) fun _ _ _ => rfl

theorem fmul_elems (h : Clear (.fmul abs o) s o f v) (hd : o.dst = .vec d) :
    WritesElems (execFmul abs o s) v o d fun l j =>
      let a := srcReal v o o.a abs.a l j; let b := srcReal v o o.b abs.b l j
      sumCode (fmtOf o.ty) (noProduct a b) [a.mul b] := by
  obtain rfl := h.fields_eq rfl
  simp only [sumCode_noProduct]
  exact h.float2 hd h.ty_ok rfl rfl (terms := fun a b => [a.mul b]) fun _ _ _ => rfl

theorem ffma_elems (h : Clear (.ffma abs o) s o f v) (hd : o.dst = .vec d) :
    WritesElems (execFfma abs o s) v o d fun l j =>
      let a := srcReal v o o.a abs.a l j; let b := srcReal v o o.b abs.b l j
      sumCode (fmtOf o.ty) (noProduct a b) [a.mul b, srcReal v o o.c abs.c l j] := by
  obtain rfl := h.fields_eq rfl
  refine (h.writes_float hd h.ty_ok rfl rfl fun hu l => ?_).elems fun l j hj => ?_
  · rw [funi2, Bool.and_eq_true, Bool.and_eq_true] at hu
    obtain ⟨⟨ua, ub⟩, uc⟩ := hu
    rw [srcFloat_uniform o.imm abs.a ua l, srcFloat_uniform o.imm abs.b ub l, srcFloat_uniform o.imm abs.c uc l]
  · rw [elem_onElems3 _ _ _ _ _ hj, ffma, roundSum_mod h.ty_ok, sumCode_noProduct]
    rfl

end

end Sys2Proof.Machine

namespace Sys2Proof.Proofs

open Sys2Proof.Machine

/-- Settles O18: R163, with the zeros of R160, for each element of each active lane. -/
theorem floatArithmetic : Obligations.FloatArithmetic := by
  intro i s o f v d abs bad terms hi h hd
  simp only [List.mem_cons, Prod.mk.injEq, List.not_mem_nil, or_false] at hi
  rcases hi with ⟨rfl, rfl, rfl⟩ | ⟨rfl, rfl, rfl⟩ | ⟨rfl, rfl, rfl⟩ | ⟨rfl, rfl, rfl⟩
  · exact fadd_elems h hd
  · exact fsub_elems h hd
  · exact fmul_elems h hd
  · exact ffma_elems h hd

end Sys2Proof.Proofs
end

section
/-! PROOFS. LaneResults.lean: what a write leaves in its registers beside the values of the active lanes, that values of 32 and 64 bits need no
fill, and the obligation of spec/09_isa_lanes_control.md on RED and SCAN (R134, R182, R183, R184). -/

namespace Sys2Proof.Machine

/-! ## The registers of a result: their shape and the lanes that are not active (R134) -/

theorem storedVal_nominal (old : Option Reg) (nom : Nominal) (new : Nat → Word) :
    (storedVal old fullMask nom new).nominal = nom := by
  cases nom <;> rfl

theorem HoldsAt.nominal {g : Group} {n : Nat} {r : Reg} (a : HoldsAt g n r) :
    ((regOf g n).map fun x => x.val.nominal) = some r.val.nominal := by
  obtain ⟨x, hx, e⟩ := Option.map_eq_some_iff.mp a
  have hv : x.val = r.val := by simpa only [Reg.seen] using congrArg Reg.val e
  rw [hx, Option.map_some, hv]

/-- Register n of h holds what a write of the instruction with this nominal shape leaves there, over what it found in g. -/
def WrittenAt (v : View) (g h : Group) (nom : Nominal) (n : Nat) : Prop :=
  ∃ new, HoldsAt h n (writtenReg g v.named v.act nom n new)

section
variable {v : View} {g h : Group} {nom : Nominal} {n : Nat}

theorem WrittenAt.seen {h' : Group} (w : WrittenAt v g h nom n) (e : SeenAt h h' n) : WrittenAt v g h' nom n := by
  obtain ⟨new, a⟩ := w
  exact ⟨new, a.seen e⟩

/-- What was just written is not pending (R318). -/
theorem WrittenAt.pend (w : WrittenAt v g h nom n) : (regOf h n).any (·.pend) = false := by
  obtain ⟨new, a⟩ := w
  exact a.pend

/-- With all lanes active the nominal shape is the stored one. -/
theorem WrittenAt.nominal (w : WrittenAt v g h nom n) (hf : v.act = fullMask) :
    ((regOf h n).map fun r => r.val.nominal) = some nom := by
  obtain ⟨new, a⟩ := w
  rw [a.nominal, writtenReg, hf, storedVal_nominal]

/-- A lane that is not active keeps its value in a register that the instruction does not release. -/
theorem WrittenAt.readReg_inactive (w : WrittenAt v g h nom n) {l : Nat} (hl : l < 64) (ha : v.act.getLsbD l = false)
    (hn : n ∉ v.uses.lus) : readReg h n l = readReg g n l := by
  obtain ⟨new, a⟩ := w
  have partly : v.act = fullMask → nom.Fits new := by
    intro e
    rw [e, fullMask, BitVec.getLsbD_allOnes, decide_eq_true hl] at ha
    cases ha
  have held : heldReg g v.named n = regOf g n := by
    have hd : v.named.drops.contains n = false := Bool.eq_false_iff.mpr fun e => hn (List.contains_iff_mem.mp e)
    rw [heldReg, hd, Bool.false_and, if_neg Bool.false_ne_true]
  rw [a.readReg, writtenReg, held, lane_storedVal partly hl, ha, if_neg Bool.false_ne_true]
  rfl

end

theorem holdsAt_writeReg {s : State} {k : Nat} (nm : Naming) {act : Mask} {nom : Nominal} {n : Nat} {new : Nat → Word} {g : Group}
    (hg : s.group k = some g) (ha : act ≠ 0) :
    ∃ h, (writeReg s k nm act nom n new).group k = some h ∧ HoldsAt h n (writtenReg g nm act nom n new) := by
  have st := stored_put (groupsSeen_obtainFor s k nm (needOf (regOf g n) (writtenReg g nm act nom n new).val)) k n
    (writtenReg g nm act nom n new)
  obtain ⟨h, hh, -, hr, -⟩ := st.own g hg
  refine ⟨h, ?_, by rw [HoldsAt, hr, Option.map_some]⟩
  rw [← hh, writeReg, if_neg ha, hg]

theorem holdsAt_writeWide {s : State} {k : Nat} (nm : Naming) {act : Mask} {uni : Bool} {m n : Nat} {new : Nat → BitVec 128}
    {g : Group} (hg : s.group k = some g) (ha : act ≠ 0) :
    ∃ h, (writeWide s k nm act uni m n new).group k = some h ∧ ∀ i, i < m →
      HoldsAt h (n + i) (writtenReg g nm act (if uni then .uniform else .general) (n + i) fun l =>
        (new l >>> (32 * i)).setWidth 32) := by
  unfold writeWide
  simp only [ha, ↓reduceIte, hg]
  generalize hrs : (List.range m).map (fun i => writtenReg g nm act (if uni = true then Nominal.uniform else .general) (n + i)
    fun l => (new l >>> (32 * i)).setWidth 32) = rs
  generalize hx : (obtainFor s k nm (needWide g (uni && act == fullMask && decide (2 ≤ m)) m n rs)).group k = og
  have e := (groupsSeen_obtainFor s k nm (needWide g (uni && act == fullMask && decide (2 ≤ m)) m n rs)).2 k
  rw [hg, hx] at e
  cases og with
  | none => exact e.elim
  | some x =>
    rw [group_modGroup, hx]
    refine ⟨_, rfl, fun i hi => ?_⟩
    have places : (((List.range m).zip rs).map Prod.fst).Nodup := by
      rw [List.map_fst_zip (by simp [← hrs])]
      exact List.nodup_range
    have piece : (i, writtenReg g nm act (if uni = true then Nominal.uniform else .general) (n + i)
        fun l => (new l >>> (32 * i)).setWidth 32) ∈ (List.range m).zip rs := by
      rw [← hrs, List.mem_iff_getElem]
      exact ⟨i, by simpa using hi, by simp⟩
    have put := holdsAt_putRegs _ n x places piece
    split
    · split
      · exact (put.seen (seenAt_joinPair _ _ _)).seen (seenAt_joinPair _ _ _)
      · exact put.seen (seenAt_joinPair _ _ _)
    · exact put

/-- WriteDst of a uniform or general result, into each register of its destination. -/
theorem writtenAt_writeVal {s : State} {v : View} {t : Ty} {nom : Nominal} {d : Fin 128} {x : Nat → DWord} {g : Group}
    (hg : s.group v.k = some g) (ha : v.act ≠ 0) (hn : nom = .uniform ∨ nom = .general) :
    ∃ h, (writeVal s v t nom (.vec d) x).group v.k = some h ∧ ∀ i, i < t.regs → WrittenAt v g h nom (d + i) := by
  cases hw : t.wide with
  | true =>
    have same : (if nom == .uniform then Nominal.uniform else .general) = nom := by
      rcases hn with rfl | rfl <;> rfl
    obtain ⟨h, hh, wrote⟩ := holdsAt_writeWide (uni := nom == .uniform) (m := 2) (n := d) (new := fun l => (x l).setWidth 128)
      v.named hg ha
    rw [same] at wrote
    exact ⟨h, by simpa only [writeVal, hw, ↓reduceIte] using hh, fun i hi => ⟨_, wrote i (by simpa [Ty.regs, hw] using hi)⟩⟩
  | false =>
    obtain ⟨h, hh, wrote⟩ := holdsAt_writeReg v.named (nom := nom) (n := d) (new := fun l => (fillLane t (x l)).setWidth 32) hg ha
    refine ⟨h, by simpa only [writeVal, hw, Bool.false_eq_true, ↓reduceIte] using hh, fun i hi => ?_⟩
    have hi0 : i = 0 := by simpa [Ty.regs, hw] using hi
    rw [hi0]
    exact ⟨_, wrote⟩

section
variable {i : Instr} {s u : State} {o : Op} {f : Fields} {v : View} {d : Fin 128} {body : Op → View → State → Effect}
  {t : Ty} {nom : Nominal} {x : Nat → DWord}

theorem Clear.next_eq (h : Clear i s o f v) (hb : body o v s = .done (writeVal s v t nom o.dst x)) (e : native i s body = .next u) :
    u = finish i o s v (.done (writeVal s v t nom o.dst x)) := by
  rw [native_clear h body fun _ t e => (by rw [hb] at e; cases e), hb] at e
  cases e
  rfl

/-- When the instruction has issued with some lane active, its destination is as WriteDst left it. -/
theorem Clear.written (h : Clear i s o f v) (hd : o.dst = .vec d) (hf : f.dst = .vec t.regs)
    (hb : body o v s = .done (writeVal s v t nom o.dst x)) (hn : nom = .uniform ∨ nom = .general)
    (e : native i s body = .next u) (ha : v.act ≠ 0) :
    ∃ g, u.group v.k = some g ∧ ∀ j, j < t.regs → WrittenAt v v.g g nom (d + j) := by
  obtain ⟨-, hg, -, -, -, hu⟩ := h.group
  obtain ⟨g', hg', wrote⟩ := writtenAt_writeVal (t := t) (d := d) (x := x) hg ha hn
  rw [← hd] at hg'
  obtain ⟨g, hg2, seen⟩ := finish_done_seen (i := i) (o := o) (s0 := s) hg'
  rw [h.next_eq hb e]
  refine ⟨g, hg2, fun j hj => (wrote j hj).seen (seen _ (fun hm => ?_) (wrote j hj).pend)⟩
  have hw : d.val + j ∈ v.uses.writes := by
    rw [hu]
    exact List.mem_append_left _ (by rw [hf, hd]; exact mem_dstRegs hj)
  have hm := (List.mem_filter.mp hm).2
  rw [decide_eq_false ha, Bool.false_or, List.contains_iff_mem.mpr hw] at hm
  cases hm

/-- With no lane active nothing is written, and what the instruction does not release stays as it is. -/
theorem Clear.unwritten (h : Clear i s o f v) (hb : body o v s = .done (writeVal s v t nom o.dst x))
    (e : native i s body = .next u) (ha : v.act = 0) :
    ∃ g, u.group v.k = some g ∧ ∀ n, n ∉ v.uses.lus → (regOf v.g n).any (·.pend) = false → SeenAt v.g g n := by
  obtain ⟨-, hg, -, -, -, -⟩ := h.group
  have same : writeVal s v t nom o.dst x = s := by
    cases hd : o.dst with
    | vec n => simp only [writeVal, writeWide, writeReg, ha, ↓reduceIte, ite_self]
    | pred | none => rfl
  obtain ⟨g, hg2, seen⟩ := finish_done_seen (i := i) (o := o) (s0 := s) hg
  rw [h.next_eq hb e, same]
  exact ⟨g, hg2, fun n hn hp => seen n (fun hm => hn (List.mem_filter.mp hm).1) hp⟩

theorem Clear.keepsInactive (h : Clear i s o f v) (hd : o.dst = .vec d) (hf : f.dst = .vec t.regs)
    (hb : body o v s = .done (writeVal s v t nom o.dst x)) (hn : nom = .uniform ∨ nom = .general)
    (hw : v.uses.writes = dstRegs f.dst o.dst) (e : native i s body = .next u) : KeepsInactive s u v := by
  intro n l hl hal hnw hlu hp
  have before : laneReg s v.k n l = readReg v.g n l := by
    obtain ⟨-, hg, -, -, -, -⟩ := h.group
    exact laneReg_of_group hg n l
  rw [before]
  by_cases ha : v.act = 0
  · obtain ⟨g, hg, seen⟩ := h.unwritten hb e ha
    rw [laneReg_of_group hg]
    exact (seen n hlu hp).readReg l
  · obtain ⟨g, hg, wrote⟩ := h.written hd hf hb hn e ha
    rw [laneReg_of_group hg]
    rw [hw, hf, hd] at hnw
    obtain ⟨j, hj, rfl⟩ := List.mem_map.mp hnw
    exact (wrote j (List.mem_range.mp hj)).readReg_inactive hl hal hlu

theorem Clear.dst_nominal (h : Clear i s o f v) (hd : o.dst = .vec d) (hf : f.dst = .vec t.regs)
    (hb : body o v s = .done (writeVal s v t nom o.dst x)) (hn : nom = .uniform ∨ nom = .general)
    (e : native i s body = .next u) {g : Group} (hg : u.group v.k = some g) (hfull : v.act = fullMask) :
    ((regOf g d).map fun r => r.val.nominal) = some nom := by
  obtain ⟨g', hg', wrote⟩ := h.written hd hf hb hn e (by rw [hfull]; decide)
  cases hg.symm.trans hg'
  exact (wrote 0 (by unfold Ty.regs; split <;> decide)).nominal hfull

end

/-! ## Values that fill their lanes (R74, R182) -/

/-- A value lies within the width of its type. -/
abbrev FitsTy (t : Ty) (x : DWord) : Prop := x.toNat < 2 ^ t.bits

theorem fitsTy_truncTo (t : Ty) (x : DWord) : FitsTy t (truncTo t x) := by
  rw [FitsTy, truncTo, BitVec.toNat_ofNat]
  exact Nat.lt_of_le_of_lt (Nat.mod_le _ _) (Nat.mod_lt _ (Nat.two_pow_pos _))

theorem fitsTy_predValue (t : Ty) (b : Bool) : FitsTy t (predValue t b) := by
  cases b with
  | false => exact Nat.two_pow_pos _
  | true => cases t <;> decide

/-- A source reads within its type (R85). -/
theorem fitsTy_srcAt (g : Group) (t : Ty) (imm : Word) (x : Src) (l : Nat) : FitsTy t (srcAt g t imm x l) := by
  unfold srcAt
  split
  · exact fitsTy_predValue _ _
  all_goals exact fitsTy_truncTo _ _

theorem fitsTy_ofNat {t : Ty} {n : Nat} (h : n < 2 ^ t.bits) : FitsTy t (BitVec.ofNat 64 n) := by
  rw [FitsTy, BitVec.toNat_ofNat]
  exact Nat.lt_of_le_of_lt (Nat.mod_le _ _) h

/-- A value of one or two whole registers leaves nothing to fill. -/
theorem fillLane_of_fits {t : Ty} (ht : 32 ≤ t.bits) {x : DWord} (h : FitsTy t x) : fillLane t x = x := by
  have low (h : x.toNat < 2 ^ 32) : (x.extractLsb' 0 32).setWidth 64 = x := by
    apply BitVec.eq_of_toNat_eq
    rw [BitVec.toNat_setWidth, BitVec.extractLsb'_toNat, Nat.shiftRight_zero, Nat.mod_eq_of_lt h, Nat.mod_eq_of_lt x.isLt]
  cases t with
  | b64 | i64 => rfl
  | b8 | i8 | e4m3 | e5m2 | b16 | i16 | f16 | bf16 => exact absurd ht (by decide)
  | _ => exact low h

/-- R182 lists types of 32 and 64 bits alone. -/
theorem RedOp.bits_of_types {op : RedOp} {t : Ty} (h : op.types.contains t = true) : 32 ≤ t.bits := by
  revert h
  cases op <;> cases t <;> decide

/-- The float operations of R182 are of f32. -/
theorem eq_f32_of_contains {t : Ty} (h : [Ty.f32].contains t = true) : t = .f32 := by simpa using h

theorem fadd_lt (f : FloatFmt) (a b : Nat) : fadd f a b < 2 ^ f.bits := FloatFmt.rne_lt _ _

/-- A minimum or maximum is one of its operands, or the canonical NaN (R164). -/
theorem fminmax_lt {max nan : Bool} {f : FloatFmt} {a b : Nat} (ha : a < 2 ^ f.bits) (hb : b < 2 ^ f.bits) :
    fminmax max nan f a b < 2 ^ f.bits := by
  have := f.nan_lt
  unfold fminmax
  simp only
  split_ifs <;> assumption

section
variable {op : RedOp} {t : Ty} (ht : op.types.contains t = true)
include ht

/-- An operation of R182 stays within the type. -/
theorem fitsTy_redOp {a b : DWord} (ha : FitsTy t a) (hb : FitsTy t b) : FitsTy t (redOp op t a b) := by
  cases op with
  | add => exact fitsTy_ofNat (Nat.mod_lt _ (Nat.two_pow_pos _))
  | min | max =>
    simp only [redOp]
    split <;> assumption
  | and => exact Nat.lt_of_le_of_lt (by rw [redOp, BitVec.toNat_and]; exact Nat.and_le_left) ha
  | or =>
    simp only [FitsTy, redOp, BitVec.toNat_or]
    exact Nat.or_lt_two_pow ha hb
  | xor =>
    simp only [FitsTy, redOp, BitVec.toNat_xor]
    exact Nat.xor_lt_two_pow ha hb
  | fadd =>
    cases eq_f32_of_contains ht
    exact fitsTy_ofNat (fadd_lt .f32 _ _)
  | fmin | fmax =>
    cases eq_f32_of_contains ht
    exact fitsTy_ofNat (fminmax_lt (f := .f32) ha hb)

/-- So does the identity. -/
theorem fitsTy_redIdentity : FitsTy t (redIdentity op t) := by
  cases op with
  | add | or | xor => exact Nat.two_pow_pos _
  | min | max => exact fitsTy_ofNat (wrap_lt _ _)
  | and => exact fitsTy_ofNat (Nat.sub_lt (Nat.two_pow_pos _) Nat.one_pos)
  | fadd | fmin | fmax =>
    cases eq_f32_of_contains ht
    decide

end

/-! ## The tree of RED (R183) -/

/-- One level combines the entries 2k and 2k + 1. -/
theorem redLevel_map (op : DWord → DWord → DWord) (x : Nat → DWord) (n : Nat) :
    redLevel op ((List.range (2 * n)).map x) = (List.range n).map fun k => op (x (2 * k)) (x (2 * k + 1)) := by
  induction n generalizing x with
  | zero => rfl
  | succ n ih =>
    have pair : (List.range (2 * (n + 1))).map x = x 0 :: x 1 :: (List.range (2 * n)).map fun k => x (k + 2) := by
      simp [Nat.mul_succ, List.range_succ_eq_map, Function.comp_def]
    have step : (List.range (n + 1)).map (fun k => op (x (2 * k)) (x (2 * k + 1))) =
        op (x 0) (x 1) :: (List.range n).map fun k => op (x (2 * k + 2)) (x (2 * k + 1 + 2)) := by
      simp [List.range_succ_eq_map, Function.comp_def, Nat.mul_succ, Nat.add_right_comm]
    rw [pair, redLevel, ih, step]

theorem redLevel_treeLevel (op : DWord → DWord → DWord) (x : Nat → DWord) (n m : Nat) :
    redLevel op ((List.range (2 * n)).map (treeLevel op x m)) = (List.range n).map (treeLevel op x (m + 1)) :=
  redLevel_map op (treeLevel op x m) n

/-- Six levels leave one entry out of 64. -/
theorem redTree_eq_treeLevel (op : DWord → DWord → DWord) (x : Nat → DWord) :
    redTree op ((List.range 64).map x) = treeLevel op x 6 0 := by
  have h1 : redLevel op ((List.range 64).map x) = (List.range 32).map (treeLevel op x 1) := redLevel_treeLevel op x 32 0
  have h2 := redLevel_treeLevel op x 16 1
  have h3 := redLevel_treeLevel op x 8 2
  have h4 := redLevel_treeLevel op x 4 3
  have h5 := redLevel_treeLevel op x 2 4
  have h6 := redLevel_treeLevel op x 1 5
  simp only [Nat.reduceMul] at h2 h3 h4 h5 h6
  simp only [redTree, h1, h2, h3, h4, h5, h6]
  rfl

theorem fitsTy_treeLevel {t : Ty} {op : DWord → DWord → DWord} {x : Nat → DWord}
    (hop : ∀ a b, FitsTy t a → FitsTy t b → FitsTy t (op a b)) (hx : ∀ k, FitsTy t (x k)) (n k : Nat) :
    FitsTy t (treeLevel op x n k) := by
  induction n generalizing k with
  | zero => exact hx k
  | succ n ih => exact hop _ _ (ih _) (ih _)

/-! ## The fold of SCAN (R184) -/

/-- From lane k on, the fold gives each lane what stands before it, or what stands after it. -/
theorem scanFold_getElem? (op : DWord → DWord → DWord) (excl : Bool) (e : DWord) (x : Nat → DWord) (k : Nat) {n l : Nat} (h : l < n) :
    (scanFold op excl (foldBefore op e x k) ((List.range' k n).map x))[l]? =
      some (foldBefore op e x (if excl then k + l else k + l + 1)) := by
  induction n generalizing k l with
  | zero => omega
  | succ n ih =>
    rw [List.range'_succ, List.map_cons, scanFold]
    cases l with
    | zero => cases excl <;> rfl
    | succ l =>
      rw [List.getElem?_cons_succ]
      have next := ih (k + 1) (l := l) (by omega)
      rw [Nat.add_right_comm k 1 l, Nat.add_assoc k l 1] at next
      exact next

theorem fitsTy_foldBefore {t : Ty} {op : DWord → DWord → DWord} {e : DWord} {x : Nat → DWord}
    (hop : ∀ a b, FitsTy t a → FitsTy t b → FitsTy t (op a b)) (he : FitsTy t e) (hx : ∀ k, FitsTy t (x k)) (n : Nat) :
    FitsTy t (foldBefore op e x n) := by
  induction n with
  | zero => exact he
  | succ n ih => exact hop _ _ ih (hx n)

/-! ## Results of RED and SCAN -/

/-- What lane l contributes (R183, R184). -/
def laneInput (op : RedOp) (o : Op) (v : View) (l : Nat) : DWord :=
  if v.act.getLsbD l then srcAt v.g o.ty o.imm o.a l else redIdentity op o.ty

theorem redInputs_eq_map (op : RedOp) (o : Op) (v : View) : redInputs op o v = (List.range 64).map (laneInput op o v) := rfl

theorem fitsTy_laneInput {op : RedOp} {o : Op} (ht : op.types.contains o.ty = true) (v : View) (l : Nat) :
    FitsTy o.ty (laneInput op o v l) := by
  unfold laneInput
  split
  · exact fitsTy_srcAt _ _ _ _ _
  · exact fitsTy_redIdentity ht

section
variable {op : RedOp} {excl : Bool} {s : State} {o : Op} {f : Fields} {v : View} {d : Fin 128}

/-- The value that RED gives every active lane. -/
def redValue (op : RedOp) (o : Op) (v : View) : DWord := treeLevel (redOp op o.ty) (laneInput op o v) 6 0

/-- The value that SCAN gives lane l. -/
def scanValue (op : RedOp) (excl : Bool) (o : Op) (v : View) (l : Nat) : DWord :=
  foldBefore (redOp op o.ty) (redIdentity op o.ty) (laneInput op o v) (if excl then l else l + 1)

theorem fillLane_redValue (ht : op.types.contains o.ty = true) : fillLane o.ty (redValue op o v) = redValue op o v :=
  fillLane_of_fits (RedOp.bits_of_types ht) (fitsTy_treeLevel (fun _ _ => fitsTy_redOp ht) (fitsTy_laneInput ht v) 6 0)

theorem fillLane_scanValue (ht : op.types.contains o.ty = true) (l : Nat) :
    fillLane o.ty (scanValue op excl o v l) = scanValue op excl o v l :=
  fillLane_of_fits (RedOp.bits_of_types ht)
    (fitsTy_foldBefore (fun _ _ => fitsTy_redOp ht) (fitsTy_redIdentity ht) (fitsTy_laneInput ht v) _)

/-- R183: the tree's value in every active lane, its nominal shape uniform. -/
theorem red_result (h : Clear (.red op o) s o f v) (hd : o.dst = .vec d) :
    ∃ t g, execRed op o s = .next t ∧ Advances t v ∧ t.group v.k = some g ∧
      (∀ l, v.act.getLsbD l = true → laneValue t v.k o.ty d l = redValue op o v) ∧
      (v.act = fullMask → ((regOf g d).map fun r => r.val.nominal) = some .uniform) := by
  obtain rfl := h.fields_eq rfl
  have writes : Writes (execRed op o s) v o.ty d fun _ => redTree (redOp op o.ty) (redInputs op o v) :=
    h.writes hd rfl rfl fun _ _ => rfl
  obtain ⟨t, e, adv, val⟩ := writes
  obtain ⟨g, hg, -⟩ := adv.2
  refine ⟨t, g, e, adv, hg, fun l hl => ?_, h.dst_nominal hd rfl rfl (.inl rfl) e hg⟩
  rw [val l hl, redInputs_eq_map, redTree_eq_treeLevel]
  exact fillLane_redValue h.ty_ok

/-- R184: the fold's value in each active lane, its nominal shape general; the other lanes keep theirs. -/
theorem scan_result (h : Clear (.scan op excl o) s o f v) (hd : o.dst = .vec d) :
    ∃ t g, execScan op excl o s = .next t ∧ Advances t v ∧ t.group v.k = some g ∧
      (∀ l, v.act.getLsbD l = true → laneValue t v.k o.ty d l = scanValue op excl o v l) ∧
      (v.act = fullMask → ((regOf g d).map fun r => r.val.nominal) = some .general) ∧ KeepsInactive s t v := by
  obtain rfl := h.fields_eq rfl
  have writes : Writes (execScan op excl o s) v o.ty d fun l =>
      ((scanFold (redOp op o.ty) excl (redIdentity op o.ty) (redInputs op o v))[l]?).getD 0 :=
    h.writes hd rfl rfl fun _ => trivial
  obtain ⟨t, e, adv, val⟩ := writes
  obtain ⟨g, hg, -⟩ := adv.2
  have uses : v.uses.writes = dstRegs (.vec o.ty.regs) o.dst := by
    obtain ⟨-, -, -, -, -, hu⟩ := h.group
    rw [hu]
    exact List.append_nil _
  refine ⟨t, g, e, adv, hg, fun l hl => ?_, h.dst_nominal hd rfl rfl (.inr rfl) e hg, h.keepsInactive hd rfl rfl (.inr rfl) uses e⟩
  have fold := scanFold_getElem? (redOp op o.ty) excl (redIdentity op o.ty) (laneInput op o v) 0 (BitVec.lt_of_getLsbD hl)
  rw [foldBefore, ← List.range_eq_range', ← redInputs_eq_map, Nat.zero_add] at fold
  simp only [val l hl, fold, Option.getD_some]
  exact fillLane_scanValue h.ty_ok l

end

end Sys2Proof.Machine

namespace Sys2Proof.Proofs

open Sys2Proof.Machine

/-- Settles O23: R183 by the six levels of the tree, R184 by the fold from lane 0. -/
theorem reduceAndScan : Obligations.ReduceAndScan := by
  intro op s o f v d hd
  exact ⟨fun h => red_result h hd, fun _ h => scan_result h hd⟩

end Sys2Proof.Proofs
end
